-- ==== Sys2Proof/Word.lean ====
section
/-! DEFINITION. Words and the index types of the DG24's tables (00_scope.md, Capacities). -/

namespace Sys2Proof

/-- A byte of shared RAM or of a CAN frame. -/
abbrev Byte := BitVec 8
/-- A 16-bit field (R208). -/
abbrev Half := BitVec 16
/-- A register, an address of shared RAM or a value of the millisecond count (R1, R191). -/
abbrev Word := BitVec 32

/-- Tester slots 0 to 15 (R5). -/
abbrev Slot := Fin 16
/-- ECU entries 0 to 31 (R16). -/
abbrev EcuIx := Fin 32
/-- Grants 0 to 63 (R40). -/
abbrev GrantIx := Fin 64
/-- Outstanding entries 0 to 39 (R101). -/
abbrev EntryIx := Fin 40
/-- Conditions 0 to 5 (R24). -/
abbrev CondIx := Fin 6
/-- Job contexts 0 to 3 (R157). -/
abbrev JobIx := Fin 4
/-- Probes 0 to 3 (R175). -/
abbrev ProbeIx := Fin 4
/-- The vehicle-side ports VB0, VB1, VB2 (R139). -/
abbrev VbIx := Fin 3
/-- Reassembly contexts of one port (R145). -/
abbrev CtxIx := Fin 8
/-- Accounts of the message store (R60). -/
abbrev AccountIx := Fin 51

end Sys2Proof
end

