-- ==== Sys2Proof/Syntax.lean ====
section
/-! DEFINITION. The commands of the DG24: one constructor for each row of spec/opcode_table.json. -/

namespace Sys2Proof

/-- One of the four CAN ports (R139). -/
inductive PortId where
  | tb
  | vb (n : VbIx)
  deriving DecidableEq, Repr

/-- A CAN frame with an extended identifier (R140, R216). -/
structure Frame where
  id   : BitVec 29
  data : List Byte
  deriving DecidableEq, Repr

/-- The four direct condition lines (R24). -/
inductive CondLine where
  | ign | park | supply | wshop
  deriving DecidableEq, Repr

/-- The registers of which a write is ignored, or taken in OFF only (R191). -/
inductive HostReg where
  | ident | state | news | xbase
  deriving DecidableEq, Repr

/-- The host's stores to shared RAM made since its last register access, in order (log 2). -/
abbrev Stores := List Host.Cell

/-- Which unsent frame of a port is withdrawn (R142): the one on the bus, one of the due CREDIT and ABORT frames, or
one of the transmitter's due frames. -/
inductive FramePick where
  | onBus
  | control (i : Nat)
  | transmitter (i : Nat)
  deriving DecidableEq, Repr

/-- How far the part had got with the order board (R199, R200). -/
inductive BoardStage where
  /-- it reads or writes a state word -/
  | stateWord
  /-- it reads the order at the look, whose state word reads TAKEN -/
  | order
  /-- it writes the result of the order at the look, TAKEN and carried out -/
  | result
  deriving DecidableEq, Repr

/-- The shared-RAM access that met a memory error (R198, R161, R166, R206, R195; log 21). -/
inductive RamAccess where
  /-- a read of STARTING -/
  | starting
  /-- the order board -/
  | orderBoard (g : BoardStage)
  /-- the counter block, after so many bytes were written -/
  | counterBlock (written : Nat)
  /-- a relay inbound or outbound page; `taken` says that it is the inbound page just written TAKEN -/
  | relayPage (taken : Bool)
  /-- a capture page -/
  | capturePage
  /-- a job's read of a step -/
  | jobStep (j : JobIx)
  /-- a job's read of a SEND step's data -/
  | jobData (j : JobIx)
  /-- a job's next write of a result buffer -/
  | jobResult (j : JobIx)
  /-- the READ_TABLES area, after so many bytes were written -/
  | tablesArea (written : Nat)
  deriving DecidableEq, Repr

/-- The commands. Where a command carries `dt`, it is the milliseconds that pass before it (log 4). -/
inductive Instr where
  -- resets, registers, controller states (11_exchange_area_and_controller_states.md)
  | hardwareReset
  | enable (w : Word) (st : Stores)
  | softReset (w : Word) (st : Stores)
  | irqEnable (w : Word) (st : Stores)
  | registerWrite (r : HostReg) (w : Word) (st : Stores)
  | attention (w : Word) (st : Stores)
  | newsRead (st : Stores)
  -- condition monitor (02_vehicle_conditions.md)
  | rawChange (l : CondLine) (level : Bool)
  | rotEdge
  | windowEnd (dt : Nat)
  | riseTimerExpiry (c : CondIx) (dt : Nat)
  | fallTimerExpiry (c : CondIx) (dt : Nat)
  -- scan and controller states
  | scan (dt : Nat)
  | startingComplete
  | enterOff
  | memoryError (a : RamAccess) (again : Bool)
  -- frames received (08_bus_ports_and_segmentation.md)
  | singleFrame (p : PortId) (f : Frame)
  | openFrame (p : PortId) (f : Frame)
  | nextFrame (p : PortId) (f : Frame)
  | grantFrame (p : PortId) (f : Frame)
  | stallFrame (p : PortId) (f : Frame)
  | doneFrame (p : PortId) (f : Frame)
  | abortFrame (p : PortId) (f : Frame)
  -- frames sent and port timers
  | frameSent (p : PortId)
  | frameWithdrawn (p : PortId) (k : FramePick) (dt : Nat)
  | creditWaitTimeout (p : PortId) (dt : Nat)
  | doneWaitTimeout (p : PortId) (dt : Nat)
  | gapTimerExpiry (p : PortId) (c : CtxIx) (dt : Nat)
  | stallTimerExpiry (p : PortId) (c : CtxIx) (dt : Nat)
  | vbTransmitStart (v : VbIx)
  | tbTransmitStart
  -- relay channel
  | relayWrite
  | relayRecord
  -- admission (05_admission.md)
  | visit
  | evaluationAgain
  | holdDeadline (k : Slot) (dt : Nat)
  -- outstanding requests (06_outstanding_requests_and_responses.md)
  | responseDeadline (e : EntryIx) (dt : Nat)
  | deliveringOffer
  -- claims (07_claims_and_closing.md), grants (03_grants.md), page flushes
  | holdOffExpiry (e : EcuIx) (dt : Nat)
  | closeDeadline (e : EcuIx) (dt : Nat)
  | grantExpiry (g : GrantIx) (dt : Nat)
  | captureFlushDeadline (dt : Nat)
  | relayFlushDeadline (dt : Nat)
  -- jobs (09_jobs.md)
  | jobSend (j : JobIx)
  | jobRepeat (j : JobIx)
  | jobWaitTime (j : JobIx)
  | jobWaitCondition (j : JobIx)
  | jobSync (j : JobIx)
  | jobEnd (j : JobIx)
  | jobTimeExpiry (j : JobIx) (dt : Nat)
  | conditionWaitExpiry (j : JobIx) (dt : Nat)
  -- orders, taken from the order board (R199, R200, R210)
  | setTester
  | detachTester
  | setEcu
  | installGrant
  | revokeGrant
  | suspendGrant
  | resumeGrant
  | renewGrant
  | setStandstill
  | setConditionTimes
  | releaseClaim
  | setAccounts
  | setProbe
  | setSampler
  | startJob
  | abortJob
  | readCounters
  | readTables
  | setNewsMask
  | unknownOrderCode
  -- failures
  | startingCheckFails
  | badStep (j : JobIx)
  deriving DecidableEq, Repr

end Sys2Proof
end

