-- ==== Sys2Proof/Decode.lean ====
section
/-! DEFINITION. Commands that a word spells. spec/opcode_table.json gives no row any bits (its rows are events and
orders, not words), so no word spells a command (log 24). -/

namespace Sys2Proof

/-- The command a table word spells: none, since no row of the table gives bits. -/
def decodeTableWord (nbits w : Nat) : Option Instr :=
  match nbits, w with
  | _, _ => none

end Sys2Proof
end

