-- ==== Sys2Proof/Machine/State.lean ====
section
/-! DEFINITION. The state of the DG24 as plain data: what the host has laid down and the clock (`Tables`), the traffic
(`Flow`), and the machine that holds both (`State`), with its values after hardware reset. -/

namespace Sys2Proof.Machine

/-! ### Values shared by many blocks -/

/-- A duration: a timebase code and a count of 0 to 4,095 (00_scope.md, Time; R208). -/
structure Duration where
  code  : BitVec 3
  count : BitVec 12
  deriving DecidableEq, Repr

/-- Controller states (R194). -/
inductive CtlState where
  | off | starting | running | stopping | faulted
  deriving DecidableEq, Repr

/-- Fault codes of the STATE register (R194, R207). -/
inductive FaultCode where
  | noFault | badSignature | missingLeaf | badLeaf | badSettings | memoryError
  deriving DecidableEq, Repr

/-- Order results (R3), in the order of R210. -/
inductive OrderResult where
  | ok | badOrder | badParam | noEntry | inUse | busy | state | memoryError
  deriving DecidableEq, Repr

/-- Refusal reasons (R2). -/
inductive Reason where
  | noEcu | noGrant | suspended | condition | claimed | closing | heldTooLong | timeout | overflow | stopping
  | malformed | barred | noRoom | undelivered
  deriving DecidableEq, Repr

/-- Service classes (R21). -/
inductive ServiceClass where
  | read | maintain | session | adjust | program | barred
  deriving DecidableEq, Repr

/-- Grades (R21). -/
inductive Grade where
  | routine | heavy
  deriving DecidableEq, Repr

/-- Directions of capture (R175). -/
inductive Direction where
  | request | response | refusal
  deriving DecidableEq, Repr

/-- A set of conditions: bit n for condition n (R24, R208). -/
abbrev CondSet := BitVec 6
/-- A set of classes: bit n for class n of READ, MAINTAIN, SESSION, ADJUST, PROGRAM, BARRED (R208). -/
abbrev ClassSet := BitVec 6
/-- A set of ECU entries (R208). -/
abbrev EcuSet := BitVec 32
/-- A set of slots (R208). -/
abbrev SlotSet := BitVec 16
/-- A set of directions (R208). -/
abbrev DirSet := BitVec 3
/-- The eleven news flags, one bit each, as in the NEWS register (R193, R207). -/
abbrev NewsFlags := BitVec 11

/-! ### Tester table (R5) and ECU table (R16) -/

inductive TesterKind where
  | bus | relay | job
  deriving DecidableEq, Repr

inductive TesterMode where
  | hold | refuse
  deriving DecidableEq, Repr

/-- The fields of a tester slot (R5). -/
structure Tester where
  attached  : Bool
  kind      : TesterKind
  tbAddr    : Byte
  relayId   : Byte
  jobCtx    : Byte
  vehicle   : Byte
  mode      : TesterMode
  weight    : Nat
  limit     : Nat
  holdLimit : Duration
  deriving DecidableEq, Repr

/-- The fields of an ECU entry (R16). -/
structure Ecu where
  valid         : Bool
  port          : VbIx
  node          : Byte
  respTimeout   : Duration
  longTimeout   : Duration
  interimMarker : Option Byte
  interimLimit  : Nat
  interimFwd    : Bool
  negMarker     : Option Byte
  closeMsg      : List Byte
  holdOff       : Duration
  deriving DecidableEq, Repr

/-! ### Condition monitor (R25, R29) -/

/-- Qualification states (R25). -/
inductive Qual where
  | isFalse | rising | isTrue | falling
  deriving DecidableEq, Repr

structure Condition where
  raw      : Bool
  qual     : Qual
  rise     : Duration
  fall     : Duration
  deadline : Option Word
  deriving DecidableEq, Repr

/-- The rotation monitor (R29). -/
structure Rotation where
  window    : Duration
  threshold : Nat
  running   : Nat
  last      : Nat
  completed : Bool
  deadline  : Option Word
  deriving DecidableEq, Repr

/-- Levels of the four direct condition lines (R24). -/
structure Lines where
  ign    : Bool
  park   : Bool
  supply : Bool
  wshop  : Bool
  deriving DecidableEq, Repr

/-! ### Grant table (R40) -/

inductive GrantState where
  | free | active | suspended | spent | expired
  deriving DecidableEq, Repr

/-- Claim levels of a grant (R40). -/
inductive GrantLevel where
  | noClaim | adjust | program
  deriving DecidableEq, Repr

/-- The remaining lifetime: none, a running deadline (ACTIVE, SUSPENDED), or a held figure in milliseconds (R40). -/
inductive Life where
  | unlimited
  | running (deadline : Word)
  | held (ms : Nat)
  deriving DecidableEq, Repr

structure Grant where
  state    : GrantState
  slot     : Slot
  ecus     : EcuSet
  classes  : ClassSet
  conds    : CondSet
  level    : GrantLevel
  lifetime : Duration
  life     : Life
  budget   : Nat
  left     : Option Nat
  deriving DecidableEq, Repr

/-! ### Port settings (R139), capture settings (R175, R178), directory (R195) -/

structure PortSettings where
  node          : Byte
  kind          : Byte
  priority      : BitVec 3
  window        : Nat
  creditWait    : Duration
  gap           : Duration
  doneWait      : Duration
  stallInterval : Duration
  stallLimit    : Nat
  spacing       : Duration
  deriving DecidableEq, Repr

structure Probe where
  enabled : Bool
  dirs    : DirSet
  slots   : SlotSet
  ecus    : EcuSet
  classes : ClassSet
  binding : Bool
  limit   : Nat
  deriving DecidableEq, Repr

structure Sampler where
  enabled : Bool
  rate    : Nat
  classes : ClassSet
  deriving DecidableEq, Repr

/-- A page ring: the address of its leaf, its page count and its page size (R201, R209). -/
structure Ring where
  leaf  : Nat
  pages : Nat
  size  : Nat
  deriving DecidableEq, Repr

/-- The step pool: the address of its leaf and its number of steps (R209). -/
structure Pool where
  leaf  : Nat
  steps : Nat
  deriving DecidableEq, Repr

/-- The loaded directory: what STARTING keeps of it (R191, R195). -/
structure Directory where
  base     : Nat
  entries  : Nat
  settings : Nat
  board    : Nat
  slots    : Nat
  relayIn  : Option Ring
  relayOut : Option Ring
  capture  : Option Ring
  pool     : Option Pool
  counters : Option Nat
  deriving DecidableEq, Repr

/-! ### Message store (R58, R60, R67) -/

/-- A charge record with the slot, grade and number of cells it names its accounts by (R58, R64). The four counts are
those of the slot-grade reserve, the slot reserve, the grade shared and the common shared account (R62). -/
structure Charge where
  slot        : Slot
  grade       : Grade
  cells       : Nat
  slotGrade   : Nat
  slotReserve : Nat
  gradeShared : Nat
  common      : Nat
  deriving DecidableEq, Repr

/-- A message record (R58, R22). A malformed message keeps its declared length and its service code, no payload. -/
structure Message where
  charge    : Charge
  length    : Nat
  malformed : Bool
  code      : Byte
  payload   : List Byte
  deriving DecidableEq, Repr

/-- A message in an inbound queue, with its target address (R77). -/
structure InMsg where
  target : Byte
  msg    : Message
  deriving DecidableEq, Repr

/-- Claimants of cells (R67). -/
inductive Claimant where
  | tbCtx (c : CtxIx)
  | vbCtx (v : VbIx) (c : CtxIx)
  | relay
  | job (j : JobIx)
  deriving DecidableEq, Repr

/-- An entry of the store's waiting list (R67). -/
structure Waiter where
  who   : Claimant
  slot  : Slot
  grade : Grade
  cells : Nat
  since : Word
  deriving DecidableEq, Repr

/-! ### Admission engine and delivery queues (R80, R92, R114) -/

/-- Hold reasons (R92). -/
inductive HoldReason where
  | condition | suspended | claimed | closing | pair | outstanding | capture | portQueue
  deriving DecidableEq, Repr

/-- The held-head record (R92). -/
structure Held where
  reason    : HoldReason
  ecu       : Option EcuIx
  firstHold : Word
  deadline  : Option Word
  passed    : Bool
  deriving DecidableEq, Repr

/-- What an item of a delivery queue carries (R114). -/
inductive ItemBody where
  | response (m : Message)
  | refusal (bytes : List Byte)
  | interim (bytes : List Byte)
  deriving DecidableEq, Repr

/-- An item of a delivery queue: its body, source address, ECU index where one was found, and placement order (R114). -/
structure Item where
  body   : ItemBody
  source : Byte
  ecu    : Option EcuIx
  order  : Nat
  deriving DecidableEq, Repr

/-- The traffic of one tester slot: round allowance (R80), inbound queue (R77), TB contexts waiting for a place (R79),
held-head record (R92), delivery queue (R114) and counters (R99, R118). -/
structure SlotFlow where
  allowance     : Nat
  inbound       : List InMsg
  placeWait     : List CtxIx
  held          : Option Held
  items         : List Item
  admitted      : Word
  refused       : Word
  heldTooLong   : Word
  deliveryFails : Word
  deriving DecidableEq, Repr

/-! ### Outstanding table (R101) -/

/-- The stage an orphaned request has reached (R101). -/
inductive OrphanPhase where
  | sending | awaiting | receiving
  deriving DecidableEq, Repr

inductive EntryState where
  | sending | awaiting | receiving | delivering
  | orphaned (phase : OrphanPhase)
  deriving DecidableEq, Repr

/-- What the probes decided for a record when it was offered: the governing probe's number and the content the record may
carry (R177). -/
structure ProbeTerms where
  number : ProbeIx
  limit  : Nat
  deriving DecidableEq, Repr

/-- The held item of an entry in DELIVERING (R101): a response, or a refusal with its reason and the terms of its record,
which is binding and stays under the probes of its offer (R177). -/
inductive HeldItem where
  | response (m : Message)
  | refusal (r : Reason) (terms : ProbeTerms)
  deriving DecidableEq, Repr

structure Entry where
  slot     : Slot
  ecu      : EcuIx
  code     : Byte
  cls      : ServiceClass
  grant    : GrantIx
  binding  : Bool
  state    : EntryState
  deadline : Option Word
  interims : Nat
  held     : Option HeldItem
  deriving DecidableEq, Repr

/-- The five counters of an ECU entry (R118). -/
structure EcuCounts where
  forwarded    : Word
  responses    : Word
  timeouts     : Word
  strays       : Word
  sendFailures : Word
  deriving DecidableEq, Repr

/-! ### Claim unit (R121) -/

inductive ClaimState where
  | free | held | halted | closing
  deriving DecidableEq, Repr

inductive ClaimLevel where
  | adjust | program
  deriving DecidableEq, Repr

inductive ReleaseCause where
  | holdOff | order | detach | jobEnd | support | stopping
  deriving DecidableEq, Repr

inductive ClosingPhase where
  | waitEntry | waitBuffer | sending | awaiting
  deriving DecidableEq, Repr

inductive CloseOutcome where
  | noOutcome | empty | answered | noAnswer | undelivered
  deriving DecidableEq, Repr

structure Claim where
  state         : ClaimState
  holder        : Slot
  level         : ClaimLevel
  guard         : CondSet
  holdOff       : Option Word
  cause         : Option ReleaseCause
  phase         : Option ClosingPhase
  closeDeadline : Option Word
  outcome       : CloseOutcome
  answer        : Option Byte
  deriving DecidableEq, Repr

/-- A RELEASE_CLAIM order that stays TAKEN until the closing of its ECU ends (R135). -/
structure ReleaseWait where
  orderSlot : Nat
  ecu       : EcuIx
  deriving DecidableEq, Repr

/-! ### Ports (R142, R143, R145, R152, R130) -/

/-- What a due frame belongs to: a reassembly context (a GRANT or STALL), the transmitter's transfer, or nothing that
still depends on it (R142). -/
inductive FrameOwner where
  | transmitter
  | context (c : CtxIx)
  | nobody
  deriving DecidableEq, Repr

/-- A frame that is due, with the count at which it became due (R142). -/
structure DueFrame where
  frame : Frame
  owner : FrameOwner
  due   : Word
  deriving DecidableEq, Repr

/-- What a transmitter carries (R143, R151, R152): an admitted request with its outstanding entry, the close message
of a controller, or an item of a BUS slot. -/
inductive Cargo where
  | request (m : Message) (e : EntryIx)
  | close (e : EcuIx)
  | item (k : Slot) (it : Item)
  deriving DecidableEq, Repr

inductive TxPhase where
  | first | waitCredit | run | waitDone
  deriving DecidableEq, Repr

/-- A transfer of a transmitter (R143). -/
structure Transfer where
  source   : Byte
  target   : Byte
  payload  : List Byte
  segments : Nat
  sent     : Nat
  granted  : Nat
  stalls   : Nat
  deadline : Option Word
  phase    : TxPhase
  cargo    : Cargo
  deriving DecidableEq, Repr

/-- The owner of a reassembly context (R145). -/
inductive CtxOwner where
  | slot (k : Slot)
  | entry (e : EntryIx)
  | close (e : EcuIx)
  deriving DecidableEq, Repr

/-- The timer of a context, of which at most one runs (R145). -/
inductive CtxTimer where
  | noTimer
  | gap (deadline : Word)
  | stall (deadline : Word)
  deriving DecidableEq, Repr

/-- What a context waits for (R149, R150). -/
inductive CtxWait where
  | noWait | place | cells
  deriving DecidableEq, Repr

/-- A reassembly context in use (R145). `bytes` is the payload received so far. -/
structure Ctx where
  source    : Byte
  target    : Byte
  owner     : CtxOwner
  hold      : Bool
  single    : Bool
  length    : Nat
  malformed : Bool
  code      : Byte
  segments  : Nat
  received  : Nat
  index     : BitVec 4
  granted   : Nat
  charge    : Option Charge
  place     : Bool
  bytes     : List Byte
  stalls    : Nat
  timer     : CtxTimer
  wait      : CtxWait
  deriving DecidableEq, Repr

/-- The traffic of one port: its transmitter (`none` is IDLE), its contexts, the frame on the bus, the due CREDIT and
ABORT frames of its contexts, the transmitter's due frames, and the start of the frame it sent last (R142). -/
structure PortFlow where
  tx        : Option Transfer
  ctxs      : Vector (Option Ctx) 8
  onBus     : Option DueFrame
  control   : List DueFrame
  txDue     : List DueFrame
  lastStart : Option Word
  deriving DecidableEq, Repr

/-- A request in a VB outbound queue (R152). -/
structure OutReq where
  msg    : Message
  source : Byte
  target : Byte
  entry  : EntryIx
  deriving DecidableEq, Repr

/-- A close buffer in use (R130). -/
structure CloseBuf where
  ecu  : EcuIx
  bytes : List Byte
  deriving DecidableEq, Repr

/-- What only a VB port has: its outbound queue (R152), close buffer and close list (R130). -/
structure VbFlow where
  outbound  : List OutReq
  closeBuf  : Option CloseBuf
  closeList : List EcuIx
  deriving DecidableEq, Repr

/-! ### Jobs (R157) -/

inductive WaitCause where
  | cells | place | request | time | condition | sync
  deriving DecidableEq, Repr

inductive JobState where
  | idle | running
  | waiting (c : WaitCause)
  deriving DecidableEq, Repr

inductive Verdict where
  | noVerdict | positive | negative | timeout | refused | overflow | undelivered
  deriving DecidableEq, Repr

inductive EndCode where
  | completed | aborted | stopped | badStep | failed | memoryError
  deriving DecidableEq, Repr

/-- The repeat state (R157, R163). -/
structure Repeat where
  start : Nat
  span  : Nat
  count : Nat
  pass  : Nat
  deriving DecidableEq, Repr

/-- A result buffer: offset from the exchange area base and maximum length (R164). -/
structure ResultBuf where
  offset : Nat
  max    : Nat
  deriving DecidableEq, Repr

inductive ReqStage where
  | queued | forwarded
  deriving DecidableEq, Repr

/-- An issued request (R159). `waited` says that the SEND step waits for it. -/
structure Req where
  step   : Nat
  pass   : Nat
  ecu    : EcuIx
  result : Option ResultBuf
  stop   : Bool
  stage  : ReqStage
  waited : Bool
  deriving DecidableEq, Repr

/-- The build buffer (R157): the message of the SEND step in progress, with its charge once made. -/
structure Build where
  target    : Byte
  ecu       : EcuIx
  length    : Nat
  malformed : Bool
  code      : Byte
  payload   : List Byte
  charge    : Option Charge
  result    : Option ResultBuf
  wait      : Bool
  stop      : Bool
  deriving DecidableEq, Repr

/-- A job context (R157). `condSet` is the set a WAIT_CONDITION step waits for (R169); `resultError` is the model's own
field: the shared RAM answers the next result write with a memory error (log 21). -/
structure Job where
  state       : JobState
  slot        : Option Slot
  listStart   : Nat
  listLength  : Nat
  cur         : Nat
  rep         : Option Repeat
  verdict     : Verdict
  requests    : List Req
  build       : Option Build
  deadline    : Option Word
  condSet     : CondSet
  steps       : Nat
  passes      : Nat
  orderSlot   : Option Nat
  resultError : Bool
  deriving DecidableEq, Repr

/-! ### Page writers and the relay channel (R181, R202, R204) -/

/-- An open page (R181): bytes used, record count, flush deadline. -/
structure OpenPage where
  used     : Nat
  count    : Nat
  deadline : Option Word
  deriving DecidableEq, Repr

/-- A page writer: the capture writer (R181) or the relay writer (R204, whose `gap` stays 0). -/
structure Writer where
  pos     : Nat
  page    : Option OpenPage
  seq     : Half
  gap     : Nat
  blocked : Bool
  deriving DecidableEq, Repr

/-- What a stopped relay channel waits for (R202). -/
inductive RelayWait where
  | place | cells
  deriving DecidableEq, Repr

structure RelayStop where
  slot : Slot
  wait : RelayWait
  deriving DecidableEq, Repr

/-- The relay channel's read position, the record count of the page it holds TAKEN, and where it is stopped (R202). -/
structure RelayIn where
  page   : Nat
  record : Nat
  offset : Nat
  count  : Option Nat
  stop   : Option RelayStop
  deriving DecidableEq, Repr

/-- A look at the order board in progress: the slot it reads next and how many slots it has left to read (R199). -/
structure Look where
  next : Nat
  left : Nat
  deriving DecidableEq, Repr

/-! ### The machine -/

/-- What the host has laid down, and the clock. No internal consequence of a command changes it. -/
structure Tables where
  now          : Word
  ctl          : CtlState
  fault        : FaultCode
  dir          : Option Directory
  testers      : Vector Tester 16
  ecus         : Vector Ecu 32
  classMap     : Vector ServiceClass 256
  conds        : Vector Condition 6
  thresholds   : Vector Nat 51
  ports        : Vector PortSettings 4
  probes       : Vector Probe 4
  sampler      : Sampler
  eventCapture : Bool
  captureFlush : Duration
  relayFlush   : Duration
  scan         : Duration
  marker       : Byte
  deriving DecidableEq, Repr

/-- The traffic: what the messages, entries, claims, ports, jobs and pages are doing. -/
structure Flow where
  news         : NewsFlags
  ram          : List Host.Cell
  boardPos     : Nat
  look         : Option Look
  lookDue      : Bool
  releaseWaits : List ReleaseWait
  relayIn      : RelayIn
  relayOut     : Writer
  relayUnknown : Word
  tbUnknown    : Word
  slots        : Vector SlotFlow 16
  visitPos     : Slot
  again        : List Slot
  placed       : Nat
  free         : Nat
  usage        : Vector Nat 51
  waiting      : List Waiter
  entries      : Vector (Option Entry) 40
  delivering   : List EntryIx
  roomReport   : Bool
  ecuCounts    : Vector EcuCounts 32
  claims       : Vector Claim 32
  ports        : Vector PortFlow 4
  vbs          : Vector VbFlow 3
  jobs         : Vector Job 4
  writer       : Writer
  candidates   : Word
  samples      : Word
  deriving DecidableEq, Repr

/-- Reasons a run could stop with. No meaning of this model raises one: every fault of the part is its controller
state FAULTED, which is a next state (R198). -/
inductive Fault where
  /-- Raised by nobody. Stopping is safe. -/
  | stuck
  deriving DecidableEq, Repr

/-- Reasons to refuse a command. -/
inductive Refusal where
  /-- Raised by `exec` for a command that has no meaning yet. Stopping is safe. -/
  | notModelled (mnemonic : String)
  deriving DecidableEq, Repr

structure State where
  /-- The commands waiting, first in first out. -/
  pending   : List Instr
  /-- What the last NEWS read returned to the host (R193, log 13). -/
  readData  : Word
  /-- The levels of the direct condition lines (R24). -/
  lines     : Lines
  /-- CTRL.ENABLE (R191). -/
  enable    : Bool
  /-- CTRL.IRQ_ENABLE (R191). -/
  irqEnable : Bool
  /-- XBASE (R191). -/
  xbase     : Word
  /-- The news mask (R193). -/
  mask      : NewsFlags
  /-- When the scan timer expires next (R199). -/
  scanDl    : Option Word
  /-- The rotation monitor (R29). -/
  rot       : Rotation
  /-- The grant table (R40). -/
  grants    : Vector Grant 64
  /-- The index of the next free value (logs 8, 9). -/
  fresh     : Nat
  tab       : Tables
  flow      : Flow
  deriving DecidableEq, Repr

/-! ### Reset values -/

/-- Code 0 and count 0. -/
def Duration.zero : Duration := { code := 0, count := 0 }

/-- R15. -/
def Tester.reset : Tester :=
  { attached := false, kind := .bus, tbAddr := 0, relayId := 0, jobCtx := 0, vehicle := 0, mode := .refuse,
    weight := 1, limit := 1, holdLimit := .zero }

/-- R20. -/
def Ecu.reset : Ecu :=
  { valid := false, port := 0, node := 0, respTimeout := .zero, longTimeout := .zero, interimMarker := none,
    interimLimit := 1, interimFwd := false, negMarker := none, closeMsg := [], holdOff := .zero }

/-- R39. -/
def Condition.reset : Condition :=
  { raw := false, qual := .isFalse, rise := .zero, fall := .zero, deadline := none }

/-- R39. -/
def Rotation.reset : Rotation :=
  { window := .zero, threshold := 0, running := 0, last := 0, completed := false, deadline := none }

/-- R57. -/
def Grant.reset : Grant :=
  { state := .free, slot := 0, ecus := 0, classes := 0, conds := 0, level := .noClaim, lifetime := .zero,
    life := .unlimited, budget := 0, left := none }

/-- R155. -/
def PortSettings.reset : PortSettings :=
  { node := 0, kind := 0, priority := 0, window := 1, creditWait := .zero, gap := .zero, doneWait := .zero,
    stallInterval := .zero, stallLimit := 0, spacing := .zero }

/-- R190. -/
def Probe.reset : Probe :=
  { enabled := false, dirs := 0, slots := 0, ecus := 0, classes := 0, binding := false, limit := 0 }

/-- R190. -/
def Sampler.reset : Sampler := { enabled := false, rate := 0, classes := 0 }

/-- R15, R100, R120. -/
def SlotFlow.reset : SlotFlow :=
  { allowance := 0, inbound := [], placeWait := [], held := none, items := [], admitted := 0, refused := 0,
    heldTooLong := 0, deliveryFails := 0 }

/-- R20. -/
def EcuCounts.reset : EcuCounts :=
  { forwarded := 0, responses := 0, timeouts := 0, strays := 0, sendFailures := 0 }

/-- R138. -/
def Claim.reset : Claim :=
  { state := .free, holder := 0, level := .adjust, guard := 0, holdOff := none, cause := none, phase := none,
    closeDeadline := none, outcome := .noOutcome, answer := none }

/-- R155. -/
def PortFlow.reset : PortFlow :=
  { tx := none, ctxs := Vector.replicate 8 none, onBus := none, control := [], txDue := [], lastStart := none }

/-- R138, R155. -/
def VbFlow.reset : VbFlow := { outbound := [], closeBuf := none, closeList := [] }

/-- R174. -/
def Job.reset : Job :=
  { state := .idle, slot := none, listStart := 0, listLength := 0, cur := 0, rep := none, verdict := .noVerdict,
    requests := [], build := none, deadline := none, condSet := 0, steps := 0, passes := 0, orderSlot := none,
    resultError := false }

/-- R190, R204. -/
def Writer.reset : Writer := { pos := 0, page := none, seq := 0, gap := 0, blocked := false }

/-- R202. -/
def RelayIn.reset : RelayIn := { page := 0, record := 0, offset := 16, count := none, stop := none }

/-- FAULT is bit 9 and STOPPED bit 10: the mask after reset enables these two only (R193, R207). -/
def maskReset : NewsFlags := 0x600

/-- Every block's tables after hardware reset; the part is OFF (R191). -/
def Tables.reset : Tables :=
  { now := 0, ctl := .off, fault := .noFault, dir := none
    testers := Vector.replicate 16 .reset, ecus := Vector.replicate 32 .reset
    classMap := Vector.replicate 256 .barred, conds := Vector.replicate 6 .reset
    thresholds := Vector.replicate 51 0, ports := Vector.replicate 4 .reset, probes := Vector.replicate 4 .reset
    sampler := .reset, eventCapture := false, captureFlush := .zero, relayFlush := .zero, scan := .zero
    marker := 0x6E }

/-- Every block's traffic after hardware reset. -/
def Flow.reset : Flow :=
  { news := 0, ram := [], boardPos := 0, look := none, lookDue := false, releaseWaits := [], relayIn := .reset
    relayOut := .reset, relayUnknown := 0, tbUnknown := 0, slots := Vector.replicate 16 .reset, visitPos := 0
    again := [], placed := 0, free := 1024, usage := Vector.replicate 51 0, waiting := []
    entries := Vector.replicate 40 none, delivering := [], roomReport := false
    ecuCounts := Vector.replicate 32 .reset, claims := Vector.replicate 32 .reset
    ports := Vector.replicate 4 .reset, vbs := Vector.replicate 3 .reset, jobs := Vector.replicate 4 .reset
    writer := .reset, candidates := 0, samples := 0 }

/-- The machine right after hardware reset (R191). The levels of the lines, what shared RAM holds, `readData` and
`fresh` are the model's choices (logs 1, 8, 13). -/
def State.reset : State :=
  { pending := [], readData := 0, lines := { ign := false, park := false, supply := false, wshop := false }
    enable := false, irqEnable := false, xbase := 0, mask := maskReset, scanDl := none, rot := .reset
    grants := Vector.replicate 64 .reset, fresh := 0, tab := .reset, flow := .reset }

end Sys2Proof.Machine
end

