-- ==== Sys2Proof/Machine/Ops.lean ====
section
/-! DEFINITION. The named operations over shared RAM, tables and time that every block uses. -/

namespace Sys2Proof.Machine

/-! ### Tables -/

/-- Apply a change to one row of a table. -/
def Vector.modifyRow {α : Type} {n : Nat} (v : Vector α n) (i : Fin n) (f : α → α) : Vector α n :=
  v.set i.val (f (v.get i)) i.isLt

/-- Replace one row of a table. -/
def Vector.putRow {α : Type} {n : Nat} (v : Vector α n) (i : Fin n) (x : α) : Vector α n :=
  v.set i.val x i.isLt

/-- A table whose rows are given by a function of their number. -/
def tableOf {α : Type} (n : Nat) (f : Fin n → α) : Vector α n :=
  ⟨⟨(List.finRange n).map f⟩, by simp⟩

/-- The number of a tester slot, an ECU entry and so on, when it is in range. -/
def asIx (n : Nat) (k : Nat) : Option (Fin n) :=
  if h : k < n then some ⟨k, h⟩ else none

/-- Slots in rising number from a position, passing from 15 back to 0 (R82, R94). -/
def slotsFrom (pos : Slot) : List Slot :=
  (List.finRange 16).drop pos.val ++ (List.finRange 16).take pos.val

/-- The number of a port in tables of four: TB, VB0, VB1, VB2. -/
def portIx : PortId → Fin 4
  | .tb => 0
  | .vb n => n.succ

/-- A slot's vehicle-side address: a BUS slot's is its TB address (R5). -/
def Tester.vsAddr (t : Tester) : Byte :=
  match t.kind with
  | .bus => t.tbAddr
  | .relay | .job => t.vehicle

/-- The grade of a class; a BARRED request is charged as ROUTINE (R21, R60). -/
def ServiceClass.grade : ServiceClass → Grade
  | .adjust | .program => .heavy
  | .read | .maintain | .session | .barred => .routine

/-- The claim level of a HEAVY class (R21). -/
def ServiceClass.level : ServiceClass → Option ClaimLevel
  | .adjust => some .adjust
  | .program => some .program
  | .read | .maintain | .session | .barred => none

/-- The class of a service code, by the map (R21). -/
def classOf (t : Tables) (code : Byte) : ServiceClass := t.classMap.get code.toFin

/-! ### Bytes and encodings (R208) -/

/-- A number from bytes, least significant first. -/
def leNat : List Byte → Nat
  | [] => 0
  | b :: bs => b.toNat + 256 * leNat bs

/-- `k` bytes of a number, least significant first. -/
def leBytes : Nat → Nat → List Byte
  | 0, _ => []
  | k + 1, n => BitVec.ofNat 8 n :: leBytes k (n / 256)

/-- The byte of a structure at an offset; 0 past its end. -/
def byteAt (bs : List Byte) (i : Nat) : Byte := bs.getD i 0

/-- The little-endian number of `k` bytes at an offset. -/
def numAt (bs : List Byte) (i k : Nat) : Nat := leNat ((bs.drop i).take k)

/-- Zero bytes. -/
def zeros (n : Nat) : List Byte := List.replicate n 0

/-- Pad a structure with zeros to a size. -/
def padTo (n : Nat) (bs : List Byte) : List Byte := bs ++ zeros (n - bs.length)

/-- Pad with zeros to a multiple of 4 bytes (R181, R203, R211). -/
def pad4 (bs : List Byte) : List Byte := bs ++ zeros ((4 - bs.length % 4) % 4)

/-- A size rounded up to a multiple of 4. -/
def round4 (n : Nat) : Nat := (n + 3) / 4 * 4

/-- A flag of one byte (R208). -/
def flagByte (b : Bool) : Byte := if b then 1 else 0

/-- An optional byte: presence flag, then the value, all ones when absent (R208; log 17). -/
def optByteBytes : Option Byte → List Byte
  | none => [0, 0xFF]
  | some v => [1, v]

/-- A one-byte value, all ones when absent (R208). -/
def orOnes : Option Byte → Byte
  | none => 0xFF
  | some v => v

/-! ### Durations and deadlines (R1) -/

/-- The base of a timebase code, in milliseconds (00_scope.md, Time). -/
def timebase (code : BitVec 3) : Nat :=
  match code.toNat with
  | 0 => 1
  | 1 => 2
  | 2 => 5
  | 3 => 10
  | 4 => 20
  | 5 => 100
  | 6 => 1000
  | _ => 60000

/-- The milliseconds of a duration. -/
def Duration.ms (d : Duration) : Nat := d.count.toNat * timebase d.code

/-- A count of 0: "immediately" or "none", as each field says. -/
def Duration.isZero (d : Duration) : Bool := d.count == 0

/-- A duration in its encoding (R208). -/
def Duration.bytes (d : Duration) : List Byte := leBytes 2 (d.count.toNat + 4096 * d.code.toNat)

/-- The deadline one duration after a count. -/
def after (now : Word) (d : Duration) : Word := now + BitVec.ofNat 32 d.ms

/-- A deadline is reached, accounting for the wrap of the count (R1). It reads as reached for half a wrap (log 29). -/
def reached (now deadline : Word) : Bool := decide ((now - deadline).toNat < 2 ^ 31)

/-- An optional deadline is present and reached. -/
def expired (now : Word) : Option Word → Bool
  | none => false
  | some d => reached now d

/-- Milliseconds left until a deadline, 0 when it has passed or there is none (R36, R119, R137). -/
def msLeft (now : Word) : Option Word → Nat
  | none => 0
  | some d => if reached now d then 0 else (d - now).toNat

/-! ### Shared RAM (00_scope.md; log 1) -/

/-- What a byte of shared RAM reads as that nobody has written (log 1). -/
def ramDefault : Byte := 0

/-- The top of the 32-bit address space (R195). -/
def ramTop : Nat := 2 ^ 32

/-- One byte of shared RAM. -/
def ramByte : List Host.Cell → Nat → Byte
  | [], _ => ramDefault
  | (k, v) :: m, a => if k = a then v else ramByte m a

/-- The canonical form: addresses strictly rising, no listed byte equal to the default, all below the top. -/
abbrev ramWf (m : List Host.Cell) : Prop :=
  m.Pairwise (fun x y => x.1 < y.1) ∧ ∀ c ∈ m, c.2 ≠ ramDefault ∧ c.1 < ramTop

/-- Bytes from `a` on, out of cells that all lie at `a` or above. -/
def ramWalk : List Host.Cell → Nat → Nat → List Byte
  | _, _, 0 => []
  | [], _, n + 1 => zeros (n + 1)
  | (k, v) :: m, a, n + 1 => if k = a then v :: ramWalk m (a + 1) n else ramDefault :: ramWalk ((k, v) :: m) (a + 1) n

/-- `n` bytes from `a` on, below the top. -/
def ramRun (m : List Host.Cell) (a n : Nat) : List Byte :=
  ramWalk (m.dropWhile fun c => decide (c.1 < a)) a n

/-- The cells of a run of bytes, without those equal to the default. -/
def ramCells : Nat → List Byte → List Host.Cell
  | _, [] => []
  | a, b :: bs => if b = ramDefault then ramCells (a + 1) bs else (a, b) :: ramCells (a + 1) bs

/-- Write a run of bytes that ends at or below the top. -/
def ramPut (m : List Host.Cell) (a : Nat) (bs : List Byte) : List Host.Cell :=
  m.filter (fun c => decide (c.1 < a)) ++ ramCells a bs ++ m.filter (fun c => decide (a + bs.length ≤ c.1))

/-- Read `n` bytes; addresses wrap at the top (log 20). -/
def ramRead (m : List Host.Cell) (a n : Nat) : List Byte :=
  let a := a % ramTop
  if a + n ≤ ramTop then ramRun m a n
  else ramRun m a (ramTop - a) ++ ramRun m 0 (n - (ramTop - a))

/-- Write bytes; addresses wrap at the top (log 20). -/
def ramWrite (m : List Host.Cell) (a : Nat) (bs : List Byte) : List Host.Cell :=
  let a := a % ramTop
  let k := ramTop - a
  if bs.length ≤ k then ramPut m a bs
  else ramPut (ramPut m a (bs.take k)) 0 ((bs.drop k).take ramTop)

/-- The host's stores, one byte each, in order. -/
def ramStores (m : List Host.Cell) (st : Stores) : List Host.Cell :=
  st.foldl (fun m c => ramWrite m c.1 [c.2]) m

/-- A little-endian number of `k` bytes in shared RAM. -/
def ramNum (m : List Host.Cell) (a k : Nat) : Nat := leNat (ramRead m a k)

/-! ### Updates of parts of the traffic -/

/-- The host's stores before a register access (log 2). -/
def State.store (s : State) (st : Stores) : State :=
  { s with flow := { s.flow with ram := ramStores s.flow.ram st } }

def Flow.modSlot (f : Flow) (k : Slot) (g : SlotFlow → SlotFlow) : Flow :=
  { f with slots := Vector.modifyRow f.slots k g }

def Flow.modClaim (f : Flow) (e : EcuIx) (g : Claim → Claim) : Flow :=
  { f with claims := Vector.modifyRow f.claims e g }

def Flow.modPort (f : Flow) (p : PortId) (g : PortFlow → PortFlow) : Flow :=
  { f with ports := Vector.modifyRow f.ports (portIx p) g }

def Flow.modVb (f : Flow) (v : VbIx) (g : VbFlow → VbFlow) : Flow :=
  { f with vbs := Vector.modifyRow f.vbs v g }

def Flow.modJob (f : Flow) (j : JobIx) (g : Job → Job) : Flow :=
  { f with jobs := Vector.modifyRow f.jobs j g }

def Flow.modEntry (f : Flow) (e : EntryIx) (g : Entry → Entry) : Flow :=
  { f with entries := Vector.modifyRow f.entries e (Option.map g) }

def Flow.countEcu (f : Flow) (e : EcuIx) (g : EcuCounts → EcuCounts) : Flow :=
  { f with ecuCounts := Vector.modifyRow f.ecuCounts e g }

def Flow.port (f : Flow) (p : PortId) : PortFlow := f.ports.get (portIx p)

def Tables.port (t : Tables) (p : PortId) : PortSettings := t.ports.get (portIx p)

/-- The traffic runs: RUNNING or STOPPING (R80, R154). -/
def Tables.active (t : Tables) : Bool := t.ctl == .running || t.ctl == .stopping

/-! ### Outstanding entries of a slot (R6, R81, R87, R114) -/

/-- The entry in use with a slot and an ECU (R101: at most one). -/
def Flow.entryOf (f : Flow) (k : Slot) (e : EcuIx) : Option EntryIx :=
  (List.finRange 40).find? fun i =>
    match f.entries.get i with
    | none => false
    | some x => x.slot == k && x.ecu == e

def EntryState.isOrphan : EntryState → Bool
  | .orphaned _ => true
  | .sending | .awaiting | .receiving | .delivering => false

/-- The slot has an entry in use, ORPHANED included (R6). -/
def Flow.hasEntry (f : Flow) (k : Slot) : Bool :=
  f.entries.toList.any fun x => match x with
    | none => false
    | some x => x.slot == k

/-- Entries of a slot that are not ORPHANED: its reserved delivery places (R114). -/
def Flow.liveEntries (f : Flow) (k : Slot) : Nat :=
  f.entries.toList.countP fun x => match x with
    | none => false
    | some x => x.slot == k && !x.state.isOrphan

/-- The slot holds its vehicle-side address (R6). -/
def holdsAddr (t : Tables) (f : Flow) (k : Slot) : Bool := (t.testers.get k).attached || f.hasEntry k

/-- Places of the slot's inbound queue held by TB contexts (R77). -/
def Flow.heldPlaces (f : Flow) (k : Slot) : Nat :=
  (f.port .tb).ctxs.toList.countP fun c => match c with
    | none => false
    | some c => c.place && c.owner == .slot k

/-- An inbound queue place that is neither used nor held (R77). -/
def Flow.inboundFree (f : Flow) (k : Slot) : Bool :=
  decide ((f.slots.get k).inbound.length + f.heldPlaces k < 8)

/-- The place kept for a held head (R81). -/
def SlotFlow.kept (k : SlotFlow) : Nat := if k.held.isSome then 1 else 0

/-- A delivery place that is neither used, reserved nor kept (R81). -/
def Flow.deliveryFree (f : Flow) (k : Slot) : Bool :=
  decide ((f.slots.get k).items.length + f.liveEntries k + (f.slots.get k).kept < 8)

/-! ### Messages (R22, R58) -/

/-- Cells of a well-formed message of a length (R22). -/
def cellsFor (len : Nat) : Nat := (len + 63) / 64

/-- A length no well-formed message has (R22). -/
def badLength (len : Nat) : Bool := len == 0 || decide (2048 < len)

/-- Service code of a payload: its first byte, 0x00 when it has none (R22). -/
def firstByte (bs : List Byte) : Byte := bs.getD 0 0

/-- The code of a refusal reason (R2). -/
def Reason.byte : Reason → Byte
  | .noEcu => 0x01
  | .noGrant => 0x02
  | .suspended => 0x03
  | .condition => 0x04
  | .claimed => 0x05
  | .closing => 0x06
  | .heldTooLong => 0x07
  | .timeout => 0x08
  | .overflow => 0x09
  | .stopping => 0x0A
  | .malformed => 0x0B
  | .barred => 0x0C
  | .noRoom => 0x0D
  | .undelivered => 0x0E

/-- The refusal message of 3 bytes (R2, R91). -/
def refusalBytes (t : Tables) (code : Byte) (r : Reason) : List Byte := [t.marker, code, r.byte]

/-- The ECU entry of a request: the valid entry whose node address is the target (R17). -/
def findEcu (t : Tables) (target : Byte) : Option EcuIx :=
  (List.finRange 32).find? fun e => (t.ecus.get e).valid && (t.ecus.get e).node == target

end Sys2Proof.Machine
end

