-- ==== Sys2Proof/Machine/Flags.lean ====
section
/-! DEFINITION. The NEWS flags, the news mask, the IRQ line and the registers as the host reads them (R191, R193,
R207). -/

namespace Sys2Proof.Machine

/-- The eleven news flags (R193). -/
inductive News where
  | orderDone | relayOut | relayInFree | capture | captureGap | condition | claim | grant | jobEnd | fault | stopped
  deriving DecidableEq, Repr

/-- The bit of a flag in NEWS and in the mask (R207). -/
def News.bit : News → Nat
  | .orderDone => 0
  | .relayOut => 1
  | .relayInFree => 2
  | .capture => 3
  | .captureGap => 4
  | .condition => 5
  | .claim => 6
  | .grant => 7
  | .jobEnd => 8
  | .fault => 9
  | .stopped => 10

/-- The register value with one flag set. -/
def News.flag (n : News) : NewsFlags := 1#11 <<< n.bit

/-- Set a flag; it stays set until NEWS is read (R193). -/
def Flow.setNews (f : Flow) (n : News) : Flow := { f with news := f.news ||| n.flag }

/-- The flag is set. -/
def Flow.hasNews (f : Flow) (n : News) : Bool := f.news &&& n.flag != 0

/-- The IRQ line is asserted while IRQ_ENABLE is set and a flag set in NEWS is enabled in the mask (R193). -/
def State.irq (s : State) : Bool := s.irqEnable && (s.flow.news &&& s.mask != 0)

/-- The code of a controller state in STATE (R207). -/
def CtlState.code : CtlState → Nat
  | .off => 0
  | .starting => 1
  | .running => 2
  | .stopping => 3
  | .faulted => 4

/-- The code of a fault (R207). -/
def FaultCode.code : FaultCode → Nat
  | .noFault => 0
  | .badSignature => 1
  | .missingLeaf => 2
  | .badLeaf => 3
  | .badSettings => 4
  | .memoryError => 5

/-- IDENT: vendor 0x6F, part 0x24, revision 1, slots 2^4, ECU entries 2^5, grants 2^6, outstanding entries 5 times 8
(R207). -/
def identWord : Word := 0x6F241975

/-- CTRL as read: ENABLE bit 0, SOFT_RESET reads 0, IRQ_ENABLE bit 2 (R207). -/
def State.ctrlWord (s : State) : Word :=
  BitVec.ofNat 32 ((if s.enable then 1 else 0) + (if s.irqEnable then 4 else 0))

/-- STATE as read: controller state in bits 2:0, fault code in bits 10:8 (R207). -/
def State.stateWord (s : State) : Word := BitVec.ofNat 32 (s.tab.ctl.code + 256 * s.tab.fault.code)

/-- XBASE keeps a word address: its two lowest bits read 0 whatever is written (R191). -/
def alignBase (w : Word) : Word := w &&& 0xFFFFFFFC

/-- ATTN as read: it is write-only and reads 0 (R191, R207). -/
def attnWord : Word := 0

/-- NEWS as read (R207). -/
def Flow.newsWord (f : Flow) : Word := f.news.setWidth 32

end Sys2Proof.Machine
end

