-- ==== Sys2Proof/Machine/Operands.lean ====
section
/-! DEFINITION. Every operand form: the fields of exchange-area structures (R208 to R213) and of CAN frames (R216),
read from their bytes. A parser answers `none` where a field is out of range (R208); its caller decides what that does. -/

namespace Sys2Proof.Machine

/-! ### Field encodings (R208) -/

def getFlag (b : Byte) : Option Bool :=
  if b = 0 then some false else if b = 1 then some true else none

/-- A duration: bits 11:0 count, bits 14:12 timebase code, bit 15 is 0. -/
def getDuration (bs : List Byte) (i : Nat) : Option Duration :=
  let n := numAt bs i 2
  if n < 2 ^ 15 then some { code := BitVec.ofNat 3 (n / 4096), count := BitVec.ofNat 12 n } else none

/-- A duration whose count must be 1 to 4,095. -/
def getTimeout (bs : List Byte) (i : Nat) : Option Duration :=
  match getDuration bs i with
  | none => none
  | some d => if d.isZero then none else some d

/-- A set held in one byte, of a list with `n` members. -/
def getSet (n : Nat) (b : Byte) : Option (BitVec n) :=
  if b.toNat < 2 ^ n then some (BitVec.ofNat n b.toNat) else none

/-- An optional byte: presence flag, then the value. -/
def getOptByte (bs : List Byte) (i : Nat) : Option (Option Byte) :=
  match getFlag (byteAt bs i) with
  | none => none
  | some false => some none
  | some true => some (some (byteAt bs (i + 1)))

def getClass (b : Byte) : Option ServiceClass :=
  match b.toNat with
  | 0 => some .read
  | 1 => some .maintain
  | 2 => some .session
  | 3 => some .adjust
  | 4 => some .program
  | 5 => some .barred
  | _ => none

def getKind (b : Byte) : Option TesterKind :=
  match b.toNat with
  | 0 => some .bus
  | 1 => some .relay
  | 2 => some .job
  | _ => none

def getMode (b : Byte) : Option TesterMode :=
  match b.toNat with
  | 0 => some .hold
  | 1 => some .refuse
  | _ => none

def getLevel (b : Byte) : Option GrantLevel :=
  match b.toNat with
  | 0 => some .noClaim
  | 1 => some .adjust
  | 2 => some .program
  | _ => none

/-- A number between two bounds. -/
def inRange (lo hi n : Nat) : Option Nat := if lo ≤ n ∧ n ≤ hi then some n else none

/-! ### Records of the settings leaf (R213), also carried by SET_TESTER, SET_ECU and SET_PROBE (R210) -/

/-- A slot record with its fields in the ranges of R8, step 1. The attach flag is read by the load only. -/
def getTester (bs : List Byte) (attached : Bool) : Option Tester := do
  let kind ← getKind (byteAt bs 1)
  let mode ← getMode (byteAt bs 6)
  let weight ← inRange 1 8 (byteAt bs 7).toNat
  let limit ← inRange 1 8 (byteAt bs 8).toNat
  let holdLimit ← getDuration bs 10
  if kind = .job ∧ 3 < (byteAt bs 4).toNat then none else
  some { attached, kind, tbAddr := byteAt bs 2, relayId := byteAt bs 3, jobCtx := byteAt bs 4
         vehicle := byteAt bs 5, mode, weight, limit, holdLimit }

/-- An ECU record with its fields in the ranges of R18, step 1. -/
def getEcu (bs : List Byte) : Option Ecu := do
  let valid ← getFlag (byteAt bs 0)
  let port ← asIx 3 (byteAt bs 1).toNat
  let interimLimit ← inRange 1 255 (byteAt bs 3).toNat
  let interimFwd ← getFlag (byteAt bs 4)
  let interimMarker ← getOptByte bs 5
  let negMarker ← getOptByte bs 7
  let closeLen ← inRange 0 8 (byteAt bs 9).toNat
  let respTimeout ← getTimeout bs 18
  let longTimeout ← getTimeout bs 20
  let holdOff ← getTimeout bs 22
  some { valid, port, node := byteAt bs 2, respTimeout, longTimeout, interimMarker, interimLimit, interimFwd
         negMarker, closeMsg := (bs.drop 10).take closeLen, holdOff }

/-- A probe record with its fields in the ranges of R175. -/
def getProbe (bs : List Byte) : Option Probe := do
  let enabled ← getFlag (byteAt bs 0)
  let dirs ← getSet 3 (byteAt bs 1)
  let binding ← getFlag (byteAt bs 2)
  let classes ← getSet 6 (byteAt bs 3)
  let limit ← inRange 0 2048 (numAt bs 6 2)
  some { enabled, dirs, slots := BitVec.ofNat 16 (numAt bs 4 2), ecus := BitVec.ofNat 32 (numAt bs 8 4), classes
         binding, limit }

/-- A port record with its fields in the ranges of R139. The stall limit is read as one byte, so none is out of range
(log 37). -/
def getPort (bs : List Byte) : Option PortSettings := do
  let priority ← inRange 0 7 (byteAt bs 2).toNat
  let window ← inRange 1 63 (byteAt bs 3).toNat
  let creditWait ← getTimeout bs 6
  let gap ← getTimeout bs 8
  let doneWait ← getTimeout bs 10
  let stallInterval ← getTimeout bs 12
  let spacing ← getDuration bs 14
  some { node := byteAt bs 0, kind := byteAt bs 1, priority := BitVec.ofNat 3 priority, window, creditWait, gap
         doneWait, stallInterval, stallLimit := (byteAt bs 4).toNat, spacing }

/-- A sampler's fields (R178). -/
def getSampler (enabled classes : Byte) (rate : Nat) : Option Sampler := do
  let enabled ← getFlag enabled
  let classes ← getSet 6 classes
  let rate ← inRange 0 4096 rate
  some { enabled, rate, classes }

/-- A news mask that enables none but the eleven flags (R193, R207). -/
def getMask (n : Nat) : Option NewsFlags := if n < 2 ^ 11 then some (BitVec.ofNat 11 n) else none

/-! ### Order parameters (R210) -/

/-- INSTALL_GRANT's fields after the grant number (R49, step 1). -/
def getGrant (bs : List Byte) : Option Grant := do
  let slot ← asIx 16 (byteAt bs 0).toNat
  let classes ← getSet 5 (byteAt bs 5)
  let conds ← getSet 6 (byteAt bs 6)
  let level ← getLevel (byteAt bs 7)
  let lifetime ← getDuration bs 8
  let budget := numAt bs 10 2
  some { state := .active, slot, ecus := BitVec.ofNat 32 (numAt bs 1 4), classes := classes.setWidth 6, conds, level
         lifetime, life := .unlimited, budget, left := if budget = 0 then none else some budget }

/-- A run of 2-byte numbers. -/
def getHalves : Nat → List Byte → List Nat
  | 0, _ => []
  | n + 1, bs => leNat (bs.take 2) :: getHalves n (bs.drop 2)

/-- Records of one size, one after another. -/
def records (size : Nat) : Nat → List Byte → List (List Byte)
  | 0, _ => []
  | n + 1, bs => bs.take size :: records size n (bs.drop size)

/-- Every record parses: the list of what they hold. -/
def getAll {α : Type} (g : List Byte → Option α) : List (List Byte) → Option (List α)
  | [] => some []
  | r :: rs => do
    let x ← g r
    let xs ← getAll g rs
    some (x :: xs)

/-! ### Job steps (R212, R163, R164, R168, R169) -/

/-- Guards (R162). -/
inductive Guard where
  | always | ifPositive | ifNegative | ifNotPositive
  deriving DecidableEq, Repr

/-- Step kinds (R161). -/
inductive StepKind where
  | send | rep | waitTime | waitCondition | sync | fin
  deriving DecidableEq, Repr

def getStepKind (b : Byte) : Option StepKind :=
  match b.toNat with
  | 1 => some .send
  | 2 => some .rep
  | 3 => some .waitTime
  | 4 => some .waitCondition
  | 5 => some .sync
  | 6 => some .fin
  | _ => none

def getGuard (b : Byte) : Option Guard :=
  match b.toNat with
  | 0 => some .always
  | 1 => some .ifPositive
  | 2 => some .ifNegative
  | 3 => some .ifNotPositive
  | _ => none

/-- The guard is true on a verdict (R162). -/
def Guard.holds : Guard → Verdict → Bool
  | .always, _ => true
  | .ifPositive, v => v == .positive
  | .ifNegative, v => v == .negative
  | .ifNotPositive, v => v != .positive

/-- The data of a SEND: offset, length, final length (R164). -/
structure SendData where
  offset : Nat
  length : Nat
  final  : Option Nat
  deriving DecidableEq, Repr

/-- The pass counter of a SEND: position and start value (R164). -/
structure PassCounter where
  position : Nat
  start    : Byte
  deriving DecidableEq, Repr

/-- The fields of a SEND step (R164). -/
structure SendStep where
  ecu     : EcuIx
  inlined : List Byte
  data    : Option SendData
  counter : Option PassCounter
  result  : Option ResultBuf
  wait    : Bool
  stop    : Bool
  deriving DecidableEq, Repr

/-- The fields of a SEND step, `none` when one is out of range. Fields whose option bit is clear are not read (R212). A
final length without data is not read either: it shortens data that is absent. -/
def getSend (bs : List Byte) : Option SendStep := do
  let opt := byteAt bs 12
  let ecu ← asIx 32 (byteAt bs 2).toNat
  let n ← inRange 0 8 (byteAt bs 3).toNat
  let data ← (if opt.getLsbD 0 then do
      let length ← inRange 1 2048 (numAt bs 14 2)
      let final ← (if opt.getLsbD 1 then (inRange 0 2048 (numAt bs 20 2)).map some else some none)
      some (some { offset := numAt bs 16 4, length, final })
    else some none)
  let counter ← (if opt.getLsbD 2 then do
      let position ← inRange 0 2047 (numAt bs 22 2)
      some (some { position, start := byteAt bs 13 })
    else some none)
  let result ← (if opt.getLsbD 3 then do
      let max ← inRange 0 2048 (numAt bs 28 2)
      some (some { offset := numAt bs 24 4, max })
    else some none)
  some { ecu, inlined := (bs.drop 4).take n, data, counter, result, wait := opt.getLsbD 4, stop := opt.getLsbD 5 }

/-! ### CAN frames (R216) -/

/-- Bits 28:27, the kind, the target and the source of an identifier. -/
def frHigh (f : Frame) : BitVec 2 := f.id.extractLsb' 27 2
def frKind (f : Frame) : Byte := f.id.extractLsb' 16 8
def frTarget (f : Frame) : Byte := f.id.extractLsb' 8 8
def frSource (f : Frame) : Byte := f.id.extractLsb' 0 8

/-- The identifier the part sends: priority in bits 26:24, kind, target, source. -/
def frameId (ps : PortSettings) (target source : Byte) : BitVec 29 :=
  (0#2 ++ ps.priority ++ ps.kind ++ target ++ source : BitVec 29)

/-- Abort reasons (R140, R216). -/
inductive AbortReason where
  | noRoom | notExpected | sequence | timeout | busy
  deriving DecidableEq, Repr

def AbortReason.byte : AbortReason → Byte
  | .noRoom => 1
  | .notExpected => 2
  | .sequence => 3
  | .timeout => 4
  | .busy => 5

/-- A frame body as the port reads it (R140, R216). An ABORT is one with any reason (R144, R148). -/
inductive FrameBody where
  | single (length : Nat) (payload : List Byte)
  | openMsg (length : Nat) (payload : List Byte)
  | next (index : BitVec 4) (bytes : List Byte)
  | grant (count : Nat)
  | stall
  | done
  | abort
  deriving DecidableEq, Repr

/-- The body of a frame, `none` when the port drops the frame under R140: a segment control that names none of the five
frames, data shorter than its segment control calls for, a SINGLE of length 8 to 15, a GRANT of 0 or of more than 63, an
unknown sub-kind. A SINGLE of length 0 is left to the port. How short a NEXT is depends on its context (R216). An OPEN
must carry the payload bytes its length calls for, at most six (log 15). -/
def frBody (f : Frame) : Option FrameBody :=
  match f.data with
  | [] => none
  | b :: rest =>
    let lo := b.extractLsb' 0 4
    match (b.extractLsb' 4 4).toNat with
    | 0 => if 7 < lo.toNat ∨ rest.length < lo.toNat then none else some (.single lo.toNat (rest.take lo.toNat))
    | 1 =>
      match rest with
      | [] => none
      | c :: pay =>
        let len := (b.extractLsb' 0 3).toNat * 256 + c.toNat + 1
        if pay.length < min 6 len then none else some (.openMsg len (pay.take (min 6 len)))
    | 2 => if rest = [] then none else some (.next lo rest)
    | 3 =>
      match lo.toNat, rest with
      | 0, c :: _ => if c.toNat = 0 ∨ 63 < c.toNat then none else some (.grant c.toNat)
      | 1, _ => some .stall
      | 2, _ => some .done
      | _, _ => none
    | 4 => if rest = [] then none else some .abort
    | _ => none

/-- The bodies the part sends (R141, R216). -/
def singleData (payload : List Byte) : List Byte := BitVec.ofNat 8 payload.length :: payload

def openData (payload : List Byte) : List Byte :=
  let n := payload.length - 1
  BitVec.ofNat 8 (0x10 + n / 256) :: BitVec.ofNat 8 n :: payload.take 6

/-- The NEXT frame of segment `k`, counting from 0; the first carries index 1 (R141). -/
def nextData (payload : List Byte) (k : Nat) : List Byte :=
  BitVec.ofNat 8 (0x20 + (k + 1) % 16) :: (payload.drop (6 + 7 * k)).take 7

def grantData (n : Nat) : List Byte := [0x30, BitVec.ofNat 8 n]
def stallData : List Byte := [0x31]
def doneData : List Byte := [0x32]
def abortData (r : AbortReason) : List Byte := [0x40, r.byte]

/-- The segments of a message the part sends: none for one of 1 to 7 bytes, which goes as a SINGLE (R141). -/
def segmentsSent (len : Nat) : Nat := if len ≤ 7 then 0 else (len - 6 + 6) / 7

/-- The segments of a message received in an OPEN: started 7-byte portions of its length less 6 (R141). -/
def segmentsFor (len : Nat) : Nat := (len - 6 + 6) / 7

end Sys2Proof.Machine
end

