-- ==== Sys2Proof/Machine/Capture.lean ====
section
/-! DEFINITION. Page writers (R181 to R185, R204), capture records (R179, R180, R211), probes (R176). -/

namespace Sys2Proof.Machine

/-! ### Page writers, shared by the capture writer and the relay writer -/

/-- The address of a page of a ring (R209). -/
def Ring.pageAddr (r : Ring) (n : Nat) : Nat := r.leaf + 16 + n * r.size

/-- A state word EMPTY, FILLED, TAKEN, FULL of a page (R211). -/
def pageEmpty : Nat := 0
def pageFilled : Nat := 1
def pageTaken : Nat := 2
def pageFull : Nat := 3

/-- The state word of a page, as the part reads it (R201). -/
def Ring.stateOf (r : Ring) (ram : List Host.Cell) (n : Nat) : Nat := ramNum ram (r.pageAddr n) 4

/-- The page a writer would open next (R182). -/
def Writer.nextPage (w : Writer) (r : Ring) : Nat :=
  match w.page with
  | none => w.pos
  | some _ => (w.pos + 1) % r.pages

/-- The open page takes a record of a size (R182). -/
def Writer.fits (w : Writer) (r : Ring) (size : Nat) : Bool :=
  match w.page with
  | none => false
  | some p => decide (p.used + size ≤ r.size)

/-- Whether a record of a size has room, and the writer after asking: it becomes blocked when it finds the page it
needs not EMPTY (R182, R184). -/
def Writer.room (w : Writer) (r : Ring) (ram : List Host.Cell) (size : Nat) : Bool × Writer :=
  if w.fits r size then (true, w)
  else if w.blocked then (false, w)
  else if r.stateOf ram (w.nextPage r) = pageEmpty then (true, w)
  else (false, { w with blocked := true })

/-- Commit the open page: its header takes the record count, the sequence number and, in a capture page, the gap count,
and its state word becomes FULL (R183, R204). The ring position stays. -/
def Writer.commit (w : Writer) (r : Ring) (ram : List Host.Cell) (p : OpenPage) : Writer × List Host.Cell :=
  ({ w with page := none, seq := w.seq + 1, gap := 0 },
   ramWrite ram (r.pageAddr w.pos)
     (leBytes 4 pageFull ++ leBytes 2 p.count ++ leBytes 2 w.seq.toNat ++ leBytes 2 w.gap ++ zeros 6))

/-- Move the ring position to the next page (R182, R183). -/
def Writer.advance (w : Writer) (r : Ring) : Writer := { w with pos := (w.pos + 1) % r.pages }

/-- Write a record that has room (R182): commit the open page when it cannot take it, open a page when none is open,
and append the record. Answers also whether a page was committed. -/
def Writer.write (w : Writer) (r : Ring) (ram : List Host.Cell) (now : Word) (flush : Duration) (bytes : List Byte) :
    Writer × List Host.Cell × Bool :=
  let (w, ram, committed) :=
    match w.page with
    | none => (w, ram, false)
    | some p =>
      if p.used + bytes.length ≤ r.size then (w, ram, false)
      else
        let c := w.commit r ram p
        (c.1.advance r, c.2, true)
  let p := w.page.getD { used := 16, count := 0, deadline := if flush.isZero then none else some (after now flush) }
  ({ w with page := some { p with used := p.used + bytes.length, count := p.count + 1 } },
   ramWrite ram (r.pageAddr w.pos + p.used) bytes, committed)

/-! ### Capture records (R179, R180, R211) -/

/-- A capture record before it is stored. Optional fields are absent as `none`. -/
structure CaptureRecord where
  event   : Bool
  source  : Nat
  slot    : Byte
  subject : Option Byte
  cls     : Option Byte
  code    : Byte
  grant   : Option Byte
  outcome : Option Byte
  reason  : Option Byte
  probe   : Option Byte
  stamp   : Option (Word × Word)
  length  : Nat
  content : List Byte
  deriving DecidableEq, Repr

/-- The stored form: the 32-byte header and the content, padded to a multiple of 4 (R181, R211). -/
def CaptureRecord.bytes (c : CaptureRecord) (now : Word) : List Byte :=
  [flagByte c.event, BitVec.ofNat 8 c.source, c.slot, orOnes c.subject, orOnes c.cls, c.code, orOnes c.grant,
   orOnes c.outcome, orOnes c.reason, orOnes c.probe, flagByte c.stamp.isSome, 0]
  ++ leBytes 4 now.toNat
  ++ (match c.stamp with
    | none => List.replicate 8 0xFF
    | some (a, b) => leBytes 4 a.toNat ++ leBytes 4 b.toNat)
  ++ leBytes 2 c.length ++ leBytes 2 c.content.length ++ zeros 4
  ++ pad4 c.content

/-- The size a record with so much content takes in a page (R181). -/
def recordSize (content : Nat) : Nat := 32 + round4 content

/-- The capture ring, when a directory with one is loaded. -/
def Tables.captureRing (t : Tables) : Option Ring := t.dir.bind (·.capture)

/-- Ask for room for a capture record (R182); without a ring there is none. -/
def captureRoom (t : Tables) (f : Flow) (size : Nat) : Bool × Flow :=
  match t.captureRing with
  | none => (false, f)
  | some r =>
    let a := f.writer.room r f.ram size
    (a.1, { f with writer := a.2 })

/-- Write a record that has room; a commit sets CAPTURE (R182, R183). -/
def captureWrite (t : Tables) (f : Flow) (c : CaptureRecord) : Flow :=
  match t.captureRing with
  | none => f
  | some r =>
    let a := f.writer.write r f.ram t.now t.captureFlush (c.bytes t.now)
    let f := { f with writer := a.1, ram := a.2.1 }
    if a.2.2 then f.setNews .capture else f

/-- A non-binding record without room is lost: the pending gap count rises, held at 65,535, and CAPTURE_GAP is set
(R185). -/
def captureLost (f : Flow) : Flow :=
  { f with writer := { f.writer with gap := min 65535 (f.writer.gap + 1) } }.setNews .captureGap

/-- Offer a record that is not binding: written when there is room, lost otherwise (R182, R185). -/
def captureOffer (t : Tables) (f : Flow) (c : CaptureRecord) : Flow :=
  let a := captureRoom t f (recordSize c.content.length)
  if a.1 then captureWrite t a.2 c else captureLost a.2

/-- Offer a binding record: `none` when it finds no room, and then the writer is as the look for room left it
(R182, R185). -/
def captureBinding (t : Tables) (f : Flow) (c : CaptureRecord) : Bool × Flow :=
  let a := captureRoom t f (recordSize c.content.length)
  if a.1 then (true, captureWrite t a.2 c) else a

/-- Commit the open capture page, if any, and move on (R183: at the flush deadline, at STOPPING and at OFF). -/
def captureCommit (t : Tables) (f : Flow) : Flow :=
  match t.captureRing, f.writer.page with
  | some r, some p =>
    let a := f.writer.commit r f.ram p
    { f with writer := a.1.advance r, ram := a.2 }.setNews .capture
  | _, _ => f

/-! ### Event records (R180) -/

/-- An event record's fields (R180). -/
def eventRecord (source : Nat) (slot : Byte) (subject : Byte) (cls outcome reason : Option Byte)
    (content : List Byte) : CaptureRecord :=
  { event := true, source, slot, subject := some subject, cls, code := 0, grant := none, outcome, reason
    probe := none, stamp := none, length := 0, content }

/-- Offer an event record when event capture is on. `keep` is the size of a request record that the same admission
still has to write: an event record that would take that room is lost instead (R88); 0 keeps nothing. The look for that
room, when it finds none, does not make the writer blocked (log 38). -/
def event (t : Tables) (keep : Nat) (f : Flow) (c : CaptureRecord) : Flow :=
  if t.eventCapture then
    if keep = 0 then captureOffer t f c
    else
      let a := captureRoom t f (recordSize c.content.length)
      let g := captureWrite t a.2 c
      if !a.1 then captureLost a.2
      else if (captureRoom t g keep).1 then g else captureLost f
  else f

/-! ### Probes (R176) -/

def Direction.bit : Direction → Nat
  | .request => 0
  | .response => 1
  | .refusal => 2

def ServiceClass.num : ServiceClass → Nat
  | .read => 0
  | .maintain => 1
  | .session => 2
  | .adjust => 3
  | .program => 4
  | .barred => 5

def ServiceClass.byte (c : ServiceClass) : Byte := BitVec.ofNat 8 c.num

def ixByte {n : Nat} (i : Fin n) : Byte := BitVec.ofNat 8 i.val

/-- A probe matches an item. An absent ECU lies only in a set that names all 32 entries, an absent class only in one
that names all six classes (R176). -/
def Probe.matchesItem (p : Probe) (d : Direction) (k : Slot) (e : Option EcuIx) (c : Option ServiceClass) : Bool :=
  p.enabled && p.dirs.getLsbD d.bit && p.slots.getLsbD k.val
  && (match e with
    | none => p.ecus == BitVec.allOnes 32
    | some e => p.ecus.getLsbD e.val)
  && (match c with
    | none => p.classes == BitVec.allOnes 6
    | some c => p.classes.getLsbD c.num)

/-- The governing probe: the highest-numbered one that matches (R176). -/
def governing (t : Tables) (d : Direction) (k : Slot) (e : Option EcuIx) (c : Option ServiceClass) : Option ProbeIx :=
  (List.finRange 4).reverse.find? fun i => (t.probes.get i).matchesItem d k e c

/-- The page capacity limit (R181). -/
def Tables.contentCap (t : Tables) : Nat :=
  match t.captureRing with
  | none => 0
  | some r => r.size - 48

/-- The terms of a probe for a record offered now: its number, and the least of its content limit and the page capacity
limit (R177, R179). -/
def probeTerms (t : Tables) (i : ProbeIx) : ProbeTerms :=
  { number := i, limit := min (t.probes.get i).limit t.contentCap }

/-- The content a record carries under the terms of a probe: the first bytes; none without a probe (R179, R177). -/
def contentFor (g : Option ProbeTerms) (payload : List Byte) : List Byte :=
  match g with
  | none => []
  | some x => payload.take x.limit

/-- The probe that governs is binding. -/
def isBinding (t : Tables) (g : Option ProbeIx) : Bool :=
  match g with
  | none => false
  | some i => (t.probes.get i).binding

/-- A message record (R179). -/
def messageRecord (d : Direction) (k : Slot) (e : Option EcuIx) (c : Option ServiceClass) (code : Byte)
    (grant : Option GrantIx) (reason : Option Reason) (g : Option ProbeTerms) (stamp : Option (Word × Word))
    (length : Nat) (payload : List Byte) : CaptureRecord :=
  { event := false, source := d.bit, slot := ixByte k, subject := e.map ixByte, cls := c.map ServiceClass.byte, code
    grant := grant.map ixByte, outcome := reason.map Reason.byte, reason := none
    probe := g.map fun x => ixByte x.number, stamp, length, content := contentFor g payload }

/-- A refusal record: the 3-byte refusal message, with message length 3; for a malformed message no content and the
length it declared (R179, R22). -/
def refusalRecord (t : Tables) (k : Slot) (e : Option EcuIx) (c : Option ServiceClass) (code : Byte)
    (grant : Option GrantIx) (r : Reason) (declared : Option Nat) (g : ProbeTerms) : CaptureRecord :=
  match declared with
  | none => messageRecord .refusal k e c code grant (some r) (some g) none 3 (refusalBytes t code r)
  | some n => messageRecord .refusal k e c code grant (some r) (some g) none n []

/-- Offer a refusal record with the probes as they stand (R177). Answers its terms when it is binding and finds no room;
then it is neither written nor lost. `declared` is the length of a malformed message. -/
def captureRefusal (t : Tables) (f : Flow) (k : Slot) (e : Option EcuIx) (c : Option ServiceClass) (code : Byte)
    (grant : Option GrantIx) (r : Reason) (declared : Option Nat) : Option ProbeTerms × Flow :=
  match governing t .refusal k e c with
  | none => (none, f)
  | some i =>
    let g := probeTerms t i
    let x := refusalRecord t k e c code grant r declared g
    if (t.probes.get i).binding then
      let a := captureBinding t f x
      (if a.1 then none else some g, a.2)
    else (none, captureOffer t f x)

end Sys2Proof.Machine
end

