-- ==== Sys2Proof/Machine/Store.lean ====
section
/-! DEFINITION. The message store: accounts, charging, releasing and the waiting list (R58 to R68). -/

namespace Sys2Proof.Machine

/-! ### Accounts (R60) -/

def Grade.num : Grade → Nat
  | .routine => 0
  | .heavy => 1

theorem Grade.num_lt (g : Grade) : g.num < 2 := by cases g <;> decide

/-- The slot-grade reserve of a slot: account 2s, or 2s + 1 for HEAVY. -/
def acctSlotGrade (k : Slot) (g : Grade) : AccountIx :=
  ⟨2 * k.val + g.num, by have := k.isLt; have := g.num_lt; omega⟩

/-- The slot reserve of a slot: account 32 + s. -/
def acctSlot (k : Slot) : AccountIx := ⟨32 + k.val, by have := k.isLt; omega⟩

/-- The grade shared account: 48 ROUTINE, 49 HEAVY. -/
def acctGrade (g : Grade) : AccountIx := ⟨48 + g.num, by have := g.num_lt; omega⟩

/-- The common shared account. -/
def acctCommon : AccountIx := 50

/-- The sum, over the 48 reserve accounts, of a figure. -/
def sumReserve (g : AccountIx → Nat) : Nat :=
  ((List.finRange 48).map fun i => g ⟨i.val, by have := i.isLt; omega⟩).sum

/-- Threshold less usage over the 48 reserve accounts (R61). -/
def reservation (thr usage : Vector Nat 51) : Nat := sumReserve fun a => thr.get a - usage.get a

/-- The unused reservation (R61). -/
def unusedReservation (t : Tables) (f : Flow) : Nat := reservation t.thresholds f.usage

/-! ### Charging (R62, R63) -/

/-- How many cells an account may still take. -/
def acctRoom (t : Tables) (f : Flow) (a : AccountIx) : Nat := t.thresholds.get a - f.usage.get a

/-- The division of `n` cells over the four accounts of a slot and grade, in the order of R62. -/
def divideCells (t : Tables) (f : Flow) (k : Slot) (g : Grade) (n : Nat) : Charge :=
  let a := min n (acctRoom t f (acctSlotGrade k g))
  let b := min (n - a) (acctRoom t f (acctSlot k))
  let c := min (n - a - b) (acctRoom t f (acctGrade g))
  let d := min (n - a - b - c) (acctRoom t f acctCommon)
  { slot := k, grade := g, cells := n, slotGrade := a, slotReserve := b, gradeShared := c, common := d }

/-- The reserve part of a charge (R62). -/
def Charge.reservePart (c : Charge) : Nat := c.slotGrade + c.slotReserve
/-- The sharing part of a charge (R62). -/
def Charge.sharingPart (c : Charge) : Nat := c.gradeShared + c.common

/-- The two conditions of R63: the partial counts add up, and a charge with a sharing part leaves at least the unused
reservation free. -/
def chargeFits (t : Tables) (f : Flow) (c : Charge) : Bool :=
  decide (c.reservePart + c.sharingPart = c.cells)
  && (c.sharingPart == 0 || decide (unusedReservation t f - c.reservePart + c.cells ≤ f.free))

/-- Usages with a charge record's counts added. -/
def usageAdd (u : Vector Nat 51) (c : Charge) : Vector Nat 51 :=
  let u := Vector.modifyRow u (acctSlotGrade c.slot c.grade) (· + c.slotGrade)
  let u := Vector.modifyRow u (acctSlot c.slot) (· + c.slotReserve)
  let u := Vector.modifyRow u (acctGrade c.grade) (· + c.gradeShared)
  Vector.modifyRow u acctCommon (· + c.common)

/-- Usages with a charge record's counts taken away. -/
def usageSub (u : Vector Nat 51) (c : Charge) : Vector Nat 51 :=
  let u := Vector.modifyRow u (acctSlotGrade c.slot c.grade) (· - c.slotGrade)
  let u := Vector.modifyRow u (acctSlot c.slot) (· - c.slotReserve)
  let u := Vector.modifyRow u (acctGrade c.grade) (· - c.gradeShared)
  Vector.modifyRow u acctCommon (· - c.common)

/-- A charge, whole or not at all (R63). -/
def charge (t : Tables) (f : Flow) (k : Slot) (g : Grade) (n : Nat) : Option (Flow × Charge) :=
  let c := divideCells t f k g n
  if chargeFits t f c then some ({ f with free := f.free - n, usage := usageAdd f.usage c }, c) else none

/-- A release returns exactly the recorded counts (R65). The offer to the waiting list follows as an act of its own. -/
def releaseCharge (f : Flow) (c : Charge) : Flow :=
  { f with free := f.free + c.cells, usage := usageSub f.usage c }

/-! ### The waiting list (R67, R68) -/

/-- A claimant enters the waiting list at its end (R67). -/
def Flow.enterWait (f : Flow) (t : Tables) (who : Claimant) (k : Slot) (g : Grade) (n : Nat) : Flow :=
  { f with waiting := f.waiting ++ [{ who, slot := k, grade := g, cells := n, since := t.now }] }

/-- A claimant leaves the waiting list (R68). -/
def Flow.leaveWait (f : Flow) (who : Claimant) : Flow :=
  { f with waiting := f.waiting.filter fun w => w.who != who }

/-- One try of an offer: an entry whose charge is made leaves the list, one whose charge fails stays in its place (R68). -/
def tryWaiter (t : Tables) (a : Flow × List (Claimant × Charge)) (w : Waiter) : Flow × List (Claimant × Charge) :=
  match charge t a.1 w.slot w.grade w.cells with
  | none => a
  | some (g, h) => (g.leaveWait w.who, a.2 ++ [(w.who, h)])

/-- The store offers its cells to the waiting list, oldest entry first, each try with the accounts and the free count as
the earlier ones left them (R68). Answers who got a charge, in that order. -/
def offerCells (t : Tables) (f : Flow) : Flow × List (Claimant × Charge) := f.waiting.foldl (tryWaiter t) (f, [])

/-- A TB context leaves its slot's place waiting order (R79). -/
def Flow.leavePlace (f : Flow) (k : Slot) (c : CtxIx) : Flow :=
  f.modSlot k fun x => { x with placeWait := x.placeWait.filter (· != c) }

end Sys2Proof.Machine
end

