-- ==== Sys2Proof/Machine/Claims.lean ====
section
/-! DEFINITION. Marking held heads for evaluation again (R93, R94), claim records and their changes (R121 to R136), and
the end of an outstanding entry (R113). -/

namespace Sys2Proof.Machine

/-! ### Evaluations again that are due (R93, R94; log 10) -/

/-- Add the held heads an event concerns, in rising slot number from the visit position. Every event adds a run of its own:
a head that an earlier event made due, and that was not evaluated yet, stands in both (R94; log 10). -/
def Flow.markHeads (f : Flow) (p : Slot → Held → Bool) : Flow :=
  let ks := (slotsFrom f.visitPos).filter fun k =>
    match (f.slots.get k).held with
    | none => false
    | some h => p k h
  { f with again := f.again ++ ks }

/-- The reasons evaluated again at a claim change of the held ECU (R93). -/
def HoldReason.onClaim : HoldReason → Bool
  | .condition | .claimed | .closing => true
  | .suspended | .pair | .outstanding | .capture | .portQueue => false

/-! ### Conditions (R25, R28) -/

/-- The qualified value (R25). -/
def Condition.qualified (c : Condition) : Bool :=
  match c.qual with
  | .isTrue | .falling => true
  | .isFalse | .rising => false

/-- A condition set is satisfied when every condition in it is qualified TRUE (R28). -/
def satisfied (t : Tables) (cs : CondSet) : Bool :=
  (List.finRange 6).all fun i => !cs.getLsbD i.val || (t.conds.get i).qualified

/-! ### Claim changes (R136) -/

inductive ClaimEvent where
  | taken | raised | halted | resumed | released | freed
  deriving DecidableEq, Repr

def ClaimEvent.byte : ClaimEvent → Byte
  | .taken => 0
  | .raised => 1
  | .halted => 2
  | .resumed => 3
  | .released => 4
  | .freed => 5

/-- Release causes in the order of R121. -/
def ReleaseCause.byte : ReleaseCause → Byte
  | .holdOff => 0
  | .order => 1
  | .detach => 2
  | .jobEnd => 3
  | .support => 4
  | .stopping => 5

/-- Close outcomes in the order of R121. -/
def CloseOutcome.byte : CloseOutcome → Byte
  | .noOutcome => 0
  | .empty => 1
  | .answered => 2
  | .noAnswer => 3
  | .undelivered => 4

/-- The class a claim level stands for in the class field of an event record (R180; log 19). -/
def ClaimLevel.cls : ClaimLevel → ServiceClass
  | .adjust => .adjust
  | .program => .program

/-- What the host sees of a claim change: the CLAIM flag and the event record (R136). -/
def claimReport (t : Tables) (keep : Nat) (f : Flow) (e : EcuIx) (ev : ClaimEvent) (reason : Option Byte)
    (content : List Byte) : Flow :=
  let c := f.claims.get e
  event t keep (f.setNews .claim)
    (eventRecord 5 (ixByte c.holder) (ixByte e) (some c.level.cls.byte) (some ev.byte) reason content)

/-- A held head that a change of the claims in `es` concerns (R93). -/
def Held.onClaimOf (h : Held) (es : EcuIx → Bool) : Bool :=
  h.reason.onClaim && match h.ecu with
    | none => false
    | some e => es e

/-- The effects of a claim change: the heads held on this ECU, the CLAIM flag, the event record (R136). -/
def claimChanged (t : Tables) (keep : Nat) (f : Flow) (e : EcuIx) (ev : ClaimEvent) (reason : Option Byte)
    (content : List Byte) : Flow :=
  claimReport t keep (f.markHeads fun _ h => h.onClaimOf (· == e)) e ev reason content

/-- A claim is in force: HELD or HALTED. -/
def Claim.inForce (c : Claim) : Bool := c.state == .held || c.state == .halted

/-! ### Orders on the board (R200, R210) -/

def OrderResult.byte : OrderResult → Byte
  | .ok => 0
  | .badOrder => 1
  | .badParam => 2
  | .noEntry => 3
  | .inUse => 4
  | .busy => 5
  | .state => 6
  | .memoryError => 7

/-- The address of an order slot (R209). -/
def Directory.orderAddr (d : Directory) (n : Nat) : Nat := d.board + 16 + 64 * n

/-- End an order: its result code and its detail are written, then its state word DONE, and ORDER_DONE is set (R200). -/
def orderDone (t : Tables) (f : Flow) (n : Nat) (r : OrderResult) (detail : List Byte) : Flow :=
  match t.dir with
  | none => f
  | some d =>
    let a := d.orderAddr n
    let ram := ramWrite f.ram (a + 5) [r.byte]
    let ram := ramWrite ram (a + 8) (padTo 12 detail)
    { f with ram := ramWrite ram a (leBytes 4 3) }.setNews .orderDone

/-! ### The closing sequence (R129 to R133) -/

/-- A claim takes the free close buffer of its port or stands at the end of the close list (R130). -/
def enterBuffer (t : Tables) (f : Flow) (e : EcuIx) : Flow :=
  let ecu := t.ecus.get e
  match (f.vbs.get ecu.port).closeBuf with
  | none =>
    (f.modVb ecu.port fun v => { v with closeBuf := some { ecu := e, bytes := ecu.closeMsg } }).modClaim e
      fun c => { c with phase := some .sending }
  | some _ =>
    (f.modVb ecu.port fun v => { v with closeList := v.closeList ++ [e] }).modClaim e
      fun c => { c with phase := some .waitBuffer }

/-- A closing that used the port's close buffer frees it, and the oldest claim in the close list takes it (R130,
R133). -/
def passBuffer (t : Tables) (f : Flow) (e : EcuIx) : Flow :=
  let v := (t.ecus.get e).port
  match (f.vbs.get v).closeBuf with
  | none => f
  | some b =>
    if b.ecu = e then
      match (f.vbs.get v).closeList with
      | [] => f.modVb v fun x => { x with closeBuf := none }
      | n :: rest =>
        (f.modVb v fun x =>
          { x with closeBuf := some { ecu := n, bytes := (t.ecus.get n).closeMsg }, closeList := rest }).modClaim n
          fun c => { c with phase := some .sending }
    else f

/-- Every RELEASE_CLAIM order waiting for this claim ends with the cause, the outcome and the answer byte (R135). -/
def endReleaseOrders (t : Tables) (f : Flow) (e : EcuIx) (cause : Option ReleaseCause) (o : CloseOutcome)
    (answer : Option Byte) : Flow :=
  let mine := f.releaseWaits.filter fun w => w.ecu == e
  let f := { f with releaseWaits := f.releaseWaits.filter fun w => w.ecu != e }
  mine.foldl (fun f w =>
    orderDone t f w.orderSlot .ok ([orOnes (cause.map ReleaseCause.byte), o.byte] ++ optByteBytes answer)) f

/-- A closing ends (R133). -/
def closeEnd (t : Tables) (keep : Nat) (f : Flow) (e : EcuIx) (o : CloseOutcome) (answer : Option Byte) : Flow :=
  let cause := (f.claims.get e).cause
  let f := f.modClaim e fun c =>
    { c with outcome := o, answer, state := .free, cause := none, phase := none, closeDeadline := none }
  let f := passBuffer t f e
  let f := endReleaseOrders t f e cause o answer
  claimChanged t keep f e .freed (some o.byte) answer.toList

/-- The closing goes on once no entry of the holder to the ECU is left: to the close buffer, or to its end when the
close message is empty (R129). -/
def closingProceeds (t : Tables) (keep : Nat) (f : Flow) (e : EcuIx) : Flow :=
  if (t.ecus.get e).closeMsg = [] then closeEnd t keep f e .empty none else enterBuffer t f e

/-- Release a claim in HELD or HALTED (R127, R129); a claim in another state is not touched. `entering` says that the
admission in progress is about to create the entry the closing waits for (R97, R98). The phase is set before the claim
change reaches the other blocks, so that a closing that ends at once makes its FREED record after RELEASED. -/
def claimRelease (t : Tables) (keep : Nat) (entering : Bool) (f : Flow) (e : EcuIx) (cause : ReleaseCause) : Flow :=
  let c := f.claims.get e
  if c.inForce then
    let waits := entering || (f.entryOf c.holder e).isSome
    let f := f.modClaim e fun c =>
      { c with state := .closing, cause := some cause, holdOff := none, phase := some .waitEntry }
    let f := claimChanged t keep f e .released (some cause.byte) []
    if waits then f else closingProceeds t keep f e
  else f

/-- Release every claim a slot holds (R128), in rising ECU number (log 31). -/
def releaseClaimsOf (t : Tables) (f : Flow) (k : Slot) (cause : ReleaseCause) : Flow :=
  (List.finRange 32).foldl (fun f e =>
    if (f.claims.get e).holder == k then claimRelease t 0 false f e cause else f) f

/-- A response of the ECU was delivered to its holder, or a request of the holder was admitted: the hold-off of a claim
in force restarts (R125). -/
def refreshClaim (t : Tables) (f : Flow) (k : Slot) (e : EcuIx) : Flow :=
  let c := f.claims.get e
  if c.inForce && c.holder == k then
    f.modClaim e fun c => { c with holdOff := some (after t.now (t.ecus.get e).holdOff) }
  else f

/-! ### The end of an outstanding entry (R113) -/

/-- The entry is free, its pair with it; heads held for the pair or for an outstanding place are evaluated again, and a
closing that waits for it goes on. -/
def entryEnd (t : Tables) (f : Flow) (i : EntryIx) : Flow :=
  match f.entries.get i with
  | none => f
  | some x =>
    let f := { f with entries := Vector.putRow f.entries i none, delivering := f.delivering.filter (· != i) }
    let f := f.markHeads fun k h =>
      h.reason == .outstanding || (h.reason == .pair && k == x.slot && h.ecu == some x.ecu)
    let c := f.claims.get x.ecu
    if c.state == .closing && c.phase == some .waitEntry && c.holder == x.slot then closingProceeds t 0 f x.ecu else f

end Sys2Proof.Machine
end

