-- ==== Sys2Proof/Machine/Ports.lean ====
section
/-! DEFINITION. The bus ports: frames due and on the bus (R142), the transmitter (R143, R144), reassembly contexts
(R145), and which frames a port accepts (R140). -/

namespace Sys2Proof.Machine

/-! ### Putting frames on the bus (R142) -/

/-- The minimum frame spacing since the start of the last frame has passed; the elapsed count is taken over one whole wrap
(log 29). -/
def spacingPassed (t : Tables) (p : PortId) (x : PortFlow) : Bool :=
  match x.lastStart with
  | none => true
  | some w => decide ((t.port p).spacing.ms ≤ (t.now - w).toNat)

/-- Start the next due frame when none is on the bus and the spacing has passed: the CREDIT and ABORT frames of the
contexts first, in the order in which they became due, then the transmitter's (R142; log 14). The spacing counts from the
last frame started, withdrawn or not (log 35). -/
def startFrame (t : Tables) (p : PortId) (x : PortFlow) : PortFlow :=
  match x.onBus with
  | some _ => x
  | none =>
    if spacingPassed t p x then
      match x.control, x.txDue with
      | d :: rest, _ => { x with onBus := some d, control := rest, lastStart := some t.now }
      | [], d :: rest => { x with onBus := some d, txDue := rest, lastStart := some t.now }
      | [], [] => x
    else x

/-- Try to start a frame on every port. -/
def startFrames (t : Tables) (f : Flow) : Flow :=
  [PortId.tb, .vb 0, .vb 1, .vb 2].foldl (fun f p => f.modPort p (startFrame t p)) f

/-- The frame of a body from the part to a target, under the addresses given (R140). -/
def mkFrame (t : Tables) (p : PortId) (target source : Byte) (data : List Byte) : Frame :=
  { id := frameId (t.port p) target source, data }

/-- A CREDIT or ABORT frame becomes due, and starts at once when the bus is free and the spacing has passed: inside the
event, not at its end (R142; log 14). -/
def pushControl (t : Tables) (f : Flow) (p : PortId) (owner : FrameOwner) (target source : Byte) (data : List Byte) :
    Flow :=
  f.modPort p fun x =>
    startFrame t p
      { x with control := x.control ++ [{ frame := mkFrame t p target source data, owner, due := t.now }] }

/-- A frame of the transmitter becomes due, and starts at once when it may (R142; log 14). -/
def pushTx (t : Tables) (f : Flow) (p : PortId) (owner : FrameOwner) (target source : Byte) (data : List Byte) : Flow :=
  f.modPort p fun x =>
    startFrame t p
      { x with txDue := x.txDue ++ [{ frame := mkFrame t p target source data, owner, due := t.now }] }

/-- A frame no longer belongs to its former owner. -/
def DueFrame.disown (o : FrameOwner) (d : DueFrame) : DueFrame := if d.owner = o then { d with owner := .nobody } else d

/-! ### The transmitter (R143, R144) -/

/-- A transfer begins in phase FIRST with its SINGLE or OPEN due (R143). -/
def startTransfer (t : Tables) (f : Flow) (p : PortId) (source target : Byte) (payload : List Byte) (cargo : Cargo) :
    Flow :=
  let single := decide (payload.length ≤ 7)
  let f := f.modPort p fun x =>
    { x with tx := some { source, target, payload, segments := segmentsSent payload.length, sent := 0
                          granted := 0, stalls := 0, deadline := none, phase := .first, cargo } }
  pushTx t f p .transmitter target source (if single then singleData payload else openData payload)

/-- Change the transfer of a port's transmitter. -/
def modTx (f : Flow) (p : PortId) (g : Transfer → Transfer) : Flow :=
  f.modPort p fun x => { x with tx := x.tx.map g }

/-- The NEXT frame the transfer sends next becomes due (R143). -/
def pushNext (t : Tables) (f : Flow) (p : PortId) : Flow :=
  match (f.port p).tx with
  | none => f
  | some x => pushTx t f p .transmitter x.target x.source (nextData x.payload x.sent)

/-- The transmitter becomes IDLE; no further frame of its transfer is sent (R142, R144). -/
def idleTx (f : Flow) (p : PortId) : Flow :=
  f.modPort p fun x =>
    { x with tx := none, txDue := x.txDue.filter (·.owner != .transmitter)
             onBus := x.onBus.map (DueFrame.disown .transmitter) }

/-! ### Reassembly contexts (R145) -/

def Flow.ctx (f : Flow) (p : PortId) (c : CtxIx) : Option Ctx := (f.port p).ctxs.get c

def Flow.putCtx (f : Flow) (p : PortId) (c : CtxIx) (x : Option Ctx) : Flow :=
  f.modPort p fun y => { y with ctxs := Vector.putRow y.ctxs c x }

/-- The context in use for a key (R145: at most one). -/
def Flow.findCtx (f : Flow) (p : PortId) (source target : Byte) : Option CtxIx :=
  (List.finRange 8).find? fun c =>
    match f.ctx p c with
    | none => false
    | some x => x.source == source && x.target == target

/-- The lowest-numbered free context (R145). -/
def Flow.freeCtx (f : Flow) (p : PortId) : Option CtxIx :=
  (List.finRange 8).find? fun c => (f.ctx p c).isNone

/-- The claimant that a context is (R67). -/
def ctxClaimant (p : PortId) (c : CtxIx) : Claimant :=
  match p with
  | .tb => .tbCtx c
  | .vb v => .vbCtx v c

/-- The context becomes free: it leaves the waiting list and the place waiting order, and its due frames are nobody's
(R148; log 14). Its cells and its place are left to the caller. -/
def freeContext (f : Flow) (p : PortId) (c : CtxIx) : Flow :=
  match f.ctx p c with
  | none => f
  | some x =>
    let f := f.putCtx p c none
    let f := f.leaveWait (ctxClaimant p c)
    let f := match x.owner with
      | .slot k => f.leavePlace k c
      | .entry _ | .close _ => f
    f.modPort p fun y =>
      { y with control := y.control.map (DueFrame.disown (.context c))
               onBus := y.onBus.map (DueFrame.disown (.context c)) }

/-- The context is restarted by a second first frame: it sends no frame for the old transfer, and one that waits for a place
loses its turn in the place waiting order (R146; log 14). -/
def dropContext (f : Flow) (p : PortId) (c : CtxIx) : Flow :=
  (freeContext (f.modPort p fun y => { y with control := y.control.filter (·.owner != .context c) }) p c)

/-- An ABORT from the part as receiver: the two addresses of the data frames swapped (R140). One that belongs to no context
stands with the CREDIT and ABORT frames of the contexts, in the order in which they became due (R142; log 14). -/
def abortTo (t : Tables) (f : Flow) (p : PortId) (source target : Byte) (r : AbortReason) : Flow :=
  pushControl t f p .nobody source target (abortData r)

/-- A GRANT of the window or the segments that remain, whichever is less, with the gap timer restarted (R146, R147). -/
def sendGrant (t : Tables) (f : Flow) (p : PortId) (c : CtxIx) (x : Ctx) : Flow :=
  let n := min (t.port p).window (x.segments - x.received)
  let f := f.putCtx p c (some { x with granted := n, timer := .gap (after t.now (t.port p).gap), wait := .noWait })
  pushControl t f p (.context c) x.source x.target (grantData n)

/-! ### Acceptance (R140, R150) -/

/-- The port takes a frame: the part is RUNNING or STOPPING (R154), bits 28:27 are 0 (R216), the kind is the port's,
and on a VB port the target is the part's node address or a vehicle-side address some slot holds (R140). -/
def accepts (t : Tables) (f : Flow) (p : PortId) (fr : Frame) : Bool :=
  t.active && frHigh fr == 0 && frKind fr == (t.port p).kind
  && match p with
    | .tb => true
    | .vb _ =>
      frTarget fr == (t.port p).node
      || (List.finRange 16).any fun k => holdsAddr t f k && (t.testers.get k).vsAddr == frTarget fr

/-- The ATTACHED BUS slot of a TB address (R7). -/
def busSlot (t : Tables) (a : Byte) : Option Slot :=
  (List.finRange 16).find? fun k =>
    (t.testers.get k).attached && (t.testers.get k).kind == .bus && (t.testers.get k).tbAddr == a

/-- The ATTACHED RELAY slot bound to an identity (R7). -/
def relaySlot (t : Tables) (a : Byte) : Option Slot :=
  (List.finRange 16).find? fun k =>
    (t.testers.get k).attached && (t.testers.get k).kind == .relay && (t.testers.get k).relayId == a

/-- The ATTACHED JOB slot bound to a context (R7). -/
def jobSlot (t : Tables) (j : JobIx) : Option Slot :=
  (List.finRange 16).find? fun k =>
    (t.testers.get k).attached && (t.testers.get k).kind == .job && (t.testers.get k).jobCtx.toNat == j.val

end Sys2Proof.Machine
end

