-- ==== Sys2Proof/Machine/Acts.lean ====
section
/-! DEFINITION. The internal consequences of a command, as data (log 12). A command changes the state and leaves a list
of acts; each act changes the traffic and may put further acts before the rest, so that the effects come in the order
the rules give, each followed at once by what it causes (R65: "Every release is followed at once by the offer"). -/

namespace Sys2Proof.Machine

/-- Where a refusal or response item of a JOB slot comes from (R159): the head of the queue, or an entry to an ECU. -/
inductive ItemOrigin where
  | head
  | entry (e : EcuIx)
  deriving DecidableEq, Repr

/-- A first frame that the port takes in (R146), as it seeks room. `place` says that a restarted context kept its
inbound queue place. -/
structure FirstFrame where
  source    : Byte
  target    : Byte
  owner     : CtxOwner
  hold      : Bool
  single    : Bool
  length    : Nat
  malformed : Bool
  code      : Byte
  bytes     : List Byte
  place     : Bool
  deriving DecidableEq, Repr

inductive Act where
  /-- a message's course ends: its cells are released (R65) -/
  | release (c : Charge)
  /-- the store offers its cells to the waiting list (R68) -/
  | offer
  /-- a claimant of the waiting list got its charge (R68) -/
  | charged (w : Claimant) (c : Charge)
  /-- a place of the slot's inbound queue became free and is offered (R79) -/
  | placeFreed (k : Slot)
  /-- a first frame seeks room, in a context if it has one (R146, R150, R153) -/
  | seek (p : PortId) (i : Option CtxIx) (fr : FirstFrame)
  /-- a response is complete and handed to its entry (R109) -/
  | response (e : EntryIx) (m : Message)
  /-- the reassembly of an entry's response is abandoned, for want of cells or otherwise (R109) -/
  | abandoned (e : EntryIx) (forCells : Bool)
  /-- an entry ends TIMEOUT, OVERFLOW or UNDELIVERED, an ORPHANED one without a refusal (R111, R112) -/
  | refuseEntry (e : EntryIx) (r : Reason)
  /-- an ORPHANED entry ends, its response released (R109) -/
  | orphanEnds (e : EntryIx)
  /-- an entry in DELIVERING tries to place its held item (R110) -/
  | deliver (e : EntryIx)
  /-- a copy of an interim answer is placed if its entry and its slot still take one (R106, item 3) -/
  | interim (e : EntryIx) (payload : List Byte)
  /-- an item is placed in a slot's delivery queue (R114), or taken by the job unit at once (R117) -/
  | placeItem (k : Slot) (b : ItemBody) (source : Byte) (ecu : Option EcuIx) (origin : ItemOrigin)
  /-- the relay channel handles the record at its read position (R203) -/
  | relayTake
  /-- a job appends its charged message if the inbound queue has a place (R165) -/
  | jobAppend (j : JobIx)
  /-- a step of a job finishes or is skipped (R161, R163) -/
  | stepDone (j : JobIx)
  /-- a job ends (R173) -/
  | endJob (j : JobIx) (code : EndCode) (result : Byte) (last : Nat)
  /-- the rest of a head's refusal, once its cells are released: service code, target and ECU of its item (R90, items 3
  to 5) -/
  | refused (k : Slot) (r : Reason) (code target : Byte) (ecu : Option EcuIx)
  deriving DecidableEq, Repr

/-- The charge that an act carries. -/
def Act.charge : Act → Option Charge
  | .release c | .charged _ c => some c
  | .response _ m | .placeItem _ (.response m) _ _ _ => some m.charge
  | .offer | .placeFreed _ | .seek _ _ _ | .abandoned _ _ | .refuseEntry _ _ | .orphanEnds _ | .deliver _ | .interim _ _
  | .placeItem _ (.refusal _) _ _ _ | .placeItem _ (.interim _) _ _ _ | .relayTake | .jobAppend _ | .stepDone _
  | .endJob _ _ _ _ | .refused _ _ _ _ _ => none

/-- An offer, and the news of it for each claimant whose charge was made (R68). -/
def offered (t : Tables) (f : Flow) : Flow × List Act :=
  let a := offerCells t f
  (a.1, a.2.map fun x => .charged x.1 x.2)

/-- A release, followed at once by the offer (R65, R68). -/
def released (t : Tables) (f : Flow) (c : Charge) : Flow × List Act := offered t (releaseCharge f c)

end Sys2Proof.Machine
end

