-- ==== Sys2Proof/Machine/Outstanding.lean ====
section
/-! DEFINITION. Outstanding entries: the end of a response, delivering, refusals in place of a response, orphans
(R103, R109 to R112), and the reports of a transmitter's transfer (R103, R115, R131). -/

namespace Sys2Proof.Machine

/-- The item that an entry places when it ends (R110, R111, R114). -/
def entryItem (t : Tables) (x : Entry) (b : ItemBody) : Act :=
  .placeItem x.slot b (t.ecus.get x.ecu).node (some x.ecu) (.entry x.ecu)

/-- The entry enters DELIVERING with a held item (R109, R111). -/
def toDelivering (f : Flow) (e : EntryIx) (h : HeldItem) : Flow :=
  let f := f.modEntry e fun x => { x with state := .delivering, deadline := none, held := some h }
  { f with delivering := f.delivering ++ [e] }

/-- An ORPHANED entry ends: no record is offered for it and it places no item (R112). -/
def orphanEnds (t : Tables) (f : Flow) (e : EntryIx) : Flow :=
  match f.entries.get e with
  | none => f
  | some x => if x.state.isOrphan then entryEnd t f e else f

/-- A response is complete: an entry that is not ORPHANED goes to DELIVERING and tries to place it; an orphan's response
is released and then the entry ends (R109; log 34). An entry that holds an item already takes no other. -/
def responseComplete (f : Flow) (e : EntryIx) (m : Message) : Flow × List Act :=
  match f.entries.get e with
  | none => (f, [.release m.charge])
  | some x =>
    if x.state = .delivering then (f, [.release m.charge])
    else
      let f := f.countEcu x.ecu fun c => { c with responses := c.responses + 1 }
      if x.state.isOrphan then (f, [.release m.charge, .orphanEnds e])
      else (toDelivering f e (.response m), [.deliver e])

/-- The reassembly of a response is abandoned: OVERFLOW for want of cells, TIMEOUT otherwise; an orphan just ends
(R109). -/
def responseAbandoned (f : Flow) (t : Tables) (e : EntryIx) (forCells : Bool) : Flow × List Act :=
  match f.entries.get e with
  | none => (f, [])
  | some x =>
    if x.state.isOrphan then
      let f := if forCells then f else f.countEcu x.ecu fun c => { c with timeouts := c.timeouts + 1 }
      (entryEnd t f e, [])
    else if forCells then
      (f.countEcu x.ecu fun c => { c with responses := c.responses + 1 }, [.refuseEntry e .overflow])
    else
      (f.countEcu x.ecu fun c => { c with timeouts := c.timeouts + 1 }, [.refuseEntry e .timeout])

/-- An entry that is not ORPHANED ends with a refusal item once its record is written or lost; with a binding record
that finds no room it waits in DELIVERING, under the terms that the probes gave at this offer (R111, R177). An entry that
is ORPHANED just ends: no record is offered for it and it places no item (R112). The entry's end comes before its item is
placed (log 36). -/
def entryRefused (t : Tables) (f : Flow) (e : EntryIx) (r : Reason) : Flow × List Act :=
  match f.entries.get e with
  | none => (f, [])
  | some x =>
    match x.state with
    | .orphaned _ => (entryEnd t f e, [])
    | .delivering => (f, [])
    | .sending | .awaiting | .receiving =>
      let a := captureRefusal t f x.slot (some x.ecu) (some x.cls) x.code (some x.grant) r none
      match a.1 with
      | none => (entryEnd t a.2 e, [entryItem t x (.refusal (refusalBytes t x.code r))])
      | some g => (toDelivering a.2 e (.refusal r g), [])

/-- The capture record of a response, with the probes as they stand at the offer (R177, R179). -/
def responseRecord (t : Tables) (x : Entry) (m : Message) : CaptureRecord :=
  messageRecord .response x.slot (some x.ecu) (some x.cls) x.code (some x.grant) none
    ((governing t .response x.slot (some x.ecu) (some x.cls)).map (probeTerms t)) none m.length m.payload

/-- The capture record of a refusal that waits in DELIVERING, under the terms kept with it (R177). -/
def heldRefusalRecord (t : Tables) (x : Entry) (r : Reason) (g : ProbeTerms) : CaptureRecord :=
  refusalRecord t x.slot (some x.ecu) (some x.cls) x.code (some x.grant) r none g

/-- An entry in DELIVERING offers its item: a response that is not binding is offered for capture when a probe governs
it and then placed; a binding one is placed only once its record is written (R110). An entry that ends RESPONSE restarts
the hold-off of its slot's claim (R125). The entry's end reaches heads and closings before its item is placed (log 36). -/
def entryDeliver (t : Tables) (f : Flow) (e : EntryIx) : Flow × List Act :=
  match f.entries.get e with
  | none => (f, [])
  | some x =>
    match x.state, x.held with
    | .delivering, some (.response m) =>
      let a :=
        if x.binding then captureBinding t f (responseRecord t x m)
        else if (governing t .response x.slot (some x.ecu) (some x.cls)).isSome then
          (true, captureOffer t f (responseRecord t x m))
        else (true, f)
      if a.1 then (entryEnd t (refreshClaim t a.2 x.slot x.ecu) e, [entryItem t x (.response m)]) else (a.2, [])
    | .delivering, some (.refusal r g) =>
      let a := captureBinding t f (heldRefusalRecord t x r g)
      if a.1 then (entryEnd t a.2 e, [entryItem t x (.refusal (refusalBytes t x.code r))]) else (a.2, [])
    | _, _ => (f, [])

/-- An entry becomes ORPHANED; one in DELIVERING ends, and a response it held is released (R112). -/
def orphanEntry (t : Tables) (f : Flow) (e : EntryIx) : Flow × List Act :=
  match f.entries.get e with
  | none => (f, [])
  | some x =>
    match x.state with
    | .sending => (f.modEntry e fun x => { x with state := .orphaned .sending }, [])
    | .awaiting => (f.modEntry e fun x => { x with state := .orphaned .awaiting }, [])
    | .receiving => (f.modEntry e fun x => { x with state := .orphaned .receiving }, [])
    | .orphaned _ => (f, [])
    | .delivering =>
      (entryEnd t f e,
       match x.held with
        | some (.response m) => [.release m.charge]
        | some (.refusal _ _) | none => [])

/-- Every entry of a slot that is not already ORPHANED becomes ORPHANED (R13, R173), in rising entry number (log 31). -/
def orphanSlot (t : Tables) (f : Flow) (k : Slot) : Flow × List Act :=
  (List.finRange 40).foldl (fun a e =>
    match a.1.entries.get e with
    | none => a
    | some x => if x.slot == k then let b := orphanEntry t a.1 e; (b.1, a.2 ++ b.2) else a) (f, [])

/-- The state of an entry whose phase advances, kept ORPHANED if it is (R103, R107, R112). -/
def EntryState.toPhase (s : EntryState) (p : OrphanPhase) : EntryState :=
  match s, p with
  | .orphaned _, p => .orphaned p
  | _, .sending => .sending
  | _, .awaiting => .awaiting
  | _, .receiving => .receiving

/-- The entry waits for the end of its request's transfer: SENDING, or ORPHANED in that phase (R103). -/
def EntryState.inTransfer : EntryState → Bool
  | .sending | .orphaned .sending => true
  | .awaiting | .receiving | .delivering | .orphaned .awaiting | .orphaned .receiving => false

/-- The report of a request's transfer (R103): on success the entry awaits its response; on failure it ends UNDELIVERED,
and an orphan ends ORPHANED. -/
def requestSent (t : Tables) (f : Flow) (e : EntryIx) (ok : Bool) : Flow × List Act :=
  match f.entries.get e with
  | none => (f, [])
  | some x =>
    if !x.state.inTransfer then (f, [])
    else if ok then
      (f.modEntry e fun x =>
        { x with state := x.state.toPhase .awaiting, deadline := some (after t.now (t.ecus.get x.ecu).respTimeout) }, [])
    else
      (f.countEcu x.ecu fun c => { c with sendFailures := c.sendFailures + 1 }, [.refuseEntry e .undelivered])

/-- The report of a close transfer (R131). -/
def closeSent (t : Tables) (f : Flow) (e : EcuIx) (ok : Bool) : Flow :=
  if ok then
    f.modClaim e fun c =>
      { c with phase := some .awaiting, closeDeadline := some (after t.now (t.ecus.get e).respTimeout) }
  else closeEnd t 0 f e .undelivered none

/-- The release of an item's cells, when it has any (R70). -/
def ItemBody.releases : ItemBody → List Act
  | .response m => [.release m.charge]
  | .refusal _ | .interim _ => []

/-- A transfer ends: the transmitter becomes IDLE and reports to the block that gave it the message (R144, R151,
R152). A request's or a response's cells are released either way; those of a failed request before its entry ends, with
a refusal item or ORPHANED (log 34). -/
def transferEnd (t : Tables) (f : Flow) (p : PortId) (ok : Bool) : Flow × List Act :=
  match (f.port p).tx with
  | none => (f, [])
  | some x =>
    let f := idleTx f p
    match x.cargo with
    | .request m e =>
      let a := requestSent t f e ok
      (a.1, .release m.charge :: a.2)
    | .close e => (closeSent t f e ok, [])
    | .item k it =>
      (if ok then f else f.modSlot k fun y => { y with deliveryFails := y.deliveryFails + 1 }, it.body.releases)

/-- A transfer fails with ABORT TIMEOUT, a frame of the transmitter (R144). It is due before the release of the transfer's
cells, so on a free bus it starts before a GRANT which that release makes due (R142; log 14). -/
def transferTimeout (t : Tables) (f : Flow) (p : PortId) : Flow × List Act :=
  match (f.port p).tx with
  | none => (f, [])
  | some x =>
    let a := transferEnd t f p false
    (pushTx t a.1 p .nobody x.target x.source (abortData .timeout), a.2)

end Sys2Proof.Machine
end

