-- ==== Sys2Proof/Machine/Reassembly.lean ====
section
/-! DEFINITION. Taking a message in: room, waiting, completion and abandonment of reassembly contexts (R146 to R150,
R153), and the offers of cells and places to them (R68, R79). -/

namespace Sys2Proof.Machine

/-- Append a complete message at the tail of a slot's inbound queue (R77). -/
def appendInbound (f : Flow) (k : Slot) (target : Byte) (m : Message) : Flow :=
  f.modSlot k fun x => { x with inbound := x.inbound ++ [{ target, msg := m }] }

/-- The message a complete transfer leaves (R58, R22). -/
def ctxMessage (length : Nat) (malformed : Bool) (code : Byte) (bytes : List Byte) (c : Charge) : Message :=
  { charge := c, length, malformed, code, payload := if malformed then [] else bytes.take length }

/-- The context a first frame takes, before it has room (R145). -/
def FirstFrame.ctx (fr : FirstFrame) : Ctx :=
  { source := fr.source, target := fr.target, owner := fr.owner, hold := fr.hold, single := fr.single
    length := fr.length, malformed := fr.malformed, code := fr.code
    segments := if fr.single then 0 else segmentsFor fr.length, received := 0, index := 1, granted := 0, charge := none
    place := fr.place, bytes := fr.bytes, stalls := 0, timer := .noTimer, wait := .noWait }

/-- Cells a first frame needs (R69, R22). -/
def FirstFrame.cells (fr : FirstFrame) : Nat := if fr.malformed then 1 else cellsFor fr.length

/-- Hand a complete message to its owner (R109, R150); a close answer is not stored, and leaves no cells behind (R132). -/
def handOver (f : Flow) (owner : CtxOwner) (target : Byte) (m : Message) : Flow × List Act :=
  match owner with
  | .slot k => (appendInbound f k target m, [])
  | .entry e => (f, [.response e m])
  | .close _ => (f, [.release m.charge])

/-- An abandoned context releases its cells, frees its place, leaves its waiting orders, becomes free and tells its
owner (R148). -/
def abandonCtx (f : Flow) (p : PortId) (c : CtxIx) (forCells : Bool) : Flow × List Act :=
  match f.ctx p c with
  | none => (f, [])
  | some x =>
    (freeContext f p c,
     (match x.charge with
      | none => []
      | some h => [Act.release h])
     ++ (match x.owner with
      | .slot k => if x.place then [.placeFreed k] else []
      | .entry e => [.abandoned e forCells]
      | .close _ => []))

/-- A waiting context sends STALL while its count is below the stall limit, and ABORT NO_ROOM once the limit has passed:
on entry to the wait and at each expiry of its stall timer (R149). -/
def stallTick (t : Tables) (f : Flow) (p : PortId) (c : CtxIx) : Flow × List Act :=
  match f.ctx p c with
  | none => (f, [])
  | some x =>
    if x.stalls < (t.port p).stallLimit then
      let f := f.putCtx p c
        (some { x with stalls := x.stalls + 1, timer := .stall (after t.now (t.port p).stallInterval) })
      (pushControl t f p (.context c) x.source x.target stallData, [])
    else
      let f := abortTo t f p x.source x.target .noRoom
      abandonCtx f p c true

/-- A context in use goes on with its charge made: a waiting SINGLE is complete, an OPEN without segments sends DONE and
is complete, any other OPEN sends its first GRANT (R146, R149). Where no context waits any more, the charge is released
(R68). -/
def ctxCharged (t : Tables) (f : Flow) (p : PortId) (c : CtxIx) (h : Charge) : Flow × List Act :=
  match f.ctx p c with
  | none => (f, [.release h])
  | some x =>
    let m := ctxMessage x.length x.malformed x.code x.bytes h
    if x.charge.isSome then (f, [.release h])
    else if x.single then handOver (freeContext f p c) x.owner x.target m
    else if x.segments = 0 then
      let f := freeContext f p c
      let f := pushControl t f p .nobody x.source x.target doneData
      handOver f x.owner x.target m
    else (sendGrant t f p c { x with charge := some h }, [])

/-- A first frame that cannot wait: ABORT NO_ROOM, and a kept place is free again (R146, R150). -/
def noRoomFor (t : Tables) (f : Flow) (p : PortId) (fr : FirstFrame) : Flow × List Act :=
  (abortTo t f p fr.source fr.target .noRoom,
   match fr.owner with
   | .slot k => if fr.place then [.placeFreed k] else []
   | .entry e => [.abandoned e true]
   | .close _ => [])

/-- The free context a first frame waits in: its own, or for a SINGLE the lowest-numbered one (R146). -/
def waitCtx (f : Flow) (p : PortId) (i : Option CtxIx) : Option CtxIx :=
  match i with
  | some c => if (f.ctx p c).isNone then some c else none
  | none => f.freeCtx p

/-- Seek room on TB: a place of the slot's inbound queue, then cells (R150). -/
def seekTb (t : Tables) (f : Flow) (i : Option CtxIx) (fr : FirstFrame) (k : Slot) : Flow × List Act :=
  let place := fr.place || f.inboundFree k
  let grade := (classOf t fr.code).grade
  match (if place then charge t f k grade fr.cells else none) with
  | some (f, h) =>
    let m := ctxMessage fr.length fr.malformed fr.code fr.bytes h
    if fr.single then (appendInbound f k fr.target m, [])
    else if segmentsFor fr.length = 0 then
      (appendInbound (pushControl t f .tb .nobody fr.source fr.target doneData) k fr.target m, [])
    else
      match waitCtx f .tb i with
      | none => (f, [.release h])
      | some c => (sendGrant t f .tb c { fr.ctx with charge := some h, place := true }, [])
  | none =>
    if fr.hold then
      match waitCtx f .tb i with
      | none => noRoomFor t f .tb fr
      | some c =>
        if place then
          let f := f.putCtx .tb c (some { fr.ctx with place := true, wait := .cells })
          stallTick t (f.enterWait t (.tbCtx c) k grade fr.cells) .tb c
        else
          let f := f.putCtx .tb c (some { fr.ctx with wait := .place })
          stallTick t (f.modSlot k fun x => { x with placeWait := x.placeWait ++ [c] }) .tb c
    else noRoomFor t f .tb fr

/-- Seek room on a VB port for an entry's response: cells for the slot and grade of the entry (R107, R153). -/
def seekVb (t : Tables) (f : Flow) (v : VbIx) (i : Option CtxIx) (fr : FirstFrame) (e : EntryIx) : Flow × List Act :=
  match f.entries.get e with
  | none => (f, [])
  | some x =>
    match charge t f x.slot x.cls.grade fr.cells with
    | some (f, h) =>
      let m := ctxMessage fr.length fr.malformed fr.code fr.bytes h
      if fr.single then (f, [.response e m])
      else if segmentsFor fr.length = 0 then
        (pushControl t f (.vb v) .nobody fr.source fr.target doneData, [.response e m])
      else
        match waitCtx f (.vb v) i with
        | none => (f, [.release h])
        | some c => (sendGrant t f (.vb v) c { fr.ctx with charge := some h }, [])
    | none =>
      match waitCtx f (.vb v) i with
      | none => noRoomFor t f (.vb v) fr
      | some c =>
        let f := f.putCtx (.vb v) c (some { fr.ctx with wait := .cells })
        stallTick t (f.enterWait t (.vbCtx v c) x.slot x.cls.grade fr.cells) (.vb v) c

/-- Receive the rest of a close answer without storing it (R132, R153). -/
def seekClose (t : Tables) (f : Flow) (p : PortId) (i : Option CtxIx) (fr : FirstFrame) : Flow × List Act :=
  if fr.single then (f, [])
  else if segmentsFor fr.length = 0 then (pushControl t f p .nobody fr.source fr.target doneData, [])
  else
    match waitCtx f p i with
    | none => (abortTo t f p fr.source fr.target .busy, [])
    | some c => (sendGrant t f p c fr.ctx, [])

/-- A first frame seeks room for its owner. -/
def seekRoom (t : Tables) (f : Flow) (p : PortId) (i : Option CtxIx) (fr : FirstFrame) : Flow × List Act :=
  match fr.owner, p with
  | .slot k, _ => seekTb t f i fr k
  | .entry e, .vb v => seekVb t f v i fr e
  | .entry _, .tb => (f, [])
  | .close _, p => seekClose t f p i fr

/-- The oldest TB context waiting for a place of the slot takes the free place and charges its cells; when the charge
fails it goes on waiting for cells with its STALL count and timer (R79, R149). -/
def placeToCtx (t : Tables) (f : Flow) (k : Slot) (c : CtxIx) : Flow × List Act :=
  let f := f.leavePlace k c
  match f.ctx .tb c with
  | none => (f, [.placeFreed k])
  | some x =>
    let grade := (classOf t x.code).grade
    let n := if x.malformed then 1 else cellsFor x.length
    match charge t f k grade n with
    | some (f, h) => ctxCharged t (f.putCtx .tb c (some { x with place := true, wait := .noWait })) .tb c h
    | none =>
      let f := f.putCtx .tb c (some { x with place := true, wait := .cells })
      (f.enterWait t (.tbCtx c) k grade n, [])

end Sys2Proof.Machine
end

