-- ==== Sys2Proof/Machine/JobUnit.lean ====
section
/-! DEFINITION. The job unit's own events: appending, finishing a step, taking an item, ending a job (R159, R161, R163,
R165 to R167, R173). -/

namespace Sys2Proof.Machine

/-- The pass of the running repeat, 0 when none runs (R163, R164). -/
def Job.pass (b : Job) : Nat :=
  match b.rep with
  | none => 0
  | some r => r.pass

/-- A job runs in the context (R158). -/
def Job.active (b : Job) : Bool := b.state != .idle

/-- Verdicts in the order of R157. -/
def Verdict.byte : Verdict → Byte
  | .noVerdict => 0
  | .positive => 1
  | .negative => 2
  | .timeout => 3
  | .refused => 4
  | .overflow => 5
  | .undelivered => 6

/-- End codes in the order of R173. -/
def EndCode.byte : EndCode → Byte
  | .completed => 0
  | .aborted => 1
  | .stopped => 2
  | .badStep => 3
  | .failed => 4
  | .memoryError => 5

/-- The message in the build buffer, once charged. -/
def Build.message (b : Build) (h : Charge) : Message :=
  { charge := h, length := b.length, malformed := b.malformed, code := b.code, payload := b.payload }

/-- A charged job appends its message when the inbound queue has a place, and waits for a place otherwise; with the wait
flag it then waits for the request, without it the step finishes (R165). -/
def jobAppend (f : Flow) (j : JobIx) : Flow × List Act :=
  let b := f.jobs.get j
  match b.slot, (if b.active then b.build else none) with
  | some k, some m =>
    match m.charge with
    | none => (f, [])
    | some h =>
      if f.inboundFree k then
        let f := appendInbound f k m.target (m.message h)
        let r : Req := { step := b.cur, pass := b.pass, ecu := m.ecu, result := m.result, stop := m.stop
                         stage := .queued, waited := m.wait }
        (f.modJob j fun b =>
          { b with build := none, requests := b.requests ++ [r]
                   state := if m.wait then .waiting .request else .running },
         if m.wait then [] else [.stepDone j])
      else (f.modJob j fun b => { b with state := .waiting .place }, [])
  | _, _ => (f, [])

/-- The step that finished or was skipped is the last of the running repeat's span (R163). -/
def Job.spanEnds (b : Job) : Bool :=
  match b.rep with
  | none => false
  | some r => b.cur + 1 == r.start + r.span

/-- The context moves to the next step: a complete pass starts the next one or ends the repeat, and a run past the list
ends the job COMPLETED (R161, R163, R171). A step whose message still stands in the build buffer is not done. -/
def jobStepDone (f : Flow) (j : JobIx) : Flow × List Act :=
  let b := f.jobs.get j
  if b.active && b.build.isNone then
    let b : Job := { b with state := .running, deadline := none }
    let b : Job :=
      match b.rep with
      | none => { b with cur := b.cur + 1 }
      | some r =>
        if b.spanEnds then
          if r.pass + 1 < r.count then
            { b with cur := r.start, passes := b.passes + 1, rep := some { r with pass := r.pass + 1 } }
          else { b with cur := b.cur + 1, passes := b.passes + 1, rep := none }
        else { b with cur := b.cur + 1 }
    (f.modJob j fun _ => b, if b.cur < b.listLength then [] else [.endJob j .completed 0 (b.listLength - 1)])
  else (f, [])

/-- The verdict an item sets (R162). -/
def itemVerdict (t : Tables) (e : EcuIx) : ItemBody → Verdict
  | .response m => if (t.ecus.get e).negMarker = m.payload.head? ∧ m.payload ≠ [] then .negative else .positive
  | .refusal bs =>
    let r := byteAt bs 2
    if r = Reason.timeout.byte then .timeout
    else if r = Reason.overflow.byte then .overflow
    else if r = Reason.undelivered.byte then .undelivered
    else .refused
  | .interim _ => .noVerdict

/-- What a result buffer receives: the full length in two bytes, then the payload up to the maximum length (R167). -/
def resultBytes (b : ResultBuf) (length : Nat) (payload : List Byte) : List Byte :=
  leBytes 2 length ++ payload.take b.max

/-- Write a result buffer, unless the shared RAM answers with a memory error, which leaves every byte of the buffer as it
was (R167; log 21). Answers whether it did. -/
def writeResult (t : Tables) (f : Flow) (j : JobIx) (b : Option ResultBuf) (length : Nat) (payload : List Byte) :
    Bool × Flow :=
  match b with
  | none => (false, f)
  | some b =>
    if (f.jobs.get j).resultError then (true, f.modJob j fun x => { x with resultError := false })
    else
      match t.dir with
      | none => (false, f)
      | some d => (false, { f with ram := ramWrite f.ram (d.base + b.offset) (resultBytes b length payload) })

/-- The record of an item: the oldest QUEUED one for a refusal of the head, the FORWARDED one of the ECU for an item of
an entry (R159). -/
def ItemOrigin.ofReq (o : ItemOrigin) (r : Req) : Bool :=
  match o with
  | .head => r.stage == .queued
  | .entry e => r.stage == .forwarded && r.ecu == e

/-- The job that runs on a slot. -/
def jobOf (f : Flow) (k : Slot) : Option JobIx :=
  (List.finRange 4).find? fun j => (f.jobs.get j).active && (f.jobs.get j).slot == some k

/-- The full length and the payload of an item. -/
def ItemBody.content : ItemBody → Nat × List Byte
  | .response m => (m.length, m.payload)
  | .refusal bs => (bs.length, bs)
  | .interim bs => (bs.length, bs)

/-- What follows the removal of an item's record, in the state the context then has (R166, items 5 to 7). -/
def afterItem (b : Job) (j : JobIx) (r : Req) (v : Verdict) (memError : Bool) : List Act :=
  if memError then [.endJob j .memoryError 0 r.step]
  else if r.stop && v != .positive then [.endJob j .failed 0 r.step]
  else if r.waited && b.state == .waiting .request then [.stepDone j]
  else if b.state == .waiting .sync && b.requests.isEmpty then [.stepDone j]
  else []

/-- A response's cells are released, with the offer that follows (R166, item 3); the other items have none (R70). -/
def releaseBody (t : Tables) (f : Flow) (b : ItemBody) : Flow × List Act :=
  match b with
  | .response m => released t f m.charge
  | .refusal _ | .interim _ => (f, [])

/-- The job unit takes an item of its slot as one event: verdict, result buffer, release, removal of the record, and what
follows for the context; only then do the claimants that the release charged go on (R166; log 16). An INTERIM item, or one that
no record of a running job awaits, is removed with no further effect (R117). -/
def jobItem (t : Tables) (f : Flow) (k : Slot) (b : ItemBody) (o : ItemOrigin) : Flow × List Act :=
  match b, jobOf f k with
  | .interim _, _ => (f, [])
  | b, none => (f, b.releases)
  | b, some j =>
    match (f.jobs.get j).requests.find? o.ofReq with
    | none => (f, b.releases)
    | some r =>
      let v := itemVerdict t r.ecu b
      let f := f.modJob j fun x => { x with verdict := v }
      let w := writeResult t f j r.result b.content.1 b.content.2
      let a := releaseBody t w.2 b
      let f := a.1.modJob j fun x => { x with requests := x.requests.eraseP o.ofReq }
      (f, afterItem (f.jobs.get j) j r v w.1 ++ a.2)

/-- The START_JOB detail (R173, R210). -/
def jobDetail (b : Job) (code : EndCode) (result : Byte) (last : Nat) : List Byte :=
  [code.byte, result, b.verdict.byte, BitVec.ofNat 8 last] ++ leBytes 4 b.steps ++ leBytes 4 b.passes

/-- Flush a slot's inbound queue: its messages are removed without a refusal and their cells are released; the held-head
record is cleared (R79). The releases, each followed by its offer, come head first (log 16). -/
def flushInbound (f : Flow) (k : Slot) : Flow × List Act :=
  (f.modSlot k fun x => { x with inbound := [], held := none },
   (f.slots.get k).inbound.map fun m => .release m.msg.charge)

/-- A job ends (R173). The cells of what it discards are released after the other effects of the same event (log 16). -/
def jobEnds (t : Tables) (f : Flow) (j : JobIx) (code : EndCode) (result : Byte) (last : Nat) : Flow × List Act :=
  let b := f.jobs.get j
  match b.slot with
  | none => (f, [])
  | some k =>
    if !b.active then (f, [])
    else
      let built : List Act :=
        match b.build with
        | none => []
        | some m => m.charge.toList.map .release
      let f := f.leaveWait (.job j)
      let q := flushInbound f k
      let o := orphanSlot t q.1 k
      let f := releaseClaimsOf t o.1 k .jobEnd
      let f := match b.orderSlot with
        | none => f
        | some n => orderDone t f n .ok (jobDetail b code result last)
      let f := f.modJob j fun _ => .reset
      let f := f.setNews .jobEnd
      let f := event t 0 f
        (eventRecord 6 (ixByte k) (ixByte j) none (some code.byte) none [ixByte j, result])
      (f, built ++ q.2 ++ o.2)

end Sys2Proof.Machine
end

