-- ==== Sys2Proof/Machine/Relay.lean ====
section
/-! DEFINITION. The relay channel (R202, R203), the relay writer (R116, R204), and the refusal on arrival (R91). -/

namespace Sys2Proof.Machine

/-- The relay inbound ring, when a directory with one is loaded. -/
def Tables.relayInRing (t : Tables) : Option Ring := t.dir.bind (·.relayIn)
/-- The relay outbound ring, when a directory with one is loaded. -/
def Tables.relayOutRing (t : Tables) : Option Ring := t.dir.bind (·.relayOut)

/-! ### Pages of the relay inbound ring (R202) -/

/-- The page at the position is written EMPTY, RELAY_IN_FREE is set, and the channel moves to the next page (R202). -/
def relayPageDone (r : Ring) (f : Flow) : Flow :=
  let f := { f with ram := ramWrite f.ram (r.pageAddr f.relayIn.page) (leBytes 4 pageEmpty) }
  { f with relayIn := { page := (f.relayIn.page + 1) % r.pages, record := 0, offset := 16, count := none, stop := none }
  }.setNews .relayInFree

/-- Read the state word of the page at the position: a FILLED page becomes TAKEN and its record count is read; a page
without records is written EMPTY at once and the next page is read in the same way (R202). -/
def relayPages (r : Ring) : Nat → Flow → Flow
  | 0, f => f
  | n + 1, f =>
    let a := r.pageAddr f.relayIn.page
    if r.stateOf f.ram f.relayIn.page = pageFilled then
      let f := { f with ram := ramWrite f.ram a (leBytes 4 pageTaken) }
      let c := ramNum f.ram (a + 4) 2
      if c = 0 then relayPages r n (relayPageDone r f)
      else { f with relayIn := { f.relayIn with record := 0, offset := 16, count := some c, stop := none } }
    else f

/-- At an attention or scan in RUNNING, a channel that is neither stopped nor within a page reads the page at its
position (R202). -/
def relayBegin (t : Tables) (f : Flow) : Flow :=
  match t.relayInRing with
  | none => f
  | some r =>
    if t.ctl == .running && f.relayIn.count.isNone && f.relayIn.stop.isNone then relayPages r (r.pages + 1) f else f

/-- The channel stops reading at the entry to STOPPING (R202). -/
def relayStopReading (t : Tables) (f : Flow) : Flow :=
  let f := f.leaveWait .relay
  let f := { f with relayIn := { f.relayIn with stop := none } }
  match t.relayInRing with
  | none => f
  | some r => if f.relayIn.count.isSome then relayPageDone r f else f

/-! ### Records (R203, R211) -/

/-- A relay inbound record. -/
structure RelayRecord where
  ident     : Byte
  target    : Byte
  length    : Nat
  malformed : Bool
  code      : Byte
  payload   : List Byte
  deriving DecidableEq, Repr

/-- The record at the read position, `none` when its header does not lie wholly within the page (R203). -/
def relayRecordAt (r : Ring) (f : Flow) : Option RelayRecord :=
  let i := f.relayIn
  let a := r.pageAddr i.page + i.offset
  if r.size < i.offset + 4 then none
  else
    let h := ramRead f.ram a 4
    let len := numAt h 2 2
    let bad := badLength len || decide (r.size < i.offset + 4 + len)
    some { ident := byteAt h 0, target := byteAt h 1, length := len, malformed := bad
           code := if len = 0 ∨ r.size ≤ i.offset + 4 then 0 else ramByte f.ram ((a + 4) % ramTop)
           payload := if bad then [] else ramRead f.ram (a + 4) len }

/-- Cells a record needs (R69, R22). -/
def RelayRecord.cells (x : RelayRecord) : Nat := if x.malformed then 1 else cellsFor x.length

/-- The message a record becomes. -/
def RelayRecord.message (x : RelayRecord) (h : Charge) : Message :=
  { charge := h, length := x.length, malformed := x.malformed, code := x.code, payload := x.payload }

/-- The position after a record that was handled: the next record, or, after the last one of the page, the next page,
whose state word is read at once (R202, R203). `last` says that the record is the page's last whatever its count. -/
def relayAdvance (r : Ring) (f : Flow) (len : Nat) (last : Bool) : Flow :=
  let i := f.relayIn
  let n := i.count.getD 0
  if last || decide (n ≤ i.record + 1) then relayPages r (r.pages + 1) (relayPageDone r f)
  else { f with relayIn := { i with record := i.record + 1, offset := i.offset + round4 (4 + len), stop := none } }

/-- The length a malformed record declared (R22). -/
def RelayRecord.declared (x : RelayRecord) : Option Nat := if x.malformed then some x.length else none

/-- A NO_ROOM refusal on arrival (R91): the capture record is offered, an item is placed when the record was not a
binding one without room and a delivery place is free, and the refused counter counts. -/
def relayRefuse (t : Tables) (f : Flow) (k : Slot) (x : RelayRecord) : Flow × List Act :=
  let e := findEcu t x.target
  let a := captureRefusal t f k e (if x.malformed then none else some (classOf t x.code)) x.code none .noRoom
    x.declared
  let f := a.2.modSlot k fun y => { y with refused := y.refused + 1 }
  (f, if a.1.isNone && f.deliveryFree k then
        [.placeItem k (.refusal (refusalBytes t x.code .noRoom)) x.target e .head]
      else [])

/-- A record for which a place or cells cannot be had: refused in REFUSE mode, and reading goes on, before the refusal item
is placed (log 36); the channel stops at it in HOLD mode (R203). -/
def relayNoRoom (t : Tables) (r : Ring) (f : Flow) (k : Slot) (x : RelayRecord) (w : RelayWait) : Flow × List Act :=
  match (t.testers.get k).mode with
  | .refuse =>
    let a := relayRefuse t f k x
    (relayAdvance r a.1 x.length x.malformed, a.2)
  | .hold =>
    let f := { f with relayIn := { f.relayIn with stop := some { slot := k, wait := w } } }
    match w with
    | .place => (f, [])
    | .cells => (f.enterWait t .relay k (classOf t x.code).grade x.cells, [])

/-- The channel handles the record at its position (R203). -/
def relayTakeRecord (t : Tables) (f : Flow) : Flow × List Act :=
  match t.relayInRing, f.relayIn.count with
  | some r, some _ =>
    let f := f.leaveWait .relay
    let f := { f with relayIn := { f.relayIn with stop := none } }
    match relayRecordAt r f with
    | none => (relayPages r (r.pages + 1) (relayPageDone r f), [])
    | some x =>
      match relaySlot t x.ident with
      | none => (relayAdvance r { f with relayUnknown := f.relayUnknown + 1 } x.length false, [])
      | some k =>
        if f.inboundFree k then
          match charge t f k (classOf t x.code).grade x.cells with
          | some (f, h) => (relayAdvance r (appendInbound f k x.target (x.message h)) x.length x.malformed, [])
          | none => relayNoRoom t r f k x .cells
        else relayNoRoom t r f k x .place
  | _, _ => (f, [])

/-- An offer of cells made the charge of the record the channel is stopped at (R203). -/
def relayCharged (t : Tables) (f : Flow) (h : Charge) : Flow × List Act :=
  match t.relayInRing, f.relayIn.stop with
  | some r, some s =>
    match relayRecordAt r f with
    | none => (f, [.release h])
    | some x => (relayAdvance r (appendInbound f s.slot x.target (x.message h)) x.length x.malformed, [])
  | _, _ => (f, [.release h])

/-- The channel is stopped at a record of this slot. -/
def Flow.relayStoppedAt (f : Flow) (k : Slot) : Bool :=
  match f.relayIn.stop with
  | none => false
  | some s => s.slot == k

/-! ### The relay writer (R116, R204) -/

/-- The slot of a kind whose first item is the oldest in placement order (R114 to R116). -/
def oldestItem (t : Tables) (f : Flow) (kind : TesterKind) : Option (Slot × Item) :=
  (List.finRange 16).foldl (fun best k =>
    if (t.testers.get k).kind == kind then
      match (f.slots.get k).items, best with
      | [], _ => best
      | it :: _, none => some (k, it)
      | it :: _, some b => if it.order < b.2.order then some (k, it) else best
    else best) none

/-- The first item of a slot's delivery queue is taken (R114). -/
def takeItem (f : Flow) (k : Slot) : Flow := f.modSlot k fun x => { x with items := x.items.drop 1 }

/-- The code of an item's kind in a relay outbound record (R211). -/
def ItemBody.kindByte : ItemBody → Byte
  | .response _ => 0
  | .refusal _ => 1
  | .interim _ => 2

/-- A relay outbound record (R204, R211). -/
def relayOutBytes (t : Tables) (k : Slot) (it : Item) : List Byte :=
  [(t.testers.get k).relayId, it.source, it.body.kindByte, orOnes (it.ecu.map ixByte)]
  ++ leBytes 2 it.body.content.1 ++ zeros 2 ++ pad4 it.body.content.2

/-- The relay writer takes the oldest item of the RELAY slots (R116, R204). -/
def relayWriteItem (t : Tables) (f : Flow) : Flow × List Act :=
  match oldestItem t f .relay with
  | none => (f, [])
  | some (k, it) =>
    match t.relayOutRing with
    | none =>
      ((takeItem f k).modSlot k fun x => { x with deliveryFails := x.deliveryFails + 1 }, it.body.releases)
    | some r =>
      let bytes := relayOutBytes t k it
      let a := f.relayOut.room r f.ram bytes.length
      if a.1 then
        let w := a.2.write r f.ram t.now t.relayFlush bytes
        let f := takeItem { f with relayOut := w.1, ram := w.2.1 } k
        (if w.2.2 then f.setNews .relayOut else f, it.body.releases)
      else ({ f with relayOut := a.2 }, [])

/-- Commit the open relay outbound page, if any, and move on (R204: at the flush deadline and at OFF). -/
def relayCommit (t : Tables) (f : Flow) : Flow :=
  match t.relayOutRing, f.relayOut.page with
  | some r, some p =>
    let a := f.relayOut.commit r f.ram p
    { f with relayOut := a.1.advance r, ram := a.2 }.setNews .relayOut
  | _, _ => f

/-- A blocked writer reads the state word of the page it needs again, and goes on when it is EMPTY (R184, R204). -/
def Writer.reread (w : Writer) (r : Ring) (ram : List Host.Cell) : Writer :=
  if w.blocked && decide (r.stateOf ram (w.nextPage r) = pageEmpty) then { w with blocked := false } else w

/-- The relay writer at an attention or scan (R204). -/
def relayReread (t : Tables) (f : Flow) : Flow :=
  match t.relayOutRing with
  | none => f
  | some r => { f with relayOut := f.relayOut.reread r f.ram }

end Sys2Proof.Machine
end

