-- ==== Sys2Proof/Machine/Refusing.lean ====
section
/-! DEFINITION. Refusing and holding a head (R90, R92), items entering a delivery queue (R114, R117), and the offer of a
free inbound place (R79). -/

namespace Sys2Proof.Machine

/-- When a hold limit measured from the first hold ends: never when it is none (R92). -/
def holdDeadlineOf (t : Tables) (k : Slot) (firstHold : Word) : Option Word :=
  let d := (t.testers.get k).holdLimit
  if d.isZero then none else some (after firstHold d)

/-- Hold the head of a slot: the first hold creates the record, a later one replaces the reason and the ECU only; the
mark that the limit has passed is never taken back (R92, R90). -/
def setHeld (t : Tables) (f : Flow) (k : Slot) (r : HoldReason) (e : Option EcuIx) (passed : Bool) : Flow :=
  f.modSlot k fun x =>
    { x with held :=
        match x.held with
        | none => some { reason := r, ecu := e, firstHold := t.now, deadline := holdDeadlineOf t k t.now, passed }
        | some h => some { h with reason := r, ecu := e, passed := h.passed || passed } }

/-- The length a malformed message declared (R22). -/
def Message.declared (m : Message) : Option Nat := if m.malformed then some m.length else none

/-- The head of a slot is refused (R90): the refusal record is offered; a binding one without room holds the head with
reason CAPTURE; otherwise the message is removed and released, and the rest of the refusal follows. -/
def headRefuse (t : Tables) (f : Flow) (k : Slot) (r : Reason) (e : Option EcuIx) (c : Option ServiceClass) :
    Flow × List Act :=
  match (f.slots.get k).inbound with
  | [] => (f, [])
  | m :: rest =>
    let a := captureRefusal t f k e c m.msg.code none r m.msg.declared
    if a.1.isNone then
      (a.2.modSlot k fun x => { x with inbound := rest },
       [.release m.msg.charge, .refused k r m.msg.code m.target e])
    else (setHeld t a.2 k .capture e (r == .heldTooLong), [])

/-- A held head that carries the limit-passed mark is refused HELD_TOO_LONG, with the ECU of its record and the class of
its service code (R90, R94). -/
def tooLong (t : Tables) (f : Flow) (k : Slot) : Flow × List Act :=
  match (f.slots.get k).held, (f.slots.get k).inbound with
  | some h, m :: _ => headRefuse t f k .heldTooLong h.ecu (some (classOf t m.msg.code))
  | _, _ => (f, [])

/-- The evaluation of a held head at the entry to STOPPING (R96). -/
def refuseHeldHead (t : Tables) (f : Flow) (k : Slot) : Flow × List Act :=
  match (f.slots.get k).held with
  | none => (f, [])
  | some h => if h.passed then tooLong t f k else headRefuse t f k .stopping none none

/-- The copy of an interim answer is placed when the slot's delivery queue has a free place, and dropped otherwise; an
orphan gets none (R106, item 3). -/
def interimCopy (t : Tables) (f : Flow) (i : EntryIx) (pay : List Byte) : List Act :=
  match f.entries.get i with
  | none => []
  | some x =>
    if !x.state.isOrphan && (t.ecus.get x.ecu).interimFwd && f.deliveryFree x.slot then
      [entryItem t x (.interim pay)]
    else []

/-- An item enters a slot's delivery queue with the next placement order, or is taken at once by the job unit
(R114, R117). -/
def placeItem (t : Tables) (f : Flow) (k : Slot) (b : ItemBody) (source : Byte) (ecu : Option EcuIx) (o : ItemOrigin) :
    Flow × List Act :=
  match (t.testers.get k).kind with
  | .job => jobItem t f k b o
  | .bus | .relay =>
    ({ (f.modSlot k fun x => { x with items := x.items ++ [{ body := b, source, ecu, order := f.placed }] }) with
         placed := f.placed + 1 }, [])

/-- The rest of a refusal (R90, items 3 to 5): the refusal item, the counters, the held-head record; then the freed
inbound place is offered. -/
def headRefused (t : Tables) (f : Flow) (k : Slot) (r : Reason) (code target : Byte) (e : Option EcuIx) :
    Flow × List Act :=
  let a := placeItem t f k (.refusal (refusalBytes t code r)) target e .head
  (a.1.modSlot k fun x =>
    { x with refused := x.refused + 1, held := none
             heldTooLong := if r = .heldTooLong then x.heldTooLong + 1 else x.heldTooLong },
   a.2 ++ [.placeFreed k])

/-- A free inbound place is offered to whoever of the slot waits for one: the oldest TB context, the relay channel, or
the job context (R79). -/
def offerPlace (t : Tables) (f : Flow) (k : Slot) : Flow × List Act :=
  if f.inboundFree k then
    match (f.slots.get k).placeWait with
    | c :: _ => placeToCtx t f k c
    | [] =>
      if f.relayIn.stop = some { slot := k, wait := .place } then (f, [.relayTake])
      else
        match jobOf f k with
        | none => (f, [])
        | some j => (f, if (f.jobs.get j).state == .waiting .place then [.jobAppend j] else [])
  else (f, [])

end Sys2Proof.Machine
end

