-- ==== Sys2Proof/Machine/Cascade.lean ====
section
/-! DEFINITION. What each act does, and the running of a list of acts to its end (log 12). -/

namespace Sys2Proof.Machine

/-- A job whose message waits for cells got its charge, and appends the message (R165). -/
def jobCharged (f : Flow) (j : JobIx) (h : Charge) : Flow × List Act :=
  match (f.jobs.get j).build with
  | none => (f, [.release h])
  | some m =>
    if m.charge.isSome then (f, [.release h])
    else jobAppend (f.modJob j fun b => { b with build := some { m with charge := some h } }) j

/-- A claimant got its cells and goes on under its own rule (R68, R149, R165, R203). One that waits no more gives them
back (R68). -/
def claimantCharged (t : Tables) (f : Flow) (w : Claimant) (h : Charge) : Flow × List Act :=
  match w with
  | .tbCtx c => ctxCharged t f .tb c h
  | .vbCtx v c => ctxCharged t f (.vb v) c h
  | .relay => relayCharged t f h
  | .job j => jobCharged f j h

/-- One act: its effect on the traffic and the acts that follow at once. -/
def act (t : Tables) (a : Act) (f : Flow) : Flow × List Act :=
  match a with
  | .release c => released t f c
  | .offer => offered t f
  | .charged w c => claimantCharged t f w c
  | .placeFreed k => offerPlace t f k
  | .seek p i fr => seekRoom t f p i fr
  | .response e m => responseComplete f e m
  | .abandoned e forCells => responseAbandoned f t e forCells
  | .refuseEntry e r => entryRefused t f e r
  | .orphanEnds e => (orphanEnds t f e, [])
  | .deliver e => entryDeliver t f e
  | .interim e pay => (f, interimCopy t f e pay)
  | .placeItem k b source ecu o => placeItem t f k b source ecu o
  | .relayTake => relayTakeRecord t f
  | .jobAppend j => jobAppend f j
  | .stepDone j => jobStepDone f j
  | .endJob j code result last => jobEnds t f j code result last
  | .refused k r code target e => headRefused t f k r code target e

/-- Run acts in order, each followed at once by what it causes. Past the limit only the cells that the acts left over hold
go back to their accounts (log 12). -/
def settleFor (t : Tables) : Nat → List Act → Flow → Flow
  | 0, as, f => (as.filterMap Act.charge).foldl releaseCharge f
  | _ + 1, [], f => f
  | n + 1, a :: rest, f =>
    let r := act t a f
    settleFor t n (r.2 ++ rest) r.1

/-- More acts than any command can cause (log 12). -/
def actLimit : Nat := 100000

/-- Run acts to their end. -/
def settle (t : Tables) (as : List Act) (f : Flow) : Flow := settleFor t actLimit as f

/-- A change of the traffic followed by its consequences. -/
def settled (t : Tables) (r : Flow × List Act) : Flow := settle t r.2 r.1

/-- The same on the whole state. -/
def State.withFlow (s : State) (f : Flow) : State := { s with flow := f }

/-- Run acts from a state. -/
def State.run (s : State) (as : List Act) : State := s.withFlow (settle s.tab as s.flow)

/-! ### Time (R1; logs 3, 4) -/

/-- So many milliseconds pass; a frame that the spacing held back may start. -/
def State.advance (s : State) (dt : Nat) : State :=
  let t := { s.tab with now := s.tab.now + BitVec.ofNat 32 dt }
  { s with tab := t, flow := startFrames t s.flow }

end Sys2Proof.Machine
end

