-- ==== Sys2Proof/Machine/Frames.lean ====
section
/-! DEFINITION. Frames received on the four ports: first frames (R104 to R107, R132, R146, R150, R153), NEXT (R147), CREDIT
and ABORT (R143, R144, R148). -/

namespace Sys2Proof.Machine

/-- The body of a frame that the port accepts, `none` when it ignores or drops the frame (R140, R154, R216). -/
def received (s : State) (p : PortId) (fr : Frame) : Option FrameBody :=
  if accepts s.tab s.flow p fr then frBody fr else none

/-! ### First frames (R146) -/

/-- The context of a key, if one is in use, is dropped for a second first frame: its index, the release of its cells and
whether it held a place (R146). -/
def restart (f : Flow) (p : PortId) (source target : Byte) : Flow × Option CtxIx × List Act × Bool :=
  match f.findCtx p source target with
  | none => (f, none, [], false)
  | some c =>
    match f.ctx p c with
    | none => (f, none, [], false)
    | some x =>
      (dropContext f p c, some c,
       match x.charge with
        | none => []
        | some h => [.release h],
       x.place)

/-- Take a first frame in: it restarts the context of its key; an OPEN takes its context or the lowest-numbered free one
and is answered ABORT BUSY without one, with nothing changed; then it seeks room (R145, R146). -/
def takeFirst (t : Tables) (f : Flow) (p : PortId) (fr : FirstFrame) (taken : Flow → Flow) : Flow × List Act :=
  if !fr.single && (f.findCtx p fr.source fr.target).isNone && (f.freeCtx p).isNone then
    (abortTo t f p fr.source fr.target .busy, [])
  else
    let a := restart (taken f) p fr.source fr.target
    let i := if fr.single then a.2.1 else a.2.1.or (a.1.freeCtx p)
    (a.1, a.2.2.1 ++ [.seek p i { fr with place := a.2.2.2 }])

/-- A SINGLE or OPEN of an ATTACHED BUS slot on TB; from any other source it is counted (R150). -/
def tbFirst (t : Tables) (f : Flow) (fr : Frame) (single : Bool) (len : Nat) (pay : List Byte) : Flow × List Act :=
  match busSlot t (frSource fr) with
  | none => ({ f with tbUnknown := f.tbUnknown + 1 }, [])
  | some k =>
    takeFirst t f .tb
      { source := frSource fr, target := frTarget fr, owner := .slot k, hold := (t.testers.get k).mode == .hold, single
        length := len, malformed := len == 0, code := firstByte pay, bytes := pay, place := false } id

/-- The valid ECU entry of a node address on a port (R104, item 1). -/
def portEcu (t : Tables) (v : VbIx) (node : Byte) : Option EcuIx :=
  (List.finRange 32).find? fun e =>
    (t.ecus.get e).valid && (t.ecus.get e).port == v && (t.ecus.get e).node == node

/-- The entry that a first frame to a vehicle-side address belongs to (R104, item 2). -/
def matchEntry (t : Tables) (f : Flow) (e : EcuIx) (target : Byte) : Option EntryIx :=
  (List.finRange 40).find? fun i =>
    match f.entries.get i with
    | none => false
    | some x => x.ecu == e && (t.testers.get x.slot).vsAddr == target

/-- A stray: an OPEN is answered ABORT NOT_EXPECTED, a SINGLE dropped; the ECU's counter counts when one was found
(R105). -/
def stray (t : Tables) (f : Flow) (p : PortId) (fr : Frame) (single : Bool) (e : Option EcuIx) : Flow :=
  let f := match e with
    | none => f
    | some e => f.countEcu e fun c => { c with strays := c.strays + 1 }
  if single then f else abortTo t f p (frSource fr) (frTarget fr) .notExpected

/-- The phase of an entry that can take a first frame: AWAITING or RECEIVING (R104). -/
def EntryState.takes : EntryState → Bool
  | .awaiting | .receiving | .orphaned .awaiting | .orphaned .receiving => true
  | .sending | .delivering | .orphaned .sending => false

/-- An interim answer (R106): the reassembly in progress, if any, is abandoned and its cells released first (R104); then
the entry waits on, or ends TIMEOUT past the limit, an orphan ORPHANED. The count is kept as it is when it passes a limit of 255 (log 32). -/
def interimAnswer (t : Tables) (f : Flow) (v : VbIx) (fr : Frame) (i : EntryIx) (x : Entry) (pay : List Byte) :
    Flow × List Act :=
  let ecu := t.ecus.get x.ecu
  let old := (f.findCtx (.vb v) (frSource fr) (frTarget fr)).bind fun c => (f.ctx (.vb v) c).map fun y => (c, y)
  let f := match old with
    | none => f
    | some o => freeContext f (.vb v) o.1
  let freed : List Act := match old.bind (·.2.charge) with
    | none => []
    | some h => [.release h]
  let n := x.interims + 1
  let f := f.modEntry i fun y => { y with interims := n }
  if ecu.interimLimit < n then
    (f.countEcu x.ecu fun c => { c with timeouts := c.timeouts + 1 }, freed ++ [.refuseEntry i .timeout])
  else
    let f := f.modEntry i fun y =>
      { y with state := y.state.toPhase .awaiting, deadline := some (after t.now ecu.longTimeout) }
    (f, freed ++ [.interim i pay])

/-- A SINGLE is an interim answer of an ECU: its first byte is the ECU's interim marker (R106). -/
def isInterim (t : Tables) (e : EcuIx) (single : Bool) (pay : List Byte) : Bool :=
  single && match (t.ecus.get e).interimMarker with
    | none => false
    | some m => pay.head? == some m

/-- A first frame to a vehicle-side address on a VB port (R104 to R107, R153). -/
def vbResponse (t : Tables) (f : Flow) (v : VbIx) (fr : Frame) (single : Bool) (len : Nat) (pay : List Byte) :
    Flow × List Act :=
  match portEcu t v (frSource fr) with
  | none => (stray t f (.vb v) fr single none, [])
  | some e =>
    match matchEntry t f e (frTarget fr) with
    | none => (stray t f (.vb v) fr single (some e), [])
    | some i =>
      match f.entries.get i with
      | none => (stray t f (.vb v) fr single (some e), [])
      | some x =>
        if !x.state.takes then (stray t f (.vb v) fr single (some e), [])
        else if isInterim t e single pay then interimAnswer t f v fr i x pay
        else
          takeFirst t f (.vb v)
            { source := frSource fr, target := frTarget fr, owner := .entry i, hold := true, single, length := len
              malformed := false, code := firstByte pay, bytes := pay, place := false }
            fun f => f.modEntry i fun y => { y with state := y.state.toPhase .receiving, deadline := none }

/-- A closing waits for the answer of an ECU (R132). -/
def Claim.awaitsAnswer (c : Claim) : Bool := c.state == .closing && c.phase == some .awaiting

/-- A first frame to the part's node address on a VB port: the answer to a close message, or a stray (R132, R153). -/
def vbAnswer (t : Tables) (f : Flow) (v : VbIx) (fr : Frame) (single : Bool) (len : Nat) (pay : List Byte) :
    Flow × List Act :=
  match portEcu t v (frSource fr) with
  | none => (stray t f (.vb v) fr single none, [])
  | some e =>
    if (f.claims.get e).awaitsAnswer then
      takeFirst t (closeEnd t 0 f e .answered pay.head?) (.vb v)
        { source := frSource fr, target := frTarget fr, owner := .close e, hold := true, single, length := len
          malformed := false, code := firstByte pay, bytes := pay, place := false } id
    else (stray t f (.vb v) fr single (some e), [])

/-- A SINGLE or OPEN that a port accepted (R150, R153). -/
def firstFrame (t : Tables) (f : Flow) (p : PortId) (fr : Frame) (single : Bool) (len : Nat) (pay : List Byte) :
    Flow × List Act :=
  match p with
  | .tb => tbFirst t f fr single len pay
  | .vb v =>
    if len = 0 then (f, [])
    else if frTarget fr = (t.port p).node then vbAnswer t f v fr single len pay
    else vbResponse t f v fr single len pay

/-- SINGLE (R140, R146). -/
def execSingleFrame (p : PortId) (fr : Frame) (s : State) : Host.Outcome State Fault Refusal :=
  match received s p fr with
  | some (.single len pay) => .next (s.withFlow (settled s.tab (firstFrame s.tab s.flow p fr true len pay)))
  | _ => .next s

/-- OPEN (R140, R146). -/
def execOpenFrame (p : PortId) (fr : Frame) (s : State) : Host.Outcome State Fault Refusal :=
  match received s p fr with
  | some (.openMsg len pay) => .next (s.withFlow (settled s.tab (firstFrame s.tab s.flow p fr false len pay)))
  | _ => .next s

/-! ### NEXT (R147) -/

/-- The bytes of the segment a context expects next: 7, or the remainder in the last one (R141, R216). -/
def Ctx.segmentBytes (x : Ctx) : Nat := min 7 (x.length - 6 - 7 * x.received)

/-- A NEXT of this index is the one the context has granted and expects (R147). -/
def Ctx.expects (x : Ctx) (index : BitVec 4) : Bool := x.wait == .noWait && x.granted != 0 && x.index == index

/-- The bytes a NEXT of this index must carry so as not to be short (R140, R216). One in order is the expected segment. Of
any other the index is all that says which segment it is: the remainder when it is the last one's, else 7; for a message
without segments none are called for (log 15). -/
def Ctx.calledFor (x : Ctx) (index : BitVec 4) : Nat :=
  if x.expects index then x.segmentBytes
  else if x.segments = 0 then 0
  else if index = BitVec.ofNat 4 x.segments then x.length - 6 - 7 * (x.segments - 1)
  else 7

/-- The bytes kept after a segment; a close answer is not stored (R132). -/
def Ctx.stored (x : Ctx) (bytes : List Byte) : List Byte :=
  match x.owner with
  | .close _ => x.bytes
  | .slot _ | .entry _ => x.bytes ++ bytes.take x.segmentBytes

/-- A context after a segment it expected. -/
def Ctx.take (x : Ctx) (bytes : List Byte) : Ctx :=
  { x with received := x.received + 1, granted := x.granted - 1, index := x.index + 1, bytes := x.stored bytes }

/-- A context is complete: it sends DONE, is free, and its message is handed to its owner (R147). -/
def ctxComplete (t : Tables) (f : Flow) (p : PortId) (c : CtxIx) (x : Ctx) : Flow × List Act :=
  let f := freeContext f p c
  let f := pushControl t f p .nobody x.source x.target doneData
  match x.charge with
  | none => (f, [])
  | some h => handOver f x.owner x.target (ctxMessage x.length x.malformed x.code x.bytes h)

/-- A NEXT of a context's key that is not short: taken, or out of order or not granted and answered ABORT SEQUENCE (R147). -/
def nextSegment (t : Tables) (f : Flow) (p : PortId) (c : CtxIx) (x : Ctx) (index : BitVec 4) (bytes : List Byte) :
    Flow × List Act :=
  if x.expects index then
    let y := x.take bytes
    if x.segments ≤ y.received then ctxComplete t f p c y
    else if y.granted = 0 then (sendGrant t f p c y, [])
    else (f.putCtx p c (some y), [])
  else
    abandonCtx (abortTo t f p x.source x.target .sequence) p c false

/-- A NEXT: dropped without a context or when it is shorter than its segment, in order or not (R145, R140, R216; log 15). -/
def nextTaken (t : Tables) (f : Flow) (p : PortId) (fr : Frame) (index : BitVec 4) (bytes : List Byte) :
    Flow × List Act :=
  match f.findCtx p (frSource fr) (frTarget fr) with
  | none => (f, [])
  | some c =>
    match f.ctx p c with
    | none => (f, [])
    | some x => if bytes.length < x.calledFor index then (f, []) else nextSegment t f p c x index bytes

/-- On TB a NEXT from a source that is no ATTACHED BUS slot is counted (R150). -/
def nextFrom (t : Tables) (f : Flow) (p : PortId) (fr : Frame) (index : BitVec 4) (bytes : List Byte) :
    Flow × List Act :=
  match p, busSlot t (frSource fr) with
  | .tb, none => ({ f with tbUnknown := f.tbUnknown + 1 }, [])
  | p, _ => nextTaken t f p fr index bytes

/-- NEXT (R140, R147). -/
def execNextFrame (p : PortId) (fr : Frame) (s : State) : Host.Outcome State Fault Refusal :=
  match received s p fr with
  | some (.next index bytes) => .next (s.withFlow (settled s.tab (nextFrom s.tab s.flow p fr index bytes)))
  | _ => .next s

/-! ### CREDIT and ABORT to the transmitter (R143, R144) -/

/-- The transfer of the port whose key a CREDIT or ABORT from its receiver carries, addresses swapped (R140). -/
def creditFor (f : Flow) (p : PortId) (fr : Frame) : Option Transfer :=
  match (f.port p).tx with
  | none => none
  | some x => if x.target = frSource fr ∧ x.source = frTarget fr then some x else none

/-- GRANT (R143): outside WAIT_CREDIT it is ignored. -/
def grantTaken (t : Tables) (f : Flow) (p : PortId) (fr : Frame) (n : Nat) : Flow :=
  match creditFor f p fr with
  | none => f
  | some x =>
    if x.phase == .waitCredit then
      pushNext t (modTx f p fun x =>
        { x with phase := .run, granted := min n (x.segments - x.sent), stalls := 0, deadline := none }) p
    else f

def execGrantFrame (p : PortId) (fr : Frame) (s : State) : Host.Outcome State Fault Refusal :=
  match received s p fr with
  | some (.grant n) => .next (s.withFlow (grantTaken s.tab s.flow p fr n))
  | _ => .next s

/-- STALL (R143, R144): outside WAIT_CREDIT it is ignored; at the stall limit it fails the transfer. -/
def stallTaken (t : Tables) (f : Flow) (p : PortId) (fr : Frame) : Flow × List Act :=
  match creditFor f p fr with
  | none => (f, [])
  | some x =>
    if x.phase == .waitCredit then
      if (t.port p).stallLimit ≤ x.stalls then transferTimeout t f p
      else
        (modTx f p fun x =>
          { x with stalls := x.stalls + 1, deadline := some (after t.now (t.port p).creditWait) }, [])
    else (f, [])

def execStallFrame (p : PortId) (fr : Frame) (s : State) : Host.Outcome State Fault Refusal :=
  match received s p fr with
  | some .stall => .next (s.withFlow (settled s.tab (stallTaken s.tab s.flow p fr)))
  | _ => .next s

/-- DONE (R143): outside WAIT_DONE it is ignored. -/
def doneTaken (t : Tables) (f : Flow) (p : PortId) (fr : Frame) : Flow × List Act :=
  match creditFor f p fr with
  | none => (f, [])
  | some x => if x.phase == .waitDone then transferEnd t f p true else (f, [])

def execDoneFrame (p : PortId) (fr : Frame) (s : State) : Host.Outcome State Fault Refusal :=
  match received s p fr with
  | some .done => .next (s.withFlow (settled s.tab (doneTaken s.tab s.flow p fr)))
  | _ => .next s

/-- ABORT (R144, R148, R150): from the receiver of the transmitter's transfer it fails the transfer, from the sender of a
context's transfer it abandons the context; it may do both, and then the context is gone, and stands in no list, before the
cells of the failed transfer are released and offered (log 36). -/
def abortTaken (t : Tables) (f : Flow) (p : PortId) (fr : Frame) : Flow × List Act :=
  let a := if (creditFor f p fr).isSome then transferEnd t f p false else (f, [])
  match a.1.findCtx p (frSource fr) (frTarget fr) with
  | none => a
  | some c =>
    let b := abandonCtx a.1 p c false
    (b.1, a.2 ++ b.2)

def execAbortFrame (p : PortId) (fr : Frame) (s : State) : Host.Outcome State Fault Refusal :=
  match received s p fr with
  | some .abort => .next (s.withFlow (settled s.tab (abortTaken s.tab s.flow p fr)))
  | _ => .next s

end Sys2Proof.Machine
end

