-- ==== Sys2Proof/Config.lean ====
section
/-! DEFINITION. The free values: what the manual leaves open and nothing constrains. -/

namespace Sys2Proof

/-- The sampler's random draw (R178: "The random choice is made by a source inside the part, whose state is not
visible"). A candidate is sampled when its draw is below the rate, so rate 0 samples none and rate 4,096 all. Log 8. -/
opaque Config.sampleDraw : Nat → Fin 4096

/-- Whether, at an entry to STOPPING, the admission engine refuses the held head of a job's slot before the job ends (R197:
"These entry events reach different state and need no order, with two exceptions"). Log 9. -/
opaque Config.headsBeforeJobs : Nat → JobIx → Bool

/-- Whether, at an entry to STOPPING, a claim is released before the jobs end (R197). Log 9. -/
opaque Config.claimsBeforeJobs : Nat → EcuIx → Bool

end Sys2Proof
end

