-- ==== Sys2Proof/Machine/Grants.lean ====
section
/-! DEFINITION. Grants: coverage and the charged grant (R42 to R44), charging, spending and expiry (R45 to R47), and what
a grant change does to claims and held heads (R54). -/

namespace Sys2Proof.Machine

/-! ### Coverage (R42 to R44) -/

def GrantLevel.num : GrantLevel → Nat
  | .noClaim => 0
  | .adjust => 1
  | .program => 2

def ClaimLevel.num : ClaimLevel → Nat
  | .adjust => 1
  | .program => 2

/-- The grant's level is at or above what a class needs; a ROUTINE class needs none (R42). -/
def Grant.levelCovers (g : Grant) (c : ServiceClass) : Bool :=
  match c.level with
  | none => true
  | some l => decide (l.num ≤ g.level.num)

/-- A grant covers a request (R42). -/
def Grant.covers (g : Grant) (k : Slot) (e : EcuIx) (c : ServiceClass) : Bool :=
  g.slot == k && g.ecus.getLsbD e.val && g.classes.getLsbD c.num && g.levelCovers c

/-- A grant is eligible: ACTIVE, covering, its conditions satisfied (R43). -/
def Grant.eligible (t : Tables) (g : Grant) (k : Slot) (e : EcuIx) (c : ServiceClass) : Bool :=
  g.state == .active && g.covers k e c && satisfied t g.conds

/-- The charged grant: the lowest-numbered eligible one (R43). -/
def chargedGrant (t : Tables) (gs : Vector Grant 64) (k : Slot) (e : EcuIx) (c : ServiceClass) : Option GrantIx :=
  (List.finRange 64).find? fun i => (gs.get i).eligible t k e c

/-- Some grant in a state covers the request (R44). -/
def someCovers (gs : Vector Grant 64) (st : GrantState) (k : Slot) (e : EcuIx) (c : ServiceClass) : Bool :=
  (List.finRange 64).any fun i => (gs.get i).state == st && (gs.get i).covers k e c

/-- A grant supports a claim: ACTIVE or SUSPENDED, for the holder and the ECU, at or above the claim's level (R54). -/
def Grant.supports (g : Grant) (k : Slot) (e : EcuIx) (l : ClaimLevel) : Bool :=
  (g.state == .active || g.state == .suspended) && g.slot == k && g.ecus.getLsbD e.val
  && decide (l.num ≤ g.level.num)

/-- A claim is supported by some grant (R54, R122). -/
def supported (gs : Vector Grant 64) (k : Slot) (e : EcuIx) (l : ClaimLevel) : Bool :=
  (List.finRange 64).any fun i => (gs.get i).supports k e l

/-! ### Claim support check and held heads (R54) -/

/-- The claim support check for a grant that leaves the supporting states, with the slot and ECU set it had. `entering`
names the ECU whose entry the admission in progress is about to create (R97). Claims are released in rising ECU number
(log 31); each release is a claim change with a run of evaluations again of its own (log 10). -/
def supportCheck (t : Tables) (gs : Vector Grant 64) (keep : Nat) (entering : Option EcuIx) (f : Flow) (old : Grant) :
    Flow :=
  (List.finRange 32).foldl (fun f e =>
    let c := f.claims.get e
    if old.ecus.getLsbD e.val && c.inForce && c.holder == old.slot && !supported gs old.slot e c.level then
      claimRelease t keep (entering == some e) f e .support
    else f) f

/-- The held head of a grant's slot is evaluated again after a change of the grant (R54, R93), behind the heads that the
claims released by the same change concern (log 10). -/
def markSlot (f : Flow) (k : Slot) : Flow := f.markHeads fun j _ => j == k

/-! ### Steps to SPENT and EXPIRED (R45 to R47) -/

/-- The remaining lifetime held at the figure it has (R45). -/
def Life.freeze (now : Word) : Life → Life
  | .running d => .held (msLeft now (some d))
  | .unlimited => .unlimited
  | .held n => .held n

/-- The remaining lifetime with its deadline set anew (R46). -/
def Grant.freshLife (now : Word) (g : Grant) : Life :=
  if g.lifetime.isZero then .unlimited else .running (after now g.lifetime)

/-- The remaining budget refilled (R49, R53). -/
def Grant.freshBudget (g : Grant) : Option Nat := if g.budget = 0 then none else some g.budget

/-- A grant after paying for one admission (R45). -/
def Grant.charged (now : Word) (g : Grant) : Grant :=
  match g.left with
  | none => g
  | some n =>
    if n - 1 = 0 then { g with left := some 0, state := .spent, life := g.life.freeze now }
    else { g with left := some (n - 1) }

/-- The GRANT flag and the event record of a step to SPENT (0) or EXPIRED (1) (R47, R211). -/
def grantStep (t : Tables) (keep : Nat) (f : Flow) (i : GrantIx) (g : Grant) (outcome : Byte) : Flow :=
  event t keep (f.setNews .grant) (eventRecord 4 (ixByte g.slot) (ixByte i) none (some outcome) none [])

/-- A grant whose deadline is reached becomes EXPIRED (R46). -/
def Grant.expire (g : Grant) : Grant := { g with state := .expired, life := .held 0 }

/-- The deadline of a grant that is ACTIVE or SUSPENDED is reached (R46). -/
def Grant.due (now : Word) (g : Grant) : Bool :=
  (g.state == .active || g.state == .suspended)
  && match g.life with
    | .running d => reached now d
    | .unlimited | .held _ => false

/-- GRANT_EXPIRY (R46, R47, R54); the grant's event record comes before those of the claims released (log 36). -/
def execGrantExpiry (i : GrantIx) (dt : Nat) (s : State) : Host.Outcome State Fault Refusal :=
  let s := s.advance dt
  let g := s.grants.get i
  if s.tab.active && g.due s.tab.now then
    let gs := Vector.putRow s.grants i g.expire
    let f := grantStep s.tab 0 s.flow i g 1
    let f := supportCheck s.tab gs 0 none f g
    .next { s with grants := gs, flow := markSlot f g.slot }
  else .next s

end Sys2Proof.Machine
end

