-- ==== Sys2Proof/Machine/Admission.lean ====
section
/-! DEFINITION. Admission: serving the slots (R80 to R83), the ten checks (R84 to R89), admitting (R97), evaluations again
(R94) and hold limits (R95). -/

namespace Sys2Proof.Machine

/-! ### The checks on a head (R84 to R89) -/

/-- What the claim check answers (R123). -/
def claimCheck (c : Claim) (k : Slot) (cls : ServiceClass) : Option HoldReason :=
  match c.state, c.holder == k, cls.grade with
  | .free, _, _ => none
  | .closing, _, _ => some .closing
  | .held, true, _ => none
  | .halted, true, .routine => none
  | .halted, true, .heavy => some .condition
  | _, false, .heavy => some .claimed
  | _, false, .routine =>
    match c.level with
    | .adjust => none
    | .program => some .claimed

/-- The reason a request without an eligible grant gets: a hold reason, or none for NO_GRANT (R44). -/
def grantReason (gs : Vector Grant 64) (k : Slot) (e : EcuIx) (c : ServiceClass) : Option HoldReason :=
  if someCovers gs .active k e c then some .condition
  else if someCovers gs .suspended k e c then some .suspended
  else none

/-- The refusal reason of a hold reason that refuses in REFUSE mode, none for those that never do (R89). -/
def HoldReason.refusal : HoldReason → Option Reason
  | .condition => some .condition
  | .suspended => some .suspended
  | .claimed => some .claimed
  | .closing => some .closing
  | .pair | .outstanding | .capture | .portQueue => none

/-- What an evaluation decides. -/
inductive Decision where
  | refuse (r : Reason) (e : Option EcuIx) (c : Option ServiceClass)
  | hold (r : HoldReason) (e : EcuIx)
  | admits (e : EcuIx) (c : ServiceClass) (g : GrantIx)
  deriving DecidableEq, Repr

/-- A hold reason decides by the slot's mode (R89). -/
def holdOr (t : Tables) (k : Slot) (r : HoldReason) (e : EcuIx) (c : ServiceClass) : Decision :=
  match r.refusal, (t.testers.get k).mode with
  | some x, .refuse => .refuse x (some e) (some c)
  | _, _ => .hold r e

/-- The lowest-numbered free entry of the outstanding table (R102). -/
def Flow.freeEntry (f : Flow) : Option EntryIx := (List.finRange 40).find? fun i => (f.entries.get i).isNone

/-- The record a request calls for under a probe, without its stamp (R179). -/
def requestRecord (t : Tables) (k : Slot) (e : EcuIx) (c : ServiceClass) (m : Message) (g : GrantIx)
    (stamp : Option (Word × Word)) : CaptureRecord :=
  messageRecord .request k (some e) (some c) m.code (some g) none
    ((governing t .request k (some e) (some c)).map (probeTerms t)) stamp m.length m.payload

/-- A binding probe matches the request (R176). -/
def requestBinding (t : Tables) (k : Slot) (e : EcuIx) (c : ServiceClass) : Bool :=
  isBinding t (governing t .request k (some e) (some c))

/-- Steps 7, 8 and 10, and step 9 through the room found for it: the resources forwarding needs (R87, R88). -/
def resourceCheck (t : Tables) (f : Flow) (k : Slot) (e : EcuIx) (c : ServiceClass) (m : Message) (g : GrantIx) :
    Option HoldReason × Flow :=
  if (f.entryOf k e).isSome then (some .pair, f)
  else if f.freeEntry.isNone || decide ((t.testers.get k).limit ≤ f.liveEntries k) then (some .outstanding, f)
  else
    let a :=
      if requestBinding t k e c then captureRoom t f (recordSize (requestRecord t k e c m g none).content.length)
      else (true, f)
    if !a.1 then (some .capture, a.2)
    else if 16 ≤ (f.vbs.get (t.ecus.get e).port).outbound.length then (some .portQueue, a.2)
    else (none, a.2)

/-- The evaluation of a head up to its decision (R84). Only the capture writer may change: it becomes blocked when step 9
finds no room (R182). -/
def evaluateHead (s : State) (k : Slot) (m : InMsg) : Decision × Flow :=
  let t := s.tab
  let f := s.flow
  let c := classOf t m.msg.code
  if t.ctl != .running then (.refuse .stopping none none, f)
  else if m.msg.malformed then (.refuse .malformed none none, f)
  else if c == .barred then (.refuse .barred none (some c), f)
  else
    match findEcu t m.target with
    | none => (.refuse .noEcu none (some c), f)
    | some e =>
      match chargedGrant t s.grants k e c with
      | none =>
        (match grantReason s.grants k e c with
          | none => .refuse .noGrant (some e) (some c)
          | some r => holdOr t k r e c, f)
      | some g =>
        match claimCheck (f.claims.get e) k c with
        | some r => (holdOr t k r e c, f)
        | none =>
          let a := resourceCheck t f k e c m.msg g
          match a.1 with
          | some r => (.hold r e, a.2)
          | none => (.admits e c g, a.2)

/-! ### Admitting (R97, R124, R178) -/

/-- The claim record of an admission is taken, raised or refreshed (R124). -/
def claimAdmit (t : Tables) (keep : Nat) (f : Flow) (k : Slot) (e : EcuIx) (c : ServiceClass) (g : Grant) : Flow :=
  let x := f.claims.get e
  let dl := some (after t.now (t.ecus.get e).holdOff)
  match x.state, c.level with
  | .free, some l =>
    claimChanged t keep
      (f.modClaim e fun x =>
        { x with state := .held, holder := k, level := l, guard := g.conds, holdOff := dl, cause := none
                 phase := none, closeDeadline := none }) e .taken none []
  | .held, some .program =>
    if x.holder == k && x.level == .adjust then
      claimChanged t keep
        (f.modClaim e fun x => { x with level := .program, guard := x.guard ||| g.conds, holdOff := dl }) e .raised none []
    else refreshClaim t f k e
  | _, _ => refreshClaim t f k e

/-- The sampler takes a candidate: the stamp of a sampled one, the counts, and whether a draw was made (R178; log 8). -/
def sample (t : Tables) (f : Flow) (fresh : Nat) (c : ServiceClass) : Option (Word × Word) × Flow × Nat :=
  if t.sampler.enabled && t.sampler.classes.getLsbD c.num then
    let f := { f with candidates := f.candidates + 1 }
    if (Config.sampleDraw fresh).val < t.sampler.rate then
      let f := { f with samples := f.samples + 1 }
      (some (f.candidates, f.samples), f, fresh + 1)
    else (none, f, fresh + 1)
  else (none, f, fresh)

/-- The request's capture record is written: the binding one, for which step 9 found room, or a non-binding one of a
probe match or a sample (R97, item 4). -/
def captureRequest (t : Tables) (f : Flow) (k : Slot) (e : EcuIx) (c : ServiceClass) (m : Message) (g : GrantIx)
    (stamp : Option (Word × Word)) : Flow :=
  let r := requestRecord t k e c m g stamp
  if requestBinding t k e c then captureWrite t f r
  else if r.probe.isSome || stamp.isSome then captureOffer t f r
  else f

/-- The oldest QUEUED record of a job's request list becomes FORWARDED to the ECU found (R159). -/
def forwardReq (e : EcuIx) : List Req → List Req
  | [] => []
  | r :: rs => if r.stage == .queued then { r with stage := .forwarded, ecu := e } :: rs else r :: forwardReq e rs

/-- The job that runs on a slot learns that its head was admitted (R159). -/
def jobForward (f : Flow) (k : Slot) (e : EcuIx) : Flow :=
  match jobOf f k with
  | none => f
  | some j => f.modJob j fun b => { b with requests := forwardReq e b.requests }

/-- Items 5 to 8 of an admission (R97): the outstanding entry (R102), the message moved to the outbound queue with the
slot's vehicle-side address, the counters, and the held-head record cleared. -/
def forward (t : Tables) (f : Flow) (k : Slot) (i : EntryIx) (e : EcuIx) (c : ServiceClass) (g : GrantIx) (m : InMsg) :
    Flow :=
  let x : Entry :=
    { slot := k, ecu := e, code := m.msg.code, cls := c, grant := g
      binding := isBinding t (governing t .response k (some e) (some c))
      state := .sending, deadline := none, interims := 0, held := none }
  let f := { f with entries := Vector.putRow f.entries i (some x) }
  let f := jobForward f k e
  let f := f.modSlot k fun y =>
    { y with inbound := y.inbound.drop 1, held := none, admitted := y.admitted + 1 }
  let f := f.modVb (t.ecus.get e).port fun y =>
    { y with outbound := y.outbound ++
        [{ msg := m.msg, source := (t.testers.get k).vsAddr, target := (t.ecus.get e).node, entry := i }] }
  f.countEcu e fun y => { y with forwarded := y.forwarded + 1 }

/-- The size of the request record that the events of an admission must leave room for, 0 when it is not binding
(R88). -/
def keepRoom (t : Tables) (k : Slot) (e : EcuIx) (c : ServiceClass) (m : Message) (g : GrantIx) : Nat :=
  if requestBinding t k e c then recordSize (requestRecord t k e c m g none).content.length else 0

/-- Items 1 to 4 of an admission (R97): the grant is charged, the claim acted on, claim support checked when the grant
was spent, and the capture record written. -/
def admitBefore (s : State) (f : Flow) (k : Slot) (m : InMsg) (e : EcuIx) (c : ServiceClass) (g : GrantIx) : State :=
  let t := s.tab
  let old := s.grants.get g
  let new := old.charged t.now
  let spent := new.state == .spent
  let gs := Vector.putRow s.grants g new
  let keep := keepRoom t k e c m.msg g
  let f := if spent then grantStep t keep f g old 0 else f
  let f := claimAdmit t keep f k e c old
  let f := if spent then supportCheck t gs keep (some e) f old else f
  let a := sample t f s.fresh c
  { s with grants := gs, fresh := a.2.2, flow := captureRequest t a.2.1 k e c m.msg g a.1 }

/-- A head that passed all ten checks is admitted (R97). -/
def admitHead (s : State) (f : Flow) (k : Slot) (m : InMsg) (e : EcuIx) (c : ServiceClass) (g : GrantIx) : State :=
  match f.freeEntry with
  | none => s
  | some i =>
    let s := admitBefore s f k m e c g
    (s.withFlow (forward s.tab s.flow k i e c g m)).run [.placeFreed k]

/-- Evaluate the head of a slot and carry the decision out (R84, R89, R90, R92, R97). -/
def evaluate (s : State) (k : Slot) : State :=
  match (s.flow.slots.get k).inbound with
  | [] => s
  | m :: _ =>
    let a := evaluateHead s k m
    match a.1 with
    | .refuse r e c => s.withFlow (settled s.tab (headRefuse s.tab a.2 k r e c))
    | .hold r e => s.withFlow (setHeld s.tab a.2 k r (some e) false)
    | .admits e c g => admitHead s a.2 k m e c g

/-! ### Visits (R80 to R83) -/

/-- The head of a slot is ready (R81). -/
def headReady (t : Tables) (f : Flow) (k : Slot) : Bool :=
  (t.testers.get k).attached && !(f.slots.get k).inbound.isEmpty && (f.slots.get k).held.isNone && f.deliveryFree k

/-- The slot the next visit takes among those with a ready head and an allowance (R82). -/
def nextVisit (t : Tables) (f : Flow) : Option Slot :=
  (slotsFrom f.visitPos).find? fun k => headReady t f k && decide (0 < (f.slots.get k).allowance)

/-- Some head is ready (R82). -/
def anyReady (t : Tables) (f : Flow) : Bool := (List.finRange 16).any (headReady t f)

/-- The allowance of every ATTACHED slot becomes its weight (R82). -/
def restore (t : Tables) (f : Flow) : Flow :=
  { f with slots := tableOf 16 fun k =>
      let x := f.slots.get k
      if (t.testers.get k).attached then { x with allowance := (t.testers.get k).weight } else x }

/-- Visit a slot: the position moves on and one is taken from the allowance (R82, R83). -/
def visitSlot (f : Flow) (k : Slot) : Flow :=
  { (f.modSlot k fun x => { x with allowance := x.allowance - 1 }) with visitPos := k + 1 }

/-- VISIT (R82, R83). -/
def execVisit (s : State) : Host.Outcome State Fault Refusal :=
  if s.tab.active && anyReady s.tab s.flow then
    let f := if (nextVisit s.tab s.flow).isNone then restore s.tab s.flow else s.flow
    match nextVisit s.tab f with
    | none => .next s
    | some k => .next (evaluate (s.withFlow (visitSlot f k)) k)
  else .next s

/-- EVALUATION_AGAIN (R94): the first evaluation that is due. A head that is held no longer is not evaluated. -/
def execEvaluationAgain (s : State) : Host.Outcome State Fault Refusal :=
  match s.tab.active, s.flow.again with
  | true, k :: rest =>
    let s := s.withFlow { s.flow with again := rest }
    match (s.flow.slots.get k).held with
    | none => .next s
    | some h => .next (if h.passed then s.withFlow (settled s.tab (tooLong s.tab s.flow k)) else evaluate s k)
  | _, _ => .next s

/-- The hold deadline of a slot's head is reached and its limit has not passed before (R95). -/
def holdDue (now : Word) (x : SlotFlow) : Bool :=
  match x.held with
  | none => false
  | some h => !h.passed && expired now h.deadline

/-- HOLD_DEADLINE (R95). -/
def execHoldDeadline (k : Slot) (dt : Nat) (s : State) : Host.Outcome State Fault Refusal :=
  let s := s.advance dt
  if s.tab.active && holdDue s.tab.now (s.flow.slots.get k) then
    .next (s.withFlow (settled s.tab (tooLong s.tab s.flow k)))
  else .next s

end Sys2Proof.Machine
end

