-- ==== Sys2Proof/Machine/Sending.lean ====
section
/-! DEFINITION. Frames sent and withdrawn (R142), the timers of the ports (R144, R147, R149), and the starts of transfers
(R115, R151, R152). -/

namespace Sys2Proof.Machine

/-! ### Frames sent and withdrawn (R142, R143) -/

/-- A granted NEXT of a run was sent: the next one becomes due, or the run is over (R143). -/
def runSent (t : Tables) (f : Flow) (p : PortId) (x : Transfer) : Flow :=
  let y := { x with sent := x.sent + 1, granted := x.granted - 1 }
  if y.granted != 0 && decide (y.sent < y.segments) then pushNext t (modTx f p fun _ => y) p
  else if y.sent < y.segments then
    modTx f p fun _ => { y with phase := .waitCredit, deadline := some (after t.now (t.port p).creditWait) }
  else modTx f p fun _ => { y with phase := .waitDone, deadline := some (after t.now (t.port p).doneWait) }

/-- A frame of the transmitter's transfer was sent (R143). -/
def transmitterSent (t : Tables) (f : Flow) (p : PortId) : Flow × List Act :=
  match (f.port p).tx with
  | none => (f, [])
  | some x =>
    match x.phase with
    | .first =>
      if x.payload.length ≤ 7 then transferEnd t f p true
      else
        (modTx f p fun x =>
          { x with phase := .waitCredit, deadline := some (after t.now (t.port p).creditWait) }, [])
    | .run => (runSent t f p x, [])
    | .waitCredit | .waitDone => (f, [])

/-- The frame on the bus was sent and acknowledged; the next due frame may start (R142). -/
def frameSent (t : Tables) (f : Flow) (p : PortId) : Flow :=
  match (f.port p).onBus with
  | none => f
  | some d =>
    let f := f.modPort p fun x => { x with onBus := none }
    let f := match d.owner with
      | .transmitter => settled t (transmitterSent t f p)
      | .context _ | .nobody => f
    f.modPort p (startFrame t p)

/-- FRAME_SENT (R142, R143). -/
def execFrameSent (p : PortId) (s : State) : Host.Outcome State Fault Refusal :=
  .next (s.withFlow (frameSent s.tab s.flow p))

/-- The unsent frame a pick names, and the port without it (R142). -/
def pickFrame (x : PortFlow) : FramePick → Option (DueFrame × PortFlow)
  | .onBus => x.onBus.map fun d => (d, { x with onBus := none })
  | .control i => (x.control[i]?).map fun d => (d, { x with control := x.control.eraseIdx i })
  | .transmitter i => (x.txDue[i]?).map fun d => (d, { x with txDue := x.txDue.eraseIdx i })

/-- What a withdrawn frame ends: its transfer, or its context as a gap timer expiry does (R142, R144, R147). -/
def withdrawn (t : Tables) (f : Flow) (p : PortId) (d : DueFrame) : Flow × List Act :=
  match d.owner with
  | .transmitter => transferEnd t f p false
  | .context c => abandonCtx f p c false
  | .nobody => (f, [])

/-- FRAME_WITHDRAWN (R142): the credit-wait timeout has passed since the frame became due. -/
def execFrameWithdrawn (p : PortId) (k : FramePick) (dt : Nat) (s : State) : Host.Outcome State Fault Refusal :=
  let s := s.advance dt
  match pickFrame (s.flow.port p) k with
  | none => .next s
  | some (d, x) =>
    if reached s.tab.now (after d.due (s.tab.port p).creditWait) then
      let f := settled s.tab (withdrawn s.tab (s.flow.modPort p fun _ => x) p d)
      .next (s.withFlow (f.modPort p (startFrame s.tab p)))
    else .next s

/-! ### Timers of the ports -/

/-- The transmitter waits in a phase and its deadline is reached. -/
def txExpired (s : State) (p : PortId) (ph : TxPhase) : Bool :=
  match (s.flow.port p).tx with
  | none => false
  | some x => x.phase == ph && expired s.tab.now x.deadline

/-- CREDIT_WAIT_TIMEOUT (R144). -/
def execCreditWaitTimeout (p : PortId) (dt : Nat) (s : State) : Host.Outcome State Fault Refusal :=
  let s := s.advance dt
  if txExpired s p .waitCredit then .next (s.withFlow (settled s.tab (transferTimeout s.tab s.flow p))) else .next s

/-- DONE_WAIT_TIMEOUT (R144). -/
def execDoneWaitTimeout (p : PortId) (dt : Nat) (s : State) : Host.Outcome State Fault Refusal :=
  let s := s.advance dt
  if txExpired s p .waitDone then .next (s.withFlow (settled s.tab (transferTimeout s.tab s.flow p))) else .next s

/-- The gap timer of a context has expired. -/
def CtxTimer.gapDone (now : Word) : CtxTimer → Bool
  | .gap d => reached now d
  | .stall _ | .noTimer => false

/-- The stall timer of a context has expired. -/
def CtxTimer.stallDone (now : Word) : CtxTimer → Bool
  | .stall d => reached now d
  | .gap _ | .noTimer => false

/-- GAP_TIMER_EXPIRY (R147): the context is abandoned without a frame. -/
def execGapTimerExpiry (p : PortId) (c : CtxIx) (dt : Nat) (s : State) : Host.Outcome State Fault Refusal :=
  let s := s.advance dt
  match s.flow.ctx p c with
  | none => .next s
  | some x =>
    if x.timer.gapDone s.tab.now then .next (s.withFlow (settled s.tab (abandonCtx s.flow p c false))) else .next s

/-- STALL_TIMER_EXPIRY (R149). -/
def execStallTimerExpiry (p : PortId) (c : CtxIx) (dt : Nat) (s : State) : Host.Outcome State Fault Refusal :=
  let s := s.advance dt
  match s.flow.ctx p c with
  | none => .next s
  | some x =>
    if x.timer.stallDone s.tab.now then .next (s.withFlow (settled s.tab (stallTick s.tab s.flow p c))) else .next s

/-! ### Starting transfers -/

/-- The close buffer of a port whose closing is in phase SENDING (R131, R152). -/
def closingToSend (f : Flow) (v : VbIx) : Option CloseBuf :=
  match (f.vbs.get v).closeBuf with
  | none => none
  | some b => if (f.claims.get b.ecu).phase == some .sending then some b else none

/-- Held heads of PORT_QUEUE on a port are evaluated again when a message leaves its outbound queue (R93, R152). -/
def markPort (t : Tables) (f : Flow) (v : VbIx) : Flow :=
  f.markHeads fun _ h =>
    h.reason == .portQueue && match h.ecu with
      | none => false
      | some e => (t.ecus.get e).port == v

/-- The next transfer of a VB port: a close message first, then the oldest request (R152). -/
def vbStart (t : Tables) (f : Flow) (v : VbIx) : Flow :=
  match closingToSend f v with
  | some b =>
    startTransfer t f (.vb v) (t.port (.vb v)).node (t.ecus.get b.ecu).node b.bytes (.close b.ecu)
  | none =>
    match (f.vbs.get v).outbound with
    | [] => f
    | r :: rest =>
      let f := f.modVb v fun x => { x with outbound := rest }
      startTransfer t (markPort t f v) (.vb v) r.source r.target r.msg.payload (.request r.msg r.entry)

/-- The transmitter of a port is IDLE. -/
def Flow.txIdle (f : Flow) (p : PortId) : Bool := (f.port p).tx.isNone

/-- VB_TRANSMIT_START (R131, R152). -/
def execVbTransmitStart (v : VbIx) (s : State) : Host.Outcome State Fault Refusal :=
  if s.tab.active && s.flow.txIdle (.vb v) then .next (s.withFlow (vbStart s.tab s.flow v)) else .next s

/-- No VB port has a transfer in progress, and TB's transmitter is IDLE (R154). -/
def portsDrained (f : Flow) : Bool :=
  f.txIdle .tb && (List.finRange 3).all fun v =>
    f.txIdle (.vb v) && (f.port (.vb v)).ctxs.toList.all Option.isNone

/-- The drain conditions of STOPPING (R197). -/
def drained (f : Flow) : Bool :=
  f.entries.toList.all Option.isNone && f.claims.toList.all (fun c => c.state == .free) && portsDrained f

/-- The TB transmitter takes the oldest item of the BUS slots (R115, R151). -/
def tbStart (t : Tables) (f : Flow) : Flow :=
  match oldestItem t f .bus with
  | none => f
  | some (k, it) =>
    startTransfer t (takeItem f k) .tb it.source (t.testers.get k).tbAddr it.body.content.2 (.item k it)

/-- TB_TRANSMIT_START (R115): not in STOPPING once the drain conditions hold, when the part enters OFF instead
(log 25). -/
def execTbTransmitStart (s : State) : Host.Outcome State Fault Refusal :=
  if s.tab.active && s.flow.txIdle .tb && !(s.tab.ctl == .stopping && drained s.flow) then
    .next (s.withFlow (tbStart s.tab s.flow))
  else .next s

/-- RELAY_WRITE (R116, R204). -/
def execRelayWrite (s : State) : Host.Outcome State Fault Refusal :=
  if s.tab.active then .next (s.withFlow (settled s.tab (relayWriteItem s.tab s.flow))) else .next s

/-- RELAY_RECORD (R203): a stopped channel takes no record (log 27). -/
def execRelayRecord (s : State) : Host.Outcome State Fault Refusal :=
  if s.tab.ctl == .running && s.flow.relayIn.stop.isNone then
    .next (s.withFlow (settled s.tab (relayTakeRecord s.tab s.flow)))
  else .next s

/-- RELAY_FLUSH_DEADLINE (R204). -/
def execRelayFlushDeadline (dt : Nat) (s : State) : Host.Outcome State Fault Refusal :=
  let s := s.advance dt
  if s.tab.active && expired s.tab.now (s.flow.relayOut.page.bind (·.deadline)) then
    .next (s.withFlow (relayCommit s.tab s.flow))
  else .next s

/-- CAPTURE_FLUSH_DEADLINE (R183). -/
def execCaptureFlushDeadline (dt : Nat) (s : State) : Host.Outcome State Fault Refusal :=
  let s := s.advance dt
  if s.tab.active && expired s.tab.now (s.flow.writer.page.bind (·.deadline)) then
    .next (s.withFlow (captureCommit s.tab s.flow))
  else .next s

/-! ### Outstanding entries and claims -/

/-- An entry waits for a response and its deadline is reached (R108). -/
def Entry.due (now : Word) (x : Entry) : Bool :=
  (x.state == .awaiting || x.state == .orphaned .awaiting) && expired now x.deadline

/-- An entry reaches its deadline: TIMEOUT, or the end of an orphan (R108). -/
def entryTimeout (t : Tables) (f : Flow) (i : EntryIx) (x : Entry) : Flow × List Act :=
  let f := f.countEcu x.ecu fun c => { c with timeouts := c.timeouts + 1 }
  if x.state.isOrphan then (entryEnd t f i, []) else (f, [.refuseEntry i .timeout])

/-- RESPONSE_DEADLINE (R108). -/
def execResponseDeadline (i : EntryIx) (dt : Nat) (s : State) : Host.Outcome State Fault Refusal :=
  let s := s.advance dt
  match s.flow.entries.get i with
  | none => .next s
  | some x =>
    if x.due s.tab.now then .next (s.withFlow (settled s.tab (entryTimeout s.tab s.flow i x))) else .next s

/-- DELIVERING_OFFER (R110, R184): entries are offered room in the order in which they entered DELIVERING (log 22). -/
def execDeliveringOffer (s : State) : Host.Outcome State Fault Refusal :=
  if s.tab.active && s.flow.roomReport then
    .next ((s.withFlow { s.flow with roomReport := false }).run (s.flow.delivering.map .deliver))
  else .next s

/-- HOLD_OFF_EXPIRY (R125, R127). -/
def execHoldOffExpiry (e : EcuIx) (dt : Nat) (s : State) : Host.Outcome State Fault Refusal :=
  let s := s.advance dt
  let c := s.flow.claims.get e
  if s.tab.active && c.inForce && expired s.tab.now c.holdOff then
    .next (s.withFlow (claimRelease s.tab 0 false s.flow e .holdOff))
  else .next s

/-- CLOSE_DEADLINE (R132, R133). -/
def execCloseDeadline (e : EcuIx) (dt : Nat) (s : State) : Host.Outcome State Fault Refusal :=
  let s := s.advance dt
  let c := s.flow.claims.get e
  if s.tab.active && (c.state == .closing && c.phase == some .awaiting) && expired s.tab.now c.closeDeadline then
    .next (s.withFlow (closeEnd s.tab 0 s.flow e .noAnswer none))
  else .next s

end Sys2Proof.Machine
end

