-- ==== Sys2Proof/Machine/Conditions.lean ====
section
/-! DEFINITION. The condition monitor: raw changes, qualification, the rotation monitor (R24 to R30) and what a qualified
change does (R33, R126, R169). -/

namespace Sys2Proof.Machine

/-- The number of the condition of a direct line (R24). -/
def lineCond : CondLine → CondIx
  | .ign => 0
  | .park => 1
  | .supply => 3
  | .wshop => 4

/-- ENGINE_STILL and STANDSTILL (R24). -/
def condEngineStill : CondIx := 2
def condStandstill : CondIx := 5

/-- A line at a new level. -/
def Lines.put (x : Lines) : CondLine → Bool → Lines
  | .ign, b => { x with ign := b }
  | .park, b => { x with park := b }
  | .supply, b => { x with supply := b }
  | .wshop, b => { x with wshop := b }

/-! ### Qualified changes (R33, R126, R169) -/

/-- Halt or resume one claim (R126): a HELD claim whose guard set contains a condition that became FALSE, a HALTED one
whose guard set is now satisfied. The heads it concerns are marked once for the whole change. -/
def haltOrResume (t : Tables) (i : CondIx) (value : Bool) (f : Flow) (e : EcuIx) : Flow :=
  let c := f.claims.get e
  match value, c.state with
  | false, .held =>
    if c.guard.getLsbD i.val then
      claimReport t 0 (f.modClaim e fun c => { c with state := .halted }) e .halted none []
    else f
  | true, .halted =>
    if satisfied t c.guard then
      claimReport t 0 (f.modClaim e fun c => { c with state := .held }) e .resumed none []
    else f
  | _, _ => f

/-- A job waits in a WAIT_CONDITION step whose set is satisfied (R169). -/
def Job.conditionMet (t : Tables) (b : Job) : Bool := b.state == .waiting .condition && satisfied t b.condSet

/-- The waits of WAIT_CONDITION that a qualified change ends: the verdict becomes POSITIVE and the step finishes
(R169), in rising context number (log 31). -/
def jobsOnCondition (t : Tables) (f : Flow) : Flow × List Act :=
  (List.finRange 4).foldl (fun a j =>
    if (a.1.jobs.get j).conditionMet t then
      (a.1.modJob j fun b => { b with verdict := .positive }, a.2 ++ [.stepDone j])
    else a) (f, [])

/-- The claims of an ECU differ in state before and after. -/
def claimMoved (f g : Flow) (e : EcuIx) : Bool := (g.claims.get e).state != (f.claims.get e).state

/-- A qualified change reaches the claims, the held heads, the jobs, NEWS and capture (R33); the condition itself has
already changed in `t`. Claims are halted or resumed in rising ECU number (log 31). The heads held CONDITION and those that
a claim just halted or resumed concerns are one run of evaluations again (R94). The CLAIM event records come first, then the
CONDITION record, and the waiting jobs go on last (log 36). -/
def qualifiedChange (t : Tables) (f : Flow) (i : CondIx) (value : Bool) : Flow × List Act :=
  let g := (List.finRange 32).foldl (haltOrResume t i value) f
  let f := g.markHeads fun _ h => h.reason == .condition || h.onClaimOf (claimMoved f g)
  let f := f.setNews .condition
  let f := event t 0 f (eventRecord 3 0 (ixByte i) none (some (flagByte value)) none [])
  jobsOnCondition t f

/-! ### Raw changes and timers (R26) -/

/-- A condition after its raw value changed (R26). -/
def Condition.rawTo (now : Word) (c : Condition) (raw : Bool) : Condition :=
  match raw, c.qual with
  | true, .isFalse =>
    if c.rise.isZero then { c with raw := true, qual := .isTrue, deadline := none }
    else { c with raw := true, qual := .rising, deadline := some (after now c.rise) }
  | true, .falling => { c with raw := true, qual := .isTrue, deadline := none }
  | false, .isTrue =>
    if c.fall.isZero then { c with raw := false, qual := .isFalse, deadline := none }
    else { c with raw := false, qual := .falling, deadline := some (after now c.fall) }
  | false, .rising => { c with raw := false, qual := .isFalse, deadline := none }
  | r, _ => { c with raw := r }

/-- A condition whose timer expired (R26). -/
def Condition.timerDone (c : Condition) : Condition :=
  match c.qual with
  | .rising => { c with qual := .isTrue, deadline := none }
  | .falling => { c with qual := .isFalse, deadline := none }
  | .isTrue | .isFalse => c

/-- Replace a condition, with the effects of a qualified change when its qualified value changes (R25, R33). -/
def putCondition (s : State) (i : CondIx) (c : Condition) : State :=
  let old := s.tab.conds.get i
  let t := { s.tab with conds := Vector.putRow s.tab.conds i c }
  if old.qualified = c.qualified then { s with tab := t }
  else { s with tab := t, flow := settled t (qualifiedChange t s.flow i c.qualified) }

/-- A raw value is reported: a raw change when it differs, nothing otherwise (R26, R29, R31). -/
def reportRaw (s : State) (i : CondIx) (raw : Bool) : State :=
  let c := s.tab.conds.get i
  if c.raw = raw then s else putCondition s i (c.rawTo s.tab.now raw)

/-- RAW_CHANGE (R24, R26): the line takes the level, and the monitor takes the change while it runs (R39). -/
def execRawChange (l : CondLine) (level : Bool) (s : State) : Host.Outcome State Fault Refusal :=
  let s := { s with lines := s.lines.put l level }
  if s.tab.active then .next (reportRaw s (lineCond l) level) else .next s

/-- ROT_EDGE (R29): the running count goes up by one and stays at 65,535. -/
def execRotEdge (s : State) : Host.Outcome State Fault Refusal :=
  if s.tab.active then .next { s with rot := { s.rot with running := min 65535 (s.rot.running + 1) } } else .next s

/-- The rotation monitor after the end of a window; the next window ends one window after the deadline just reached
(R29). -/
def Rotation.windowEnd (r : Rotation) : Rotation :=
  { r with running := 0, last := r.running, completed := true, deadline := r.deadline.map fun d => after d r.window }

/-- WINDOW_END (R29). -/
def execWindowEnd (dt : Nat) (s : State) : Host.Outcome State Fault Refusal :=
  let s := s.advance dt
  if s.tab.active && expired s.tab.now s.rot.deadline then
    .next (reportRaw { s with rot := s.rot.windowEnd } condEngineStill (decide (s.rot.running ≤ s.rot.threshold)))
  else .next s

/-- RISE_TIMER_EXPIRY (R26). -/
def execRiseTimerExpiry (i : CondIx) (dt : Nat) (s : State) : Host.Outcome State Fault Refusal :=
  let s := s.advance dt
  let c := s.tab.conds.get i
  if s.tab.active && c.qual == .rising && expired s.tab.now c.deadline then .next (putCondition s i c.timerDone)
  else .next s

/-- FALL_TIMER_EXPIRY (R26). -/
def execFallTimerExpiry (i : CondIx) (dt : Nat) (s : State) : Host.Outcome State Fault Refusal :=
  let s := s.advance dt
  let c := s.tab.conds.get i
  if s.tab.active && c.qual == .falling && expired s.tab.now c.deadline then .next (putCondition s i c.timerDone)
  else .next s

end Sys2Proof.Machine
end

