-- ==== Sys2Proof/Machine/Starting.lean ====
section
/-! DEFINITION. What STARTING reads: the directory and its leaves (R195, R209), the settings leaf (R213) and its checks
(R23, R38, R74, R139, R188, R196). -/

namespace Sys2Proof.Machine

/-! ### The directory (R195, R209) -/

/-- The signature word (R209). -/
def signature : Nat := 0x5A3C24D6

/-- One directory entry: its key and the address of its leaf. -/
structure DirEntry where
  key  : Nat
  leaf : Nat
  deriving DecidableEq, Repr

/-- A directory entry: bytes 0 to 2 the offset in words, byte 3 the key; the leaf lies that many words from the entry
(R195, R209). -/
def dirEntry (ram : List Host.Cell) (base i : Nat) : DirEntry :=
  let a := base + 8 + 4 * i
  let bs := ramRead ram a 4
  { key := (byteAt bs 3).toNat, leaf := a + 4 * numAt bs 0 3 }

/-- The keys a directory may hold (R195). -/
def leafKeys : List Nat := [0x10, 0x20, 0x30, 0x31, 0x40, 0x50, 0x60]

/-- The leaf of a key. -/
def leafOf (es : List DirEntry) (k : Nat) : Option Nat := (es.find? fun e => e.key == k).map (·.leaf)

/-- A page ring's geometry in range: 2 to 256 pages, a page size of 256 to 4,096 bytes that is a multiple of 64, and at
least `least` (R195). -/
def getRing (ram : List Host.Cell) (leaf least : Nat) : Option Ring :=
  let bs := ramRead ram leaf 16
  let pages := numAt bs 0 2
  let size := numAt bs 2 2
  if 2 ≤ pages ∧ pages ≤ 256 ∧ 256 ≤ size ∧ size ≤ 4096 ∧ size % 64 = 0 ∧ least ≤ size then
    some { leaf, pages, size }
  else none

/-- The step pool's geometry (R195, R209). -/
def getPool (ram : List Host.Cell) (leaf : Nat) : Option Pool :=
  let n := numAt (ramRead ram leaf 32) 4 2
  if 1 ≤ n then some { leaf, steps := n } else none

/-- The order board's slot count (R195, R209). -/
def getBoard (ram : List Host.Cell) (leaf : Nat) : Option Nat := inRange 8 64 (numAt (ramRead ram leaf 16) 0 2)

/-- An optional leaf: absent, or present with its geometry in range. -/
def getLeaf {α : Type} (es : List DirEntry) (k : Nat) (g : Nat → Option α) : Option (Option α) :=
  match leafOf es k with
  | none => some none
  | some a => (g a).map some

/-- The extents of the directory and its leaves: addresses and sizes (R209). -/
def Directory.extents (d : Directory) : List (Nat × Nat) :=
  [(d.base, 8 + 4 * d.entries), (d.settings, 1816), (d.board, 16 + 64 * d.slots)]
  ++ (d.relayIn.toList ++ d.relayOut.toList ++ d.capture.toList).map (fun r => (r.leaf, 16 + r.pages * r.size))
  ++ d.pool.toList.map (fun p => (p.leaf, 32 * p.steps))
  ++ d.counters.toList.map (fun a => (a, 908))

/-- Two extents share an address. -/
def overlap (x y : Nat × Nat) : Bool := decide (x.1 < y.1 + y.2) && decide (y.1 < x.1 + x.2)

/-- No two extents of a list overlap. -/
def disjoint : List (Nat × Nat) → Bool
  | [] => true
  | x :: xs => xs.all (fun y => !overlap x y) && disjoint xs

/-- The directory and its leaves lie within the address space and none overlap (R195, step 5). -/
def Directory.placed (d : Directory) : Bool :=
  d.extents.all (fun x => decide (x.1 + x.2 ≤ ramTop)) && disjoint d.extents

/-- The geometry of every leaf (R195, step 4). -/
def getLeaves (ram : List Host.Cell) (base : Nat) (es : List DirEntry) (settings board : Nat) : Option Directory := do
  let slots ← getBoard ram board
  let relayIn ← getLeaf es 0x30 fun a => getRing ram a 256
  let relayOut ← getLeaf es 0x31 fun a => getRing ram a 2112
  let capture ← getLeaf es 0x40 fun a => getRing ram a 256
  let pool ← getLeaf es 0x50 (getPool ram)
  some { base, entries := es.length, settings, board, slots, relayIn, relayOut, capture, pool
         counters := leafOf es 0x60 }

/-- No key appears twice. -/
def distinct : List Nat → Bool
  | [] => true
  | x :: xs => !xs.contains x && distinct xs

/-- Read and check the directory in the order of R195. -/
def readDirectory (ram : List Host.Cell) (base : Nat) : Except FaultCode Directory :=
  let head := ramRead ram base 8
  let n := (byteAt head 4).toNat
  if numAt head 0 4 ≠ signature ∨ n = 0 ∨ 16 < n then .error .badSignature
  else
    let es := (List.range n).map (dirEntry ram base)
    if !(es.all fun e => leafKeys.contains e.key) || !distinct (es.map (·.key)) then .error .badLeaf
    else
      match leafOf es 0x10, leafOf es 0x20 with
      | some s, some b =>
        match getLeaves ram base es s b with
        | none => .error .badLeaf
        | some d => if d.placed then .ok d else .error .badLeaf
      | _, _ => .error .missingLeaf

/-! ### Conflicts of addresses (R9, R17, R18) -/

/-- A party outside the slot already holds an identity of a new tester (R9). -/
def testerConflict (t : Tables) (f : Flow) (k : Slot) (x : Tester) : Bool :=
  ((List.finRange 16).any fun j => j != k && holdsAddr t f j && (t.testers.get j).vsAddr == x.vsAddr)
  || ((List.finRange 3).any fun v => (t.port (.vb v)).node == x.vsAddr)
  || ((List.finRange 32).any fun e => (t.ecus.get e).valid && (t.ecus.get e).node == x.vsAddr)
  || match x.kind with
    | .bus => (t.port .tb).node == x.tbAddr
    | .relay => (List.finRange 16).any fun j =>
      j != k && (t.testers.get j).attached && (t.testers.get j).kind == .relay && (t.testers.get j).relayId == x.relayId
    | .job => (List.finRange 16).any fun j =>
      j != k && (t.testers.get j).attached && (t.testers.get j).kind == .job && (t.testers.get j).jobCtx == x.jobCtx

/-- A valid entry's node address is taken by another party (R18, step 4). -/
def ecuConflict (t : Tables) (f : Flow) (e : EcuIx) (x : Ecu) : Bool :=
  x.valid &&
  (((List.finRange 32).any fun i => i != e && (t.ecus.get i).valid && (t.ecus.get i).node == x.node)
   || (t.port (.vb x.port)).node == x.node
   || (List.finRange 16).any fun k => holdsAddr t f k && (t.testers.get k).vsAddr == x.node)

/-! ### The settings leaf (R213) -/

/-- Load the ECU entries in index order, each against those before it (R23). -/
def loadEcus (f : Flow) : List (EcuIx × List Byte) → Tables → Option Tables
  | [], t => some t
  | (e, bs) :: rest, t =>
    match getEcu bs with
    | none => none
    | some x =>
      if ecuConflict t f e x then none else loadEcus f rest { t with ecus := Vector.putRow t.ecus e x }

/-- Load the slot records with the attach flag (`attached`), or those without it, in slot order (R23). -/
def loadTesters (f : Flow) (attached : Bool) : List (Slot × List Byte) → Tables → Option Tables
  | [], t => some t
  | (k, bs) :: rest, t =>
    match getFlag (byteAt bs 0) with
    | none => none
    | some a =>
      if a = attached then
        match getTester bs a with
        | none => none
        | some x =>
          if a && testerConflict t f k x then none
          else loadTesters f attached rest { t with testers := Vector.putRow t.testers k x }
      else loadTesters f attached rest t

/-- The numbered records of a table in the settings leaf. -/
def recordsAt (n size off : Nat) (bs : List Byte) : List (Fin n × List Byte) :=
  (List.finRange n).map fun i => (i, (bs.drop (off + size * i.val)).take size)

/-- A table read from records that all parse. -/
def vectorOf {α : Type} {n : Nat} (xs : List α) (d : α) : Vector α n := tableOf n fun i => xs.getD i.val d

/-- The condition times (R38): every condition with its rise and fall time, in its reset state otherwise. -/
def getTimes (bs : List Byte) : Option Condition := do
  let rise ← getDuration bs 0
  let fall ← getDuration bs 2
  some { Condition.reset with rise, fall }

/-- An account threshold (R74). -/
def getThreshold (bs : List Byte) : Option Nat := inRange 0 1024 (numAt bs 0 2)

/-- The sum of the reserve thresholds is at most 1,024 (R72, R74). -/
def thresholdsFit (th : Vector Nat 51) : Bool := decide (sumReserve (fun a => th.get a) ≤ 1024)

/-- What the settings leaf holds beside the tables. -/
structure Settings where
  tab    : Tables
  window : Duration
  still  : Nat
  mask   : NewsFlags
  deriving DecidableEq, Repr

/-- The tables: the ports, then the map, the ECU entries, the attached and the other slots (R23, R139). -/
def readTablesLeaf (f : Flow) (bs : List Byte) (t : Tables) : Option Tables := do
  let ports ← getAll getPort (records 16 4 bs)
  let map ← getAll (fun r => getClass (byteAt r 0)) (records 1 256 (bs.drop 0x618))
  let t := { t with ports := vectorOf ports .reset, classMap := vectorOf map .barred }
  let t ← loadEcus f (recordsAt 32 32 0x218 bs) t
  let t ← loadTesters f true (recordsAt 16 16 0x118 bs) t
  loadTesters f false (recordsAt 16 16 0x118 bs) t

/-- The capture settings (R188). -/
def readCaptureLeaf (bs : List Byte) (t : Tables) : Option Tables := do
  let eventCapture ← getFlag (byteAt bs 0x41)
  let captureFlush ← getDuration bs 0x48
  let probes ← getAll getProbe (records 16 4 (bs.drop 0x70))
  let sampler ← getSampler (byteAt bs 0x68) (byteAt bs 0x69) (numAt bs 0x6A 2)
  if (eventCapture || sampler.enabled || probes.any (·.enabled)) && t.captureRing.isNone then none
  else some { t with eventCapture, captureFlush, probes := vectorOf probes .reset, sampler }

/-- Read and check the settings leaf; `none` is BAD_SETTINGS (R196). `t` holds the directory just read. -/
def readSettings (f : Flow) (bs : List Byte) (t : Tables) : Option Settings := do
  let t ← readTablesLeaf f bs t
  let conds ← getAll getTimes (records 4 6 (bs.drop 0x50))
  let window ← getTimeout bs 0x4A
  let thresholds ← getAll getThreshold (records 2 51 (bs.drop 0xB0))
  let t := { t with conds := vectorOf conds .reset, thresholds := vectorOf thresholds 0 }
  if !thresholdsFit t.thresholds then none
  else
    let t ← readCaptureLeaf bs t
    let scan ← getDuration bs 0x44
    let relayFlush ← getDuration bs 0x46
    let mask ← getMask (numAt bs 0x4C 4)
    let still ← inRange 0 255 (numAt bs 0x42 2)
    if t.relayOutRing.isSome && relayFlush.isZero then none
    else
      some { tab := { t with scan, relayFlush, marker := byteAt bs 0x40 }, window, still, mask }

/-- Everything STARTING reads and checks, in the order of R195 and R196. -/
def readStarting (s : State) : Except FaultCode Settings :=
  match readDirectory s.flow.ram s.xbase.toNat with
  | .error c => .error c
  | .ok d =>
    let t := { Tables.reset with now := s.tab.now, ctl := .running, dir := some d }
    match readSettings { Flow.reset with ram := s.flow.ram } (ramRead s.flow.ram d.settings 1816) t with
    | none => .error .badSettings
    | some x => .ok x

/-! ### Restarting the condition monitor (R37) -/

/-- The raw value a condition is read at (R37). -/
def rawAtStart (l : Lines) (i : CondIx) : Bool :=
  i == 0 && l.ign || i == 1 && l.park || i == 3 && l.supply || i == 4 && l.wshop

/-- A condition as STARTING leaves it: FALSE, with its raw value read; a raw value that is true counts as having become
true in FALSE, here up to a qualified change, which is taken once the part is RUNNING (R37). -/
def startCondition (now : Word) (l : Lines) (i : CondIx) (c : Condition) : Condition :=
  if rawAtStart l i && !c.rise.isZero then c.rawTo now true else c

/-- The conditions that become TRUE at once when the part enters RUNNING: read true, with a rise time of 0 (R37). They
change in rising number (log 31). -/
def directConditions (l : Lines) (conds : Vector Condition 6) : List CondIx :=
  (List.finRange 6).filter fun i => rawAtStart l i && (conds.get i).rise.isZero

end Sys2Proof.Machine
end

