-- ==== Sys2Proof/Machine/Control.lean ====
section
/-! DEFINITION. Resets, controller states and registers (R191 to R199): the six registers, STARTING, STOPPING, OFF and
FAULTED, attentions and scans. -/

namespace Sys2Proof.Machine

/-! ### Looks at the order board (R199; log 7) -/

/-- A state word POSTED (R210). -/
def posted : Nat := 1
/-- A state word TAKEN (R210). -/
def taken : Nat := 2

/-- The look goes on: the next slot that reads POSTED among `left` slots from `n` on. -/
def seekPosted (d : Directory) (ram : List Host.Cell) : Nat → Nat → Option Look
  | 0, _ => none
  | left + 1, n =>
    if ramNum ram (d.orderAddr n) 4 = posted then some { next := n, left := left + 1 }
    else seekPosted d ram left ((n + 1) % d.slots)

/-- A look begins at the board position (R199). -/
def beginLook (d : Directory) (f : Flow) : Flow :=
  { f with look := seekPosted d f.ram d.slots f.boardPos, lookDue := false }

/-- An attention or scan reaches the board: a look, or one pending look while one is in progress (R199). -/
def lookAt (t : Tables) (f : Flow) : Flow :=
  match t.dir with
  | none => f
  | some d => if f.look.isSome then { f with lookDue := true } else beginLook d f

/-- The look goes on after the slot it took; when it has ended, the pending look is made (R199). -/
def lookOn (d : Directory) (l : Look) (f : Flow) : Flow :=
  match seekPosted d f.ram (l.left - 1) ((l.next + 1) % d.slots) with
  | some x => { f with look := some x }
  | none => if f.lookDue then beginLook d f else { f with look := none }

/-! ### Attentions and scans (R199, R202, R184, R204) -/

/-- The capture writer at an attention or scan: when the page it needs is EMPTY it is no longer blocked, and reports that
room has returned (R184). -/
def captureReread (t : Tables) (f : Flow) : Flow :=
  match t.captureRing with
  | none => f
  | some r =>
    let w := f.writer.reread r f.ram
    if f.writer.blocked && !w.blocked then
      Flow.markHeads { f with writer := w, roomReport := true } fun _ h => h.reason == .capture
    else f

/-- An attention or scan reaches the board, the relay channel and the blocked writers, each as an event of its own
(R199), in this order (log 36). -/
def attend (t : Tables) (f : Flow) : Flow :=
  let f := match t.ctl with
    | .off | .running | .stopping => lookAt t f
    | .starting | .faulted => f
  if t.active then relayReread t (captureReread t (relayBegin t f)) else f

/-- ATTENTION (R199). -/
def execAttention (_w : Word) (st : Stores) (s : State) : Host.Outcome State Fault Refusal :=
  let s := s.store st
  .next (s.withFlow (attend s.tab s.flow))

/-- SCAN (R199): the timer expires once every scan interval, in RUNNING and STOPPING. -/
def execScan (dt : Nat) (s : State) : Host.Outcome State Fault Refusal :=
  let s := s.advance dt
  if s.tab.active && expired s.tab.now s.scanDl then
    .next { s with flow := attend s.tab s.flow, scanDl := s.scanDl.map fun d => after d s.tab.scan }
  else .next s

/-! ### CONTROLLER records (R180, R189, R190) -/

/-- Event outcomes of a CONTROLLER record (R211). -/
def recStopping : Byte := 0
def recOff : Byte := 1
def recFaulted : Byte := 2

/-- A CONTROLLER record is offered, and the open page committed (R189, R190). -/
def controllerRecord (t : Tables) (f : Flow) (outcome : Byte) (reason : Option Byte) : Flow :=
  captureCommit t (event t 0 f (eventRecord 7 0 0 none (some outcome) reason []))

/-! ### Faults (R198, R190) -/

/-- The capture unit's last attempt, from RUNNING or STOPPING and while event capture is on; `again` says that it meets a
memory error itself (R190). -/
def lastAttempt (t : Tables) (f : Flow) (code : FaultCode) (again : Bool) : Flow :=
  if t.active && t.eventCapture && !again then controllerRecord t f recFaulted (some (BitVec.ofNat 8 code.code)) else f

/-- Entry to FAULTED: the last attempt, then every block takes its FAULTED values (R198). -/
def enterFaulted (s : State) (code : FaultCode) (again : Bool) : State :=
  let f := lastAttempt s.tab s.flow code again
  { s with
    mask := maskReset, scanDl := none, rot := .reset, grants := Vector.replicate 64 .reset
    tab := { Tables.reset with now := s.tab.now, ctl := .faulted, fault := code }
    flow := { Flow.reset with ram := f.ram, news := News.fault.flag } }

/-! ### Resets (R1, R191, R192) -/

/-- HARDWARE_RESET: every block takes its reset values. The commands waiting, the lines, shared RAM and the source of free
values are no state the reset reaches. -/
def execHardwareReset (s : State) : Host.Outcome State Fault Refusal :=
  .next { State.reset with
    pending := s.pending, lines := s.lines, fresh := s.fresh, flow := { Flow.reset with ram := s.flow.ram } }

/-- A soft reset: every block takes its SOFT_RESET values; XBASE, IRQ_ENABLE and the count are kept (R1, R192). -/
def softReset (s : State) : State :=
  { s with
    enable := false, mask := maskReset, scanDl := none, rot := .reset, grants := Vector.replicate 64 .reset
    tab := { Tables.reset with now := s.tab.now }
    flow := { Flow.reset with ram := s.flow.ram } }

/-! ### STARTING (R195, R196) -/

/-- STARTING begins: the fault code and the loaded directory are cleared (R195). -/
def enterStarting (s : State) : State :=
  { s with
    tab := { s.tab with ctl := .starting, fault := .noFault, dir := none }
    flow := { s.flow with look := none, lookDue := false } }

/-! ### STOPPING (R197) -/

/-- The held heads, in rising slot number from the visit position (R94, R96). -/
def heldSlots (f : Flow) : List Slot := (slotsFrom f.visitPos).filter fun k => (f.slots.get k).held.isSome

/-- The claims in force among those of `p` are released with cause STOPPING (R128). -/
def releaseAll (t : Tables) (p : EcuIx → Bool) (f : Flow) : Flow :=
  ((List.finRange 32).filter p).foldl (fun f e => claimRelease t 0 false f e .stopping) f

/-- The running jobs among those of `p` end STOPPED (R174). -/
def stopJobs (t : Tables) (p : JobIx → Bool) (f : Flow) : Flow :=
  ((List.finRange 4).filter p).foldl (fun f j => settle t [.endJob j .stopped 0 (f.jobs.get j).cur] f) f

/-- Every held head is evaluated and refused (R96). -/
def refuseHeads (t : Tables) (f : Flow) : Flow :=
  (heldSlots f).foldl (fun f k => settled t (refuseHeldHead t f k)) f

/-- The entry events of STOPPING, all in this one command: no job step and no visit comes between them (log 9). Which claims
are released before the jobs end, and which jobs end only after the held heads are refused, is free (R197; log 9). -/
def stoppingEvents (t : Tables) (n : Nat) (f : Flow) : Flow :=
  let f := controllerRecord t f recStopping none
  let f := relayStopReading t f
  let f := releaseAll t (Config.claimsBeforeJobs n) f
  let f := stopJobs t (fun j => !Config.headsBeforeJobs n j) f
  let f := refuseHeads t f
  let f := stopJobs t (fun _ => true) f
  releaseAll t (fun _ => true) f

/-- Entry to STOPPING (R197). -/
def enterStopping (s : State) : State :=
  let t := { s.tab with ctl := .stopping }
  { s with tab := t, fresh := s.fresh + 1, flow := stoppingEvents t s.fresh s.flow }

/-! ### OFF (R197, R76, R96, R154, R204, R39, R57) -/

/-- Charges that the entry to OFF releases: those of TB contexts, inbound queues and delivery items (R71, R76). -/
def leftCharges (f : Flow) : List Charge :=
  (f.port .tb).ctxs.toList.filterMap (fun c => c.bind (·.charge))
  ++ f.slots.toList.flatMap fun x =>
      x.inbound.map (·.msg.charge) ++ x.items.filterMap fun it => match it.body with
        | .response m => some m.charge
        | .refusal _ | .interim _ => none

/-- A port stops: contexts free, no frame due (R154). -/
def PortFlow.stop (x : PortFlow) : PortFlow :=
  { x with ctxs := Vector.replicate 8 none, onBus := none, control := [], txDue := [] }

/-- A slot at the entry to OFF: inbound queue flushed, held-head record cleared, delivery items discarded (R96, R76). -/
def SlotFlow.stop (x : SlotFlow) : SlotFlow := { x with inbound := [], placeWait := [], held := none, items := [] }

/-- The traffic at the entry to OFF. The waiting list is emptied before the discarded messages' cells are released, so their
offers reach no claimant (R65, R76; log 36). -/
def offEvents (t : Tables) (f : Flow) : Flow :=
  let f := controllerRecord t f recOff none
  let f := relayCommit t { f with waiting := [] }
  let f := (leftCharges f).foldl releaseCharge f
  { f with slots := f.slots.map SlotFlow.stop, ports := f.ports.map PortFlow.stop, again := [], roomReport := false
    }.setNews .stopped

/-- A grant at the entry to OFF keeps its remaining lifetime as a held figure (R57). -/
def Grant.stop (now : Word) (g : Grant) : Grant := { g with life := g.life.freeze now }

/-- Entry to OFF from STOPPING; with ENABLE set STARTING begins at once (R197). -/
def enterOff (s : State) : State :=
  let f := offEvents s.tab s.flow
  let s' : State :=
    { s with
      tab := { s.tab with ctl := .off, conds := s.tab.conds.map fun c => { c with deadline := none } }
      rot := { s.rot with deadline := none }, grants := s.grants.map (Grant.stop s.tab.now), scanDl := none, flow := f }
  if s.enable then enterStarting s' else s'

/-- ENTER_OFF (R197): the drain conditions hold. -/
def execEnterOff (s : State) : Host.Outcome State Fault Refusal :=
  if s.tab.ctl == .stopping && drained s.flow then .next (enterOff s) else .next s

/-! ### The end of STARTING (R195, R196) -/

/-- What each block takes when all checks pass, up to the entry to RUNNING (R196). Every slot's four counters are cleared,
the delivery-failure counter of a slot loaded DETACHED too (R23, R100; log 39). -/
def loadStarting (s : State) (x : Settings) : State :=
  let t := { x.tab with conds := tableOf 6 fun i => startCondition x.tab.now s.lines i (x.tab.conds.get i) }
  { s with
    tab := t, mask := x.mask, grants := Vector.replicate 64 .reset
    scanDl := if t.scan.isZero then none else some (after t.now t.scan)
    rot := { Rotation.reset with window := x.window, threshold := x.still, deadline := some (after t.now x.window) }
    flow := { Flow.reset with
      ram := s.flow.ram, news := s.flow.news
      slots := tableOf 16 fun k =>
        { SlotFlow.reset with allowance := if (t.testers.get k).attached then (t.testers.get k).weight else 0 } } }

/-- The qualified changes of rise time 0, taken once the part is RUNNING (R37). -/
def directChanges (s : State) (x : Settings) : State :=
  (directConditions s.lines x.tab.conds).foldl (fun s i => reportRaw s i true) s

/-- Entry to RUNNING: the direct qualified changes with their records, one look as at an attention, and STOPPING when
ENABLE is clear (R196), in this order (R37; log 36). -/
def enterRunning (s : State) (x : Settings) : State :=
  let s := directChanges (loadStarting s x) x
  let s := s.withFlow (lookAt s.tab s.flow)
  if s.enable then s else enterStopping s

/-- STARTING_COMPLETE (R196): all checks pass (log 23). -/
def execStartingComplete (s : State) : Host.Outcome State Fault Refusal :=
  match s.tab.ctl, readStarting s with
  | .starting, .ok x => .next (enterRunning s x)
  | _, _ => .next s

/-- STARTING_CHECK_FAILS (R195, R196). -/
def execStartingCheckFails (s : State) : Host.Outcome State Fault Refusal :=
  match s.tab.ctl, readStarting s with
  | .starting, .error c => .next (enterFaulted s c false)
  | _, _ => .next s

/-! ### Registers (R191 to R193) -/

/-- CTRL bits (R207). -/
def ctrlEnable (w : Word) : Bool := w.getLsbD 0
def ctrlReset (w : Word) : Bool := w.getLsbD 1
def ctrlIrq (w : Word) : Bool := w.getLsbD 2

/-- What a stored ENABLE does, by the controller state and its change (R192). -/
def enableWritten (s : State) (was : Bool) : State :=
  match s.tab.ctl, was, s.enable with
  | .off, false, true => enterStarting s
  | .running, true, false => enterStopping s
  | .faulted, _, false => { s with tab := { s.tab with ctl := .off } }
  | _, _, _ => s

/-- A write to CTRL (R192). -/
def ctrlWrite (s : State) (w : Word) : State :=
  if ctrlReset w then softReset { s with irqEnable := ctrlIrq w }
  else enableWritten { s with enable := ctrlEnable w, irqEnable := ctrlIrq w } s.enable

/-- ENABLE: a CTRL write that carries a new ENABLE (R192; log 6). -/
def execEnable (w : Word) (st : Stores) (s : State) : Host.Outcome State Fault Refusal :=
  .next (ctrlWrite (s.store st) w)

/-- SOFT_RESET: a CTRL write with SOFT_RESET set (R192; log 6). -/
def execSoftReset (w : Word) (st : Stores) (s : State) : Host.Outcome State Fault Refusal :=
  .next (ctrlWrite (s.store st) w)

/-- IRQ_ENABLE: a CTRL write that carries a new IRQ_ENABLE (R192, R193; log 6). -/
def execIrqEnable (w : Word) (st : Stores) (s : State) : Host.Outcome State Fault Refusal :=
  .next (ctrlWrite (s.store st) w)

/-- REGISTER_WRITE (R191): XBASE is taken in OFF; every other write of these registers is ignored. -/
def execRegisterWrite (r : HostReg) (w : Word) (st : Stores) (s : State) : Host.Outcome State Fault Refusal :=
  let s := s.store st
  match r, s.tab.ctl with
  | .xbase, .off => .next { s with xbase := alignBase w }
  | _, _ => .next s

/-- NEWS_READ (R193): the flags are returned and cleared as one event. -/
def execNewsRead (st : Stores) (s : State) : Host.Outcome State Fault Refusal :=
  let s := s.store st
  .next { s with readData := s.flow.newsWord, flow := { s.flow with news := 0 } }

end Sys2Proof.Machine
end

