-- ==== Sys2Proof/Machine/Jobs.lean ====
section
/-! DEFINITION. The steps of a job (R161 to R165, R168 to R171) and its timers. -/

namespace Sys2Proof.Machine

/-! ### Reading a step (R161, R212) -/

/-- What a job finds at its current step: a step it cannot carry out, or one of a known kind and guard. -/
inductive StepRead where
  | bad
  | step (k : StepKind) (g : Guard) (bytes : List Byte)
  deriving DecidableEq, Repr

/-- The step lies within the running repeat's span (R163). -/
def Job.inSpan (b : Job) : Bool :=
  match b.rep with
  | none => false
  | some r => decide (r.start ≤ b.cur) && decide (b.cur < r.start + r.span)

/-- The bytes of a pool step (R157, R209). -/
def poolBytes (t : Tables) (f : Flow) (n : Nat) : List Byte :=
  match t.dir.bind (·.pool) with
  | none => []
  | some p => ramRead f.ram (p.leaf + 32 * n) 32

/-- Judge the bytes of a step: pool step 0, an unknown kind or guard, and a REPEAT or END within a running span are bad
(R161, R209). -/
def judgeStep (b : Job) (bs : List Byte) : StepRead :=
  if b.listStart + b.cur = 0 then .bad
  else
    match getStepKind (byteAt bs 0), getGuard (byteAt bs 1) with
    | some k, some g => if b.inSpan && (k == .rep || k == .fin) then .bad else .step k g bs
    | _, _ => .bad

/-- The step a job has reached (R161). -/
def readStep (t : Tables) (f : Flow) (j : JobIx) : StepRead :=
  let b := f.jobs.get j
  judgeStep b (poolBytes t f (b.listStart + b.cur))

/-- The job ends BAD_STEP at its current step (R173). -/
def badStepAct (f : Flow) (j : JobIx) : List Act := [.endJob j .badStep 0 (f.jobs.get j).cur]

/-- A RUNNING job carries out the step it has reached when it is of this kind; a step whose guard is false is skipped, and
one whose guard is true is counted as it begins (R161). -/
def jobStep (t : Tables) (f : Flow) (j : JobIx) (kind : StepKind)
    (run : Flow → List Byte → Flow × List Act) : Flow × List Act :=
  let b := f.jobs.get j
  if b.state == .running then
    match readStep t f j with
    | .bad => (f, [])
    | .step k g bs =>
      if k = kind then
        if g.holds b.verdict then run (f.modJob j fun x => { x with steps := x.steps + 1 }) bs else (f, [.stepDone j])
      else (f, [])
  else (f, [])

/-- A job step as a command of the whole machine. -/
def State.jobStep (s : State) (j : JobIx) (kind : StepKind) (run : Flow → List Byte → Flow × List Act) : State :=
  if s.tab.ctl == .running then s.withFlow (settled s.tab (Machine.jobStep s.tab s.flow j kind run)) else s

/-! ### SEND (R164, R165) -/

/-- A SEND to an invalid ECU entry ends as if its request had been refused NO_ECU (R164). -/
def sendToNobody (t : Tables) (f : Flow) (j : JobIx) (x : SendStep) : Flow × List Act :=
  let cur := (f.jobs.get j).cur
  let f := f.modJob j fun b => { b with verdict := .refused }
  let a := writeResult t f j x.result 3 (refusalBytes t (firstByte x.inlined) .noEcu)
  (a.2, if a.1 then [.endJob j .memoryError 0 cur] else if x.stop then [.endJob j .failed 0 cur] else [.stepDone j])

/-- It is the last pass of a running repeat (R164). -/
def Job.lastPass (b : Job) : Bool :=
  match b.rep with
  | none => false
  | some r => r.pass + 1 == r.count

/-- How many data bytes a SEND reads on this pass (R164). -/
def SendStep.dataLength (x : SendStep) (b : Job) : Nat :=
  match x.data with
  | none => 0
  | some d =>
    match d.final with
    | none => d.length
    | some n => if b.lastPass then n else d.length

/-- The first `n` data bytes of this pass (R164). -/
def SendStep.dataBytes (x : SendStep) (b : Job) (base : Nat) (ram : List Host.Cell) (n : Nat) : List Byte :=
  match x.data with
  | none => []
  | some d => ramRead ram (base + d.offset + b.pass * d.length) n

/-- The byte of the pass counter (R164). -/
def PassCounter.byte (c : PassCounter) (pass : Nat) : Byte := c.start + BitVec.ofNat 8 pass

/-- A built message, before its charge (R164): `none` when the pass counter lies outside it, which ends the job
BAD_STEP. -/
def buildSend (t : Tables) (f : Flow) (j : JobIx) (x : SendStep) : Option Build :=
  let b := f.jobs.get j
  let base := (t.dir.map (·.base)).getD 0
  let n := x.dataLength b
  let len := x.inlined.length + n
  let build (malformed : Bool) (code : Byte) (payload : List Byte) : Build :=
    { target := (t.ecus.get x.ecu).node, ecu := x.ecu, length := len, malformed, code, payload, charge := none
      result := x.result, wait := x.wait, stop := x.stop }
  if badLength len then
    some (build true (if len = 0 then 0 else firstByte (x.inlined ++ x.dataBytes b base f.ram 1)) [])
  else
    let pay := x.inlined ++ x.dataBytes b base f.ram n
    match x.counter with
    | none => some (build false (firstByte pay) pay)
    | some c =>
      if len ≤ c.position then none
      else
        let pay := pay.set c.position (c.byte b.pass)
        some (build false (firstByte pay) pay)

/-- Cells of a built message (R22). -/
def Build.cells (m : Build) : Nat := if m.malformed then 1 else cellsFor m.length

/-- A built message is charged and appended, or waits for cells (R165). -/
def chargeBuild (t : Tables) (f : Flow) (j : JobIx) (k : Slot) (m : Build) : Flow × List Act :=
  let g := (classOf t m.code).grade
  match charge t f k g m.cells with
  | some (f, h) => jobAppend (f.modJob j fun b => { b with build := some { m with charge := some h } }) j
  | none =>
    ((f.modJob j fun b => { b with build := some m, state := .waiting .cells }).enterWait t (.job j) k g m.cells, [])

/-- A SEND step with a true guard (R164). -/
def runSend (t : Tables) (j : JobIx) (f : Flow) (bs : List Byte) : Flow × List Act :=
  match getSend bs, (f.jobs.get j).slot with
  | some x, some k =>
    if (t.ecus.get x.ecu).valid then
      match buildSend t f j x with
      | none => (f, badStepAct f j)
      | some m => chargeBuild t f j k m
    else sendToNobody t f j x
  | none, _ => (f, badStepAct f j)
  | some _, none => (f, [])

/-- SEND (R164, R165). -/
def execJobSend (j : JobIx) (s : State) : Host.Outcome State Fault Refusal :=
  .next (s.jobStep j .send (runSend s.tab j))

/-! ### The other steps -/

/-- A REPEAT with a true guard (R163). -/
def runRepeat (j : JobIx) (f : Flow) (bs : List Byte) : Flow × List Act :=
  let b := f.jobs.get j
  let count := numAt bs 2 2
  let span := (byteAt bs 4).toNat
  if count = 0 ∨ span = 0 ∨ 16 < span ∨ b.listLength ≤ b.cur + span then (f, badStepAct f j)
  else
    (f.modJob j fun b => { b with rep := some { start := b.cur + 1, span, count, pass := 0 }, cur := b.cur + 1 }, [])

/-- REPEAT (R163). -/
def execJobRepeat (j : JobIx) (s : State) : Host.Outcome State Fault Refusal :=
  .next (s.jobStep j .rep (runRepeat j))

/-- A WAIT_TIME with a true guard (R168). -/
def runWaitTime (t : Tables) (j : JobIx) (f : Flow) (bs : List Byte) : Flow × List Act :=
  match getDuration bs 2 with
  | none => (f, badStepAct f j)
  | some d =>
    if d.isZero then (f, [.stepDone j])
    else (f.modJob j fun b => { b with state := .waiting .time, deadline := some (after t.now d) }, [])

/-- WAIT_TIME (R168). -/
def execJobWaitTime (j : JobIx) (s : State) : Host.Outcome State Fault Refusal :=
  .next (s.jobStep j .waitTime (runWaitTime s.tab j))

/-- A WAIT_CONDITION with a true guard (R169). -/
def runWaitCondition (t : Tables) (j : JobIx) (f : Flow) (bs : List Byte) : Flow × List Act :=
  match getSet 6 (byteAt bs 2), getDuration bs 4 with
  | some cs, some d =>
    if satisfied t cs then (f.modJob j fun b => { b with verdict := .positive }, [.stepDone j])
    else
      (f.modJob j fun b =>
        { b with state := .waiting .condition, condSet := cs
                 deadline := if d.isZero then none else some (after t.now d) }, [])
  | _, _ => (f, badStepAct f j)

/-- WAIT_CONDITION (R169). -/
def execJobWaitCondition (j : JobIx) (s : State) : Host.Outcome State Fault Refusal :=
  .next (s.jobStep j .waitCondition (runWaitCondition s.tab j))

/-- A SYNC with a true guard (R170). -/
def runSync (j : JobIx) (f : Flow) : Flow × List Act :=
  if (f.jobs.get j).requests.isEmpty then (f, [.stepDone j])
  else (f.modJob j fun b => { b with state := .waiting .sync }, [])

/-- SYNC (R170). -/
def execJobSync (j : JobIx) (s : State) : Host.Outcome State Fault Refusal :=
  .next (s.jobStep j .sync fun f _ => runSync j f)

/-- END (R171): the job ends COMPLETED with the step's result byte. -/
def execJobEnd (j : JobIx) (s : State) : Host.Outcome State Fault Refusal :=
  .next (s.jobStep j .fin fun f bs => (f, [.endJob j .completed (byteAt bs 2) (f.jobs.get j).cur]))

/-- BAD_STEP (R161): a RUNNING job reaches a step it cannot carry out. -/
def execBadStep (j : JobIx) (s : State) : Host.Outcome State Fault Refusal :=
  if s.tab.ctl == .running && (s.flow.jobs.get j).state == .running && readStep s.tab s.flow j == .bad then
    .next (s.run (badStepAct s.flow j))
  else .next s

/-- JOB_TIME_EXPIRY (R168). -/
def execJobTimeExpiry (j : JobIx) (dt : Nat) (s : State) : Host.Outcome State Fault Refusal :=
  let s := s.advance dt
  let b := s.flow.jobs.get j
  if b.state == .waiting .time && expired s.tab.now b.deadline then .next (s.run [.stepDone j]) else .next s

/-- CONDITION_WAIT_EXPIRY (R169): the verdict becomes TIMEOUT and the step finishes. -/
def execConditionWaitExpiry (j : JobIx) (dt : Nat) (s : State) : Host.Outcome State Fault Refusal :=
  let s := s.advance dt
  let b := s.flow.jobs.get j
  if b.state == .waiting .condition && expired s.tab.now b.deadline then
    .next ((s.withFlow (s.flow.modJob j fun b => { b with verdict := .timeout })).run [.stepDone j])
  else .next s

end Sys2Proof.Machine
end

