-- ==== Sys2Proof/Machine/Snapshot.lean ====
section
/-! DEFINITION. The counter block (R205, R214) and the table snapshot (R206, R215; log 18). -/

namespace Sys2Proof.Machine

/-- A record in the size a layout gives it: padded with zeros (R215). -/
def sized (n : Nat) (bs : List Byte) : List Byte := (bs ++ zeros n).take n

/-- Rows of a table, each in a record of one size. -/
def rows {α : Type} (n : Nat) (f : α → List Byte) (xs : List α) : List Byte := xs.flatMap fun x => sized n (f x)

/-- A byte of a number. -/
def numByte (n : Nat) : Byte := BitVec.ofNat 8 n

/-- Absent values of `n` bytes: all ones (R208). -/
def ones (n : Nat) : List Byte := List.replicate n 0xFF

/-- A 32-bit counter or figure. -/
def wordBytes (w : Word) : List Byte := leBytes 4 w.toNat

/-! ### The counter block (R214) -/

def slotCounters (x : SlotFlow) : List Byte :=
  wordBytes x.admitted ++ wordBytes x.refused ++ wordBytes x.heldTooLong ++ wordBytes x.deliveryFails

def ecuCounters (x : EcuCounts) : List Byte :=
  wordBytes x.forwarded ++ wordBytes x.responses ++ wordBytes x.timeouts ++ wordBytes x.strays
  ++ wordBytes x.sendFailures

/-- The 908 bytes of the counter block (R214), of one state (R205; log 40). -/
def counterBytes (t : Tables) (f : Flow) : List Byte :=
  wordBytes t.now ++ rows 16 slotCounters f.slots.toList ++ rows 20 ecuCounters f.ecuCounts.toList
  ++ wordBytes f.tbUnknown ++ wordBytes f.relayUnknown

/-- Every counter cleared in the event in which it is read, all in one (R205; log 40). -/
def clearCounters (f : Flow) : Flow :=
  { f with
    slots := f.slots.map fun x => { x with admitted := 0, refused := 0, heldTooLong := 0, deliveryFails := 0 }
    ecuCounts := Vector.replicate 32 .reset, tbUnknown := 0, relayUnknown := 0 }

/-! ### Records of the snapshot (R215) -/

def GrantState.num : GrantState → Nat
  | .free => 0
  | .active => 1
  | .suspended => 2
  | .spent => 3
  | .expired => 4

/-- The remaining lifetime, all ones for none (R56). -/
def lifeBytes (now : Word) : Life → List Byte
  | .unlimited => ones 4
  | .running d => leBytes 4 (msLeft now (some d))
  | .held n => leBytes 4 n

/-- A grant (R56). A lifetime of none stands as the host gave it, a duration of count 0 (log 33). -/
def grantRecord (now : Word) (g : Grant) : List Byte :=
  [numByte g.state.num, ixByte g.slot] ++ leBytes 4 g.ecus.toNat
  ++ [numByte g.classes.toNat, numByte g.conds.toNat, numByte g.level.num]
  ++ g.lifetime.bytes ++ leBytes 2 g.budget ++ lifeBytes now g.life ++ leBytes 2 (g.left.getD 0)

def ClaimState.num : ClaimState → Nat
  | .free => 0
  | .held => 1
  | .halted => 2
  | .closing => 3

def ClosingPhase.byte : ClosingPhase → Byte
  | .waitEntry => 0
  | .waitBuffer => 1
  | .sending => 2
  | .awaiting => 3

/-- A claim record (R137). -/
def claimRecord (now : Word) (c : Claim) : List Byte :=
  [numByte c.state.num, ixByte c.holder, numByte (c.level.num - 1), numByte c.guard.toNat]
  ++ leBytes 4 (msLeft now c.holdOff)
  ++ [orOnes (c.cause.map ReleaseCause.byte), orOnes (c.phase.map ClosingPhase.byte)]
  ++ leBytes 4 (msLeft now c.closeDeadline) ++ [c.outcome.byte] ++ optByteBytes c.answer

/-- A close buffer and its close list, oldest first; the places beyond its length read all ones (R137; log 33). -/
def closeRecord (v : VbFlow) : List Byte :=
  [flagByte v.closeBuf.isSome, orOnes (v.closeBuf.map fun b => ixByte b.ecu)]
  ++ ((v.closeList.map ixByte) ++ ones 32).take 32

def OrphanPhase.byte : OrphanPhase → Byte
  | .sending => 0
  | .awaiting => 1
  | .receiving => 2

/-- The state of an entry and its orphan phase (R101). -/
def EntryState.bytes : EntryState → List Byte
  | .sending => [0, 0xFF]
  | .awaiting => [1, 0xFF]
  | .receiving => [2, 0xFF]
  | .delivering => [3, 0xFF]
  | .orphaned p => [4, p.byte]

def HeldItem.byte : HeldItem → Byte
  | .response _ => 0
  | .refusal _ _ => 1

/-- An outstanding entry (R119); a free one shows interim count 0 (log 33), and a count past 255 shows its low byte
(log 32). -/
def entryRecord (now : Word) : Option Entry → List Byte
  | none => [0] ++ ones 9 ++ zeros 5 ++ ones 1
  | some x =>
    [1, ixByte x.slot, ixByte x.ecu, x.code, x.cls.byte, numByte x.cls.grade.num, ixByte x.grant, flagByte x.binding]
    ++ x.state.bytes ++ leBytes 4 (msLeft now x.deadline) ++ [numByte x.interims, orOnes (x.held.map HeldItem.byte)]

/-- The used, reserved and kept delivery places of a slot (R119). -/
def placesRecord (f : Flow) (k : Slot) : List Byte :=
  [numByte (f.slots.get k).items.length, numByte (f.liveEntries k), numByte (f.slots.get k).kept]

def Qual.num : Qual → Nat
  | .isFalse => 0
  | .rising => 1
  | .isTrue => 2
  | .falling => 3

/-- A condition; its raw and qualified values are flags (R36; log 30). In OFF one still RISING or FALLING, whose timer is
cancelled, shows 0 ms left (R39; log 33). -/
def conditionRecord (now : Word) (c : Condition) : List Byte :=
  [flagByte c.raw, numByte c.qual.num, flagByte c.qualified] ++ c.rise.bytes ++ c.fall.bytes
  ++ leBytes 4 (msLeft now c.deadline)

/-- The rotation monitor (R36). -/
def rotationRecord (r : Rotation) : List Byte :=
  leBytes 2 r.last ++ [flagByte r.completed] ++ r.window.bytes ++ leBytes 2 r.threshold

/-- The free count, the unused reservation and the number of waiting entries (R75). -/
def storeRecord (t : Tables) (f : Flow) : List Byte :=
  leBytes 2 f.free ++ leBytes 2 (unusedReservation t f) ++ [numByte f.waiting.length]

/-- Usage and threshold of an account (R75). -/
def accountRecord (t : Tables) (f : Flow) (a : AccountIx) : List Byte :=
  leBytes 2 (f.usage.get a) ++ leBytes 2 (t.thresholds.get a)

/-- A claimant: its kind and index (R215). -/
def Claimant.bytes : Claimant → List Byte
  | .tbCtx c => [0, ixByte c]
  | .vbCtx v c => [1, numByte (8 * v.val + c.val)]
  | .relay => [2, 0]
  | .job j => [3, ixByte j]

/-- A waiting entry (R75). -/
def waiterRecord (now : Word) (w : Waiter) : List Byte :=
  w.who.bytes ++ [ixByte w.slot, numByte w.grade.num, numByte w.cells] ++ wordBytes (now - w.since)

def TxPhase.byte : TxPhase → Byte
  | .first => 0
  | .waitCredit => 1
  | .run => 2
  | .waitDone => 3

/-- A transmitter (R156). -/
def txRecord : Option Transfer → List Byte
  | none => [1] ++ ones 7
  | some x => [0, x.phase.byte, x.source, x.target] ++ leBytes 2 x.segments ++ leBytes 2 x.sent

/-- A reassembly context (R156). -/
def ctxRecord : Option Ctx → List Byte
  | none => [0] ++ ones 8
  | some x =>
    [1, x.source, x.target] ++ leBytes 2 x.length ++ leBytes 2 x.received
    ++ [numByte x.stalls, flagByte (x.wait != .noWait)]

/-- The outbound count of a VB port, absent on TB (R156). -/
def outboundByte (f : Flow) : PortId → Byte
  | .tb => 0xFF
  | .vb v => numByte (f.vbs.get v).outbound.length

/-- A port (R156). -/
def portRecord (f : Flow) (p : PortId) : List Byte :=
  sized 8 (txRecord (f.port p).tx) ++ rows 12 ctxRecord (f.port p).ctxs.toList ++ sized 4 [outboundByte f p]

/-- A probe, in the order of R175. -/
def probeRecord (p : Probe) : List Byte :=
  [flagByte p.enabled, numByte p.dirs.toNat] ++ leBytes 2 p.slots.toNat ++ leBytes 4 p.ecus.toNat
  ++ [numByte p.classes.toNat, flagByte p.binding] ++ leBytes 2 p.limit

/-- The capture writer's fields (R181); the ring position is an index, of one byte (R208). -/
def writerRecord (w : Writer) : List Byte :=
  [numByte w.pos, flagByte w.page.isSome]
  ++ (match w.page with
    | none => ones 8
    | some p => leBytes 2 p.used ++ leBytes 2 p.count ++ (match p.deadline with
      | none => ones 4
      | some d => wordBytes d))
  ++ leBytes 2 w.seq.toNat ++ leBytes 2 w.gap ++ [flagByte w.blocked]

/-- The capture unit (R181). A flush time of none stands as it was loaded, a duration of count 0 (log 33). -/
def captureSection (t : Tables) (f : Flow) : List Byte :=
  writerRecord f.writer ++ rows 12 probeRecord t.probes.toList
  ++ [flagByte t.sampler.enabled] ++ leBytes 2 t.sampler.rate ++ [numByte t.sampler.classes.toNat]
  ++ wordBytes f.candidates ++ wordBytes f.samples ++ [flagByte t.eventCapture] ++ t.captureFlush.bytes

/-- The size of the snapshot (R215). -/
def snapshotSize : Nat := 4244

/-- The ports in the order of their records. -/
def allPorts : List PortId := [.tb, .vb 0, .vb 1, .vb 2]

/-- The 4,244 bytes of the snapshot, of one state (R206, R215; log 40). -/
def snapshot (s : State) : List Byte :=
  let t := s.tab
  let f := s.flow
  wordBytes t.now ++ rows 24 (grantRecord t.now) s.grants.toList ++ rows 20 (claimRecord t.now) f.claims.toList
  ++ rows 36 closeRecord f.vbs.toList ++ rows 16 (entryRecord t.now) f.entries.toList
  ++ rows 3 (placesRecord f) (List.finRange 16) ++ rows 12 (conditionRecord t.now) t.conds.toList
  ++ sized 8 (rotationRecord s.rot) ++ sized 8 (storeRecord t f) ++ rows 4 (accountRecord t f) (List.finRange 51)
  ++ sized (37 * 12) (rows 12 (waiterRecord t.now) f.waiting) ++ rows 108 (portRecord f) allPorts
  ++ sized 96 (captureSection t f) ++ wordBytes t.now

end Sys2Proof.Machine
end

