-- ==== Sys2Proof/Machine/Orders.lean ====
section
/-! DEFINITION. The orders of the board (R200, R210), each with its checks and effects, and MEMORY_ERROR (R198). -/

namespace Sys2Proof.Machine

/-! ### Taking an order (R199, R200; log 7) -/

/-- An order at work: the machine, the order's slot and its 44 parameter bytes. -/
abbrev OrderEffect := State → Nat → List Byte → State

/-- An order ends at once with a result and no detail (R200). -/
def State.done (s : State) (n : Nat) (r : OrderResult) : State := s.withFlow (orderDone s.tab s.flow n r [])

/-- The machine once the order at the look is taken: its state word reads TAKEN, and the board position is the slot after
it (R199, R200). -/
def State.took (s : State) (d : Directory) (l : Look) : State :=
  s.withFlow { s.flow with
    ram := ramWrite s.flow.ram (d.orderAddr l.next) (leBytes 4 taken), boardPos := (l.next + 1) % d.slots }

/-- Take the order the look has found, when its code is one of this row's: TAKEN is written, the code and parameters are
read, and the effect follows; in a controller state other than RUNNING an order ends with STATE unless it is carried out
there (R200). Afterwards the look goes on (R199). -/
def takeOrder (s : State) (mine : Byte → Bool) (anyState : Bool) (g : OrderEffect) : State :=
  match s.tab.dir, s.flow.look with
  | some d, some l =>
    let n := l.next
    let a := d.orderAddr n
    if mine (ramByte s.flow.ram (a + 4)) then
      let s := s.took d l
      let s := if anyState || s.tab.ctl == .running then g s n (ramRead s.flow.ram (a + 20) 44) else s.done n .state
      s.withFlow (lookOn d l s.flow)
    else s
  | _, _ => s

/-- The row of one order code. -/
def codeIs (c : Byte) (b : Byte) : Bool := b == c

/-! ### Tester orders (R8 to R14) -/

/-- The kind, the identifying field of the kind and the vehicle-side address are those of the slot (R8, step 2). -/
def sameIdentity (x y : Tester) : Bool :=
  x.kind == y.kind && match y.kind with
    | .bus => x.tbAddr == y.tbAddr
    | .relay => x.relayId == y.relayId && x.vehicle == y.vehicle
    | .job => x.jobCtx == y.jobCtx && x.vehicle == y.vehicle

/-- The terms under which an attached tester works take the order's values (R11). -/
def Tester.newTerms (x y : Tester) : Tester :=
  { y with mode := x.mode, weight := x.weight, limit := x.limit, holdLimit := x.holdLimit }

/-- The slot's traffic under new terms: a lowered weight cuts the allowance, and the hold deadline is measured anew from
the first hold (R11). -/
def SlotFlow.newTerms (t : Tables) (k : Slot) (y : SlotFlow) : SlotFlow :=
  { y with allowance := min y.allowance (t.testers.get k).weight
           held := y.held.map fun h => { h with deadline := holdDeadlineOf t k h.firstHold } }

/-- SET_TESTER on an ATTACHED slot (R11): a hold limit already passed refuses the head at once, otherwise the held head is
evaluated again; a change to REFUSE mode makes a channel stopped at the slot's record take it again (R203). The refusal
comes first, with all it causes, and the channel takes its record after it (log 36). -/
def changeTester (s : State) (k : Slot) (x : Tester) : State :=
  let old := s.tab.testers.get k
  let t := { s.tab with testers := Vector.putRow s.tab.testers k (x.newTerms old) }
  let f := s.flow.modSlot k (SlotFlow.newTerms t k)
  let late := holdDue t.now (f.slots.get k)
  let f := if late then settled t (tooLong t f k) else f
  let f := markSlot f k
  let retake := x.mode == .refuse && old.mode != .refuse && f.relayStoppedAt k
  { s with tab := t, flow := settle t (if retake then [.relayTake] else []) f }

/-- SET_TESTER on a DETACHED slot (R10). -/
def attachTester (s : State) (k : Slot) (x : Tester) : State :=
  { s with
    tab := { s.tab with testers := Vector.putRow s.tab.testers k { x with attached := true } }
    flow := s.flow.modSlot k fun y => { y with allowance := x.weight } }

/-- SET_TESTER (R8, R10, R11): slot number, then a slot record whose attach flag is not read. -/
def orderSetTester : OrderEffect := fun s n ps =>
  match asIx 16 (byteAt ps 0).toNat, getTester (ps.drop 1) true with
  | some k, some x =>
    let old := s.tab.testers.get k
    if old.attached then
      if sameIdentity x old then (changeTester s k x).done n .ok else s.done n .badParam
    else if s.flow.hasEntry k then s.done n .busy
    else if testerConflict s.tab s.flow k x then s.done n .inUse
    else (attachTester s k x).done n .ok
  | _, _ => s.done n .badParam

/-- SET_TESTER. -/
def execSetTester (s : State) : Host.Outcome State Fault Refusal :=
  .next (takeOrder s (codeIs 0x01) false orderSetTester)

/-- The TB contexts of a slot are abandoned without a frame (R14), in rising context number (log 31). -/
def abandonSlotCtxs (f : Flow) (k : Slot) : Flow × List Act :=
  (List.finRange 8).foldl (fun a c =>
    match a.1.ctx .tb c with
    | none => a
    | some x =>
      if x.owner == .slot k then
        let b := abandonCtx a.1 .tb c false
        (b.1, a.2 ++ b.2)
      else a) (f, [])

/-- The items of a slot's delivery queue are removed and their cells released (R13), head first (log 16). -/
def flushItems (f : Flow) (k : Slot) : Flow × List Act :=
  (f.modSlot k fun x => { x with items := [] }, (f.slots.get k).items.flatMap fun it => it.body.releases)

/-- DETACH_TESTER on an ATTACHED slot (R13, R14): queues flushed, entries orphaned, claims released, the slot DETACHED;
then the channel stopped at a record of the slot takes it again, and the cells are released: those of TB contexts, of the
inbound queue, of the delivery queue and of the entries (log 16). -/
def detach (s : State) (k : Slot) : State :=
  let t0 := s.tab
  let stopped := s.flow.relayStoppedAt k
  let a := abandonSlotCtxs s.flow k
  let b := flushInbound a.1 k
  let c := flushItems b.1 k
  let d := orphanSlot t0 c.1 k
  let f := releaseClaimsOf t0 d.1 k .detach
  let t := { t0 with testers := Vector.modifyRow t0.testers k fun x => { x with attached := false } }
  let f := f.modSlot k fun x => { x with allowance := 0 }
  let acts := (if stopped then [.relayTake] else []) ++ a.2 ++ b.2 ++ c.2 ++ d.2
  { s with tab := t, flow := settle t acts f }

/-- A JOB slot's context runs a job (R12). -/
def jobBusy (s : State) (x : Tester) : Bool :=
  x.kind == .job && match asIx 4 x.jobCtx.toNat with
    | none => false
    | some j => (s.flow.jobs.get j).active

/-- DETACH_TESTER (R12, R13). -/
def orderDetachTester : OrderEffect := fun s n ps =>
  match asIx 16 (byteAt ps 0).toNat with
  | none => s.done n .badParam
  | some k =>
    if !(s.tab.testers.get k).attached then s.done n .noEntry
    else if jobBusy s (s.tab.testers.get k) then s.done n .busy
    else (detach s k).done n .ok

/-- DETACH_TESTER. -/
def execDetachTester (s : State) : Host.Outcome State Fault Refusal :=
  .next (takeOrder s (codeIs 0x02) false orderDetachTester)

/-! ### SET_ECU (R18, R19) -/

/-- The ECU has an outstanding entry (R18, step 3). -/
def ecuHasEntry (f : Flow) (e : EcuIx) : Bool :=
  f.entries.toList.any fun x => match x with
    | none => false
    | some x => x.ecu == e

/-- SET_ECU (R18, R19): entry index, then an ECU record. -/
def orderSetEcu : OrderEffect := fun s n ps =>
  match asIx 32 (byteAt ps 0).toNat, getEcu (ps.drop 1) with
  | some e, some x =>
    if (s.flow.claims.get e).state != .free || ecuHasEntry s.flow e || ecuConflict s.tab s.flow e x then
      s.done n .inUse
    else
      { s with
        tab := { s.tab with ecus := Vector.putRow s.tab.ecus e x }
        flow := s.flow.markHeads fun _ _ => true }.done n .ok
  | _, _ => s.done n .badParam

/-- SET_ECU. -/
def execSetEcu (s : State) : Host.Outcome State Fault Refusal := .next (takeOrder s (codeIs 0x03) false orderSetEcu)

/-! ### Grant orders (R49 to R53) -/

/-- Replace a grant and evaluate the held head of its slot again (R54). -/
def putGrant (s : State) (i : GrantIx) (g : Grant) (k : Slot) : State :=
  { s with grants := Vector.putRow s.grants i g, flow := markSlot s.flow k }

/-- INSTALL_GRANT (R49). -/
def orderInstallGrant : OrderEffect := fun s n ps =>
  match asIx 64 (byteAt ps 0).toNat, getGrant (ps.drop 1) with
  | some i, some g =>
    if (s.grants.get i).state != .free then s.done n .inUse
    else (putGrant s i { g with life := g.freshLife s.tab.now } g.slot).done n .ok
  | _, _ => s.done n .badParam

/-- INSTALL_GRANT. -/
def execInstallGrant (s : State) : Host.Outcome State Fault Refusal :=
  .next (takeOrder s (codeIs 0x04) false orderInstallGrant)

/-- REVOKE_GRANT (R50); the held head of the grant's slot is listed after those that the claims released concern (R54;
log 10). -/
def orderRevokeGrant : OrderEffect := fun s n ps =>
  match asIx 64 (byteAt ps 0).toNat with
  | none => s.done n .badParam
  | some i =>
    let g := s.grants.get i
    if g.state = .free then s.done n .noEntry
    else
      let gs := Vector.putRow s.grants i .reset
      let f := supportCheck s.tab gs 0 none s.flow g
      { s with grants := gs, flow := markSlot f g.slot }.done n .ok

/-- REVOKE_GRANT. -/
def execRevokeGrant (s : State) : Host.Outcome State Fault Refusal :=
  .next (takeOrder s (codeIs 0x05) false orderRevokeGrant)

/-- SUSPEND_GRANT (R51). -/
def orderSuspendGrant : OrderEffect := fun s n ps =>
  match asIx 64 (byteAt ps 0).toNat with
  | none => s.done n .badParam
  | some i =>
    let g := s.grants.get i
    match g.state with
    | .free => s.done n .noEntry
    | .active => (putGrant s i { g with state := .suspended } g.slot).done n .ok
    | .suspended => s.done n .ok
    | .spent | .expired => s.done n .state

/-- SUSPEND_GRANT. -/
def execSuspendGrant (s : State) : Host.Outcome State Fault Refusal :=
  .next (takeOrder s (codeIs 0x06) false orderSuspendGrant)

/-- RESUME_GRANT (R52). -/
def orderResumeGrant : OrderEffect := fun s n ps =>
  match asIx 64 (byteAt ps 0).toNat with
  | none => s.done n .badParam
  | some i =>
    let g := s.grants.get i
    match g.state with
    | .free => s.done n .noEntry
    | .suspended => (putGrant s i { g with state := .active } g.slot).done n .ok
    | .active => s.done n .ok
    | .spent | .expired => s.done n .state

/-- RESUME_GRANT. -/
def execResumeGrant (s : State) : Host.Outcome State Fault Refusal :=
  .next (takeOrder s (codeIs 0x07) false orderResumeGrant)

/-- A grant after RENEW_GRANT (R53). -/
def Grant.renewed (now : Word) (g : Grant) : Grant :=
  { g with left := g.freshBudget, life := g.freshLife now
           state := match g.state with
            | .spent | .expired => .active
            | x => x }

/-- RENEW_GRANT (R53). -/
def orderRenewGrant : OrderEffect := fun s n ps =>
  match asIx 64 (byteAt ps 0).toNat with
  | none => s.done n .badParam
  | some i =>
    let g := s.grants.get i
    if g.state = .free then s.done n .noEntry else (putGrant s i (g.renewed s.tab.now) g.slot).done n .ok

/-- RENEW_GRANT. -/
def execRenewGrant (s : State) : Host.Outcome State Fault Refusal :=
  .next (takeOrder s (codeIs 0x08) false orderRenewGrant)

/-! ### Condition orders (R31, R32) -/

/-- SET_STANDSTILL (R31); the value is stored as a flag, 1 for true (log 30). -/
def orderSetStandstill : OrderEffect := fun s n ps =>
  match getFlag (byteAt ps 0) with
  | none => s.done n .badParam
  | some b => (reportRaw s condStandstill b).done n .ok

/-- SET_STANDSTILL. -/
def execSetStandstill (s : State) : Host.Outcome State Fault Refusal :=
  .next (takeOrder s (codeIs 0x09) false orderSetStandstill)

/-- SET_CONDITION_TIMES (R32): condition number, rise time, fall time. -/
def orderSetConditionTimes : OrderEffect := fun s n ps =>
  match asIx 6 (byteAt ps 0).toNat, getDuration ps 1, getDuration ps 3 with
  | some i, some rise, some fall =>
    { s with tab := { s.tab with
        conds := Vector.modifyRow s.tab.conds i fun c => { c with rise, fall } } }.done n .ok
  | _, _, _ => s.done n .badParam

/-- SET_CONDITION_TIMES. -/
def execSetConditionTimes (s : State) : Host.Outcome State Fault Refusal :=
  .next (takeOrder s (codeIs 0x0A) false orderSetConditionTimes)

/-! ### RELEASE_CLAIM (R135) -/

/-- RELEASE_CLAIM (R135): the order stays TAKEN until the closing ends. -/
def orderReleaseClaim : OrderEffect := fun s n ps =>
  match asIx 32 (byteAt ps 0).toNat with
  | none => s.done n .badParam
  | some e =>
    let waits := s.flow.releaseWaits ++ [{ orderSlot := n, ecu := e }]
    match (s.flow.claims.get e).state with
    | .free => s.done n .noEntry
    | .held | .halted =>
      s.withFlow (claimRelease s.tab 0 false { s.flow with releaseWaits := waits } e .order)
    | .closing => s.withFlow { s.flow with releaseWaits := waits }

/-- RELEASE_CLAIM. -/
def execReleaseClaim (s : State) : Host.Outcome State Fault Refusal :=
  .next (takeOrder s (codeIs 0x0B) false orderReleaseClaim)

/-! ### SET_ACCOUNTS (R72, R73) -/

/-- Thresholds with a run replaced from the first account on (R72). -/
def replaceRun (th : Vector Nat 51) (first : Nat) (xs : List Nat) : Vector Nat 51 :=
  tableOf 51 fun a => if a.val < first then th.get a else (xs[a.val - first]?).getD (th.get a)

/-- No account carries more than its threshold (R72, step 3). -/
def usageWithin (th usage : Vector Nat 51) : Bool :=
  (List.finRange 51).all fun a => decide (usage.get a ≤ th.get a)

/-- SET_ACCOUNTS (R72, R73): first account, count, thresholds. -/
def orderSetAccounts : OrderEffect := fun s n ps =>
  let first := (byteAt ps 0).toNat
  let count := (byteAt ps 1).toNat
  let xs := getHalves count (ps.drop 2)
  if 51 ≤ first ∨ count = 0 ∨ 20 < count ∨ 51 < first + count ∨ xs.any (fun x => decide (1024 < x)) then
    s.done n .badParam
  else
    let th := replaceRun s.tab.thresholds first xs
    if !thresholdsFit th then s.done n .badParam
    else if !usageWithin th s.flow.usage || decide (s.flow.free < reservation th s.flow.usage) then s.done n .inUse
    else
      let s := { s with tab := { s.tab with thresholds := th } }
      (s.run [.offer]).done n .ok

/-- SET_ACCOUNTS. -/
def execSetAccounts (s : State) : Host.Outcome State Fault Refusal :=
  .next (takeOrder s (codeIs 0x0C) false orderSetAccounts)

/-! ### Capture orders (R186, R187) -/

/-- SET_PROBE (R186): probe number, then a probe record. -/
def orderSetProbe : OrderEffect := fun s n ps =>
  match asIx 4 (byteAt ps 0).toNat, getProbe (ps.drop 1) with
  | some i, some p =>
    if p.enabled && s.tab.captureRing.isNone then s.done n .noEntry
    else
      { s with
        tab := { s.tab with probes := Vector.putRow s.tab.probes i p }
        flow := Flow.markHeads s.flow fun _ h => h.reason == HoldReason.capture }.done n .ok
  | _, _ => s.done n .badParam

/-- SET_PROBE. -/
def execSetProbe (s : State) : Host.Outcome State Fault Refusal :=
  .next (takeOrder s (codeIs 0x0D) false orderSetProbe)

/-- SET_SAMPLER (R187): enabled flag, rate, class set. -/
def orderSetSampler : OrderEffect := fun s n ps =>
  match getSampler (byteAt ps 0) (byteAt ps 3) (numAt ps 1 2) with
  | none => s.done n .badParam
  | some x =>
    if x.enabled && s.tab.captureRing.isNone then s.done n .noEntry
    else { s with tab := { s.tab with sampler := x } }.done n .ok

/-- SET_SAMPLER. -/
def execSetSampler (s : State) : Host.Outcome State Fault Refusal :=
  .next (takeOrder s (codeIs 0x0E) false orderSetSampler)

/-! ### Job orders (R160, R172) -/

/-- The steps the pool holds (R160). -/
def Tables.poolSteps (t : Tables) : Nat :=
  match t.dir.bind (·.pool) with
  | none => 0
  | some p => p.steps

/-- The job starts in its context, and the order stays TAKEN (R160). -/
def startedJob (s : State) (n : Nat) (j : JobIx) (k : Slot) (start len : Nat) : State :=
  let f := s.flow.modJob j fun _ =>
    { Job.reset with state := .running, slot := some k, listStart := start, listLength := len, orderSlot := some n }
  s.withFlow (event s.tab 0 f (eventRecord 6 (ixByte k) (ixByte j) none (some 0x10) none [ixByte j]))

/-- START_JOB (R160): context number, list start, list length. -/
def orderStartJob : OrderEffect := fun s n ps =>
  let start := numAt ps 1 2
  let len := numAt ps 3 2
  match asIx 4 (byteAt ps 0).toNat, inRange 1 256 len with
  | some j, some _ =>
    if (s.flow.jobs.get j).active then s.done n .busy
    else
      match jobSlot s.tab j with
      | none => s.done n .noEntry
      | some k => if s.tab.poolSteps < start + len then s.done n .badParam else startedJob s n j k start len
  | _, _ => s.done n .badParam

/-- START_JOB. -/
def execStartJob (s : State) : Host.Outcome State Fault Refusal :=
  .next (takeOrder s (codeIs 0x0F) false orderStartJob)

/-- ABORT_JOB (R172): the job ends ABORTED at its current step. -/
def orderAbortJob : OrderEffect := fun s n ps =>
  match asIx 4 (byteAt ps 0).toNat with
  | none => s.done n .badParam
  | some j =>
    if (s.flow.jobs.get j).active then (s.run [.endJob j .aborted 0 (s.flow.jobs.get j).cur]).done n .ok
    else s.done n .noEntry

/-- ABORT_JOB. -/
def execAbortJob (s : State) : Host.Outcome State Fault Refusal :=
  .next (takeOrder s (codeIs 0x10) false orderAbortJob)

/-! ### Snapshot orders (R205, R206) -/

/-- READ_COUNTERS (R205): clear flag. All counters are read, and cleared, at one moment (log 40). -/
def orderReadCounters : OrderEffect := fun s n ps =>
  match getFlag (byteAt ps 0), s.tab.dir.bind (·.counters) with
  | none, _ => s.done n .badParam
  | some _, none => s.done n .noEntry
  | some clear, some a =>
    let f := { s.flow with ram := ramWrite s.flow.ram a (counterBytes s.tab s.flow) }
    (s.withFlow (if clear then clearCounters f else f)).done n .ok

/-- READ_COUNTERS. -/
def execReadCounters (s : State) : Host.Outcome State Fault Refusal :=
  .next (takeOrder s (codeIs 0x11) true orderReadCounters)

/-- The extents an area covers; one that runs past the top of the address space goes on at its bottom (log 20). -/
def areaExtents (a len : Nat) : List (Nat × Nat) :=
  if a + len ≤ ramTop then [(a, len)] else [(a, ramTop - a), (0, a + len - ramTop)]

/-- The area of READ_TABLES: long enough, and clear of the directory and every leaf (R206). -/
def areaOk (d : Directory) (a len : Nat) : Bool :=
  decide (snapshotSize ≤ len) && (areaExtents a len).all fun x => d.extents.all fun y => !overlap x y

/-- READ_TABLES (R206): area offset, area length. With `written` the shared RAM answers with a memory error after so many
bytes (log 21). All sections are taken at one moment, so the two counts agree (R36, R206; log 40). -/
def orderReadTables (written : Option Nat) : OrderEffect := fun s n ps =>
  match s.tab.dir with
  | none => s
  | some d =>
    let a := (d.base + numAt ps 0 4) % ramTop
    if !areaOk d a (numAt ps 4 2) then s.done n .badParam
    else
      let bs := match written with
        | none => snapshot s
        | some k => (snapshot s).take k
      (s.withFlow { s.flow with ram := ramWrite s.flow.ram a bs }).done n
        (if written.isSome then .memoryError else .ok)

/-- READ_TABLES. -/
def execReadTables (s : State) : Host.Outcome State Fault Refusal :=
  .next (takeOrder s (codeIs 0x12) true (orderReadTables none))

/-! ### SET_NEWS_MASK and unknown codes (R193, R200) -/

/-- SET_NEWS_MASK (R193). -/
def orderSetNewsMask : OrderEffect := fun s n ps =>
  match getMask (numAt ps 0 4) with
  | none => s.done n .badParam
  | some m => { s with mask := m }.done n .ok

/-- SET_NEWS_MASK. -/
def execSetNewsMask (s : State) : Host.Outcome State Fault Refusal :=
  .next (takeOrder s (codeIs 0x13) false orderSetNewsMask)

/-- A code that names no order (R200, R210). -/
def codeUnknown (b : Byte) : Bool := b == 0 || decide (0x13 < b.toNat)

/-- UNKNOWN_ORDER_CODE (R200): BAD_ORDER in whatever controller state it is taken. -/
def execUnknownOrderCode (s : State) : Host.Outcome State Fault Refusal :=
  .next (takeOrder s codeUnknown true fun s n _ => s.done n .badOrder)

/-! ### MEMORY_ERROR (R198, R161, R166, R206; log 21) -/

/-- The order of a code: whether it is carried out in any controller state with a directory, and its effect (R200,
R210). -/
def orderByCode (code : Byte) : Bool × OrderEffect :=
  match code.toNat with
  | 0x01 => (false, orderSetTester)
  | 0x02 => (false, orderDetachTester)
  | 0x03 => (false, orderSetEcu)
  | 0x04 => (false, orderInstallGrant)
  | 0x05 => (false, orderRevokeGrant)
  | 0x06 => (false, orderSuspendGrant)
  | 0x07 => (false, orderResumeGrant)
  | 0x08 => (false, orderRenewGrant)
  | 0x09 => (false, orderSetStandstill)
  | 0x0A => (false, orderSetConditionTimes)
  | 0x0B => (false, orderReleaseClaim)
  | 0x0C => (false, orderSetAccounts)
  | 0x0D => (false, orderSetProbe)
  | 0x0E => (false, orderSetSampler)
  | 0x0F => (false, orderStartJob)
  | 0x10 => (false, orderAbortJob)
  | 0x11 => (true, orderReadCounters)
  | 0x12 => (true, orderReadTables none)
  | 0x13 => (false, orderSetNewsMask)
  | _ => (true, fun s n _ => s.done n .badOrder)

/-- The code of the order at the look, when the look stands at one. -/
def State.orderAtLook (s : State) : Option (Directory × Look × Byte) :=
  match s.tab.dir, s.flow.look with
  | some d, some l => some (d, l, ramByte s.flow.ram (d.orderAddr l.next + 4))
  | _, _ => none

/-- The bytes of an order slot are put back as an earlier machine has them: what the part wrote there is not made. -/
def State.keepSlot (s old : State) (d : Directory) (n : Nat) : State :=
  s.withFlow { s.flow with ram := ramWrite s.flow.ram (d.orderAddr n) (ramRead old.flow.ram (d.orderAddr n) 64) }

/-- What the access at the order board had done when it met the memory error (R198; log 21): nothing more at a state word;
the order at the look left TAKEN while it is read; the order TAKEN and carried out, without its result, while that is
written. -/
def boardError (s : State) (g : BoardStage) : State :=
  match g, s.orderAtLook with
  | .order, some (d, l, _) => s.took d l
  | .result, some (d, l, c) =>
    let o := orderByCode c
    (takeOrder s (fun _ => true) o.1 o.2).keepSlot (s.took d l) d l.next
  | _, _ => s

/-- READ_COUNTERS with a memory error after so many bytes of the counter block (R205, R198; log 21), all read at
one moment (log 40): the order is left TAKEN. -/
def countersError (s : State) (written : Nat) : State :=
  match s.orderAtLook, s.tab.dir.bind (·.counters) with
  | some (d, l, _), some a =>
    let x := s.took d l
    x.withFlow { x.flow with ram := ramWrite x.flow.ram a ((counterBytes s.tab s.flow).take written) }
  | _, _ => s

/-- The look stands at a READ_COUNTERS order that writes the counter block (R205). -/
def countersAtLook (s : State) : Bool :=
  match s.orderAtLook with
  | some (d, l, c) =>
    c == 0x11 && (s.tab.dir.bind (·.counters)).isSome
    && (getFlag (byteAt (ramRead (s.took d l).flow.ram (d.orderAddr l.next + 20) 44) 0)).isSome
  | none => false

/-- The relay channel is about to take the FILLED page at its position (R202). -/
def pageToTake (s : State) : Bool :=
  match s.tab.relayInRing with
  | none => false
  | some r =>
    s.tab.ctl == .running && s.flow.relayIn.count.isNone && s.flow.relayIn.stop.isNone
    && decide (r.stateOf s.flow.ram s.flow.relayIn.page = pageFilled)

/-- The page at the relay channel's position is written TAKEN (R202). -/
def takePage (s : State) : State :=
  match s.tab.relayInRing with
  | none => s
  | some r =>
    s.withFlow { s.flow with ram := ramWrite s.flow.ram (r.pageAddr s.flow.relayIn.page) (leBytes 4 pageTaken) }

/-- A SEND step on this pass reads data bytes: those of its message, or one for the service code of a malformed message
without inline bytes (R164). -/
def SendStep.readsData (x : SendStep) (b : Job) : Bool :=
  let n := x.dataLength b
  n != 0 && (!badLength (x.inlined.length + n) || x.inlined.isEmpty)

/-- A RUNNING job stands at a SEND step that reads data (R161, R164). -/
def jobReadsData (s : State) (j : JobIx) : Bool :=
  let b := s.flow.jobs.get j
  match readStep s.tab s.flow j with
  | .step .send g bs =>
    b.state == .running && g.holds b.verdict && match getSend bs with
      | none => false
      | some x => (s.tab.ecus.get x.ecu).valid && x.readsData b
  | _ => false

/-- The part makes the access in its present state (R198). -/
def accessPossible (s : State) : RamAccess → Bool
  | .starting => s.tab.ctl == .starting
  | .orderBoard .stateWord => s.tab.dir.isSome && (s.tab.active || s.tab.ctl == .off)
  | .orderBoard .order | .orderBoard .result => s.orderAtLook.isSome && (s.tab.active || s.tab.ctl == .off)
  | .counterBlock _ => countersAtLook s && (s.tab.active || s.tab.ctl == .off)
  | .relayPage false => s.tab.active && (s.tab.relayInRing.isSome || s.tab.relayOutRing.isSome)
  | .relayPage true => pageToTake s
  | .capturePage => s.tab.active && s.tab.captureRing.isSome
  | .jobStep j => (s.flow.jobs.get j).state == .running
  | .jobData j => jobReadsData s j
  | .jobResult j => (s.flow.jobs.get j).active
  | .tablesArea _ => s.tab.dir.isSome

/-- A job ends MEMORY_ERROR at its current step (R173). -/
def memoryErrorAct (f : Flow) (j : JobIx) : List Act := [.endJob j .memoryError 0 (f.jobs.get j).cur]

/-- MEMORY_ERROR (R198): an error on an exchange-area structure takes the part to FAULTED, one of a job's own access ends
the job, one in a READ_TABLES area ends the order. A SEND step whose data meet the error has begun and counts as executed
(R161, item 4). -/
def execMemoryError (a : RamAccess) (again : Bool) (s : State) : Host.Outcome State Fault Refusal :=
  if accessPossible s a then
    match a with
    | .starting | .relayPage false | .capturePage => .next (enterFaulted s .memoryError again)
    | .orderBoard g => .next (enterFaulted (boardError s g) .memoryError again)
    | .counterBlock n => .next (enterFaulted (countersError s n) .memoryError again)
    | .relayPage true => .next (enterFaulted (takePage s) .memoryError again)
    | .jobStep j => .next (s.run (memoryErrorAct s.flow j))
    | .jobData j =>
      .next ((s.withFlow (s.flow.modJob j fun b => { b with steps := b.steps + 1 })).run (memoryErrorAct s.flow j))
    | .jobResult j => .next (s.withFlow (s.flow.modJob j fun b => { b with resultError := true }))
    | .tablesArea k => .next (takeOrder s (codeIs 0x12) true (orderReadTables (some k)))
  else .next s

end Sys2Proof.Machine
end

