-- ==== Sys2Proof/Machine/Dispatch.lean ====
section
/-! DEFINITION. The meaning of every command: one arm per constructor of Instr. -/

namespace Sys2Proof.Machine

def exec (i : Instr) (s : State) : Host.Outcome State Fault Refusal :=
  match i with
  | .hardwareReset => Sys2Proof.Machine.execHardwareReset s
  | .enable w st => Sys2Proof.Machine.execEnable w st s
  | .softReset w st => Sys2Proof.Machine.execSoftReset w st s
  | .irqEnable w st => Sys2Proof.Machine.execIrqEnable w st s
  | .registerWrite r w st => Sys2Proof.Machine.execRegisterWrite r w st s
  | .attention w st => Sys2Proof.Machine.execAttention w st s
  | .newsRead st => Sys2Proof.Machine.execNewsRead st s
  | .rawChange l level => Sys2Proof.Machine.execRawChange l level s
  | .rotEdge => Sys2Proof.Machine.execRotEdge s
  | .windowEnd dt => Sys2Proof.Machine.execWindowEnd dt s
  | .riseTimerExpiry c dt => Sys2Proof.Machine.execRiseTimerExpiry c dt s
  | .fallTimerExpiry c dt => Sys2Proof.Machine.execFallTimerExpiry c dt s
  | .scan dt => Sys2Proof.Machine.execScan dt s
  | .startingComplete => Sys2Proof.Machine.execStartingComplete s
  | .enterOff => Sys2Proof.Machine.execEnterOff s
  | .memoryError a again => Sys2Proof.Machine.execMemoryError a again s
  | .singleFrame p f => Sys2Proof.Machine.execSingleFrame p f s
  | .openFrame p f => Sys2Proof.Machine.execOpenFrame p f s
  | .nextFrame p f => Sys2Proof.Machine.execNextFrame p f s
  | .grantFrame p f => Sys2Proof.Machine.execGrantFrame p f s
  | .stallFrame p f => Sys2Proof.Machine.execStallFrame p f s
  | .doneFrame p f => Sys2Proof.Machine.execDoneFrame p f s
  | .abortFrame p f => Sys2Proof.Machine.execAbortFrame p f s
  | .frameSent p => Sys2Proof.Machine.execFrameSent p s
  | .frameWithdrawn p k dt => Sys2Proof.Machine.execFrameWithdrawn p k dt s
  | .creditWaitTimeout p dt => Sys2Proof.Machine.execCreditWaitTimeout p dt s
  | .doneWaitTimeout p dt => Sys2Proof.Machine.execDoneWaitTimeout p dt s
  | .gapTimerExpiry p c dt => Sys2Proof.Machine.execGapTimerExpiry p c dt s
  | .stallTimerExpiry p c dt => Sys2Proof.Machine.execStallTimerExpiry p c dt s
  | .vbTransmitStart v => Sys2Proof.Machine.execVbTransmitStart v s
  | .tbTransmitStart => Sys2Proof.Machine.execTbTransmitStart s
  | .relayWrite => Sys2Proof.Machine.execRelayWrite s
  | .relayRecord => Sys2Proof.Machine.execRelayRecord s
  | .visit => Sys2Proof.Machine.execVisit s
  | .evaluationAgain => Sys2Proof.Machine.execEvaluationAgain s
  | .holdDeadline k dt => Sys2Proof.Machine.execHoldDeadline k dt s
  | .responseDeadline e dt => Sys2Proof.Machine.execResponseDeadline e dt s
  | .deliveringOffer => Sys2Proof.Machine.execDeliveringOffer s
  | .holdOffExpiry e dt => Sys2Proof.Machine.execHoldOffExpiry e dt s
  | .closeDeadline e dt => Sys2Proof.Machine.execCloseDeadline e dt s
  | .grantExpiry g dt => Sys2Proof.Machine.execGrantExpiry g dt s
  | .captureFlushDeadline dt => Sys2Proof.Machine.execCaptureFlushDeadline dt s
  | .relayFlushDeadline dt => Sys2Proof.Machine.execRelayFlushDeadline dt s
  | .jobSend j => Sys2Proof.Machine.execJobSend j s
  | .jobRepeat j => Sys2Proof.Machine.execJobRepeat j s
  | .jobWaitTime j => Sys2Proof.Machine.execJobWaitTime j s
  | .jobWaitCondition j => Sys2Proof.Machine.execJobWaitCondition j s
  | .jobSync j => Sys2Proof.Machine.execJobSync j s
  | .jobEnd j => Sys2Proof.Machine.execJobEnd j s
  | .jobTimeExpiry j dt => Sys2Proof.Machine.execJobTimeExpiry j dt s
  | .conditionWaitExpiry j dt => Sys2Proof.Machine.execConditionWaitExpiry j dt s
  | .setTester => Sys2Proof.Machine.execSetTester s
  | .detachTester => Sys2Proof.Machine.execDetachTester s
  | .setEcu => Sys2Proof.Machine.execSetEcu s
  | .installGrant => Sys2Proof.Machine.execInstallGrant s
  | .revokeGrant => Sys2Proof.Machine.execRevokeGrant s
  | .suspendGrant => Sys2Proof.Machine.execSuspendGrant s
  | .resumeGrant => Sys2Proof.Machine.execResumeGrant s
  | .renewGrant => Sys2Proof.Machine.execRenewGrant s
  | .setStandstill => Sys2Proof.Machine.execSetStandstill s
  | .setConditionTimes => Sys2Proof.Machine.execSetConditionTimes s
  | .releaseClaim => Sys2Proof.Machine.execReleaseClaim s
  | .setAccounts => Sys2Proof.Machine.execSetAccounts s
  | .setProbe => Sys2Proof.Machine.execSetProbe s
  | .setSampler => Sys2Proof.Machine.execSetSampler s
  | .startJob => Sys2Proof.Machine.execStartJob s
  | .abortJob => Sys2Proof.Machine.execAbortJob s
  | .readCounters => Sys2Proof.Machine.execReadCounters s
  | .readTables => Sys2Proof.Machine.execReadTables s
  | .setNewsMask => Sys2Proof.Machine.execSetNewsMask s
  | .unknownOrderCode => Sys2Proof.Machine.execUnknownOrderCode s
  | .startingCheckFails => Sys2Proof.Machine.execStartingCheckFails s
  | .badStep j => Sys2Proof.Machine.execBadStep j s

end Sys2Proof.Machine
end

