-- ==== Sys2Proof/Machine/Step.lean ====
section
/-! DEFINITION. One step of the block: the command at the front of the queue, or one millisecond of the clock when no
command waits (log 3). -/

namespace Sys2Proof.Machine

/-- Take the command at the front of the queue and answer what it does; with none waiting, a millisecond passes. -/
def step (s : State) : Host.Outcome State Fault Refusal :=
  match s.pending with
  | [] => .next (s.advance 1)
  | c :: rest => exec c { s with pending := rest }

/-- The state with the command that a table word spells at the front of its queue; unchanged where it spells none, which
is always, since the table gives no bits (log 24). -/
def State.withFetchWord (s : State) (nbits w : Nat) : State :=
  match decodeTableWord nbits w with
  | none => s
  | some c => { s with pending := c :: s.pending }

end Sys2Proof.Machine
end

