-- ==== Sys2Proof/WellFormed.lean ====
section
/-! DEFINITION. Which commands can reach the part: operands in range, frames of the shape a CAN controller hands over.
The machine's meanings do not assume it; it says what the outside sends. -/

namespace Sys2Proof

/-- A stretch of time shorter than half a wrap of the count (R1: "every duration the part uses is far shorter than one
wrap of the count"). -/
def Instr.shortTime (dt : Nat) : Bool := decide (dt < 2 ^ 31)

/-- The host stores inside the 32-bit address space (R195, step 5). -/
def Instr.storesOk (st : Stores) : Bool := st.all fun c => decide (c.1 < 2 ^ 32)

/-- A frame has 1 to 8 data bytes (R140) and its data byte 0 names the frame the row names (R216): high nibble `hi`,
and for a CREDIT frame the sub-kind `lo`. -/
def Instr.frameOk (f : Frame) (hi : BitVec 4) (lo : Option (BitVec 4)) : Bool :=
  decide (f.data.length ≤ 8) &&
  match f.data with
  | [] => false
  | b :: _ => b.extractLsb' 4 4 == hi && (match lo with
    | none => true
    | some k => b.extractLsb' 0 4 == k)

/-- A CTRL write with the SOFT_RESET bit, bit 1 (R207). -/
def Instr.softResetBit (w : Word) : Bool := w.getLsbD 1

/-- Well-formedness of a command. -/
def Instr.wellFormed : Instr → Bool
  | .enable w st => !Instr.softResetBit w && Instr.storesOk st
  | .softReset w st => Instr.softResetBit w && Instr.storesOk st
  | .irqEnable w st => !Instr.softResetBit w && Instr.storesOk st
  | .registerWrite _ _ st => Instr.storesOk st
  | .attention _ st => Instr.storesOk st
  | .newsRead st => Instr.storesOk st
  | .singleFrame _ f => Instr.frameOk f 0 none
  | .openFrame _ f => Instr.frameOk f 1 none
  | .nextFrame _ f => Instr.frameOk f 2 none
  | .grantFrame _ f => Instr.frameOk f 3 (some 0)
  | .stallFrame _ f => Instr.frameOk f 3 (some 1)
  | .doneFrame _ f => Instr.frameOk f 3 (some 2)
  | .abortFrame _ f => Instr.frameOk f 4 none
  | .windowEnd dt => Instr.shortTime dt
  | .riseTimerExpiry _ dt => Instr.shortTime dt
  | .fallTimerExpiry _ dt => Instr.shortTime dt
  | .scan dt => Instr.shortTime dt
  | .frameWithdrawn _ _ dt => Instr.shortTime dt
  | .creditWaitTimeout _ dt => Instr.shortTime dt
  | .doneWaitTimeout _ dt => Instr.shortTime dt
  | .gapTimerExpiry _ _ dt => Instr.shortTime dt
  | .stallTimerExpiry _ _ dt => Instr.shortTime dt
  | .holdDeadline _ dt => Instr.shortTime dt
  | .responseDeadline _ dt => Instr.shortTime dt
  | .holdOffExpiry _ dt => Instr.shortTime dt
  | .closeDeadline _ dt => Instr.shortTime dt
  | .grantExpiry _ dt => Instr.shortTime dt
  | .captureFlushDeadline dt => Instr.shortTime dt
  | .relayFlushDeadline dt => Instr.shortTime dt
  | .jobTimeExpiry _ dt => Instr.shortTime dt
  | .conditionWaitExpiry _ dt => Instr.shortTime dt
  | .hardwareReset | .rawChange _ _ | .rotEdge | .startingComplete | .enterOff | .memoryError _ _
  | .frameSent _ | .vbTransmitStart _ | .tbTransmitStart | .relayWrite | .relayRecord | .visit | .evaluationAgain
  | .deliveringOffer | .jobSend _ | .jobRepeat _ | .jobWaitTime _ | .jobWaitCondition _ | .jobSync _ | .jobEnd _
  | .setTester | .detachTester | .setEcu | .installGrant | .revokeGrant | .suspendGrant | .resumeGrant | .renewGrant
  | .setStandstill | .setConditionTimes | .releaseClaim | .setAccounts | .setProbe | .setSampler | .startJob
  | .abortJob | .readCounters | .readTables | .setNewsMask | .unknownOrderCode | .startingCheckFails | .badStep _ =>
    true

end Sys2Proof
end

