-- ==== Sys2Proof/Safety.lean ====
section
/-! DEFINITION. What the statements speak of: the laws that every step keeps, what the internal consequences of a command
leave alone, and how an order is taken from the board. -/

namespace Sys2Proof.Machine

/-! ### Laws of the machine -/

/-- Shared RAM is in its canonical form (log 1). -/
abbrev Memory.wf (s : State) : Prop := ramWf s.flow.ram

/-- The controller state, the fault code and the loaded directory agree: a fault code stands only in FAULTED and in the
OFF that follows it, FAULTED has one, and a directory is loaded in RUNNING and STOPPING and in no state with a fault code
nor in STARTING (R194, R195, R198). -/
def State.ControllerLaw (s : State) : Prop :=
  match s.tab.ctl with
  | .off => s.tab.fault ≠ .noFault → s.tab.dir = none
  | .starting => s.tab.fault = .noFault ∧ s.tab.dir = none
  | .running | .stopping => s.tab.fault = .noFault ∧ s.tab.dir.isSome
  | .faulted => s.tab.fault ≠ .noFault ∧ s.tab.dir = none

/-- A condition's raw value agrees with its qualification state (R26). -/
def Condition.Lawful (c : Condition) : Prop :=
  match c.qual with
  | .isFalse | .falling => c.raw = false
  | .rising | .isTrue => c.raw = true

/-- A condition that does not wait has no deadline (R25). -/
def Condition.DeadlineLaw (c : Condition) : Prop :=
  match c.qual with
  | .isFalse | .isTrue => c.deadline = none
  | .rising | .falling => True

/-- Every condition keeps both laws (R25, R26). -/
def State.ConditionLaw (s : State) : Prop := ∀ i, (s.tab.conds.get i).Lawful ∧ (s.tab.conds.get i).DeadlineLaw

/-- A claim agrees with the qualified values: HELD with a satisfied guard set, HALTED with one that is not (R122). -/
def Claim.Lawful (t : Tables) (c : Claim) : Prop :=
  match c.state with
  | .held => satisfied t c.guard = true
  | .halted => satisfied t c.guard = false
  | .free | .closing => True

/-- Every claim agrees with the qualified values (R122). -/
def State.ClaimLaw (s : State) : Prop := ∀ e, (s.flow.claims.get e).Lawful s.tab

/-- No two entries in use have the same slot and the same ECU (R101). -/
def State.PairLaw (s : State) : Prop :=
  ∀ i j x y, s.flow.entries.get i = some x → s.flow.entries.get j = some y → x.slot = y.slot → x.ecu = y.ecu → i = j

/-- The used, reserved and kept places of a slot's delivery queue are at most the 8 it has (R81, R114). -/
def State.PlaceLaw (s : State) : Prop :=
  ∀ k, (s.flow.slots.get k).items.length + s.flow.liveEntries k + (s.flow.slots.get k).kept ≤ 8

/-- A claim in force has an ATTACHED holder and a grant that supports it (R122, R54); only an ATTACHED slot has a held
head (R13, R82). -/
def State.SupportLaw (s : State) : Prop :=
  (∀ e, (s.flow.claims.get e).inForce = true →
    (s.tab.testers.get (s.flow.claims.get e).holder).attached = true
    ∧ supported s.grants (s.flow.claims.get e).holder e (s.flow.claims.get e).level = true)
  ∧ ∀ k, (s.flow.slots.get k).held.isSome → (s.tab.testers.get k).attached = true

/-! ### The charges that the part holds (R58, R64) -/

/-- The charge of an item: a response's (R70). -/
def ItemBody.charge : ItemBody → Option Charge
  | .response m => some m.charge
  | .refusal _ | .interim _ => none

/-- The charge of what a transmitter carries. -/
def Cargo.charge : Cargo → Option Charge
  | .request m _ => some m.charge
  | .close _ => none
  | .item _ it => it.body.charge

/-- The charge of a response that an entry holds (R109). -/
def Entry.charge (x : Entry) : Option Charge :=
  match x.held with
  | some (.response m) => some m.charge
  | some (.refusal _ _) | none => none

/-- The charges of a slot's queues. -/
def SlotFlow.charges (x : SlotFlow) : List Charge :=
  x.inbound.map (·.msg.charge) ++ x.items.filterMap (·.body.charge)

/-- The charges of a port's transfer and contexts. -/
def PortFlow.charges (x : PortFlow) : List Charge :=
  (x.tx.bind (·.cargo.charge)).toList ++ x.ctxs.toList.filterMap fun c => c.bind (·.charge)

/-- Every charge that a message in the part holds. -/
def Flow.charges (f : Flow) : List Charge :=
  f.slots.toList.flatMap SlotFlow.charges ++ f.ports.toList.flatMap PortFlow.charges
  ++ f.vbs.toList.flatMap (fun v => v.outbound.map (·.msg.charge))
  ++ f.entries.toList.filterMap (fun x => x.bind Entry.charge)
  ++ f.jobs.toList.filterMap fun b => b.build.bind (·.charge)

/-- The count that a charge records for an account (R62, R64). -/
def Charge.part (c : Charge) (a : AccountIx) : Nat :=
  if a = acctSlotGrade c.slot c.grade then c.slotGrade
  else if a = acctSlot c.slot then c.slotReserve
  else if a = acctGrade c.grade then c.gradeShared
  else if a = acctCommon then c.common
  else 0

/-- A list of charges accounts for the whole store: the usage of each account is the sum of their counts, each is divided
into its counts, and with the free cells they make 1,024 (R58, R64); no account carries more than its threshold, and the
free cells are at or above the unused reservation (R61). -/
structure Flow.Accounts (t : Tables) (f : Flow) (cs : List Charge) : Prop where
  usage : ∀ a, f.usage.get a = (cs.map (·.part a)).sum
  cells : f.free + (cs.map (·.cells)).sum = 1024
  parts : ∀ c ∈ cs, c.slotGrade + c.slotReserve + c.gradeShared + c.common = c.cells
  within : ∀ a, f.usage.get a ≤ t.thresholds.get a
  reserved : unusedReservation t f ≤ f.free

/-- An entry holds an item in DELIVERING only (R101), and the build buffer of a RUNNING job is empty (R165). -/
structure Flow.Holding (f : Flow) : Prop where
  entries : ∀ i x, f.entries.get i = some x → x.held.isSome → x.state = .delivering
  jobs : ∀ j, (f.jobs.get j).state = .running → (f.jobs.get j).build = none

/-- The charges of the messages in the part account for the whole store (R58, R61, R64). -/
def State.StoreLaw (s : State) : Prop := s.flow.Accounts s.tab s.flow.charges ∧ s.flow.Holding

/-! ### What the internal consequences of a command leave alone (log 12) -/

/-- An entry may end; one that goes on keeps its slot and its ECU, and none begins. -/
def Entry.Stays : Option Entry → Option Entry → Prop
  | _, none => True
  | none, some _ => False
  | some x, some y => y.slot = x.slot ∧ y.ecu = x.ecu

/-- Two claim records with the same state, holder, level and guard set. -/
def Claim.Same (x y : Claim) : Prop := x.state = y.state ∧ x.holder = y.holder ∧ x.level = y.level ∧ x.guard = y.guard

/-- What acts leave of the traffic: news flags stay set, canonical RAM stays canonical, no claim comes into force or
changes while it is in force, no outstanding entry begins and no head comes to be held, no idle job starts and a job that
goes on keeps its slot, an idle relay channel stays where
it is, and the board, the visit position, the allowances, the transmitters, the outbound queues and the counters of
admissions, strays, send failures, delivery failures and samples stay as they are. -/
structure Flow.Keeps (f g : Flow) : Prop where
  ram : ramWf f.ram → ramWf g.ram
  news : f.news &&& g.news = f.news
  boardPos : g.boardPos = f.boardPos
  look : g.look = f.look
  lookDue : g.lookDue = f.lookDue
  visitPos : g.visitPos = f.visitPos
  roomReport : g.roomReport = f.roomReport
  tbUnknown : g.tbUnknown = f.tbUnknown
  candidates : g.candidates = f.candidates
  samples : g.samples = f.samples
  relayOut : g.relayOut = f.relayOut
  entries : ∀ i, Entry.Stays (f.entries.get i) (g.entries.get i)
  held : ∀ k, (g.slots.get k).held.isSome → (f.slots.get k).held.isSome
  relayIn : f.relayIn.count = none → f.relayIn.stop = none → g.relayIn = f.relayIn
  slots : ∀ k, (g.slots.get k).allowance = (f.slots.get k).allowance ∧ (g.slots.get k).admitted = (f.slots.get k).admitted
    ∧ (g.slots.get k).deliveryFails = (f.slots.get k).deliveryFails
  ports : ∀ p, (g.port p).tx = (f.port p).tx
  vbs : ∀ v, (g.vbs.get v).outbound = (f.vbs.get v).outbound
  ecuCounts : ∀ e, (g.ecuCounts.get e).forwarded = (f.ecuCounts.get e).forwarded
    ∧ (g.ecuCounts.get e).strays = (f.ecuCounts.get e).strays
    ∧ (g.ecuCounts.get e).sendFailures = (f.ecuCounts.get e).sendFailures
  claims : ∀ e, (g.claims.get e).inForce = true → (g.claims.get e).Same (f.claims.get e)
  jobs : ∀ j, (g.jobs.get j).state = .idle ∨ (f.jobs.get j).state ≠ .idle ∧ (g.jobs.get j).slot = (f.jobs.get j).slot

/-! ### Orders (R199, R200) -/

/-- The look stands at a POSTED slot whose order code is `code`. -/
abbrev State.Finds (s : State) (d : Directory) (l : Look) (code : Byte) : Prop :=
  s.tab.dir = some d ∧ s.flow.look = some l ∧ ramByte s.flow.ram (d.orderAddr l.next + 4) = code

/-- The parameter bytes of the order at the look, read once it is TAKEN (R200, R210). -/
def State.params (s : State) (d : Directory) (l : Look) : List Byte :=
  ramRead (s.took d l).flow.ram (d.orderAddr l.next + 20) 44

/-- The look goes on after the order (R199). -/
def State.looksOn (s : State) (d : Directory) (l : Look) : State := s.withFlow (lookOn d l s.flow)

/-- The order ends at once with a result and no detail, and the look goes on (R199, R200). -/
def State.answers (s : State) (d : Directory) (l : Look) (r : OrderResult) : State := (s.done l.next r).looksOn d l

/-- The orders that are carried out in RUNNING only, with their codes (R200, R210). -/
def runningOrders : List (Byte × Instr) :=
  [(0x01, .setTester), (0x02, .detachTester), (0x03, .setEcu), (0x04, .installGrant), (0x05, .revokeGrant),
   (0x06, .suspendGrant), (0x07, .resumeGrant), (0x08, .renewGrant), (0x09, .setStandstill),
   (0x0A, .setConditionTimes), (0x0B, .releaseClaim), (0x0C, .setAccounts), (0x0D, .setProbe), (0x0E, .setSampler),
   (0x0F, .startJob), (0x10, .abortJob), (0x13, .setNewsMask)]

/-! ### Jobs (R161) -/

/-- The command by which a job carries out a step of a kind. -/
def StepKind.command (j : JobIx) : StepKind → Instr
  | .send => .jobSend j
  | .rep => .jobRepeat j
  | .waitTime => .jobWaitTime j
  | .waitCondition => .jobWaitCondition j
  | .sync => .jobSync j
  | .fin => .jobEnd j

end Sys2Proof.Machine
end

