-- ==== Sys2Proof/Certificates/Slice0/Obligations.lean ====
section
/-! DEFINITION. The statements for the provers, in the order of OBLIGATIONS.json. -/

section
open Sys2Proof Sys2Proof.Machine

/-! ### The queue, resets, registers and controller states -/

/-- The command at the front of the queue runs on the state with the queue's rest. -/
def Obligations.StepRunsFrontCommand : Prop :=
  ∀ (c : Instr) (rest : List Instr) (s : State),
    step { s with pending := c :: rest } = exec c { s with pending := rest }

/-- With no command waiting a millisecond passes, and a frame that the spacing held back may start (the model's choice,
log 3). -/
def Obligations.EmptyQueuePassesOneMillisecond : Prop :=
  ∀ s : State, s.pending = [] →
    step s = .next { s with
      tab := { s.tab with now := s.tab.now + 1 }
      flow := startFrames { s.tab with now := s.tab.now + 1 } s.flow }

/-- No command stops the block, and none touches the commands that wait behind it. -/
def Obligations.EveryCommandAnswersNext : Prop :=
  ∀ (c : Instr) (s : State), ∃ t, exec c s = .next t ∧ t.pending = s.pending

/-- The values that the manual states for reset (R15, R20, R21, R39, R57, R100, R120, R138, R155, R174, R190, R191). Of
a grant, a claim, an ECU entry, a probe and a job it is the state or validity, and of an ECU entry its interim limit,
that is stated here; of the other tables every field. Of the flush time of the capture unit it is that it is none (count
0), and of the scan interval and the relay flush time nothing. That no command waits is the model's choice (log 24). -/
def Obligations.ResetValues : Prop :=
  let s := State.reset
  (s.pending = [] ∧ s.enable = false ∧ s.irqEnable = false ∧ s.xbase = 0 ∧ s.scanDl = none
    ∧ ∀ n : News, s.mask.getLsbD n.bit = (n == .fault || n == .stopped))
  ∧ (s.tab.now = 0 ∧ s.tab.ctl = .off ∧ s.tab.fault = .noFault ∧ s.tab.dir = none ∧ s.tab.marker = 0x6E
    ∧ s.tab.eventCapture = false)
  ∧ (s.flow.news = 0 ∧ s.flow.boardPos = 0 ∧ s.flow.visitPos = 0 ∧ s.flow.tbUnknown = 0 ∧ s.flow.relayUnknown = 0
    ∧ s.flow.free = 1024 ∧ s.flow.waiting = [] ∧ s.flow.candidates = 0 ∧ s.flow.samples = 0
    ∧ s.flow.relayIn = { page := 0, record := 0, offset := 16, count := none, stop := none })
  ∧ (∀ w : Writer, w = s.flow.writer ∨ w = s.flow.relayOut →
      w = { pos := 0, page := none, seq := 0, gap := 0, blocked := false })
  ∧ (∀ k, s.tab.testers.get k =
        { attached := false, kind := .bus, tbAddr := 0, relayId := 0, jobCtx := 0, vehicle := 0, mode := .refuse
          weight := 1, limit := 1, holdLimit := { code := 0, count := 0 } }
      ∧ s.flow.slots.get k =
        { allowance := 0, inbound := [], placeWait := [], held := none, items := [], admitted := 0, refused := 0
          heldTooLong := 0, deliveryFails := 0 })
  ∧ (∀ e, (s.tab.ecus.get e).valid = false ∧ (s.tab.ecus.get e).interimLimit = 1
      ∧ s.flow.ecuCounts.get e = { forwarded := 0, responses := 0, timeouts := 0, strays := 0, sendFailures := 0 }
      ∧ (s.flow.claims.get e).state = .free)
  ∧ (∀ code, classOf s.tab code = .barred)
  ∧ (∀ i, s.tab.conds.get i =
        { raw := false, qual := .isFalse, rise := { code := 0, count := 0 }, fall := { code := 0, count := 0 }
          deadline := none })
  ∧ s.rot =
      { window := { code := 0, count := 0 }, threshold := 0, running := 0, last := 0, completed := false
        deadline := none }
  ∧ (∀ g, (s.grants.get g).state = .free)
  ∧ (∀ a, s.tab.thresholds.get a = 0 ∧ s.flow.usage.get a = 0)
  ∧ (∀ i, s.flow.entries.get i = none)
  ∧ (∀ p, (s.flow.port p).tx = none ∧ (∀ c, s.flow.ctx p c = none)
      ∧ s.tab.port p =
        { node := 0, kind := 0, priority := 0, window := 1, creditWait := { code := 0, count := 0 }
          gap := { code := 0, count := 0 }, doneWait := { code := 0, count := 0 }
          stallInterval := { code := 0, count := 0 }, stallLimit := 0, spacing := { code := 0, count := 0 } })
  ∧ (∀ v, s.flow.vbs.get v = { outbound := [], closeBuf := none, closeList := [] })
  ∧ (∀ j, (s.flow.jobs.get j).state = .idle)
  ∧ (∀ i, (s.tab.probes.get i).enabled = false)
  ∧ s.tab.sampler = { enabled := false, rate := 0, classes := 0 } ∧ s.tab.captureFlush.count = 0

/-- The machine right after reset keeps the laws that every step keeps. -/
def Obligations.ResetKeepsLaws : Prop :=
  Memory.wf State.reset ∧ State.reset.ControllerLaw ∧ State.reset.ConditionLaw ∧ State.reset.ClaimLaw
  ∧ State.reset.PairLaw ∧ State.reset.PlaceLaw ∧ State.reset.StoreLaw ∧ State.reset.SupportLaw

/-- HARDWARE_RESET gives every block its reset values; a soft reset keeps XBASE, the count and the IRQ_ENABLE bit as
written (R1, R191, R192). The waiting commands, the lines, shared RAM and the source of free values are no state of the
part's blocks (log 13). A CTRL write without SOFT_RESET (R192): ENABLE 0 to 1 in OFF begins STARTING; ENABLE 0 in FAULTED
goes to OFF with the fault code kept; any other write but ENABLE 1 to 0 in RUNNING just stores the two bits. -/
def Obligations.ResetsAndEnable : Prop :=
  ((∀ s : State,
      exec .hardwareReset s = .next { State.reset with
        pending := s.pending, lines := s.lines, fresh := s.fresh, flow := { Flow.reset with ram := s.flow.ram } })
    ∧ (∀ (w : Word) (st : Stores) (s : State), w.getLsbD 1 = true →
      exec (.softReset w st) s = .next { State.reset with
        pending := s.pending, lines := s.lines, fresh := s.fresh, readData := s.readData, xbase := s.xbase
        irqEnable := w.getLsbD 2
        tab := { Tables.reset with now := s.tab.now }
        flow := { Flow.reset with ram := ramStores s.flow.ram st } }))
  ∧ (∀ (w : Word) (st : Stores) (s : State), w.getLsbD 1 = false →
      let u : State := { s.store st with enable := w.getLsbD 0, irqEnable := w.getLsbD 2 }
      (s.tab.ctl = .off ∧ s.enable = false ∧ w.getLsbD 0 = true →
        exec (.enable w st) s = .next { u with
          tab := { u.tab with ctl := .starting, fault := .noFault, dir := none }
          flow := { u.flow with look := none, lookDue := false } })
      ∧ (s.tab.ctl = .faulted ∧ w.getLsbD 0 = false →
        exec (.enable w st) s = .next { u with tab := { u.tab with ctl := .off } })
      ∧ (¬(s.tab.ctl = .off ∧ s.enable = false ∧ w.getLsbD 0 = true) → ¬(s.tab.ctl = .faulted ∧ w.getLsbD 0 = false) →
          ¬(s.tab.ctl = .running ∧ s.enable = true ∧ w.getLsbD 0 = false) →
        exec (.enable w st) s = .next u))

/-- ENABLE 1 to 0 in RUNNING begins STOPPING (R192, R197): every job ends, every claim in force is released, and the
relay channel stops reading: a page it holds TAKEN is written EMPTY, RELAY_IN_FREE is set and the position moves to the
next page (R128, R174, R202). The host's tables stay. In full, the entry to STOPPING, all in this one command, offers
the STOPPING record when event capture is on and commits the capture page (R189), stops the relay channel, releases
claims with cause STOPPING, ends jobs STOPPED, and refuses every held head STOPPING, or HELD_TOO_LONG where its limit
has passed (R96); which claims and jobs come before which is a free value, drawn once per entry, and the members of a
group come in rising number (the model's reading, log 9). -/
def Obligations.EnableClearedStops : Prop :=
  (∀ (w : Word) (st : Stores) (s : State), w.getLsbD 1 = false → w.getLsbD 0 = false → s.tab.ctl = .running →
    s.enable = true → (∀ j, (s.flow.jobs.get j).active = true → (s.flow.jobs.get j).slot.isSome) →
    ∃ t, exec (.enable w st) s = .next t
      ∧ t.tab = { s.tab with ctl := .stopping } ∧ t.enable = false ∧ t.irqEnable = w.getLsbD 2
      ∧ t.pending = s.pending ∧ t.xbase = s.xbase ∧ t.mask = s.mask ∧ t.grants = s.grants ∧ t.rot = s.rot
      ∧ t.lines = s.lines ∧ t.readData = s.readData ∧ t.scanDl = s.scanDl
      ∧ (∀ j, (t.flow.jobs.get j).state = .idle)
      ∧ (∀ e, (t.flow.claims.get e).inForce = false)
      ∧ (∀ r, s.tab.relayInRing = some r →
        (s.flow.relayIn.count = none → t.flow.relayIn = { s.flow.relayIn with stop := none })
        ∧ (s.flow.relayIn.count.isSome → t.flow.hasNews .relayInFree = true
          ∧ t.flow.relayIn =
            { page := (s.flow.relayIn.page + 1) % r.pages, record := 0, offset := 16, count := none, stop := none })))
  ∧ (∀ (t : Tables) (f : Flow) (r : Ring), t.relayInRing = some r → f.relayIn.count.isSome →
    relayStopReading t f = { f with
      ram := ramWrite f.ram (r.pageAddr f.relayIn.page) [0, 0, 0, 0]
      news := f.news ||| 0x004
      waiting := f.waiting.filter fun w => w.who != .relay
      relayIn := { page := (f.relayIn.page + 1) % r.pages, record := 0, offset := 16, count := none, stop := none } })
  ∧ (∀ (w : Word) (st : Stores) (s : State), w.getLsbD 1 = false → w.getLsbD 0 = false → s.tab.ctl = .running →
    s.enable = true →
    let t := { s.tab with ctl := .stopping }
    let n := s.fresh
    let releases := fun (p : EcuIx → Bool) (g : Flow) =>
      ((List.finRange 32).filter p).foldl (fun g e => claimRelease t 0 false g e .stopping) g
    let ends := fun (p : JobIx → Bool) (g : Flow) =>
      ((List.finRange 4).filter p).foldl (fun g j => settle t [.endJob j .stopped 0 (g.jobs.get j).cur] g) g
    let refuses := fun (g : Flow) (k : Slot) => match (g.slots.get k).held, (g.slots.get k).inbound with
      | some h, m :: _ =>
        let a := if h.passed = true then headRefuse t g k .heldTooLong h.ecu (some (classOf t m.msg.code))
          else headRefuse t g k .stopping none none
        settle t a.2 a.1
      | _, _ => g
    let recorded := captureCommit t (event t 0 (s.store st).flow
      { event := true, source := 7, slot := 0, subject := some 0, cls := none, code := 0, grant := none
        outcome := some 0, reason := none, probe := none, stamp := none, length := 0, content := [] })
    let first := ends (fun j => !Config.headsBeforeJobs n j)
      (releases (Config.claimsBeforeJobs n) (relayStopReading t recorded))
    let held := ((List.finRange 16).map fun i => first.visitPos + i).filter fun k => (first.slots.get k).held.isSome
    exec (.enable w st) s = .next { s.store st with
      enable := false, irqEnable := w.getLsbD 2, fresh := n + 1, tab := t
      flow := releases (fun _ => true) (ends (fun _ => true) (held.foldl refuses first)) })

/-- IRQ_ENABLE stores its bit (R192), and the line is asserted while it is set and a flag set in NEWS is enabled in the
mask (R193). XBASE is taken in OFF, its two lowest bits reading 0; every other write of IDENT, STATE, NEWS and XBASE is
ignored (R191). The words the host reads from IDENT, CTRL and STATE are those of R207, and ATTN reads 0. A read of NEWS
returns the flags and clears them as one event (R193). -/
def Obligations.RegistersAndIrqLine : Prop :=
  ((∀ (w : Word) (st : Stores) (s : State), w.getLsbD 1 = false → w.getLsbD 0 = s.enable →
        (s.tab.ctl = .faulted → s.enable = true) →
        exec (.irqEnable w st) s = .next { s.store st with irqEnable := w.getLsbD 2 })
    ∧ (∀ s : State, s.irq = true ↔
        s.irqEnable = true ∧ ∃ n : News, s.flow.news.getLsbD n.bit = true ∧ s.mask.getLsbD n.bit = true)
    ∧ (∀ (r : HostReg) (w : Word) (st : Stores) (s : State),
      (r = .xbase ∧ s.tab.ctl = .off →
        exec (.registerWrite r w st) s = .next { s.store st with xbase := w &&& 0xFFFFFFFC })
      ∧ (¬(r = .xbase ∧ s.tab.ctl = .off) → exec (.registerWrite r w st) s = .next (s.store st)))
    ∧ identWord = 0x6F241975 ∧ attnWord = 0
    ∧ (∀ s : State, s.ctrlWord = (if s.enable then 1 else 0) + (if s.irqEnable then 4 else 0))
    ∧ (∀ s : State, s.stateWord.extractLsb' 0 3 = BitVec.ofNat 3 s.tab.ctl.code
        ∧ s.stateWord.extractLsb' 8 3 = BitVec.ofNat 3 s.tab.fault.code
        ∧ s.stateWord.extractLsb' 3 5 = 0 ∧ s.stateWord.extractLsb' 11 21 = 0))
  ∧ (∀ (st : Stores) (s : State),
      exec (.newsRead st) s = .next { s.store st with
        readData := s.flow.news.setWidth 32, flow := { (s.store st).flow with news := 0 } })

/-- An attention, and a scan when its timer expires, reach the board, the relay channel and the two blocked writers
(R199, R202, R184, R204), in this order, which is the model's choice (log 36); an attention in OFF reaches the board
only, and in STARTING and FAULTED nothing. A look begins at the board position and finds the first POSTED slot in rising
number, passing from the last slot back to 0; an attention during a look leaves one look pending (R199). A relay channel
that is neither within a page nor stopped takes a FILLED page of one or more records: its state word becomes TAKEN (2)
and its first record is next (R202). A blocked writer, of capture or of relay pages, whose page the host has emptied is
blocked no longer, and the capture writer reports that room has returned (R184, R204). -/
def Obligations.AttentionReaches : Prop :=
  ((∀ (w : Word) (st : Stores) (s : State),
      let u := s.store st
      (s.tab.ctl = .starting ∨ s.tab.ctl = .faulted → exec (.attention w st) s = .next u)
      ∧ (s.tab.ctl = .off → exec (.attention w st) s = .next (u.withFlow (lookAt s.tab u.flow)))
      ∧ (s.tab.ctl = .running ∨ s.tab.ctl = .stopping →
        exec (.attention w st) s =
          .next (u.withFlow (relayReread s.tab (captureReread s.tab (relayBegin s.tab (lookAt s.tab u.flow)))))))
    ∧ (∀ (dt : Nat) (s : State),
      let u := s.advance dt
      (∀ d, s.tab.ctl = .running ∨ s.tab.ctl = .stopping → s.scanDl = some d → reached u.tab.now d = true →
        exec (.scan dt) s = .next { u with
          flow := relayReread u.tab (captureReread u.tab (relayBegin u.tab (lookAt u.tab u.flow)))
          scanDl := some (after d s.tab.scan) })
      ∧ (s.tab.active = false ∨ expired u.tab.now s.scanDl = false → exec (.scan dt) s = .next u)))
  ∧ ((∀ (w : Word) (st : Stores) (s : State) (d : Directory), s.tab.dir = some d → s.flow.boardPos < d.slots →
      (s.tab.ctl = .off ∨ s.tab.ctl = .running ∨ s.tab.ctl = .stopping) →
      ∃ t, exec (.attention w st) s = .next t ∧ t.flow.boardPos = s.flow.boardPos
        ∧ (s.flow.look.isSome → t.flow.look = s.flow.look ∧ t.flow.lookDue = true)
        ∧ (s.flow.look = none →
          let slotAt := fun i => (s.flow.boardPos + i) % d.slots
          let isPosted := fun i => ramNum (s.store st).flow.ram (d.orderAddr (slotAt i)) 4 = 1
          t.flow.lookDue = false
          ∧ ((t.flow.look = none ∧ ∀ i < d.slots, ¬isPosted i)
            ∨ ∃ i < d.slots, isPosted i ∧ (∀ j < i, ¬isPosted j)
              ∧ t.flow.look = some { next := slotAt i, left := d.slots - i })))
    ∧ (∀ (t : Tables) (f : Flow) (r : Ring), t.ctl = .running → t.relayInRing = some r → f.relayIn.count = none →
      f.relayIn.stop = none → r.stateOf f.ram f.relayIn.page = 1 →
      let ram := ramWrite f.ram (r.pageAddr f.relayIn.page) [2, 0, 0, 0]
      let n := ramNum ram (r.pageAddr f.relayIn.page + 4) 2
      n ≠ 0 →
        relayBegin t f = { f with
          ram := ram, relayIn := { page := f.relayIn.page, record := 0, offset := 16, count := some n, stop := none } })
    ∧ (∀ (t : Tables) (f : Flow) (r : Ring), t.captureRing = some r → f.writer.blocked = true →
      r.stateOf f.ram (f.writer.nextPage r) = 0 →
        captureReread t f = Flow.markHeads { f with
          writer := { f.writer with blocked := false }, roomReport := true } fun _ h => h.reason == .capture)
    ∧ (∀ (t : Tables) (f : Flow) (r : Ring), t.captureRing = some r →
      f.writer.blocked = false ∨ r.stateOf f.ram (f.writer.nextPage r) ≠ 0 → captureReread t f = f))
  ∧ (∀ (t : Tables) (f : Flow) (r : Ring), t.relayOutRing = some r →
    (f.relayOut.blocked = true → r.stateOf f.ram (f.relayOut.nextPage r) = 0 →
      relayReread t f = { f with relayOut := { f.relayOut with blocked := false } })
    ∧ (f.relayOut.blocked = false ∨ r.stateOf f.ram (f.relayOut.nextPage r) ≠ 0 → relayReread t f = f))

/-- STARTING ends in RUNNING when all checks pass: every block takes the settings read, the grants are FREE, the
rotation monitor and the scan timer start, and each ATTACHED slot has its weight as allowance; with ENABLE clear the
part goes on to STOPPING at once (R196, R37, R57, R80, R199). A condition has the times read and the level of its line
as raw value; a true one is RISING with its rise time to run, or TRUE at once with a rise time of 0 (R37). The settings
read are the fields of the settings leaf, 1,816 bytes, at the offsets of R213, each record in range (R23, R38, R74,
R139, R188, R196); they are read as they stand when STARTING completes (log 23), and a port's stall limit is one byte
(the model's reading, log 37). -/
def Obligations.StartingCompletes : Prop :=
  (∀ (s : State) (x : Settings), s.tab.ctl = .starting → readStarting s = .ok x →
    ∃ t, exec .startingComplete s = .next t
      ∧ t.tab = { x.tab with ctl := if s.enable then .running else .stopping, conds := t.tab.conds }
      ∧ (∀ i : CondIx,
        let c := x.tab.conds.get i
        let high := i = 0 ∧ s.lines.ign = true ∨ i = 1 ∧ s.lines.park = true ∨ i = 3 ∧ s.lines.supply = true
          ∨ i = 4 ∧ s.lines.wshop = true
        t.tab.conds.get i =
          { rise := c.rise, fall := c.fall, raw := decide high
            qual := if high then (if c.rise.count = 0 then .isTrue else .rising) else .isFalse
            deadline := if high ∧ c.rise.count ≠ 0 then some (after s.tab.now c.rise) else none })
      ∧ t.tab.fault = .noFault ∧ t.tab.dir.isSome
      ∧ t.mask = x.mask ∧ (∀ i, t.grants.get i = .reset)
      ∧ t.rot =
        { window := x.window, threshold := x.still, running := 0, last := 0, completed := false
          deadline := some (after s.tab.now x.window) }
      ∧ t.scanDl = (if x.tab.scan.count = 0 then none else some (after s.tab.now x.tab.scan))
      ∧ (∀ k, (t.flow.slots.get k).allowance =
          (if (x.tab.testers.get k).attached then (x.tab.testers.get k).weight else 0)
        ∧ (t.flow.slots.get k).admitted = 0)
      ∧ t.enable = s.enable ∧ t.irqEnable = s.irqEnable ∧ t.xbase = s.xbase ∧ t.pending = s.pending
      ∧ t.lines = s.lines ∧ t.readData = s.readData)
  ∧ (∀ (s : State) (x : Settings), readStarting s = .ok x → ∃ d, x.tab.dir = some d ∧
    let bs := ramRead s.flow.ram d.settings 1816
    let record := fun (at_ size i : Nat) => (bs.drop (at_ + size * i)).take size
    (∀ i : Fin 4, getPort (record 0 16 i.val) = some (x.tab.ports.get i))
    ∧ x.tab.marker = byteAt bs 0x40 ∧ byteAt bs 0x41 = (if x.tab.eventCapture then 1 else 0)
    ∧ x.still = numAt bs 0x42 2 ∧ x.still ≤ 255 ∧ getDuration bs 0x44 = some x.tab.scan
    ∧ getDuration bs 0x46 = some x.tab.relayFlush ∧ getDuration bs 0x48 = some x.tab.captureFlush
    ∧ getTimeout bs 0x4A = some x.window ∧ numAt bs 0x4C 4 < 2 ^ 11 ∧ x.mask = BitVec.ofNat 11 (numAt bs 0x4C 4)
    ∧ (∀ i : CondIx, getDuration bs (0x50 + 4 * i.val) = some (x.tab.conds.get i).rise
      ∧ getDuration bs (0x52 + 4 * i.val) = some (x.tab.conds.get i).fall)
    ∧ byteAt bs 0x68 = (if x.tab.sampler.enabled then 1 else 0) ∧ (byteAt bs 0x69).toNat < 64
    ∧ x.tab.sampler.classes = BitVec.ofNat 6 (byteAt bs 0x69).toNat
    ∧ x.tab.sampler.rate = numAt bs 0x6A 2 ∧ x.tab.sampler.rate ≤ 4096
    ∧ (∀ i : ProbeIx, getProbe (record 0x70 16 i.val) = some (x.tab.probes.get i))
    ∧ (∀ a : AccountIx, x.tab.thresholds.get a = numAt bs (0xB0 + 2 * a.val) 2 ∧ x.tab.thresholds.get a ≤ 1024)
    ∧ sumReserve (fun a => x.tab.thresholds.get a) ≤ 1024
    ∧ (∀ k : Slot, byteAt bs (0x118 + 16 * k.val) = (if (x.tab.testers.get k).attached then 1 else 0)
      ∧ getTester (record 0x118 16 k.val) (x.tab.testers.get k).attached = some (x.tab.testers.get k))
    ∧ (∀ e : EcuIx, getEcu (record 0x218 32 e.val) = some (x.tab.ecus.get e))
    ∧ (∀ c : Byte, getClass (byteAt bs (0x618 + c.toNat)) = some (classOf x.tab c))
    ∧ (x.tab.relayOutRing.isSome → x.tab.relayFlush.count ≠ 0)
    ∧ (x.tab.captureRing = none → x.tab.eventCapture = false ∧ x.tab.sampler.enabled = false
      ∧ ∀ i, (x.tab.probes.get i).enabled = false))
  ∧ (∀ (bs : List Byte) (x : PortSettings), getPort bs = some x ↔
      x.node = byteAt bs 0 ∧ x.kind = byteAt bs 1
      ∧ (byteAt bs 2).toNat < 8 ∧ x.priority = BitVec.ofNat 3 (byteAt bs 2).toNat
      ∧ 1 ≤ x.window ∧ x.window ≤ 63 ∧ x.window = (byteAt bs 3).toNat ∧ x.stallLimit = (byteAt bs 4).toNat
      ∧ getTimeout bs 6 = some x.creditWait ∧ getTimeout bs 8 = some x.gap ∧ getTimeout bs 10 = some x.doneWait
      ∧ getTimeout bs 12 = some x.stallInterval ∧ getDuration bs 14 = some x.spacing)

/-- A check of STARTING that fails takes the part to FAULTED with the check's code and the FAULT flag (R195, R196,
R198); a first word other than the signature, or an entry count outside 1 to 16, is BAD_SIGNATURE; else an unknown key
or one twice is BAD_LEAF; else a directory without settings or order board is MISSING_LEAF; else a leaf's geometry out
of range, or extents outside the address space or overlapping, is BAD_LEAF (R195, R209). A directory that passes gives
the leaves it names. Then a settings leaf that fails any check is BAD_SETTINGS, and one that passes them all is taken:
class codes, ECU entries against the port addresses and the entries before them, attached slots against R9, the other
slots' fields (R23), condition times, window and still threshold (R38), thresholds and their sum (R74), ports (R139; the
stall limit's width: log 37), capture settings, off without a capture ring (R188), scan, relay flush and news mask
(R196). What is checked is read as it stands at this command (log 23). -/
def Obligations.StartingFails : Prop :=
  (∀ (s : State) (c : FaultCode), s.tab.ctl = .starting → readStarting s = .error c →
    exec .startingCheckFails s = .next { s with
      mask := 0x600, scanDl := none, rot := .reset, grants := Vector.replicate 64 .reset
      tab := { Tables.reset with now := s.tab.now, ctl := .faulted, fault := c }
      flow := { Flow.reset with ram := s.flow.ram, news := 0x200 } })
  ∧ (∀ s : State,
    let head := ramRead s.flow.ram s.xbase.toNat 8
    numAt head 0 4 ≠ 0x5A3C24D6 ∨ (byteAt head 4).toNat = 0 ∨ 16 < (byteAt head 4).toNat →
      readStarting s = .error .badSignature)
  ∧ (∀ s : State, (s.tab.ctl ≠ .starting ∨ ∃ x, readStarting s = .ok x) → exec .startingCheckFails s = .next s)
  ∧ (∀ (ram : List Host.Cell) (base : Nat),
    let head := ramRead ram base 8
    let n := (byteAt head 4).toNat
    let es : List DirEntry := (List.range n).map fun i =>
      let a := base + 8 + 4 * i
      { key := (byteAt (ramRead ram a 4) 3).toNat, leaf := a + 4 * numAt (ramRead ram a 4) 0 3 }
    let half := fun a o : Nat => numAt (ramRead ram a 16) o 2
    let steps := fun a : Nat => numAt (ramRead ram a 32) 4 2
    let ringOk := fun a : Nat => 2 ≤ half a 0 ∧ half a 0 ≤ 256 ∧ 256 ≤ half a 2 ∧ half a 2 ≤ 4096 ∧ half a 2 % 64 = 0
    let leafOk := fun e : DirEntry =>
      (e.key = 0x20 → 8 ≤ half e.leaf 0 ∧ half e.leaf 0 ≤ 64)
      ∧ (e.key = 0x30 ∨ e.key = 0x31 ∨ e.key = 0x40 → ringOk e.leaf) ∧ (e.key = 0x31 → 2112 ≤ half e.leaf 2)
      ∧ (e.key = 0x50 → 1 ≤ steps e.leaf)
    let size := fun e : DirEntry =>
      if e.key = 0x10 then 1816 else if e.key = 0x20 then 16 + 64 * half e.leaf 0
      else if e.key = 0x50 then 32 * steps e.leaf else if e.key = 0x60 then 908 else 16 + half e.leaf 0 * half e.leaf 2
    let extents := (base, 8 + 4 * n) :: es.map fun e => (e.leaf, size e)
    let signed := numAt head 0 4 = 0x5A3C24D6 ∧ 1 ≤ n ∧ n ≤ 16
    let keysOk := (∀ e ∈ es, e.key ∈ [0x10, 0x20, 0x30, 0x31, 0x40, 0x50, 0x60]) ∧ (es.map (·.key)).Nodup
    let has := fun k : Nat => ∃ e ∈ es, e.key = k
    let placed := (∀ x ∈ extents, x.1 + x.2 ≤ 2 ^ 32) ∧ extents.Pairwise fun x y => x.1 + x.2 ≤ y.1 ∨ y.1 + y.2 ≤ x.1
    (¬signed → readDirectory ram base = .error .badSignature)
    ∧ (signed → ¬keysOk → readDirectory ram base = .error .badLeaf)
    ∧ (signed → keysOk → ¬(has 0x10 ∧ has 0x20) → readDirectory ram base = .error .missingLeaf)
    ∧ (signed → keysOk → has 0x10 ∧ has 0x20 → ¬((∀ e ∈ es, leafOk e) ∧ placed) → readDirectory ram base = .error .badLeaf)
    ∧ (signed → keysOk → has 0x10 ∧ has 0x20 → (∀ e ∈ es, leafOk e) ∧ placed →
      ∃ d, readDirectory ram base = .ok d ∧ d.base = base ∧ d.entries = n
        ∧ (∀ e ∈ es, (e.key = 0x10 → d.settings = e.leaf) ∧ (e.key = 0x20 → d.board = e.leaf ∧ d.slots = half e.leaf 0)
          ∧ (let r : Ring := { leaf := e.leaf, pages := half e.leaf 0, size := half e.leaf 2 }
            (e.key = 0x30 → d.relayIn = some r) ∧ (e.key = 0x31 → d.relayOut = some r) ∧ (e.key = 0x40 → d.capture = some r))
          ∧ (e.key = 0x50 → d.pool = some { leaf := e.leaf, steps := steps e.leaf })
          ∧ (e.key = 0x60 → d.counters = some e.leaf))
        ∧ (¬has 0x30 → d.relayIn = none) ∧ (¬has 0x31 → d.relayOut = none) ∧ (¬has 0x40 → d.capture = none)
        ∧ (¬has 0x50 → d.pool = none) ∧ (¬has 0x60 → d.counters = none)))
  ∧ (∀ s : State, (∀ c, readDirectory s.flow.ram s.xbase.toNat = .error c → readStarting s = .error c)
    ∧ ∀ d, readDirectory s.flow.ram s.xbase.toNat = .ok d →
    let bs := ramRead s.flow.ram d.settings 1816
    let record := fun o size i : Nat => (bs.drop (o + size * i)).take size
    let node := fun p : Nat => byteAt bs (16 * p)
    let ecu := fun e : EcuIx => getEcu (record 0x218 32 e.val)
    let attach := fun k : Slot => byteAt bs (0x118 + 16 * k.val)
    let tester := fun k : Slot => getTester (record 0x118 16 k.val) (attach k == 1)
    let addr := fun x : Tester => match x.kind with | .bus => x.tbAddr | .relay | .job => x.vehicle
    let flag := fun b : Byte => b = 0 ∨ b = 1
    let threshold := fun a : Nat => numAt bs (0xB0 + 2 * a) 2
    let good :=
      (∀ c : Fin 256, (byteAt bs (0x618 + c.val)).toNat < 6)
      ∧ (∀ e, ∃ x, ecu e = some x ∧ (x.valid = true → node (1 + x.port.val) ≠ x.node
        ∧ ∀ i : EcuIx, i.val < e.val → ∀ y, ecu i = some y → y.valid = true → y.node ≠ x.node))
      ∧ (∀ k, attach k = 0 ∧ (tester k).isSome = true ∨ attach k = 1 ∧ ∃ x, tester k = some x
        ∧ (∀ v : VbIx, node (1 + v.val) ≠ addr x) ∧ (∀ e y, ecu e = some y → y.valid = true → y.node ≠ addr x)
        ∧ (x.kind = .bus → node 0 ≠ x.tbAddr)
        ∧ ∀ j : Slot, j.val < k.val → attach j = 1 → ∀ y, tester j = some y → addr y ≠ addr x
          ∧ (x.kind = .relay → y.kind = .relay → y.relayId ≠ x.relayId)
          ∧ (x.kind = .job → y.kind = .job → y.jobCtx ≠ x.jobCtx))
      ∧ (∀ i < 6, (getDuration bs (0x50 + 4 * i)).isSome = true ∧ (getDuration bs (0x52 + 4 * i)).isSome = true)
      ∧ (getTimeout bs 0x4A).isSome = true ∧ numAt bs 0x42 2 ≤ 255
      ∧ (∀ a < 51, threshold a ≤ 1024) ∧ ((List.range 48).map threshold).sum ≤ 1024
      ∧ (∀ i < 4, (getPort (record 0 16 i)).isSome = true)
      ∧ flag (byteAt bs 0x41) ∧ (getDuration bs 0x48).isSome = true ∧ (∀ i < 4, (getProbe (record 0x70 16 i)).isSome = true)
      ∧ flag (byteAt bs 0x68) ∧ (byteAt bs 0x69).toNat < 64 ∧ numAt bs 0x6A 2 ≤ 4096
      ∧ (d.capture = none → byteAt bs 0x41 = 0 ∧ byteAt bs 0x68 = 0 ∧ ∀ i < 4, byteAt bs (0x70 + 16 * i) = 0)
      ∧ (getDuration bs 0x44).isSome = true ∧ (getDuration bs 0x46).isSome = true
      ∧ (d.relayOut.isSome = true → (getTimeout bs 0x46).isSome = true) ∧ numAt bs 0x4C 4 < 2 ^ 11
    (good → ∃ x, readStarting s = .ok x) ∧ (¬good → readStarting s = .error .badSettings))

/-- STOPPING ends in OFF once the drain conditions hold: queues, contexts and due frames are gone, their cells returned
(to no claimant: the waiting list is emptied first, the model's choice, log 36), timers stopped, remaining lifetimes
held, STOPPED set; with ENABLE set STARTING begins at once. They are: no outstanding entry, every claim FREE, no
transfer at the transmitter of TB or of a VB port, and every context of the VB ports free. Before that nothing changes
(R197, R39, R57, R71, R76, R96, R154). The OFF record is offered, and the open capture and relay pages are committed
(R189, R204). -/
def Obligations.EnterOffWhenDrained : Prop :=
  (∀ s : State, s.tab.ctl = .stopping → drained s.flow = true →
    ∃ t, exec .enterOff s = .next t
      ∧ t.tab.ctl = (if s.enable then .starting else .off) ∧ (s.enable = false → t.tab.dir = s.tab.dir)
      ∧ t.tab.testers = s.tab.testers ∧ t.tab.ecus = s.tab.ecus ∧ t.tab.classMap = s.tab.classMap
      ∧ (∀ i, t.tab.conds.get i = { s.tab.conds.get i with deadline := none })
      ∧ t.rot = { s.rot with deadline := none } ∧ t.scanDl = none
      ∧ (∀ i, t.grants.get i = { s.grants.get i with life := match (s.grants.get i).life with
        | .running d => .held (msLeft s.tab.now (some d))
        | x => x })
      ∧ (∀ k, (t.flow.slots.get k).inbound = [] ∧ (t.flow.slots.get k).items = [] ∧ (t.flow.slots.get k).held = none)
      ∧ (∀ p, (∀ c, t.flow.ctx p c = none) ∧ (t.flow.port p).onBus = none ∧ (t.flow.port p).control = []
        ∧ (t.flow.port p).txDue = [])
      ∧ t.flow.waiting = [] ∧ t.flow.free = s.flow.free + ((leftCharges s.flow).map (·.cells)).sum
      ∧ t.flow.hasNews .stopped = true)
  ∧ (∀ s : State, ¬(s.tab.ctl = .stopping ∧ drained s.flow = true) → exec .enterOff s = .next s)
  ∧ (∀ s : State, s.tab.ctl = .stopping → drained s.flow = true →
    ∃ t, exec .enterOff s = .next t
      ∧ t.flow.ram = (relayCommit s.tab (captureCommit s.tab (event s.tab 0 s.flow
        { event := true, source := 7, slot := 0, subject := some 0, cls := none, code := 0, grant := none
          outcome := some 1, reason := none, probe := none, stamp := none, length := 0, content := [] }))).ram)
  ∧ (∀ f : Flow, drained f = true ↔ (∀ i, f.entries.get i = none) ∧ (∀ e, (f.claims.get e).state = .free)
    ∧ (f.port .tb).tx = none ∧ ∀ v, (f.port (.vb v)).tx = none ∧ ∀ c, f.ctx (.vb v) c = none)

/-- A memory error at an exchange-area structure takes the part to FAULTED with MEMORY_ERROR, after a last attempt of
the capture unit from RUNNING or STOPPING while event capture is on (R198, R190). What the access had done before stays
in shared RAM: an order being read is left TAKEN, one whose result was being written is TAKEN and carried out,
READ_COUNTERS has written the first bytes of the block (all read at one moment, the model's choice, log 40), a relay
inbound page is left TAKEN (the stages are the model's choice, log 21). One at a step that a job reads ends the job; one
at the data of a SEND ends it with the step counted (R161). One that meets the next result write waits for it (log 21).
The last attempt is the FAULTED record with the fault code and the commit of the capture page (R190). -/
def Obligations.MemoryErrors : Prop :=
  (∀ (a : RamAccess) (again : Bool) (s : State), accessPossible s a = true →
    let faulted := fun v : State => exec (.memoryError a again) s = .next { v with
        mask := 0x600, scanDl := none, rot := .reset, grants := Vector.replicate 64 .reset
        tab := { Tables.reset with now := v.tab.now, ctl := .faulted, fault := .memoryError }
        flow := { Flow.reset with ram := (lastAttempt v.tab v.flow .memoryError again).ram, news := 0x200 } }
    let lookOf := fun d l => s.tab.dir = some d ∧ s.flow.look = some l
    (a = .starting ∨ a = .orderBoard .stateWord ∨ a = .relayPage false ∨ a = .capturePage → faulted s)
    ∧ (∀ d l, a = .orderBoard .order → lookOf d l → faulted (s.took d l))
    ∧ (∀ d l, a = .orderBoard .result → lookOf d l →
      let o := orderByCode (ramByte s.flow.ram (d.orderAddr l.next + 4))
      faulted ((takeOrder s (fun _ => true) o.1 o.2).keepSlot (s.took d l) d l.next))
    ∧ (∀ n d l c, a = .counterBlock n → lookOf d l → d.counters = some c →
      let u := s.took d l
      faulted (u.withFlow { u.flow with ram := ramWrite u.flow.ram c ((counterBytes s.tab s.flow).take n) }))
    ∧ (∀ r, a = .relayPage true → s.tab.relayInRing = some r →
      faulted (s.withFlow { s.flow with ram := ramWrite s.flow.ram (r.pageAddr s.flow.relayIn.page) [2, 0, 0, 0] })))
  ∧ (∀ (v : State) (again : Bool), v.tab.active = false ∨ v.tab.eventCapture = false ∨ again = true →
    (lastAttempt v.tab v.flow .memoryError again).ram = v.flow.ram)
  ∧ (∀ (j : JobIx) (again : Bool) (s : State), (s.flow.jobs.get j).state = .running →
    exec (.memoryError (.jobStep j) again) s = .next (s.run [.endJob j .memoryError 0 (s.flow.jobs.get j).cur]))
  ∧ (∀ (j : JobIx) (again : Bool) (s : State) (g : Guard) (bs : List Byte) (x : SendStep),
    let b := s.flow.jobs.get j
    b.state = .running → readStep s.tab s.flow j = .step .send g bs → g.holds b.verdict = true → getSend bs = some x →
    (s.tab.ecus.get x.ecu).valid = true → x.readsData b = true →
    exec (.memoryError (.jobData j) again) s =
      .next ((s.withFlow (s.flow.modJob j fun y => { y with steps := b.steps + 1 })).run
        [.endJob j .memoryError 0 b.cur]))
  ∧ (∀ (j : JobIx) (again : Bool) (s : State), (s.flow.jobs.get j).active = true →
    exec (.memoryError (.jobResult j) again) s
      = .next (s.withFlow (s.flow.modJob j fun b => { b with resultError := true })))
  ∧ (∀ (a : RamAccess) (again : Bool) (s : State), accessPossible s a = false →
    exec (.memoryError a again) s = .next s)
  ∧ (∀ (t : Tables) (f : Flow) (code : FaultCode), t.active = true → t.eventCapture = true →
    lastAttempt t f code false = captureCommit t (event t 0 f
      { event := true, source := 7, slot := 0, subject := some 0, cls := none, code := 0, grant := none
        outcome := some 2, reason := some (BitVec.ofNat 8 code.code), probe := none, stamp := none, length := 0
        content := [] }))

/-! ### The condition monitor -/

/-- A rotation edge counts up to 65,535; the end of a window stores the count, starts the next window one window after
the deadline, and reports ENGINE_STILL true when the count is at most the still threshold (R29). A value that is
reported, of ENGINE_STILL here and of STANDSTILL by its order, is a raw change when it differs from the raw value: the
condition takes it and steps as R26 gives for each state (R26, R29, R31). -/
def Obligations.RotationMonitor : Prop :=
  (∀ s : State,
    (s.tab.ctl = .running ∨ s.tab.ctl = .stopping →
      exec .rotEdge s = .next { s with rot := { s.rot with running := min 65535 (s.rot.running + 1) } })
    ∧ (s.tab.ctl ≠ .running ∧ s.tab.ctl ≠ .stopping → exec .rotEdge s = .next s))
  ∧ (∀ (dt : Nat) (s : State),
    let u := s.advance dt
    (∀ d, s.tab.active = true → s.rot.deadline = some d → reached u.tab.now d = true →
      exec (.windowEnd dt) s =
        .next (reportRaw { u with rot :=
          { s.rot with running := 0, last := s.rot.running, completed := true
                       deadline := some (after d s.rot.window) } }
          2 (decide (s.rot.running ≤ s.rot.threshold))))
    ∧ (s.tab.active = false ∨ expired u.tab.now s.rot.deadline = false → exec (.windowEnd dt) s = .next u))
  ∧ (∀ (s : State) (i : CondIx) (b : Bool),
    let c := s.tab.conds.get i
    let goes := fun x : Condition =>
      reportRaw s i b = { s with tab := { s.tab with conds := Vector.putRow s.tab.conds i x } }
    let qualifies := fun x : Condition =>
      let t := { s.tab with conds := Vector.putRow s.tab.conds i x }
      let a := qualifiedChange t s.flow i b
      reportRaw s i b = { s with tab := t, flow := settle t a.2 a.1 }
    (c.raw = b → reportRaw s i b = s)
    ∧ (c.raw = false → b = true →
      (c.qual = .isFalse → c.rise.count ≠ 0 →
        goes { c with raw := true, qual := .rising, deadline := some (after s.tab.now c.rise) })
      ∧ (c.qual = .isFalse → c.rise.count = 0 → qualifies { c with raw := true, qual := .isTrue, deadline := none })
      ∧ (c.qual = .falling → goes { c with raw := true, qual := .isTrue, deadline := none }))
    ∧ (c.raw = true → b = false →
      (c.qual = .isTrue → c.fall.count ≠ 0 →
        goes { c with raw := false, qual := .falling, deadline := some (after s.tab.now c.fall) })
      ∧ (c.qual = .isTrue → c.fall.count = 0 → qualifies { c with raw := false, qual := .isFalse, deadline := none })
      ∧ (c.qual = .rising → goes { c with raw := false, qual := .isFalse, deadline := none }))
    ∧ ((reportRaw s i b).tab.conds.get i).raw = b)

/-- A raw change steps its condition as R26 gives for each state; a step with a time waits for its timer, one without a
time changes the qualified value at once. Outside RUNNING and STOPPING, or at an unchanged level, only the line moves. A
condition whose rise or fall timer reaches its deadline changes its qualified value (R26); before that, and in any other
state, nothing but time passes. -/
def Obligations.RawChangesAndTimers : Prop :=
  (∀ (l : CondLine) (b : Bool) (s : State),
      let i := lineCond l
      let c := s.tab.conds.get i
      let u : State := { s with lines := s.lines.put l b }
      let goes := fun x : Condition => exec (.rawChange l b) s = .next { u with
        tab := { s.tab with conds := Vector.putRow s.tab.conds i x } }
      let qualifies := fun x : Condition =>
        let t := { s.tab with conds := Vector.putRow s.tab.conds i x }
        exec (.rawChange l b) s = .next { u with tab := t, flow := settled t (qualifiedChange t s.flow i b) }
      (s.tab.active = false ∨ c.raw = b → exec (.rawChange l b) s = .next u)
      ∧ (s.tab.active = true → c.raw = false → b = true →
        (c.qual = .isFalse → c.rise.count ≠ 0 →
          goes { c with raw := true, qual := .rising, deadline := some (after s.tab.now c.rise) })
        ∧ (c.qual = .isFalse → c.rise.count = 0 → qualifies { c with raw := true, qual := .isTrue, deadline := none })
        ∧ (c.qual = .falling → goes { c with raw := true, qual := .isTrue, deadline := none }))
      ∧ (s.tab.active = true → c.raw = true → b = false →
        (c.qual = .isTrue → c.fall.count ≠ 0 →
          goes { c with raw := false, qual := .falling, deadline := some (after s.tab.now c.fall) })
        ∧ (c.qual = .isTrue → c.fall.count = 0 → qualifies { c with raw := false, qual := .isFalse, deadline := none })
        ∧ (c.qual = .rising → goes { c with raw := false, qual := .isFalse, deadline := none })))
  ∧ (∀ (i : CondIx) (dt : Nat) (s : State),
      let u := s.advance dt
      let c := s.tab.conds.get i
      let qualifies := fun (x : Condition) (b : Bool) =>
        let t := { u.tab with conds := Vector.putRow u.tab.conds i x }
        (Host.Outcome.next { u with tab := t, flow := settled t (qualifiedChange t u.flow i b) }
          : Host.Outcome State Fault Refusal)
      (s.tab.active = true → c.qual = .rising → expired u.tab.now c.deadline = true →
        exec (.riseTimerExpiry i dt) s = qualifies { c with qual := .isTrue, deadline := none } true)
      ∧ (s.tab.active = true → c.qual = .falling → expired u.tab.now c.deadline = true →
        exec (.fallTimerExpiry i dt) s = qualifies { c with qual := .isFalse, deadline := none } false)
      ∧ (s.tab.active = false ∨ c.qual ≠ .rising ∨ expired u.tab.now c.deadline = false →
        exec (.riseTimerExpiry i dt) s = .next u)
      ∧ (s.tab.active = false ∨ c.qual ≠ .falling ∨ expired u.tab.now c.deadline = false →
        exec (.fallTimerExpiry i dt) s = .next u))

/-- A qualified change halts every HELD claim whose guard set names a condition that became FALSE, and resumes every
HALTED claim whose guard set is now satisfied; it changes no other claim while no job waits for it, and sets CONDITION
(R33, R126). In general it does these things in this order, which is the model's choice (logs 31, 36): the claims change
in rising ECU number, each with CLAIM set and its event record (its class field: log 19); the heads held CONDITION, and
those held CLAIMED or CLOSING for a claim that moved, are listed for evaluation in one run (R93, R94); CONDITION is set
and the event record of the condition is offered (R180); and every job whose WAIT_CONDITION set is now satisfied gets
the verdict POSITIVE and finishes its step, in rising context number (R169). -/
def Obligations.ClaimsFollowConditions : Prop :=
  (∀ (i : CondIx) (dt : Nat) (s : State),
    let u := s.advance dt
    let c := s.tab.conds.get i
    s.tab.active = true → expired u.tab.now c.deadline = true → (∀ j, (s.flow.jobs.get j).state ≠ .waiting .condition) →
    (c.qual = .rising → ∃ t, exec (.riseTimerExpiry i dt) s = .next t ∧ t.flow.hasNews .condition = true
      ∧ t.tab.conds.get i = { c with qual := .isTrue, deadline := none }
      ∧ ∀ e, let x := s.flow.claims.get e
        t.flow.claims.get e =
          if x.state = .halted ∧ satisfied t.tab x.guard = true then { x with state := .held } else x)
    ∧ (c.qual = .falling → ∃ t, exec (.fallTimerExpiry i dt) s = .next t ∧ t.flow.hasNews .condition = true
      ∧ t.tab.conds.get i = { c with qual := .isFalse, deadline := none }
      ∧ ∀ e, let x := s.flow.claims.get e
        t.flow.claims.get e =
          if x.state = .held ∧ x.guard.getLsbD i.val = true then { x with state := .halted } else x))
  ∧ (∀ (t : Tables) (f : Flow) (i : CondIx) (value : Bool),
    let reports := fun (g : Flow) (e : EcuIx) (st : ClaimState) (ev : Byte) =>
      let c := g.claims.get e
      event t 0 { g.modClaim e (fun c => { c with state := st }) with news := g.news ||| 0x040 }
        { event := true, source := 5, slot := ixByte c.holder, subject := some (ixByte e)
          cls := some (if c.level = .adjust then 3 else 4), code := 0, grant := none, outcome := some ev, reason := none
          probe := none, stamp := none, length := 0, content := [] }
    let one := fun (g : Flow) (e : EcuIx) =>
      let c := g.claims.get e
      if value = false ∧ c.state = .held ∧ c.guard.getLsbD i.val = true then reports g e .halted 2
      else if value = true ∧ c.state = .halted ∧ satisfied t c.guard = true then reports g e .held 3
      else g
    let moved := (List.finRange 32).foldl one f
    let marked := moved.markHeads fun _ h => h.reason == .condition
      || (h.reason == .claimed || h.reason == .closing) && (match h.ecu with
        | none => false
        | some e => (moved.claims.get e).state != (f.claims.get e).state)
    let told := event t 0 { marked with news := marked.news ||| 0x020 }
      { event := true, source := 3, slot := 0, subject := some (ixByte i), cls := none, code := 0, grant := none
        outcome := some (if value then 1 else 0), reason := none, probe := none, stamp := none, length := 0
        content := [] }
    let met := (List.finRange 4).filter fun j =>
      (told.jobs.get j).state == .waiting .condition && satisfied t (told.jobs.get j).condSet
    qualifiedChange t f i value
      = (met.foldl (fun g j => g.modJob j fun b => { b with verdict := .positive }) told, met.map .stepDone))

/-! ### Grants, checks and the message store -/

/-- The charged grant is the lowest-numbered one that is ACTIVE, covers the request and has its conditions qualified TRUE
(R42, R43); without one the reason is CONDITION, SUSPENDED or NO_GRANT by the states of the covering grants (R44). The
claim check answers by the table of R123. -/
def Obligations.GrantAndClaimChecks : Prop :=
  (∀ (t : Tables) (gs : Vector Grant 64) (k : Slot) (e : EcuIx) (c : ServiceClass),
      let covers := fun i : GrantIx =>
        (gs.get i).slot = k ∧ (gs.get i).ecus.getLsbD e.val = true ∧ (gs.get i).classes.getLsbD c.num = true
        ∧ (c = .adjust → (gs.get i).level ≠ .noClaim) ∧ (c = .program → (gs.get i).level = .program)
      let eligible := fun i : GrantIx =>
        (gs.get i).state = .active ∧ covers i
        ∧ ∀ n : CondIx, (gs.get i).conds.getLsbD n.val = true → (t.conds.get n).qualified = true
      (∀ i, chargedGrant t gs k e c = some i ↔ eligible i ∧ ∀ j < i, ¬eligible j)
      ∧ (chargedGrant t gs k e c = none ↔ ∀ i, ¬eligible i)
      ∧ (grantReason gs k e c = some .condition ↔ ∃ i, (gs.get i).state = .active ∧ covers i)
      ∧ (grantReason gs k e c = some .suspended ↔
        (∀ i, ¬((gs.get i).state = .active ∧ covers i)) ∧ ∃ i, (gs.get i).state = .suspended ∧ covers i)
      ∧ (grantReason gs k e c = none ↔
        ∀ i, ¬((gs.get i).state = .active ∧ covers i) ∧ ¬((gs.get i).state = .suspended ∧ covers i)))
  ∧ (∀ (x : Claim) (k : Slot) (c : ServiceClass),
      (x.state = .free → claimCheck x k c = none)
      ∧ (x.state = .closing → claimCheck x k c = some .closing)
      ∧ (x.state = .held → x.holder = k → claimCheck x k c = none)
      ∧ (x.state = .halted → x.holder = k →
        claimCheck x k c = if c = .adjust ∨ c = .program then some .condition else none)
      ∧ (x.state = .held ∨ x.state = .halted → x.holder ≠ k →
        claimCheck x k c = if c = .adjust ∨ c = .program ∨ x.level = .program then some .claimed else none))

/-- The ten checks on a head in their order, and what the first that fails gives (R84 to R89): STOPPING, MALFORMED, BARRED,
NO_ECU and NO_GRANT refuse in both modes; SUSPENDED, CONDITION, CLAIMED and CLOSING refuse in REFUSE mode and hold in HOLD
mode; PAIR, OUTSTANDING, CAPTURE and PORT_QUEUE hold in both. A head that passes all ten is admitted under the charged
grant. Nothing changes before the decision but the capture writer, which may find itself blocked at step 9 (R182). -/
def Obligations.RefuseOrHold : Prop :=
  ∀ (s : State) (k : Slot) (m : InMsg),
    let t := s.tab
    let f := s.flow
    let c := classOf t m.msg.code
    let decides := fun d : Decision => evaluateHead s k m = (d, f)
    let byMode := fun (r : Reason) (h : HoldReason) (e : EcuIx) =>
      ((t.testers.get k).mode = .refuse → decides (.refuse r (some e) (some c)))
      ∧ ((t.testers.get k).mode = .hold → decides (.hold h e))
    (t.ctl ≠ .running → decides (.refuse .stopping none none))
    ∧ (t.ctl = .running → m.msg.malformed = true → decides (.refuse .malformed none none))
    ∧ (t.ctl = .running → m.msg.malformed = false →
      (c = .barred → decides (.refuse .barred none (some c)))
      ∧ (c ≠ .barred →
        (findEcu t m.target = none → decides (.refuse .noEcu none (some c)))
        ∧ (∀ e, findEcu t m.target = some e →
          (chargedGrant t s.grants k e c = none →
            (grantReason s.grants k e c = some .condition → byMode .condition .condition e)
            ∧ (grantReason s.grants k e c = some .suspended → byMode .suspended .suspended e)
            ∧ (grantReason s.grants k e c = none → decides (.refuse .noGrant (some e) (some c))))
          ∧ (∀ g, chargedGrant t s.grants k e c = some g →
            let check := claimCheck (f.claims.get e) k c
            (check = some .claimed → byMode .claimed .claimed e)
            ∧ (check = some .closing → byMode .closing .closing e)
            ∧ (check = some .condition → byMode .condition .condition e)
            ∧ (check = none →
              let pair := ∃ i x, f.entries.get i = some x ∧ x.slot = k ∧ x.ecu = e
              let full := (∀ i, (f.entries.get i).isSome) ∨ (t.testers.get k).limit ≤ f.liveEntries k
              let size := recordSize (requestRecord t k e c m.msg g none).content.length
              let room := if requestBinding t k e c = true then captureRoom t f size else (true, f)
              let queue := (f.vbs.get (t.ecus.get e).port).outbound
              (pair → decides (.hold .pair e))
              ∧ (¬pair → full → decides (.hold .outstanding e))
              ∧ (¬pair → ¬full → room.1 = false → evaluateHead s k m = (.hold .capture e, room.2))
              ∧ (¬pair → ¬full → room.1 = true → 16 ≤ queue.length →
                evaluateHead s k m = (.hold .portQueue e, room.2))
              ∧ (¬pair → ¬full → room.1 = true → queue.length < 16 →
                evaluateHead s k m = (.admits e c g, room.2)))))))

/-- A charge divides its cells over the slot-grade reserve, the slot reserve, the grade shared account and the common
shared account in this order, each up to its threshold; it is made whole when they add up and, with a sharing part, leaves
at least the unused reservation free, and otherwise not at all (R62, R63). -/
def Obligations.ChargeDivides : Prop :=
  ∀ (t : Tables) (f : Flow) (k : Slot) (g : Grade) (n : Nat),
    let room := fun a : AccountIx => t.thresholds.get a - f.usage.get a
    let a1 := acctSlotGrade k g
    let a2 := acctSlot k
    let a3 := acctGrade g
    let n1 := min n (room a1)
    let n2 := min (n - n1) (room a2)
    let n3 := min (n - n1 - n2) (room a3)
    let n4 := min (n - n1 - n2 - n3) (room acctCommon)
    let fits := n1 + n2 + n3 + n4 = n ∧ (0 < n3 + n4 → unusedReservation t f - (n1 + n2) + n ≤ f.free)
    (a1.val = 2 * k.val + (if g = .heavy then 1 else 0) ∧ a2.val = 32 + k.val
      ∧ a3.val = (if g = .heavy then 49 else 48) ∧ acctCommon.val = 50)
    ∧ (¬fits → charge t f k g n = none)
    ∧ (fits → ∃ u : Vector Nat 51,
      charge t f k g n = some ({ f with free := f.free - n, usage := u },
        { slot := k, grade := g, cells := n, slotGrade := n1, slotReserve := n2, gradeShared := n3, common := n4 })
      ∧ ∀ a, u.get a = f.usage.get a
        + (if a = a1 then n1 else if a = a2 then n2 else if a = a3 then n3 else if a = acctCommon then n4 else 0))

/-- A release returns exactly the recorded counts to the accounts of its slot and grade, raises the free count by the
number of cells, and is followed at once by the offer to the waiting list (R65). An offer tries the entries from the
oldest to the newest, each with what the earlier tries left: one whose charge is made leaves the list and its claimant
goes on, one whose charge fails stays in its place and the next is tried (R68); that all tries come before the first
claimant goes on is the model's reading (log 12). A free inbound place is offered to the oldest TB context of the slot
that waits for one, which charges its cells or goes on waiting for them, or to the relay channel stopped there, or to
the job that waits for it; with none waiting, or no place free, nothing happens (R79). What going on means: a context
that got its cells hands a SINGLE or an OPEN without segments over, or sends its first GRANT (R146, R149); the relay
channel appends the record it stands at and reads on (R203); a job appends its message (R165); one that waits no more
gives the cells back (R68). -/
def Obligations.ReleasesAndOffers : Prop :=
  (∀ (t : Tables) (f : Flow) (c : Charge), ∃ u : Vector Nat 51,
    (let a := offerCells t { f with free := f.free + c.cells, usage := u }
     act t (.release c) f = (a.1, a.2.map fun x => .charged x.1 x.2))
    ∧ ∀ a, u.get a = f.usage.get a
      - (if a = acctSlotGrade c.slot c.grade then c.slotGrade else if a = acctSlot c.slot then c.slotReserve
        else if a = acctGrade c.grade then c.gradeShared else if a = acctCommon then c.common else 0))
  ∧ (∀ (t : Tables) (f : Flow) (x : Waiter) (got : List (Claimant × Charge)),
    offerCells t f = f.waiting.foldl (tryWaiter t) (f, [])
    ∧ (charge t f x.slot x.grade x.cells = none → tryWaiter t (f, got) x = (f, got))
    ∧ (∀ g h, charge t f x.slot x.grade x.cells = some (g, h) → tryWaiter t (f, got) x =
      ({ g with waiting := f.waiting.filter fun w => w.who != x.who }, got ++ [(x.who, h)])))
  ∧ (∀ (t : Tables) (f : Flow) (k : Slot),
    let next := act t (.placeFreed k) f
    (f.inboundFree k = false → next = (f, []))
    ∧ (∀ c rest x, f.inboundFree k = true → (f.slots.get k).placeWait = c :: rest → f.ctx .tb c = some x →
      let left := f.modSlot k fun y => { y with placeWait := (f.slots.get k).placeWait.filter (· != c) }
      let grade := (classOf t x.code).grade
      let cells := if x.malformed then 1 else cellsFor x.length
      (∀ g h, charge t left k grade cells = some (g, h) →
        next = ctxCharged t (g.putCtx .tb c (some { x with place := true, wait := .noWait })) .tb c h)
      ∧ (charge t left k grade cells = none →
        next = ({ left.putCtx .tb c (some { x with place := true, wait := .cells }) with
          waiting := f.waiting ++ [{ who := .tbCtx c, slot := k, grade := grade, cells := cells, since := t.now }] }, [])))
    ∧ (f.inboundFree k = true → (f.slots.get k).placeWait = [] →
      (f.relayIn.stop = some { slot := k, wait := .place } → next = (f, [.relayTake]))
      ∧ (f.relayIn.stop ≠ some { slot := k, wait := .place } →
        (∀ j, jobOf f k = some j → (f.jobs.get j).state = .waiting .place → next = (f, [.jobAppend j]))
        ∧ ((∀ j, jobOf f k = some j → (f.jobs.get j).state ≠ .waiting .place) → next = (f, [])))))
  ∧ (∀ (t : Tables) (f : Flow) (p : PortId) (c : CtxIx) (h : Charge) (x : Ctx), f.ctx p c = some x →
    let next := act t (.charged (ctxClaimant p c) h) f
    let m : Message :=
      { charge := h, length := x.length, malformed := x.malformed, code := x.code
        payload := if x.malformed then [] else x.bytes.take x.length }
    let done := fun g : Flow => match x.owner with
      | .slot k => (g.modSlot k fun y => { y with inbound := y.inbound ++ [{ target := x.target, msg := m }] }, [])
      | .entry e => (g, [.response e m])
      | .close _ => (g, [Act.release h])
    (x.charge.isSome → next = (f, [.release h]))
    ∧ (x.charge = none →
      (x.single = true → next = done (freeContext f p c))
      ∧ (x.single = false → x.segments = 0 →
        next = done (pushControl t (freeContext f p c) p .nobody x.source x.target [0x32]))
      ∧ (x.single = false → x.segments ≠ 0 →
        let n := min (t.port p).window (x.segments - x.received)
        next = (pushControl t (f.putCtx p c (some { x with
          charge := some h, granted := n, timer := .gap (after t.now (t.port p).gap), wait := .noWait }))
          p (.context c) x.source x.target [0x30, BitVec.ofNat 8 n], []))))
  ∧ (∀ (t : Tables) (f : Flow) (p : PortId) (c : CtxIx) (h : Charge), f.ctx p c = none →
      act t (.charged (ctxClaimant p c) h) f = (f, [.release h]))
    ∧ (∀ (t : Tables) (f : Flow) (h : Charge),
      (∀ r st x, t.relayInRing = some r → f.relayIn.stop = some st → relayRecordAt r f = some x →
        act t (.charged .relay h) f = (relayAdvance r (f.modSlot st.slot fun y => { y with inbound := y.inbound ++
          [{ target := x.target, msg :=
            { charge := h, length := x.length, malformed := x.malformed, code := x.code, payload := x.payload } }] })
          x.length x.malformed, []))
      ∧ (f.relayIn.stop = none → act t (.charged .relay h) f = (f, [.release h])))
    ∧ (∀ (t : Tables) (f : Flow) (j : JobIx) (h : Charge),
      (∀ m, (f.jobs.get j).build = some m → m.charge = none →
        act t (.charged (.job j) h) f
          = act t (.jobAppend j) (f.modJob j fun b => { b with build := some { m with charge := some h } }))
      ∧ ((∀ m, (f.jobs.get j).build = some m → m.charge.isSome) → act t (.charged (.job j) h) f = (f, [.release h])))

/-! ### Frames received -/

/-- Each of the seven frames is ignored outside RUNNING and STOPPING, with bits 28:27 not 0, with another kind, on a VB
port when its target is neither the part's node address nor the vehicle-side address of a slot, and when its data bytes
make no frame (R140, R154, R216; an OPEN that is too short: log 15). The body is said for each first nibble: a SINGLE of
8 to 15 or with too few bytes, an OPEN with too few, a NEXT without bytes, a GRANT of 0, above 63 or without a count, a
sub-kind above 2, an ABORT without a reason, and nibbles 5 to 15 make no frame, nor does a frame without data. A SINGLE
of length 0 on a VB port is dropped (R153). A SINGLE, OPEN or NEXT on TB whose source is the TB address of no ATTACHED
BUS slot is counted and dropped (R150). -/
def Obligations.FramesIgnored : Prop :=
  (∀ (p : PortId) (f : Frame) (s : State) (c : Instr),
    c ∈ [.singleFrame p f, .openFrame p f, .nextFrame p f, .grantFrame p f, .stallFrame p f, .doneFrame p f,
      .abortFrame p f] →
    s.tab.ctl ≠ .running ∧ s.tab.ctl ≠ .stopping ∨ f.id.extractLsb' 27 2 ≠ 0
      ∨ f.id.extractLsb' 16 8 ≠ (s.tab.port p).kind
      ∨ (∃ v, p = .vb v ∧ f.id.extractLsb' 8 8 ≠ (s.tab.port p).node
        ∧ ∀ k, holdsAddr s.tab s.flow k = true → (s.tab.testers.get k).vsAddr ≠ f.id.extractLsb' 8 8)
      ∨ frBody f = none →
    exec c s = .next s)
  ∧ (∀ (f : Frame) (s : State), accepts s.tab s.flow .tb f = true →
    (∀ k, ¬((s.tab.testers.get k).attached = true ∧ (s.tab.testers.get k).kind = .bus
      ∧ (s.tab.testers.get k).tbAddr = frSource f)) →
    let counted := s.withFlow { s.flow with tbUnknown := s.flow.tbUnknown + 1 }
    (∀ n pay, frBody f = some (.single n pay) → exec (.singleFrame .tb f) s = .next counted)
    ∧ (∀ n pay, frBody f = some (.openMsg n pay) → exec (.openFrame .tb f) s = .next counted)
    ∧ (∀ i bs, frBody f = some (.next i bs) → exec (.nextFrame .tb f) s = .next counted))
  ∧ (∀ (id : BitVec 29) (b : Byte) (rest : List Byte),
    let lo := b.toNat % 16
    let hi := b.toNat / 16
    let body := frBody { id := id, data := b :: rest }
    let openLen := b.toNat % 8 * 256 + (rest.headD 0).toNat + 1
    (hi = 0 → body = if 8 ≤ lo ∨ rest.length < lo then none else some (.single lo (rest.take lo)))
    ∧ (hi = 1 → body = if rest.length < 1 + min 6 openLen then none
        else some (.openMsg openLen ((rest.drop 1).take (min 6 openLen))))
    ∧ (hi = 2 → body = if rest = [] then none else some (.next (BitVec.ofNat 4 lo) rest))
    ∧ (hi = 3 → body = if lo = 0 then (if rest = [] ∨ (rest.headD 0).toNat = 0 ∨ 63 < (rest.headD 0).toNat then none
          else some (.grant (rest.headD 0).toNat))
        else if lo = 1 then some .stall else if lo = 2 then some .done else none)
    ∧ (hi = 4 → body = if rest = [] then none else some .abort)
    ∧ (5 ≤ hi → body = none))
  ∧ (∀ id : BitVec 29, frBody { id := id, data := [] } = none)
  ∧ (∀ (v : VbIx) (f : Frame) (s : State) (pay : List Byte), frBody f = some (.single 0 pay) →
    exec (.singleFrame (.vb v) f) s = .next s)

/-- A SINGLE of an ATTACHED BUS slot that finds an inbound place and one cell is a request at the tail of the slot's
inbound queue; one of length 0 is a malformed message. An OPEN that finds room: without segments it is complete and
answered DONE; with segments it takes the lowest-numbered free context and is answered a GRANT of the window or the
segments, whichever is less, and the gap timer starts (R146, R150). A second first frame on the key of a context in use
drops that context, releases its cells, and seeks room for its message in the same context and place (R146); what
becomes of its due frames and of its turn in the place waiting order is the model's reading (log 14). -/
def Obligations.FirstFrameTakenIn : Prop :=
  (∀ (f : Frame) (s : State) (k : Slot) (n : Nat) (pay : List Byte) (g : Flow) (h : Charge),
      accepts s.tab s.flow .tb f = true → frBody f = some (.single n pay) → busSlot s.tab (frSource f) = some k →
      s.flow.findCtx .tb (frSource f) (frTarget f) = none → s.flow.inboundFree k = true →
      charge s.tab s.flow k (classOf s.tab (firstByte pay)).grade 1 = some (g, h) →
      exec (.singleFrame .tb f) s = .next (s.withFlow (g.modSlot k fun x => { x with inbound := x.inbound ++
        [{ target := frTarget f
           msg := { charge := h, length := n, malformed := n == 0, code := firstByte pay, payload := pay } }] })))
  ∧ (∀ (f : Frame) (s : State) (k : Slot) (n : Nat) (pay : List Byte) (c : CtxIx) (g : Flow) (h : Charge),
      accepts s.tab s.flow .tb f = true → frBody f = some (.openMsg n pay) → busSlot s.tab (frSource f) = some k →
      s.flow.findCtx .tb (frSource f) (frTarget f) = none → s.flow.freeCtx .tb = some c → s.flow.inboundFree k = true →
      charge s.tab s.flow k (classOf s.tab (firstByte pay)).grade (cellsFor n) = some (g, h) →
      (n ≤ 6 →
        exec (.openFrame .tb f) s = .next (s.withFlow
          ((pushControl s.tab g .tb .nobody (frSource f) (frTarget f) [0x32]).modSlot k fun x => { x with
            inbound := x.inbound ++
              [{ target := frTarget f
                 msg := { charge := h, length := n, malformed := false, code := firstByte pay, payload := pay } }] })))
      ∧ (6 < n →
        let segments := (n - 6 + 6) / 7
        let granted := min (s.tab.port .tb).window segments
        let x : Ctx :=
          { source := frSource f, target := frTarget f, owner := .slot k, hold := (s.tab.testers.get k).mode == .hold
            single := false, length := n, malformed := false, code := firstByte pay, segments, received := 0, index := 1
            granted, charge := some h, place := true, bytes := pay, stalls := 0
            timer := .gap (after s.tab.now (s.tab.port .tb).gap), wait := .noWait }
        exec (.openFrame .tb f) s = .next (s.withFlow
          (pushControl s.tab (g.putCtx .tb c (some x)) .tb (.context c) (frSource f) (frTarget f)
            [0x30, BitVec.ofNat 8 granted]))))
  ∧ (∀ (f : Frame) (s : State) (k : Slot) (n : Nat) (pay : List Byte) (single : Bool) (c : CtxIx) (x : Ctx),
      accepts s.tab s.flow .tb f = true → frBody f = some (if single then .single n pay else .openMsg n pay) →
      busSlot s.tab (frSource f) = some k → s.flow.findCtx .tb (frSource f) (frTarget f) = some c →
      s.flow.ctx .tb c = some x →
      let again : FirstFrame :=
        { source := frSource f, target := frTarget f, owner := .slot k, hold := (s.tab.testers.get k).mode == .hold
          single, length := n, malformed := n == 0, code := firstByte pay, bytes := pay, place := x.place }
      exec (if single then .singleFrame .tb f else .openFrame .tb f) s =
        .next ((s.withFlow (dropContext s.flow .tb c)).run
          ((match x.charge with
            | none => []
            | some h => [.release h]) ++ [.seek .tb (some c) again])))

/-- A first frame on TB that finds no place or no cells, or an OPEN that finds no context. With all contexts in use an
OPEN is answered ABORT BUSY. In REFUSE mode ABORT NO_ROOM answers it and nothing is kept; either ABORT stands with the
contexts' frames (the model's choice, log 14). In HOLD mode it takes a free context, waits for the place or for the
cells, and sends its first STALL; with a stall limit of 0 the context is abandoned at once with ABORT NO_ROOM (R145,
R146, R149, R150). -/
def Obligations.NoRoomOnTb : Prop :=
  ∀ (f : Frame) (s : State) (k : Slot) (n : Nat) (pay : List Byte) (single : Bool),
    accepts s.tab s.flow .tb f = true →
    frBody f = some (if single then .single n pay else .openMsg n pay) → busSlot s.tab (frSource f) = some k →
    s.flow.findCtx .tb (frSource f) (frTarget f) = none →
    let cmd : Instr := if single then .singleFrame .tb f else .openFrame .tb f
    let grade := (classOf s.tab (firstByte pay)).grade
    let cells := if n = 0 then 1 else cellsFor n
    let answer := fun (d : List Byte) => exec cmd s = .next (s.withFlow
      (pushControl s.tab s.flow .tb .nobody (frSource f) (frTarget f) d))
    let noRoom := s.flow.inboundFree k = false ∨ charge s.tab s.flow k grade cells = none
    let mode := (s.tab.testers.get k).mode
    (single = false → s.flow.freeCtx .tb = none → answer [0x40, 5])
    ∧ (noRoom → mode = .refuse → single = true ∨ s.flow.freeCtx .tb ≠ none → answer [0x40, 1])
    ∧ (noRoom → mode = .hold → single = true → s.flow.freeCtx .tb = none → answer [0x40, 1])
    ∧ (∀ c, noRoom → mode = .hold → s.flow.freeCtx .tb = some c →
      let place := s.flow.inboundFree k
      let x : Ctx :=
        { source := frSource f, target := frTarget f, owner := .slot k, hold := true, single := single, length := n
          malformed := n == 0, code := firstByte pay
          segments := if single then 0 else (n - 6 + 6) / 7, received := 0, index := 1, granted := 0, charge := none
          place := place, bytes := pay, stalls := 0, timer := .noTimer, wait := if place then .cells else .place }
      let waits := fun x : Ctx =>
        (if place then
            { s.flow with waiting := s.flow.waiting ++
              [{ who := .tbCtx c, slot := k, grade := grade, cells := cells, since := s.tab.now }] }
          else s.flow.modSlot k fun y => { y with placeWait := y.placeWait ++ [c] }).putCtx .tb c (some x)
      (0 < (s.tab.port .tb).stallLimit →
        exec cmd s = .next (s.withFlow (pushControl s.tab
          (waits { x with stalls := 1, timer := .stall (after s.tab.now (s.tab.port .tb).stallInterval) })
          .tb (.context c) (frSource f) (frTarget f) [0x31])))
      ∧ ((s.tab.port .tb).stallLimit = 0 →
        let seek : Act := .seek .tb (if single then none else some c)
          { source := frSource f, target := frTarget f, owner := .slot k, hold := true, single, length := n
            malformed := n == 0, code := firstByte pay, bytes := pay, place := false }
        exec cmd s = .next (s.run [seek])
        ∧ act s.tab seek s.flow
          = abandonCtx (pushControl s.tab (waits x) .tb .nobody (frSource f) (frTarget f) [0x40, 1]) .tb c true))

/-- A first frame on a VB port that no entry can take is a stray: an OPEN is answered ABORT NOT_EXPECTED, which stands
with the contexts' frames (the model's choice, log 14), and a SINGLE dropped; the ECU found by the source, if any,
counts it (R104, R105). One to the part's node address is a stray unless a closing of its source's ECU awaits its answer
(R132, R153). -/
def Obligations.StraysOnVb : Prop :=
  ∀ (v : VbIx) (f : Frame) (s : State) (n : Nat) (pay : List Byte) (single : Bool),
    accepts s.tab s.flow (.vb v) f = true → 0 < n →
    frBody f = some (if single then .single n pay else .openMsg n pay) →
    let cmd : Instr := if single then .singleFrame (.vb v) f else .openFrame (.vb v) f
    let answered := fun g : Flow =>
      if single then g else pushControl s.tab g (.vb v) .nobody (frSource f) (frTarget f) [0x40, 2]
    (portEcu s.tab v (frSource f) = none → exec cmd s = .next (s.withFlow (answered s.flow)))
    ∧ (∀ e, portEcu s.tab v (frSource f) = some e →
      (frTarget f ≠ (s.tab.port (.vb v)).node ∧
          (∀ i, matchEntry s.tab s.flow e (frTarget f) = some i →
            ∀ x, s.flow.entries.get i = some x → x.state.takes = false)
        ∨ frTarget f = (s.tab.port (.vb v)).node
          ∧ ¬((s.flow.claims.get e).state = .closing ∧ (s.flow.claims.get e).phase = some .awaiting)) →
      exec cmd s = .next (s.withFlow
        (answered (s.flow.countEcu e fun c => { c with strays := c.strays + 1 }))))

/-- The answer of an ECU to a forwarded request. In one SINGLE, with room, with no reassembly in progress, no probe and
no JOB slot, it is charged to the slot and grade of the request, counted, and placed as a RESPONSE item in the slot's
delivery queue; the entry ends and the hold-off of the slot's claim restarts (R104, R107, R109, R110, R114, R125). In
general, a first frame of an entry takes it into RECEIVING, an ORPHANED one too, restarts the context of its key (its
due frames: log 14) and seeks room; an OPEN without a free context is answered ABORT BUSY (R104, R107, R146, R153). With
room a SINGLE, or an OPEN without segments, is a complete response; an OPEN with segments is granted in its context;
without room a first frame waits with STALL, or is answered ABORT NO_ROOM and gives the response up (R146, R149, R153).
A complete response goes to DELIVERING; one that is given up for want of cells ends the entry OVERFLOW, otherwise
TIMEOUT; an ORPHANED entry ends, its response released first (R109; that order is the model's choice, log 34). An entry
in DELIVERING ends and places its response once a binding record is written, or after the offer of another (R110, R177,
R179); that the end comes before the item is placed is the model's choice (log 36). -/
def Obligations.ResponseReachesTester : Prop :=
  (∀ (v : VbIx) (f : Frame) (s : State) (n : Nat) (pay : List Byte) (e : EcuIx) (i : EntryIx) (x : Entry) (g : Flow)
      (h : Charge),
    accepts s.tab s.flow (.vb v) f = true → frBody f = some (.single n pay) → 0 < n →
    frTarget f ≠ (s.tab.port (.vb v)).node → portEcu s.tab v (frSource f) = some e →
    matchEntry s.tab s.flow e (frTarget f) = some i → s.flow.entries.get i = some x →
    x.state = .awaiting ∨ x.state = .receiving → (s.tab.ecus.get e).interimMarker ≠ some (firstByte pay) →
    s.flow.findCtx (.vb v) (frSource f) (frTarget f) = none →
    x.binding = false → governing s.tab .response x.slot (some x.ecu) (some x.cls) = none →
    (s.tab.testers.get x.slot).kind ≠ .job →
    let taken := s.flow.modEntry i fun y => { y with state := .receiving, deadline := none }
    charge s.tab taken x.slot x.cls.grade 1 = some (g, h) →
    let m : Message := { charge := h, length := n, malformed := false, code := firstByte pay, payload := pay }
    let counted := g.countEcu x.ecu fun c => { c with responses := c.responses + 1 }
    let ended := entryEnd s.tab (refreshClaim s.tab (toDelivering counted i (.response m)) x.slot x.ecu) i
    exec (.singleFrame (.vb v) f) s = .next (s.withFlow { ended.modSlot x.slot (fun y => { y with
        items := y.items ++
          [{ body := .response m, source := (s.tab.ecus.get x.ecu).node, ecu := some x.ecu, order := ended.placed }] })
      with placed := ended.placed + 1 }))
  ∧ (∀ (v : VbIx) (f : Frame) (s : State) (n : Nat) (pay : List Byte) (single : Bool) (e : EcuIx) (i : EntryIx)
      (x : Entry),
    accepts s.tab s.flow (.vb v) f = true → 0 < n →
    frBody f = some (if single then .single n pay else .openMsg n pay) →
    frTarget f ≠ (s.tab.port (.vb v)).node → portEcu s.tab v (frSource f) = some e →
    matchEntry s.tab s.flow e (frTarget f) = some i → s.flow.entries.get i = some x → x.state.takes = true →
    (single = true → (s.tab.ecus.get e).interimMarker ≠ some (firstByte pay)) →
    let cmd : Instr := if single then .singleFrame (.vb v) f else .openFrame (.vb v) f
    let fr : FirstFrame :=
      { source := frSource f, target := frTarget f, owner := .entry i, hold := true, single, length := n
        malformed := false, code := firstByte pay, bytes := pay, place := false }
    let taken := s.flow.modEntry i fun y => { y with
      state := if x.state.isOrphan then .orphaned .receiving else .receiving, deadline := none }
    let free := s.flow.freeCtx (.vb v)
    (s.flow.findCtx (.vb v) (frSource f) (frTarget f) = none →
      (single = false → free = none → exec cmd s = .next (s.withFlow
        (pushControl s.tab s.flow (.vb v) .nobody (frSource f) (frTarget f) [0x40, 5])))
      ∧ (single = true ∨ free ≠ none →
        exec cmd s = .next ((s.withFlow taken).run [.seek (.vb v) (if single then none else free) fr])))
    ∧ (∀ c y, s.flow.findCtx (.vb v) (frSource f) (frTarget f) = some c → s.flow.ctx (.vb v) c = some y →
      let freed : List Act := match y.charge with
        | none => []
        | some h => [.release h]
      exec cmd s = .next ((s.withFlow (dropContext taken (.vb v) c)).run
        (freed ++ [.seek (.vb v) (some c) { fr with place := y.place }]))))
  ∧ (∀ (t : Tables) (f : Flow) (v : VbIx) (i : Option CtxIx) (fr : FirstFrame) (e : EntryIx) (x : Entry),
    fr.owner = .entry e → f.entries.get e = some x → fr.malformed = false →
    let cells := cellsFor fr.length
    let next := act t (.seek (.vb v) i fr) f
    let answer := fun (g : Flow) (o : FrameOwner) (d : List Byte) => pushControl t g (.vb v) o fr.source fr.target d
    let free := match i with
      | none => f.freeCtx (.vb v)
      | some c => if f.ctx (.vb v) c = none then some c else none
    (∀ g h, charge t f x.slot x.cls.grade cells = some (g, h) →
      let m : Message :=
        { charge := h, length := fr.length, malformed := false, code := fr.code, payload := fr.bytes.take fr.length }
      (fr.single = true → next = (g, [.response e m]))
      ∧ (fr.single = false → fr.length ≤ 6 → next = (answer g .nobody [0x32], [.response e m]))
      ∧ (∀ c, fr.single = false → 6 < fr.length → free = some c →
        let granted := min (t.port (.vb v)).window ((fr.length - 6 + 6) / 7)
        next = (answer (g.putCtx (.vb v) c (some { fr.ctx with
          granted, charge := some h, timer := .gap (after t.now (t.port (.vb v)).gap) }))
          (.context c) [0x30, BitVec.ofNat 8 granted], [])))
    ∧ (charge t f x.slot x.cls.grade cells = none →
      (free = none → next = (answer f .nobody [0x40, 1], [.abandoned e true]))
      ∧ (∀ c, free = some c →
        let listed : Flow := { f with waiting := f.waiting ++
          [{ who := .vbCtx v c, slot := x.slot, grade := x.cls.grade, cells := cells, since := t.now }] }
        let waits := fun y : Ctx => listed.putCtx (.vb v) c (some { y with wait := .cells })
        (0 < (t.port (.vb v)).stallLimit → next = (answer (waits { fr.ctx with
          stalls := 1, timer := .stall (after t.now (t.port (.vb v)).stallInterval) }) (.context c) [0x31], []))
        ∧ ((t.port (.vb v)).stallLimit = 0 →
          next = abandonCtx (answer (waits fr.ctx) .nobody [0x40, 1]) (.vb v) c true))))
  ∧ (∀ (t : Tables) (f : Flow) (e : EntryIx) (x : Entry) (m : Message), f.entries.get e = some x →
    let counted := f.countEcu x.ecu fun c => { c with responses := c.responses + 1 }
    let timed := f.countEcu x.ecu fun c => { c with timeouts := c.timeouts + 1 }
    (x.state = .receiving →
      act t (.response e m) f = ({ counted.modEntry e (fun y => { y with
          state := .delivering, deadline := none, held := some (.response m) }) with
        delivering := f.delivering ++ [e] }, [.deliver e])
      ∧ act t (.abandoned e true) f = (counted, [.refuseEntry e .overflow])
      ∧ act t (.abandoned e false) f = (timed, [.refuseEntry e .timeout]))
    ∧ (x.state.isOrphan = true →
      act t (.response e m) f = (counted, [.release m.charge, .orphanEnds e])
      ∧ act t (.orphanEnds e) f = (entryEnd t f e, [])
      ∧ act t (.abandoned e true) f = (entryEnd t f e, [])
      ∧ act t (.abandoned e false) f = (entryEnd t timed e, [])))
  ∧ (∀ (t : Tables) (f : Flow) (e : EntryIx) (x : Entry) (m : Message), f.entries.get e = some x →
    x.state = .delivering → x.held = some (.response m) →
    let probe := governing t .response x.slot (some x.ecu) (some x.cls)
    let record : CaptureRecord :=
      { event := false, source := 1, slot := ixByte x.slot, subject := some (ixByte x.ecu), cls := some x.cls.byte
        code := x.code, grant := some (ixByte x.grant), outcome := none, reason := none, probe := probe.map ixByte
        stamp := none, length := m.length
        content := match probe with
          | none => []
          | some p => m.payload.take (min (t.probes.get p).limit t.contentCap) }
    let places := fun g : Flow => (entryEnd t (refreshClaim t g x.slot x.ecu) e,
      [Act.placeItem x.slot (.response m) (t.ecus.get x.ecu).node (some x.ecu) (.entry x.ecu)])
    (x.binding = false →
      (probe = none → act t (.deliver e) f = places f)
      ∧ (probe ≠ none → act t (.deliver e) f = places (captureOffer t f record)))
    ∧ (x.binding = true →
      let a := captureBinding t f record
      (a.1 = true → act t (.deliver e) f = places a.2) ∧ (a.1 = false → act t (.deliver e) f = (a.2, []))))
  ∧ (∀ (t : Tables) (f : Flow) (k : Slot) (e : EcuIx),
    let c := f.claims.get e
    let holds := (c.state = .held ∨ c.state = .halted) ∧ c.holder = k
    (holds → refreshClaim t f k e = f.modClaim e fun c =>
      { c with holdOff := some (after t.now (t.ecus.get e).holdOff) })
    ∧ (¬holds → refreshClaim t f k e = f))

/-- Two answers that are no response. A SINGLE whose first byte is the ECU's interim marker, for an entry in AWAITING or
RECEIVING, ORPHANED or not: a reassembly in progress is given up, its context free and its cells released first (R104);
the interim count rises; up to the limit the deadline is one long timeout ahead, the entry awaits again and, with
interim forward and a free delivery place, a copy is placed; past the limit the entry ends TIMEOUT (R106). That the
count goes from 255 to 256 under a limit of 255 is the model's choice (log 32). A SINGLE or OPEN to the part's node
address while a closing awaits it ends the closing ANSWERED with its first byte as answer (R132, R133); a live context
of its key is given up, its cells released. The rest of an OPEN is answered and not stored (R153): DONE when it has no
segment, the first GRANT in a free context, ABORT BUSY without one. That the context is given up after the closing ends,
and that its place serves the OPEN, are the model's reading (logs 14, 36). -/
def Obligations.InterimAndCloseAnswers : Prop :=
  (∀ (v : VbIx) (f : Frame) (s : State) (n : Nat) (pay : List Byte) (e : EcuIx) (i : EntryIx) (x : Entry),
    accepts s.tab s.flow (.vb v) f = true → frBody f = some (.single n pay) → 0 < n →
    frTarget f ≠ (s.tab.port (.vb v)).node → portEcu s.tab v (frSource f) = some e →
    matchEntry s.tab s.flow e (frTarget f) = some i → s.flow.entries.get i = some x → x.state.takes = true →
    (s.tab.ecus.get x.ecu).interimMarker = some (firstByte pay) → x.ecu = e →
    let ecu := s.tab.ecus.get x.ecu
    let old := s.flow.findCtx (.vb v) (frSource f) (frTarget f)
    let freed : List Act := match old.bind fun c => (s.flow.ctx (.vb v) c).bind (·.charge) with
      | none => []
      | some h => [.release h]
    let gone := match old with
      | none => s.flow
      | some c => freeContext s.flow (.vb v) c
    let counted := gone.modEntry i fun y => { y with interims := x.interims + 1 }
    (ecu.interimLimit < x.interims + 1 →
      exec (.singleFrame (.vb v) f) s = .next ((s.withFlow
        (counted.countEcu x.ecu fun c => { c with timeouts := c.timeouts + 1 })).run
          (freed ++ [.refuseEntry i .timeout])))
    ∧ (x.interims + 1 ≤ ecu.interimLimit →
      let waits := counted.modEntry i fun y =>
        { y with state := if x.state.isOrphan then .orphaned .awaiting else .awaiting
                 deadline := some (after s.tab.now ecu.longTimeout) }
      exec (.singleFrame (.vb v) f) s = .next ((s.withFlow waits).run (freed ++ [.interim i pay]))))
  ∧ (∀ (t : Tables) (f : Flow) (i : EntryIx) (x : Entry) (pay : List Byte), f.entries.get i = some x →
    act t (.interim i pay) f = (f,
      if x.state.isOrphan = false ∧ (t.ecus.get x.ecu).interimFwd = true ∧ f.deliveryFree x.slot = true then
        [.placeItem x.slot (.interim pay) (t.ecus.get x.ecu).node (some x.ecu) (.entry x.ecu)] else []))
  ∧ (∀ (v : VbIx) (f : Frame) (s : State) (n : Nat) (pay : List Byte) (e : EcuIx),
    accepts s.tab s.flow (.vb v) f = true → frBody f = some (.single n pay) → 0 < n →
    frTarget f = (s.tab.port (.vb v)).node → portEcu s.tab v (frSource f) = some e →
    (s.flow.claims.get e).state = .closing → (s.flow.claims.get e).phase = some .awaiting →
    s.flow.findCtx (.vb v) (frSource f) (frTarget f) = none →
    exec (.singleFrame (.vb v) f) s
      = .next (s.withFlow (closeEnd s.tab 0 s.flow e .answered (some (firstByte pay)))))
  ∧ (∀ (v : VbIx) (f : Frame) (s : State) (n : Nat) (pay : List Byte) (single : Bool) (e : EcuIx),
    accepts s.tab s.flow (.vb v) f = true → 0 < n →
    frBody f = some (if single then .single n pay else .openMsg n pay) →
    frTarget f = (s.tab.port (.vb v)).node → portEcu s.tab v (frSource f) = some e →
    (s.flow.claims.get e).state = .closing → (s.flow.claims.get e).phase = some .awaiting →
    let cmd : Instr := if single then .singleFrame (.vb v) f else .openFrame (.vb v) f
    let ended := closeEnd s.tab 0 s.flow e .answered (some (firstByte pay))
    let free := s.flow.freeCtx (.vb v)
    let fr : FirstFrame :=
      { source := frSource f, target := frTarget f, owner := .close e, hold := true, single, length := n
        malformed := false, code := firstByte pay, bytes := pay, place := false }
    (s.flow.findCtx (.vb v) (frSource f) (frTarget f) = none →
      (single = true → exec cmd s = .next (s.withFlow ended))
      ∧ (single = false → free = none → exec cmd s = .next (s.withFlow
        (pushControl s.tab ended (.vb v) .nobody (frSource f) (frTarget f) [0x40, 5])))
      ∧ (single = false → free ≠ none → exec cmd s = .next ((s.withFlow ended).run [.seek (.vb v) free fr])))
    ∧ (∀ c x, s.flow.findCtx (.vb v) (frSource f) (frTarget f) = some c → s.flow.ctx (.vb v) c = some x →
      let freed : List Act := match x.charge with
        | none => []
        | some h => [.release h]
      exec cmd s = .next ((s.withFlow (dropContext ended (.vb v) c)).run
        (freed ++ [.seek (.vb v) (some c) { fr with place := x.place }]))))
  ∧ (∀ (t : Tables) (f : Flow) (v : VbIx) (i : Option CtxIx) (fr : FirstFrame) (e : EcuIx), fr.owner = .close e →
    let next := act t (.seek (.vb v) i fr) f
    let answer := fun (g : Flow) (o : FrameOwner) (d : List Byte) => pushControl t g (.vb v) o fr.source fr.target d
    let free := match i with
      | none => f.freeCtx (.vb v)
      | some c => if f.ctx (.vb v) c = none then some c else none
    (fr.single = true → next = (f, []))
    ∧ (fr.single = false → fr.length ≤ 6 → next = (answer f .nobody [0x32], []))
    ∧ (fr.single = false → 6 < fr.length →
      (free = none → next = (answer f .nobody [0x40, 5], []))
      ∧ ∀ c, free = some c →
        let granted := min (t.port (.vb v)).window ((fr.length - 6 + 6) / 7)
        next = (answer (f.putCtx (.vb v) c (some { fr.ctx with
          granted, timer := .gap (after t.now (t.port (.vb v)).gap) })) (.context c) [0x30, BitVec.ofNat 8 granted], [])))

/-- A NEXT for a context (R147, R216): one without a context or shorter than its segment is dropped; one that is not
granted or not the next index is answered ABORT SEQUENCE and abandons the context, when it carries the remainder with
the last segment's index, else 7 bytes (R140; none for a message without segments, and 7 for an index of no segment, is
the model's choice, log 15); a granted one in order is stored, the last of the run is answered a new GRANT, and the last
of the message is answered DONE and completes it; the answer to a close message is not stored (R132). -/
def Obligations.NextTaken : Prop :=
  ∀ (p : PortId) (f : Frame) (s : State) (index : BitVec 4) (bytes : List Byte),
    accepts s.tab s.flow p f = true → frBody f = some (.next index bytes) →
    (p = .tb → (busSlot s.tab (frSource f)).isSome) →
    (s.flow.findCtx p (frSource f) (frTarget f) = none → exec (.nextFrame p f) s = .next s)
    ∧ (∀ c x, s.flow.findCtx p (frSource f) (frTarget f) = some c → s.flow.ctx p c = some x →
      let size := min 7 (x.length - 6 - 7 * x.received)
      let inOrder := x.wait = .noWait ∧ 0 < x.granted ∧ x.index = index
      let y : Ctx := { x with
        received := x.received + 1, granted := x.granted - 1, index := x.index + 1
        bytes := match x.owner with
          | .close _ => x.bytes
          | _ => x.bytes ++ bytes.take size }
      let called := if x.segments = 0 then 0
        else if index = BitVec.ofNat 4 x.segments then x.length - 6 - 7 * (x.segments - 1) else 7
      (inOrder → bytes.length < size → exec (.nextFrame p f) s = .next s)
      ∧ (¬inOrder → bytes.length < called → exec (.nextFrame p f) s = .next s)
      ∧ (¬inOrder → called ≤ bytes.length →
        let a := abandonCtx (pushControl s.tab s.flow p .nobody x.source x.target [0x40, 3]) p c false
        exec (.nextFrame p f) s = .next ((s.withFlow a.1).run a.2))
      ∧ (size ≤ bytes.length → inOrder → x.received + 1 < x.segments → 1 < x.granted →
        exec (.nextFrame p f) s = .next (s.withFlow (s.flow.putCtx p c (some y))))
      ∧ (size ≤ bytes.length → inOrder → x.received + 1 < x.segments → x.granted = 1 →
        let n := min (s.tab.port p).window (x.segments - (x.received + 1))
        exec (.nextFrame p f) s = .next (s.withFlow (pushControl s.tab
          (s.flow.putCtx p c (some { y with granted := n, timer := .gap (after s.tab.now (s.tab.port p).gap) }))
          p (.context c) x.source x.target [0x30, BitVec.ofNat 8 n])))
      ∧ (∀ k h, size ≤ bytes.length → inOrder → x.segments ≤ x.received + 1 → x.owner = .slot k → x.charge = some h →
        x.malformed = false →
        exec (.nextFrame p f) s = .next (s.withFlow
          ((pushControl s.tab (freeContext s.flow p c) p .nobody x.source x.target [0x32]).modSlot k fun z => { z with
            inbound := z.inbound ++
              [{ target := x.target
                 msg := { charge := h, length := x.length, malformed := false, code := x.code
                          payload := y.bytes.take x.length } }] })))
      ∧ (∀ e h, size ≤ bytes.length → inOrder → x.segments ≤ x.received + 1 → x.owner = .entry e → x.charge = some h →
        x.malformed = false →
        exec (.nextFrame p f) s = .next ((s.withFlow
          (pushControl s.tab (freeContext s.flow p c) p .nobody x.source x.target [0x32])).run
            [.response e { charge := h, length := x.length, malformed := false, code := x.code
                           payload := y.bytes.take x.length }]))
      ∧ (∀ e, size ≤ bytes.length → inOrder → x.segments ≤ x.received + 1 → x.owner = .close e → x.charge = none →
        exec (.nextFrame p f) s = .next (s.withFlow
          (pushControl s.tab (freeContext s.flow p c) p .nobody x.source x.target [0x32]))))

/-- CREDIT frames for the transmitter's transfer, addresses swapped (R140, R143, R144). In WAIT_CREDIT a GRANT starts a
run of the granted frames, at most those that remain, and clears the STALL count; a STALL restarts the wait until the
stall limit is reached, when the transfer fails. A DONE ends the transfer in WAIT_DONE. In every other phase, and for
another transfer, they are ignored. An ABORT from the receiver of the transmitter's transfer fails the transfer, one
from the sender of a context's transfer abandons the context, one that matches both does both (the context goes before
the transfer's cells are released: the model's choice, log 36), and one that matches neither is ignored (R144, R148,
R150). -/
def Obligations.CreditAndAbortFrames : Prop :=
  (∀ (p : PortId) (f : Frame) (s : State), accepts s.tab s.flow p f = true →
      (∀ n, frBody f = some (.grant n) →
        ((∀ x, creditFor s.flow p f = some x → x.phase ≠ .waitCredit) → exec (.grantFrame p f) s = .next s)
        ∧ (∀ x, creditFor s.flow p f = some x → x.phase = .waitCredit →
          exec (.grantFrame p f) s = .next (s.withFlow (pushNext s.tab (modTx s.flow p fun y =>
            { y with phase := .run, granted := min n (x.segments - x.sent), stalls := 0, deadline := none }) p))))
      ∧ (frBody f = some .stall →
        ((∀ x, creditFor s.flow p f = some x → x.phase ≠ .waitCredit) → exec (.stallFrame p f) s = .next s)
        ∧ (∀ x, creditFor s.flow p f = some x → x.phase = .waitCredit →
          (x.stalls < (s.tab.port p).stallLimit →
            exec (.stallFrame p f) s = .next (s.withFlow (modTx s.flow p fun y =>
              { y with stalls := x.stalls + 1, deadline := some (after s.tab.now (s.tab.port p).creditWait) })))
          ∧ ((s.tab.port p).stallLimit ≤ x.stalls →
            let a := transferTimeout s.tab s.flow p
            exec (.stallFrame p f) s = .next ((s.withFlow a.1).run a.2))))
      ∧ (frBody f = some .done →
        ((∀ x, creditFor s.flow p f = some x → x.phase ≠ .waitDone) → exec (.doneFrame p f) s = .next s)
        ∧ (∀ x, creditFor s.flow p f = some x → x.phase = .waitDone →
          let a := transferEnd s.tab s.flow p true
          exec (.doneFrame p f) s = .next ((s.withFlow a.1).run a.2))))
  ∧ (∀ (p : PortId) (f : Frame) (s : State), accepts s.tab s.flow p f = true → frBody f = some .abort →
      (creditFor s.flow p f = none → s.flow.findCtx p (frSource f) (frTarget f) = none →
        exec (.abortFrame p f) s = .next s)
      ∧ (∀ c, creditFor s.flow p f = none → s.flow.findCtx p (frSource f) (frTarget f) = some c →
        let a := abandonCtx s.flow p c false
        exec (.abortFrame p f) s = .next ((s.withFlow a.1).run a.2))
      ∧ (∀ x, creditFor s.flow p f = some x →
        let a := transferEnd s.tab s.flow p false
        (a.1.findCtx p (frSource f) (frTarget f) = none → exec (.abortFrame p f) s = .next ((s.withFlow a.1).run a.2))
        ∧ (∀ c, a.1.findCtx p (frSource f) (frTarget f) = some c →
          let b := abandonCtx a.1 p c false
          exec (.abortFrame p f) s = .next ((s.withFlow b.1).run (a.2 ++ b.2)))))

/-- What the part puts on the bus is read back as the frame it means: a SINGLE of 1 to 7 bytes, an OPEN of 8 to 2,048
with its first six bytes, a GRANT of 1 to 63, STALL, DONE and every ABORT, under the port's kind and priority and the
two addresses. The data bytes of each are said one by one, with the five abort reasons (R140, R141, R216). -/
def Obligations.FramesSentAreRead : Prop :=
  (∀ (id : BitVec 29) (pay : List Byte), 1 ≤ pay.length → pay.length ≤ 7 →
    frBody { id := id, data := singleData pay } = some (.single pay.length pay))
  ∧ (∀ (id : BitVec 29) (pay : List Byte), 8 ≤ pay.length → pay.length ≤ 2048 →
    frBody { id := id, data := openData pay } = some (.openMsg pay.length (pay.take 6)))
  ∧ (∀ (id : BitVec 29) (pay : List Byte) (k : Nat), 6 + 7 * k < pay.length →
    frBody { id := id, data := nextData pay k }
      = some (.next (BitVec.ofNat 4 (k + 1)) ((pay.drop (6 + 7 * k)).take 7)))
  ∧ (∀ (id : BitVec 29) (n : Nat), 1 ≤ n → n ≤ 63 → frBody { id := id, data := grantData n } = some (.grant n))
  ∧ (∀ id : BitVec 29, frBody { id := id, data := stallData } = some .stall
      ∧ frBody { id := id, data := doneData } = some .done
      ∧ ∀ r : AbortReason, frBody { id := id, data := abortData r } = some .abort)
  ∧ (∀ (ps : PortSettings) (target source : Byte) (d : List Byte),
    let f : Frame := { id := frameId ps target source, data := d }
    frHigh f = 0 ∧ frKind f = ps.kind ∧ frTarget f = target ∧ frSource f = source
      ∧ f.id.extractLsb' 24 3 = ps.priority)
  ∧ (∀ pay : List Byte, singleData pay = BitVec.ofNat 8 pay.length :: pay)
  ∧ (∀ pay : List Byte, 8 ≤ pay.length → pay.length ≤ 2048 → openData pay = BitVec.ofNat 8 (16 + (pay.length - 1) / 256)
    :: BitVec.ofNat 8 ((pay.length - 1) % 256) :: pay.take 6)
  ∧ (∀ (pay : List Byte) (k : Nat), nextData pay k = BitVec.ofNat 8 (32 + (k + 1) % 16) :: (pay.drop (6 + 7 * k)).take 7)
  ∧ (∀ n, grantData n = [0x30, BitVec.ofNat 8 n]) ∧ stallData = [0x31] ∧ doneData = [0x32]
  ∧ [AbortReason.noRoom, .notExpected, .sequence, .timeout, .busy].map abortData
    = [[0x40, 1], [0x40, 2], [0x40, 3], [0x40, 4], [0x40, 5]]

/-! ### Frames sent, port timers, transfers -/

/-- A frame was sent (R142, R143). A frame of the transmitter moves its transfer on: a SINGLE ends it, an OPEN waits for
credit, a granted NEXT is followed by the next one, by a wait for credit, or, the last of the message, by a wait for
DONE. Then, in each case, the next due frame may start. A frame still unsent when the credit-wait timeout has passed
since it became due is withdrawn: one of the transmitter fails its transfer, a GRANT or STALL abandons its context, and
a DONE or ABORT has no further effect (R142); which frame is picked is settled once the elapsed time has let one start
(the model's reading, log 14). A transfer's end leaves the transmitter IDLE and its block learns of it. A request that
was sent awaits its response; one that failed counts as a send failure, and its cells are released before its entry
ends, UNDELIVERED or ORPHANED (the order is the model's choice, log 34). A close message that was sent waits for its
answer for one response timeout; one that failed ends the closing UNDELIVERED (R131). A delivery item that failed counts
as a delivery failure. The cells come back either way (R103, R115, R144, R151). -/
def Obligations.FramesSentAndWithdrawn : Prop :=
  (∀ (p : PortId) (s : State),
      let off := s.flow.modPort p fun x => { x with onBus := none }
      let goes := fun f : Flow => exec (.frameSent p) s = .next (s.withFlow (f.modPort p (startFrame s.tab p)))
      let creditWait := some (after s.tab.now (s.tab.port p).creditWait)
      ((s.flow.port p).onBus = none → exec (.frameSent p) s = .next s)
      ∧ (∀ d, (s.flow.port p).onBus = some d → d.owner ≠ .transmitter → goes off)
      ∧ (∀ d x, (s.flow.port p).onBus = some d → d.owner = .transmitter → (s.flow.port p).tx = some x →
        (x.phase = .first → x.payload.length ≤ 7 →
          let a := transferEnd s.tab off p true
          goes (settle s.tab a.2 a.1))
        ∧ (x.phase = .first → 7 < x.payload.length →
          goes (modTx off p fun y => { y with phase := .waitCredit, deadline := creditWait }))
        ∧ (x.phase = .run → x.sent + 1 < x.segments → 1 < x.granted →
          goes (pushNext s.tab (modTx off p fun y => { y with sent := x.sent + 1, granted := x.granted - 1 }) p))
        ∧ (x.phase = .run → x.sent + 1 < x.segments → x.granted ≤ 1 →
          goes (modTx off p fun y =>
            { y with sent := x.sent + 1, granted := 0, phase := .waitCredit, deadline := creditWait }))
        ∧ (x.phase = .run → x.segments ≤ x.sent + 1 →
          goes (modTx off p fun y => { y with
            sent := x.sent + 1, granted := x.granted - 1, phase := .waitDone
            deadline := some (after s.tab.now (s.tab.port p).doneWait) }))))
  ∧ (∀ (p : PortId) (k : FramePick) (dt : Nat) (s : State),
      let u := s.advance dt
      (pickFrame (u.flow.port p) k = none → exec (.frameWithdrawn p k dt) s = .next u)
      ∧ (∀ d x, pickFrame (u.flow.port p) k = some (d, x) →
        let gone := u.flow.modPort p fun _ => x
        let late := reached u.tab.now (after d.due (s.tab.port p).creditWait)
        let goes := fun a : Flow × List Act =>
          exec (.frameWithdrawn p k dt) s = .next (u.withFlow ((settle u.tab a.2 a.1).modPort p (startFrame u.tab p)))
        (late = false → exec (.frameWithdrawn p k dt) s = .next u)
        ∧ (late = true → d.owner = .transmitter → goes (transferEnd u.tab gone p false))
        ∧ (∀ c, late = true → d.owner = .context c → goes (abandonCtx gone p c false))
        ∧ (late = true → d.owner = .nobody → goes (gone, []))))
  ∧ ((∀ (t : Tables) (f : Flow) (p : PortId) (ok : Bool), (((transferEnd t f p ok).1).port p).tx = none)
    ∧ (∀ (t : Tables) (f : Flow) (p : PortId) (x : Transfer) (m : Message) (e : EntryIx) (y : Entry),
      (f.port p).tx = some x → x.cargo = .request m e → f.entries.get e = some y →
      y.state = .sending ∨ y.state = .orphaned .sending →
      transferEnd t f p true = ((idleTx f p).modEntry e (fun z => { z with
          state := if y.state = .sending then .awaiting else .orphaned .awaiting
          deadline := some (after t.now (t.ecus.get y.ecu).respTimeout) }), [.release m.charge])
      ∧ transferEnd t f p false = ((idleTx f p).countEcu y.ecu (fun c => { c with sendFailures := c.sendFailures + 1 }),
          [.release m.charge, .refuseEntry e .undelivered]))
    ∧ (∀ (t : Tables) (f : Flow) (p : PortId) (x : Transfer) (e : EcuIx),
      (f.port p).tx = some x → x.cargo = .close e →
      transferEnd t f p true = ((idleTx f p).modClaim e (fun c => { c with
          phase := some .awaiting, closeDeadline := some (after t.now (t.ecus.get e).respTimeout) }), [])
      ∧ transferEnd t f p false = (closeEnd t 0 (idleTx f p) e .undelivered none, []))
    ∧ (∀ (t : Tables) (f : Flow) (p : PortId) (x : Transfer) (k : Slot) (it : Item),
      (f.port p).tx = some x → x.cargo = .item k it →
      let freed : List Act := match it.body with
        | .response m => [.release m.charge]
        | _ => []
      transferEnd t f p true = (idleTx f p, freed)
      ∧ transferEnd t f p false = ((idleTx f p).modSlot k (fun y => { y with deliveryFails := y.deliveryFails + 1 }),
          freed)))

/-- The operations of a port that the statements name. A CREDIT or ABORT frame becomes due under the port's priority and
kind (R140, R142). With no frame on the bus and the minimum spacing passed since the last one started, the next due
frame starts: the CREDIT and ABORT frames first, in the order in which they became due, then the transmitter's (R142;
the elapsed count and withdrawn frames: logs 29, 35), and does so at the moment at which it becomes due, inside its
event (the model's choice, log 14). A transfer begins in phase FIRST with its SINGLE, up to 7 bytes, or its OPEN due,
and a run makes its next NEXT due (R143). A transfer that times out fails with ABORT TIMEOUT (R144), due before the
cells of its message come back (the model's choice, log 14). An abandoned context is free, out of the waiting list, its
cells released, its place offered or its entry told (R148); a restarted one also takes back its due frames (R146;
log 14). -/
def Obligations.PortOperations : Prop :=
  (∀ (t : Tables) (f : Flow) (p : PortId) (o : FrameOwner) (target source : Byte) (d : List Byte),
    let due : DueFrame := { frame := { id := frameId (t.port p) target source, data := d }, owner := o, due := t.now }
    pushControl t f p o target source d
        = f.modPort p (fun x => startFrame t p { x with control := x.control ++ [due] })
      ∧ pushTx t f p o target source d = f.modPort p (fun x => startFrame t p { x with txDue := x.txDue ++ [due] }))
  ∧ (∀ (t : Tables) (p : PortId) (x : PortFlow),
    let starts := x.onBus = none ∧ ∀ w, x.lastStart = some w → (t.port p).spacing.ms ≤ (t.now - w).toNat
    (¬starts → startFrame t p x = x)
    ∧ (∀ d rest, starts → x.control = d :: rest →
      startFrame t p x = { x with onBus := some d, control := rest, lastStart := some t.now })
    ∧ (∀ d rest, starts → x.control = [] → x.txDue = d :: rest →
      startFrame t p x = { x with onBus := some d, txDue := rest, lastStart := some t.now })
    ∧ (x.control = [] → x.txDue = [] → startFrame t p x = x))
  ∧ (∀ (t : Tables) (f : Flow) (p : PortId) (source target : Byte) (pay : List Byte) (cargo : Cargo),
    startTransfer t f p source target pay cargo = pushTx t
      (f.modPort p fun x =>
        let out : Transfer :=
          { source, target, payload := pay, segments := segmentsSent pay.length, sent := 0, granted := 0, stalls := 0
            deadline := none, phase := .first, cargo }
        { x with tx := some out })
      p .transmitter target source (if pay.length ≤ 7 then singleData pay else openData pay))
  ∧ (∀ (t : Tables) (f : Flow) (p : PortId) (x : Transfer), (f.port p).tx = some x →
    pushNext t f p = pushTx t f p .transmitter x.target x.source (nextData x.payload x.sent)
    ∧ transferTimeout t f p =
      (let a := transferEnd t f p false
       (pushTx t a.1 p .nobody x.target x.source [0x40, 4], a.2)))
  ∧ (∀ (f : Flow) (p : PortId) (c : CtxIx) (x : Ctx) (forCells : Bool), f.ctx p c = some x →
    let a := abandonCtx f p c forCells
    let g := dropContext f p c
    let freed : List Act := match x.charge with
      | none => []
      | some h => [.release h]
    a.2 = freed ++ (match x.owner with
      | .slot k => if x.place then [.placeFreed k] else []
      | .entry e => [.abandoned e forCells]
      | .close _ => [])
    ∧ a.1 = freeContext f p c ∧ a.1.ctx p c = none ∧ (∀ d, d ≠ c → a.1.ctx p d = f.ctx p d)
    ∧ a.1.waiting = f.waiting.filter (fun w => w.who != ctxClaimant p c)
    ∧ (∀ k, x.owner = .slot k → c ∉ (a.1.slots.get k).placeWait)
    ∧ (∀ b ∈ (a.1.port p).control, b.owner ≠ .context c) ∧ (∀ b, (a.1.port p).onBus = some b → b.owner ≠ .context c)
    ∧ (a.1.port p).tx = (f.port p).tx ∧ (a.1.port p).txDue = (f.port p).txDue
    ∧ g.ctx p c = none ∧ (g.port p).control = (f.port p).control.filter (fun b => b.owner != .context c))

/-- The timers of a port. In WAIT_CREDIT and in WAIT_DONE the deadline fails the transfer with ABORT TIMEOUT (R144). A gap
timer abandons its context without a frame (R147). A stall timer sends STALL again below the stall limit, and ABORT NO_ROOM
at the limit, which abandons the context for want of room (R149). Before the deadline only time passes. -/
def Obligations.PortTimers : Prop :=
  ∀ (p : PortId) (dt : Nat) (s : State),
    let u := s.advance dt
    let fails :=
      let a := transferTimeout u.tab u.flow p
      (Host.Outcome.next ((u.withFlow a.1).run a.2) : Host.Outcome State Fault Refusal)
    (∀ x, (s.flow.port p).tx = some x →
      (x.phase = .waitCredit → expired u.tab.now x.deadline = true → exec (.creditWaitTimeout p dt) s = fails)
      ∧ (x.phase ≠ .waitCredit ∨ expired u.tab.now x.deadline = false → exec (.creditWaitTimeout p dt) s = .next u)
      ∧ (x.phase = .waitDone → expired u.tab.now x.deadline = true → exec (.doneWaitTimeout p dt) s = fails)
      ∧ (x.phase ≠ .waitDone ∨ expired u.tab.now x.deadline = false → exec (.doneWaitTimeout p dt) s = .next u))
    ∧ (∀ c x, s.flow.ctx p c = some x →
      (∀ d, x.timer = .gap d → reached u.tab.now d = true →
        let a := abandonCtx u.flow p c false
        exec (.gapTimerExpiry p c dt) s = .next ((u.withFlow a.1).run a.2))
      ∧ ((∀ d, x.timer = .gap d → reached u.tab.now d = false) → exec (.gapTimerExpiry p c dt) s = .next u)
      ∧ (∀ d, x.timer = .stall d → reached u.tab.now d = true → x.stalls < (s.tab.port p).stallLimit →
        exec (.stallTimerExpiry p c dt) s = .next (u.withFlow (pushControl u.tab
          (u.flow.putCtx p c (some { x with
            stalls := x.stalls + 1, timer := .stall (after u.tab.now (s.tab.port p).stallInterval) }))
          p (.context c) x.source x.target [0x31])))
      ∧ (∀ d, x.timer = .stall d → reached u.tab.now d = true → (s.tab.port p).stallLimit ≤ x.stalls →
        let a := abandonCtx (pushControl u.tab u.flow p .nobody x.source x.target [0x40, 1]) p c true
        exec (.stallTimerExpiry p c dt) s = .next ((u.withFlow a.1).run a.2))
      ∧ ((∀ d, x.timer = .stall d → reached u.tab.now d = false) → exec (.stallTimerExpiry p c dt) s = .next u))

/-- An IDLE transmitter starts. A VB port sends a close message that waits for it first, otherwise the oldest request of
its outbound queue, which leaves the queue (R131, R152). TB sends the oldest item of the BUS slots, which leaves its
delivery queue, to its slot's TB address (R115, R151). Its SINGLE or OPEN is due (R143). -/
def Obligations.TransmitStarts : Prop :=
  (∀ (v : VbIx) (s : State), s.tab.active = true → (s.flow.port (.vb v)).tx = none →
    (∀ b, closingToSend s.flow v = some b →
      exec (.vbTransmitStart v) s = .next (s.withFlow (startTransfer s.tab s.flow (.vb v) (s.tab.port (.vb v)).node
        (s.tab.ecus.get b.ecu).node b.bytes (.close b.ecu))))
    ∧ (∀ r rest, closingToSend s.flow v = none → (s.flow.vbs.get v).outbound = r :: rest →
      exec (.vbTransmitStart v) s = .next (s.withFlow (startTransfer s.tab
        (markPort s.tab (s.flow.modVb v fun x => { x with outbound := rest }) v) (.vb v) r.source r.target r.msg.payload
        (.request r.msg r.entry))))
    ∧ (closingToSend s.flow v = none → (s.flow.vbs.get v).outbound = [] → exec (.vbTransmitStart v) s = .next s))
  ∧ (∀ (v : VbIx) (s : State), s.tab.active = false ∨ (s.flow.port (.vb v)).tx.isSome →
    exec (.vbTransmitStart v) s = .next s)
  ∧ (∀ s : State, s.tab.active = true → (s.flow.port .tb).tx = none → (s.tab.ctl = .stopping → drained s.flow = false) →
    (∀ k it, oldestItem s.tab s.flow .bus = some (k, it) →
      exec .tbTransmitStart s = .next (s.withFlow (startTransfer s.tab
        (s.flow.modSlot k fun y => { y with items := y.items.drop 1 }) .tb it.source (s.tab.testers.get k).tbAddr
        it.body.content.2 (.item k it))))
    ∧ (oldestItem s.tab s.flow .bus = none → exec .tbTransmitStart s = .next s))
  ∧ (∀ (t : Tables) (f : Flow) (kind : TesterKind) (k : Slot) (it : Item), oldestItem t f kind = some (k, it) →
    (t.testers.get k).kind = kind ∧ (f.slots.get k).items.head? = some it
    ∧ ∀ j x, (t.testers.get j).kind = kind → (f.slots.get j).items.head? = some x → it.order ≤ x.order)

/-! ### Pages and the relay channel -/

/-- The relay writer takes the oldest item of the RELAY slots: with room in the relay outbound ring its record is
written and its cells come back; without a ring it counts as a delivery failure; without room the writer waits, blocked
(R116, R204). The record has the slot's relay identity, the item's source, its kind, the ECU index or all ones, its
length, two bytes of 0 and its bytes, padded with zeros to a multiple of 4 (R204, R211, R208). With no such item, or
outside RUNNING and STOPPING, nothing changes. -/
def Obligations.RelayWriteTakesItem : Prop :=
  (∀ s : State,
    (s.tab.active = false ∨ oldestItem s.tab s.flow .relay = none → exec .relayWrite s = .next s)
    ∧ (∀ k it, s.tab.active = true → oldestItem s.tab s.flow .relay = some (k, it) →
      let freed : List Act := match it.body with
        | .response m => [.release m.charge]
        | _ => []
      (s.tab.relayOutRing = none →
        exec .relayWrite s = .next ((s.withFlow (s.flow.modSlot k fun y =>
          { y with items := y.items.drop 1, deliveryFails := y.deliveryFails + 1 })).run freed))
      ∧ (∀ r, s.tab.relayOutRing = some r →
        let bytes := relayOutBytes s.tab k it
        let a := s.flow.relayOut.room r s.flow.ram bytes.length
        let w := a.2.write r s.flow.ram s.tab.now s.tab.relayFlush bytes
        let f := { s.flow with relayOut := w.1, ram := w.2.1 }.modSlot k fun y => { y with items := y.items.drop 1 }
        (a.1 = false → exec .relayWrite s = .next (s.withFlow { s.flow with relayOut := a.2 }))
        ∧ (a.1 = true →
          exec .relayWrite s = .next ((s.withFlow (if w.2.2 then f.setNews .relayOut else f)).run freed)))))
  ∧ (∀ (t : Tables) (k : Slot) (it : Item),
    let kind : Byte := match it.body with
      | .response _ => 0
      | .refusal _ => 1
      | .interim _ => 2
    let size := it.body.content.1
    let pay := it.body.content.2
    relayOutBytes t k it = [(t.testers.get k).relayId, it.source, kind, (it.ecu.map ixByte).getD 0xFF]
      ++ leBytes 2 size ++ [0, 0] ++ pay ++ List.replicate ((4 - pay.length % 4) % 4) 0)

/-- At its flush deadline an open page is committed: its header takes FULL (3), the record count, the sequence number
and the gap count, the next page comes next, and CAPTURE or RELAY_OUT is set (R183, R204). Before it only time passes.
The same commit ends an open capture page at the entries to STOPPING, OFF and FAULTED and an open relay page at the
entry to OFF; without an open page it does nothing (R183, R189, R204). -/
def Obligations.PagesFlushed : Prop :=
  (∀ (dt : Nat) (s : State),
    let u := s.advance dt
    let next := fun (w : Writer) (r : Ring) =>
      ({ w with page := none, seq := w.seq + 1, gap := 0, pos := (w.pos + 1) % r.pages } : Writer)
    let header := fun (w : Writer) (p : OpenPage) =>
      [3, 0, 0, 0] ++ leBytes 2 p.count ++ leBytes 2 w.seq.toNat ++ leBytes 2 w.gap ++ [0, 0, 0, 0, 0, 0]
    (∀ r p, s.tab.active = true → s.tab.captureRing = some r → s.flow.writer.page = some p →
      expired u.tab.now p.deadline = true →
      let w := s.flow.writer
      exec (.captureFlushDeadline dt) s = .next (u.withFlow (Flow.setNews { u.flow with
        writer := next w r, ram := ramWrite s.flow.ram (r.leaf + 16 + w.pos * r.size) (header w p) } .capture)))
    ∧ (s.tab.active = false ∨ expired u.tab.now (s.flow.writer.page.bind (·.deadline)) = false →
      exec (.captureFlushDeadline dt) s = .next u)
    ∧ (∀ r p, s.tab.active = true → s.tab.relayOutRing = some r → s.flow.relayOut.page = some p →
      expired u.tab.now p.deadline = true →
      let w := s.flow.relayOut
      exec (.relayFlushDeadline dt) s = .next (u.withFlow (Flow.setNews { u.flow with
        relayOut := next w r, ram := ramWrite s.flow.ram (r.leaf + 16 + w.pos * r.size) (header w p) } .relayOut)))
    ∧ (s.tab.active = false ∨ expired u.tab.now (s.flow.relayOut.page.bind (·.deadline)) = false →
      exec (.relayFlushDeadline dt) s = .next u))
  ∧ (∀ (t : Tables) (f : Flow),
    let next := fun (w : Writer) (r : Ring) =>
      ({ w with page := none, seq := w.seq + 1, gap := 0, pos := (w.pos + 1) % r.pages } : Writer)
    let header := fun (w : Writer) (p : OpenPage) =>
      [3, 0, 0, 0] ++ leBytes 2 p.count ++ leBytes 2 w.seq.toNat ++ leBytes 2 w.gap ++ [0, 0, 0, 0, 0, 0]
    (∀ r p, t.captureRing = some r → f.writer.page = some p → captureCommit t f = { f with
      writer := next f.writer r, news := f.news ||| 0x008
      ram := ramWrite f.ram (r.leaf + 16 + f.writer.pos * r.size) (header f.writer p) })
    ∧ (t.captureRing = none ∨ f.writer.page = none → captureCommit t f = f)
    ∧ (∀ r p, t.relayOutRing = some r → f.relayOut.page = some p → relayCommit t f = { f with
      relayOut := next f.relayOut r, news := f.news ||| 0x002
      ram := ramWrite f.ram (r.leaf + 16 + f.relayOut.pos * r.size) (header f.relayOut p) })
    ∧ (t.relayOutRing = none ∨ f.relayOut.page = none → relayCommit t f = f))

/-- The governing probe is the highest-numbered one that matches the item's direction, slot, ECU and class; an absent
ECU or class lies only in the full set (R176). A record has room in the open page, or, unless the writer is blocked,
when the page that would be opened is EMPTY; one without room leaves the writer blocked. It is written after the last
record of the page, where needed after a commit and in a new page (R182). A binding record without room is neither
written nor counted; another is lost, counted up to 65,535, and sets CAPTURE_GAP (R185). A candidate of the sampler is
counted, and sampled when its draw is below the rate (R178; the draw is a free value, log 8). An event record is offered
only while event capture is on (R180), and one that would take the room of a request record that the same admission has
still to write is lost (R88), which does not make the writer blocked (the model's choice, log 38). A refusal record
carries the refusal message up to the probe's limit and the page's, and that of a malformed message the declared length
and no content (R22, R179, R181). A stored record has the 32-byte header of R211, an absent field as all ones, and its
content padded to a multiple of 4 (R181). -/
def Obligations.CaptureRecordsOffered : Prop :=
  (∀ (t : Tables) (d : Direction) (k : Slot) (e : Option EcuIx) (c : Option ServiceClass),
    let matching := fun i : ProbeIx =>
      let p := t.probes.get i
      p.enabled = true ∧ p.dirs.getLsbD d.bit = true ∧ p.slots.getLsbD k.val = true
      ∧ (∀ x, e = some x → p.ecus.getLsbD x.val = true) ∧ (e = none → p.ecus = BitVec.allOnes 32)
      ∧ (∀ x, c = some x → p.classes.getLsbD x.num = true) ∧ (c = none → p.classes = BitVec.allOnes 6)
    (∀ i, governing t d k e c = some i ↔ matching i ∧ ∀ j, i < j → ¬matching j)
    ∧ (governing t d k e c = none ↔ ∀ i, ¬matching i))
  ∧ (∀ (w : Writer) (r : Ring) (ram : List Host.Cell) (size : Nat),
    let fits := ∃ p, w.page = some p ∧ p.used + size ≤ r.size
    let page := if w.page = none then w.pos else (w.pos + 1) % r.pages
    let empty := ramNum ram (r.leaf + 16 + page * r.size) 4 = 0
    (fits ∨ w.blocked = false ∧ empty → w.room r ram size = (true, w))
    ∧ (¬fits → w.blocked = true ∨ ¬empty → w.room r ram size = (false, { w with blocked := true })))
  ∧ (∀ (w : Writer) (r : Ring) (ram : List Host.Cell) (now : Word) (flush : Duration) (bytes : List Byte),
    let opened : OpenPage :=
      { used := 16, count := 0, deadline := if flush.count = 0 then none else some (after now flush) }
    let put := fun (w : Writer) (ram : List Host.Cell) (p : OpenPage) (committed : Bool) =>
      ({ w with page := some { p with used := p.used + bytes.length, count := p.count + 1 } },
       ramWrite ram (r.leaf + 16 + w.pos * r.size + p.used) bytes, committed)
    (w.page = none → w.write r ram now flush bytes = put w ram opened false)
    ∧ (∀ p, w.page = some p → p.used + bytes.length ≤ r.size → w.write r ram now flush bytes = put w ram p false)
    ∧ (∀ p, w.page = some p → r.size < p.used + bytes.length →
      let header := [3, 0, 0, 0] ++ leBytes 2 p.count ++ leBytes 2 w.seq.toNat ++ leBytes 2 w.gap ++ [0, 0, 0, 0, 0, 0]
      w.write r ram now flush bytes =
        put { w with page := none, seq := w.seq + 1, gap := 0, pos := (w.pos + 1) % r.pages }
          (ramWrite ram (r.leaf + 16 + w.pos * r.size) header) opened true))
  ∧ (∀ (t : Tables) (f : Flow) (x : CaptureRecord),
    let lost := fun w : Writer =>
      { f with writer := { w with gap := min 65535 (f.writer.gap + 1) }, news := f.news ||| 0x010 }
    (t.captureRing = none → captureBinding t f x = (false, f) ∧ captureOffer t f x = lost f.writer)
    ∧ (∀ r, t.captureRing = some r →
      let a := f.writer.room r f.ram (32 + round4 x.content.length)
      let w := a.2.write r f.ram t.now t.captureFlush (x.bytes t.now)
      let g := { f with writer := w.1, ram := w.2.1 }
      let written := if w.2.2 then { g with news := f.news ||| 0x008 } else g
      (a.1 = true → captureOffer t f x = written ∧ captureBinding t f x = (true, written))
      ∧ (a.1 = false → captureOffer t f x = lost a.2 ∧ captureBinding t f x = (false, { f with writer := a.2 }))))
  ∧ (∀ (t : Tables) (f : Flow) (n : Nat) (c : ServiceClass),
    let candidate := t.sampler.enabled = true ∧ t.sampler.classes.getLsbD c.num = true
    let drawn := (Config.sampleDraw n).val < t.sampler.rate
    (¬candidate → sample t f n c = (none, f, n))
    ∧ (candidate → ¬drawn → sample t f n c = (none, { f with candidates := f.candidates + 1 }, n + 1))
    ∧ (candidate → drawn → sample t f n c = (some (f.candidates + 1, f.samples + 1),
      { f with candidates := f.candidates + 1, samples := f.samples + 1 }, n + 1))
    ∧ (t.sampler.rate = 0 → ¬drawn) ∧ (t.sampler.rate = 4096 → drawn))
  ∧ (∀ (t : Tables) (keep : Nat) (f : Flow) (x : CaptureRecord),
    let a := captureRoom t f (32 + round4 x.content.length)
    let g := captureWrite t a.2 x
    let lost := fun h : Flow =>
      { h with writer := { h.writer with gap := min 65535 (h.writer.gap + 1) }, news := h.news ||| 0x010 }
    (t.eventCapture = false → event t keep f x = f)
    ∧ (t.eventCapture = true →
      (keep = 0 → event t keep f x = captureOffer t f x)
      ∧ (keep ≠ 0 →
        (a.1 = false → event t keep f x = lost a.2)
        ∧ (a.1 = true → (captureRoom t g keep).1 = true → event t keep f x = g)
        ∧ (a.1 = true → (captureRoom t g keep).1 = false → event t keep f x = lost f))))
  ∧ (∀ (t : Tables) (k : Slot) (e : Option EcuIx) (c : Option ServiceClass) (code : Byte) (grant : Option GrantIx)
      (r : Reason) (declared : Option Nat) (i : ProbeIx),
    (∀ ring, t.captureRing = some ring →
      probeTerms t i = { number := i, limit := min (t.probes.get i).limit (ring.size - 48) })
    ∧ refusalRecord t k e c code grant r declared (probeTerms t i) =
      { event := false, source := 2, slot := ixByte k, subject := e.map ixByte, cls := c.map (·.byte), code
        grant := grant.map ixByte, outcome := some r.byte, reason := none, probe := some (ixByte i), stamp := none
        length := declared.getD 3
        content := match declared with
          | none => [t.marker, code, r.byte].take (probeTerms t i).limit
          | some _ => [] })
  ∧ (∀ (x : CaptureRecord) (now : Word),
    let orOnes := fun b : Option Byte => b.getD 0xFF
    x.bytes now = [if x.event then 1 else 0, BitVec.ofNat 8 x.source, x.slot, orOnes x.subject, orOnes x.cls, x.code
        , orOnes x.grant, orOnes x.outcome, orOnes x.reason, orOnes x.probe, if x.stamp.isSome then 1 else 0, 0]
      ++ leBytes 4 now.toNat
      ++ (match x.stamp with
        | none => List.replicate 8 0xFF
        | some y => leBytes 4 y.1.toNat ++ leBytes 4 y.2.toNat)
      ++ leBytes 2 x.length ++ leBytes 2 x.content.length ++ [0, 0, 0, 0]
      ++ x.content ++ List.replicate ((4 - x.content.length % 4) % 4) 0)

/-- The relay channel handles the record at its read position: a record of an identity that no ATTACHED RELAY slot has
is counted and passed over, one that finds a place and cells is appended to its slot's inbound queue, and one that finds
none is refused in REFUSE mode, while in HOLD mode the channel stops at it; a page with no whole record header left is
done (R203). The record at the read position has identity, target and length in its 4 header bytes; a length of 0, above
2,048 or past the page makes it malformed, with the code read where there is one (R203, R211). After a record the
channel goes on past its padding to a multiple of 4, or the page is done after a malformed or the last one. A record of
an unknown identity is passed over by its length, in range or not (log 27). Stopped, outside RUNNING or with no page
taken, the channel handles none. A page that is done is written EMPTY, RELAY_IN_FREE is set, and the next page is read:
one that is not FILLED ends the reading, one without records is done at once (R202). A NO_ROOM refusal offers its
record, counts, and places its item when a delivery place is free and the record does not wait for room (R91); that the
read position moves on, and a done page is given back, before that item is placed is the model's choice (log 36). -/
def Obligations.RelayRecordHandled : Prop :=
  (∀ s : State, s.tab.ctl ≠ .running ∨ s.flow.relayIn.stop.isSome ∨ s.flow.relayIn.count = none →
    exec .relayRecord s = .next s)
  ∧ (∀ (s : State) (r : Ring) (n : Nat), s.tab.ctl = .running → s.flow.relayIn.stop = none →
    s.flow.relayIn.count = some n → s.tab.relayInRing = some r →
    let f := { s.flow with waiting := s.flow.waiting.filter fun w => w.who != .relay }
    (relayRecordAt r f = none →
      exec .relayRecord s = .next (s.withFlow (relayPages r (r.pages + 1) (relayPageDone r f))))
    ∧ (∀ x, relayRecordAt r f = some x →
      (relaySlot s.tab x.ident = none →
        exec .relayRecord s = .next (s.withFlow
          (relayAdvance r { f with relayUnknown := f.relayUnknown + 1 } x.length false)))
      ∧ (∀ k, relaySlot s.tab x.ident = some k →
        let grade := (classOf s.tab x.code).grade
        let cells := if x.malformed then 1 else cellsFor x.length
        let stops := fun (w : RelayWait) =>
          exec .relayRecord s = .next (s.withFlow { f with
            relayIn := { f.relayIn with stop := some { slot := k, wait := w } }
            waiting := if w = .cells then
                f.waiting ++ [{ who := .relay, slot := k, grade := grade, cells := cells, since := s.tab.now }]
              else f.waiting })
        (∀ g h, f.inboundFree k = true → charge s.tab f k grade cells = some (g, h) →
          exec .relayRecord s = .next (s.withFlow (relayAdvance r (g.modSlot k fun y => { y with
            inbound := y.inbound ++ [{ target := x.target, msg :=
              { charge := h, length := x.length, malformed := x.malformed, code := x.code, payload := x.payload } }] })
            x.length x.malformed)))
        ∧ (f.inboundFree k = false → (s.tab.testers.get k).mode = .hold → stops .place)
        ∧ (f.inboundFree k = true → charge s.tab f k grade cells = none → (s.tab.testers.get k).mode = .hold →
          stops .cells)
        ∧ (f.inboundFree k = false ∨ charge s.tab f k grade cells = none → (s.tab.testers.get k).mode = .refuse →
          let a := relayRefuse s.tab f k x
          exec .relayRecord s
            = .next ((s.withFlow (relayAdvance r a.1 x.length x.malformed)).run a.2)))))
  ∧ (∀ (r : Ring) (f : Flow) (n : Nat),
    let a := r.pageAddr f.relayIn.page
    let took := { f with ram := ramWrite f.ram a [2, 0, 0, 0] }
    let count := ramNum took.ram (a + 4) 2
    relayPageDone r f = { f with
        ram := ramWrite f.ram a [0, 0, 0, 0], news := f.news ||| 0x004
        relayIn := { page := (f.relayIn.page + 1) % r.pages, record := 0, offset := 16, count := none, stop := none } }
    ∧ (r.stateOf f.ram f.relayIn.page ≠ 1 → relayPages r (n + 1) f = f)
    ∧ (r.stateOf f.ram f.relayIn.page = 1 → count = 0 → relayPages r (n + 1) f = relayPages r n (relayPageDone r took))
    ∧ (r.stateOf f.ram f.relayIn.page = 1 → count ≠ 0 → relayPages r (n + 1) f = { took with
        relayIn := { page := f.relayIn.page, record := 0, offset := 16, count := some count, stop := none } }))
  ∧ (∀ (t : Tables) (f : Flow) (k : Slot) (x : RelayRecord),
    let e := findEcu t x.target
    let a := captureRefusal t f k e (if x.malformed then none else some (classOf t x.code)) x.code none .noRoom
      (if x.malformed then some x.length else none)
    let g := a.2.modSlot k fun y => { y with refused := y.refused + 1 }
    relayRefuse t f k x = (g, if a.1 = none ∧ g.deliveryFree k = true then
      [.placeItem k (.refusal [t.marker, x.code, 0x0D]) x.target e .head] else []))
  ∧ (∀ (r : Ring) (f : Flow),
    let o := f.relayIn.offset
    let a := r.leaf + 16 + f.relayIn.page * r.size + o
    let h := ramRead f.ram a 4
    let len := numAt h 2 2
    (r.size < o + 4 → relayRecordAt r f = none)
    ∧ (o + 4 ≤ r.size → ∃ x, relayRecordAt r f = some x ∧ x.ident = byteAt h 0 ∧ x.target = byteAt h 1 ∧ x.length = len
      ∧ (x.malformed = true ↔ len = 0 ∨ 2048 < len ∨ r.size < o + 4 + len)
      ∧ x.code = (if len = 0 ∨ r.size ≤ o + 4 then 0 else ramByte f.ram ((a + 4) % 2 ^ 32))
      ∧ x.payload = (if x.malformed then [] else ramRead f.ram (a + 4) len)))
  ∧ (∀ (r : Ring) (f : Flow) (n len : Nat) (last : Bool), f.relayIn.count = some n →
    (last = true ∨ n ≤ f.relayIn.record + 1 → relayAdvance r f len last = relayPages r (r.pages + 1) (relayPageDone r f))
    ∧ (last = false → f.relayIn.record + 1 < n → relayAdvance r f len last = { f with relayIn := { f.relayIn with
        record := f.relayIn.record + 1, offset := f.relayIn.offset + (4 + len + 3) / 4 * 4, stop := none } }))

/-! ### Admission -/

/-- A visit takes the first slot from the visit position that has a ready head and an allowance; the position moves to the
next slot, one is taken from the allowance, and the head is evaluated. With no allowance left among the ready heads every
ATTACHED slot's allowance is restored to its weight first, and with no ready head there is no visit (R81, R82, R83). -/
def Obligations.VisitChoosesSlot : Prop :=
  (∀ (t : Tables) (f : Flow) (k : Slot), headReady t f k = true ↔
    (t.testers.get k).attached = true ∧ (f.slots.get k).inbound ≠ [] ∧ (f.slots.get k).held = none
      ∧ (f.slots.get k).items.length + f.liveEntries k < 8)
  ∧ (∀ (t : Tables) (f : Flow) (k : Slot), nextVisit t f = some k ↔
    ∃ n : Slot, k = f.visitPos + n ∧ (headReady t f k = true ∧ 0 < (f.slots.get k).allowance)
      ∧ ∀ j < n, ¬(headReady t f (f.visitPos + j) = true ∧ 0 < (f.slots.get (f.visitPos + j)).allowance))
  ∧ (∀ s : State, s.tab.active = false ∨ (∀ k, headReady s.tab s.flow k = false) → exec .visit s = .next s)
  ∧ (∀ (s : State) (k : Slot),
    let visited := fun f : Flow => evaluate
      (s.withFlow { f.modSlot k (fun x => { x with allowance := x.allowance - 1 }) with visitPos := k + 1 }) k
    let rows := tableOf 16 fun i =>
      if (s.tab.testers.get i).attached then
        { s.flow.slots.get i with allowance := (s.tab.testers.get i).weight }
      else s.flow.slots.get i
    let restored := { s.flow with slots := rows }
    s.tab.active = true →
      (nextVisit s.tab s.flow = some k → exec .visit s = .next (visited s.flow))
      ∧ (nextVisit s.tab s.flow = none → nextVisit s.tab restored = some k →
        exec .visit s = .next (visited restored)))

/-- A visited head that passes all checks is admitted (R45, R97): its message stands at the tail of its ECU's VB
outbound queue under the slot's vehicle-side address, with the lowest-numbered free outstanding entry; the counters
count it; the charged grant pays, and becomes SPENT when its budget is used up; no other grant changes. A HEAVY request
takes a FREE claim of its ECU: HELD by its slot at the level of its class, with the charged grant's conditions as guard
set and one claim hold-off to run (R124; stated for a grant without a budget and with nobody waiting for the place that
the message leaves). In general, before it forwards, an admission does this (R97, items 1 to 4): the grant is charged; a
step to SPENT is reported (R47); the claim is taken, raised from ADJUST to PROGRAM by its holder's own PROGRAM request
with the guard sets joined, or refreshed, with one hold-off to run (R124, R125); after a step to SPENT the claims of the
grant that no grant supports any more are released, in rising ECU number (the model's choice, log 31), the one of the
ECU in hand as one that waits for the new entry (R54, R98); and the request record is written, a binding one in the room
kept for it, another when a probe matches or the request is sampled, with the stamp of the sample (R88, R178, R179; the
draw is a free value, log 8). -/
def Obligations.AdmissionForwards : Prop :=
  (∀ (s : State) (k : Slot) (m : InMsg) (rest : List InMsg) (e : EcuIx) (c : ServiceClass) (g : GrantIx) (f : Flow),
      s.tab.active = true → nextVisit s.tab s.flow = some k → (s.flow.slots.get k).inbound = m :: rest →
      evaluateHead (s.withFlow (visitSlot s.flow k)) k m = (.admits e c g, f) →
      ∃ t i, exec .visit s = .next t ∧ s.flow.entries.get i = none ∧ (∀ j < i, (s.flow.entries.get j).isSome)
        ∧ (∀ v, (t.flow.vbs.get v).outbound =
          if v = (s.tab.ecus.get e).port then
            (s.flow.vbs.get v).outbound ++
              [{ msg := m.msg, source := (s.tab.testers.get k).vsAddr, target := (s.tab.ecus.get e).node, entry := i }]
          else (s.flow.vbs.get v).outbound)
        ∧ (∀ j, (t.flow.slots.get j).admitted = (s.flow.slots.get j).admitted + (if j = k then 1 else 0)
          ∧ (t.flow.slots.get j).allowance = (s.flow.slots.get j).allowance - (if j = k then 1 else 0))
        ∧ (∀ i, (t.flow.ecuCounts.get i).forwarded = (s.flow.ecuCounts.get i).forwarded + (if i = e then 1 else 0))
        ∧ t.flow.visitPos = k + 1
        ∧ (∀ i, t.grants.get i =
          let x := s.grants.get i
          if i = g then
            match x.left with
            | none => x
            | some n =>
              if n ≤ 1 then { x with left := some 0, state := .spent, life := x.life.freeze s.tab.now }
              else { x with left := some (n - 1) }
          else x)
        ∧ t.tab = s.tab ∧ t.rot = s.rot ∧ t.mask = s.mask ∧ t.pending = s.pending ∧ t.enable = s.enable)
  ∧ (∀ (s : State) (k : Slot) (m : InMsg) (rest : List InMsg) (e : EcuIx) (c : ServiceClass) (g : GrantIx) (f : Flow)
        (l : ClaimLevel),
      s.tab.active = true → nextVisit s.tab s.flow = some k → (s.flow.slots.get k).inbound = m :: rest →
      evaluateHead (s.withFlow (visitSlot s.flow k)) k m = (.admits e c g, f) →
      (s.grants.get g).left = none → c.level = some l → (s.flow.claims.get e).state = .free →
      (s.flow.slots.get k).placeWait = [] → s.flow.relayIn.stop = none →
      (∀ j, (s.flow.jobs.get j).state = .idle) →
      ∃ t i, exec .visit s = .next t
        ∧ t.flow.claims = Vector.putRow s.flow.claims e { s.flow.claims.get e with
            state := .held, holder := k, level := l, guard := (s.grants.get g).conds
            holdOff := some (after s.tab.now (s.tab.ecus.get e).holdOff), cause := none, phase := none
            closeDeadline := none }
        ∧ t.flow.hasNews .claim = true
        ∧ s.flow.entries.get i = none
        ∧ t.flow.entries = Vector.putRow s.flow.entries i (some
          { slot := k, ecu := e, code := m.msg.code, cls := c, grant := g
            binding := isBinding s.tab (governing s.tab .response k (some e) (some c))
            state := .sending, deadline := none, interims := 0, held := none })
        ∧ (t.flow.slots.get k).inbound = rest ∧ (t.flow.slots.get k).held = none)
  ∧ (∀ (s : State) (k : Slot) (m : InMsg) (rest : List InMsg) (e : EcuIx) (c : ServiceClass) (g : GrantIx)
        (f : Flow),
      s.tab.active = true → nextVisit s.tab s.flow = some k → (s.flow.slots.get k).inbound = m :: rest →
      evaluateHead (s.withFlow (visitSlot s.flow k)) k m = (.admits e c g, f) →
      ∃ i, s.flow.entries.get i = none ∧ (∀ j < i, (s.flow.entries.get j).isSome) ∧
        let v := admitBefore (s.withFlow (visitSlot s.flow k)) f k m e c g
        exec .visit s = .next ((v.withFlow (forward s.tab v.flow k i e c g m)).run [.placeFreed k]))
  ∧ (∀ (s : State) (f : Flow) (k : Slot) (m : InMsg) (e : EcuIx) (c : ServiceClass) (g : GrantIx),
    let t := s.tab
    let old := s.grants.get g
    let new := old.charged t.now
    let gs := Vector.putRow s.grants g new
    let probe := governing t .request k (some e) (some c)
    let content := match probe with
      | none => []
      | some p => m.msg.payload.take (min (t.probes.get p).limit t.contentCap)
    let keep := match probe with
      | none => 0
      | some p => if (t.probes.get p).binding then 32 + round4 content.length else 0
    let claimed := if new.state = .spent then
        supportCheck t gs keep (some e) (claimAdmit t keep (grantStep t keep f g old 0) k e c old) old
      else claimAdmit t keep f k e c old
    let a := sample t claimed s.fresh c
    let record : CaptureRecord :=
      { event := false, source := 0, slot := ixByte k, subject := some (ixByte e), cls := some c.byte
        code := m.msg.code, grant := some (ixByte g), outcome := none, reason := none, probe := probe.map ixByte
        stamp := a.1, length := m.msg.length, content := content }
    let captured := match probe with
      | some p => if (t.probes.get p).binding then captureWrite t a.2.1 record else captureOffer t a.2.1 record
      | none => if a.1.isSome then captureOffer t a.2.1 record else a.2.1
    admitBefore s f k m e c g = { s with grants := gs, fresh := a.2.2, flow := captured })
  ∧ (∀ (t : Tables) (keep : Nat) (f : Flow) (k : Slot) (e : EcuIx) (c : ServiceClass) (g : Grant),
    let x := f.claims.get e
    let dl := some (after t.now (t.ecus.get e).holdOff)
    let next := claimAdmit t keep f k e c g
    let raises := x.state = .held ∧ x.holder = k ∧ x.level = .adjust ∧ c = .program
    (∀ l, x.state = .free → c.level = some l →
      next = claimChanged t keep (f.modClaim e fun y => { y with
        state := .held, holder := k, level := l, guard := g.conds, holdOff := dl, cause := none, phase := none
        closeDeadline := none }) e .taken none [])
    ∧ (raises → next = claimChanged t keep (f.modClaim e fun y => { y with
        level := .program, guard := x.guard ||| g.conds, holdOff := dl }) e .raised none [])
    ∧ (x.inForce = true → x.holder = k → ¬raises → next = f.modClaim e fun y => { y with holdOff := dl })
    ∧ (x.inForce = true → x.holder ≠ k → next = f)
    ∧ (x.inForce = false → x.state ≠ .free ∨ c.level = none → next = f))
  ∧ (∀ (t : Tables) (gs : Vector Grant 64) (keep : Nat) (entering : Option EcuIx) (f : Flow) (old : Grant)
      (i : GrantIx) (outcome : Byte),
    supportCheck t gs keep entering f old = (List.finRange 32).foldl (fun h e =>
      let c := h.claims.get e
      if old.ecus.getLsbD e.val = true ∧ c.inForce = true ∧ c.holder = old.slot
        ∧ supported gs old.slot e c.level = false then claimRelease t keep (entering == some e) h e .support else h) f
    ∧ grantStep t keep f i old outcome = event t keep { f with news := f.news ||| 0x080 }
      { event := true, source := 4, slot := ixByte old.slot, subject := some (ixByte i), cls := none, code := 0
        grant := none, outcome := some outcome, reason := none, probe := none, stamp := none, length := 0
        content := [] })

/-- What a decision does to the head of a slot. The first hold makes the held-head record, with the slot's hold limit to
run from now; a later one replaces reason and ECU only (R92). A refusal that no probe captures, one offered under a
probe that is not binding, and one whose binding record is written remove the message, release it, and then place a
REFUSAL item, or hand it to the job of a JOB slot (R117), count it, clear the record and offer the place (R90, R91). One
whose binding record finds no room holds the head with reason CAPTURE, with the mark that the limit has passed when the
refusal was HELD_TOO_LONG; the mark is never taken back (R90, R92, R95). An event that concerns held heads lists them in
rising slot number from the visit position (R94). An evaluation again takes the first head that is due (the model's one
list, first in first out, every event with a run of its own: log 10) and evaluates it, or refuses it HELD_TOO_LONG when
its limit has passed; a head held no longer is left alone (R94). A hold deadline refuses its head HELD_TOO_LONG (R95).
The reasons have the codes 1 to 14 of R2. -/
def Obligations.HeadsRefusedAndHeld : Prop :=
  ((∀ (s : State) (k : Slot) (m : InMsg) (rest : List InMsg) (r : HoldReason) (e : EcuIx) (f : Flow),
      (s.flow.slots.get k).inbound = m :: rest → evaluateHead s k m = (.hold r e, f) →
      let limit := (s.tab.testers.get k).holdLimit
      let first : Held :=
        { reason := r, ecu := some e, firstHold := s.tab.now, passed := false
          deadline := if limit.count = 0 then none else some (after s.tab.now limit) }
      evaluate s k = s.withFlow (f.modSlot k fun x => { x with held := some (match x.held with
        | none => first
        | some h => { h with reason := r, ecu := some e }) }))
    ∧ (∀ (s : State) (k : Slot) (m : InMsg) (rest : List InMsg) (r : Reason) (e : Option EcuIx)
        (c : Option ServiceClass) (f : Flow),
      (s.flow.slots.get k).inbound = m :: rest → evaluateHead s k m = (.refuse r e c, f) →
      let a := headRefuse s.tab f k r e c
      evaluate s k = (s.withFlow a.1).run a.2)
    ∧ (∀ (s : State) (k : Slot), s.tab.active = true → nextVisit s.tab s.flow = some k →
      exec .visit s = .next (evaluate (s.withFlow (visitSlot s.flow k)) k))
    ∧ (∀ (t : Tables) (f : Flow) (k : Slot) (m : InMsg) (rest : List InMsg) (r : Reason) (e : Option EcuIx)
        (c : Option ServiceClass), (f.slots.get k).inbound = m :: rest →
      let limit := (t.testers.get k).holdLimit
      let removed := fun g : Flow => (g.modSlot k (fun x => { x with inbound := rest }),
        [Act.release m.msg.charge, .refused k r m.msg.code m.target e])
      let first : Held :=
        { reason := .capture, ecu := e, firstHold := t.now, passed := r == .heldTooLong
          deadline := if limit.count = 0 then none else some (after t.now limit) }
      (governing t .refusal k e c = none → headRefuse t f k r e c = removed f)
      ∧ (∀ i, governing t .refusal k e c = some i →
        let record := refusalRecord t k e c m.msg.code none r (if m.msg.malformed then some m.msg.length else none)
          (probeTerms t i)
        ((t.probes.get i).binding = false → headRefuse t f k r e c = removed (captureOffer t f record))
        ∧ ((t.probes.get i).binding = true →
          let a := captureBinding t f record
          (a.1 = true → headRefuse t f k r e c = removed a.2)
          ∧ (a.1 = false → headRefuse t f k r e c = (a.2.modSlot k (fun x => { x with held := some (match x.held with
              | none => first
              | some h => { h with reason := .capture, ecu := e, passed := h.passed || r == .heldTooLong }) }), [])))))
    ∧ (∀ (t : Tables) (f : Flow) (k : Slot) (r : Reason) (code target : Byte) (e : Option EcuIx),
      (t.testers.get k).kind = .job →
      let a := jobItem t f k (.refusal [t.marker, code, r.byte]) .head
      act t (.refused k r code target e) f = (a.1.modSlot k (fun x => { x with
          refused := x.refused + 1, held := none
          heldTooLong := if r = .heldTooLong then x.heldTooLong + 1 else x.heldTooLong }), a.2 ++ [.placeFreed k]))
    ∧ (∀ (t : Tables) (f : Flow) (k : Slot) (r : Reason) (code target : Byte) (e : Option EcuIx),
      (t.testers.get k).kind ≠ .job →
      act t (.refused k r code target e) f = ({ f.modSlot k (fun x => { x with
          items := x.items ++
            [{ body := .refusal [t.marker, code, r.byte], source := target, ecu := e, order := f.placed }]
          refused := x.refused + 1, held := none
          heldTooLong := x.heldTooLong + (if r = .heldTooLong then 1 else 0) }) with placed := f.placed + 1 },
        [.placeFreed k])))
  ∧ ((∀ (s : State) (k : Slot) (rest : List Slot), s.tab.active = true → s.flow.again = k :: rest →
      let u := s.withFlow { s.flow with again := rest }
      ((s.flow.slots.get k).held = none → exec .evaluationAgain s = .next u)
      ∧ (∀ h, (s.flow.slots.get k).held = some h →
        (h.passed = false → exec .evaluationAgain s = .next (evaluate u k))
        ∧ (∀ m ms, h.passed = true → (s.flow.slots.get k).inbound = m :: ms →
          let a := headRefuse s.tab u.flow k .heldTooLong h.ecu (some (classOf s.tab m.msg.code))
          exec .evaluationAgain s = .next ((u.withFlow a.1).run a.2))))
    ∧ (∀ s : State, s.tab.active = false ∨ s.flow.again = [] → exec .evaluationAgain s = .next s)
    ∧ (∀ (k : Slot) (dt : Nat) (s : State),
      let u := s.advance dt
      (∀ h m ms, s.tab.active = true → (s.flow.slots.get k).held = some h → h.passed = false →
        expired u.tab.now h.deadline = true → (s.flow.slots.get k).inbound = m :: ms →
        let a := headRefuse u.tab u.flow k .heldTooLong h.ecu (some (classOf s.tab m.msg.code))
        exec (.holdDeadline k dt) s = .next ((u.withFlow a.1).run a.2))
      ∧ (s.tab.active = false ∨ (∀ h, (s.flow.slots.get k).held = some h → h.passed = true
          ∨ expired u.tab.now h.deadline = false) → exec (.holdDeadline k dt) s = .next u)))
  ∧ (∀ (f : Flow) (p : Slot → Held → Bool),
    f.markHeads p = { f with again := f.again ++ ((List.finRange 16).map fun n => f.visitPos + n).filter fun k =>
      match (f.slots.get k).held with
      | none => false
      | some h => p k h })
  ∧ ([Reason.noEcu, .noGrant, .suspended, .condition, .claimed, .closing, .heldTooLong, .timeout, .overflow,
    .stopping, .malformed, .barred, .noRoom, .undelivered].map Reason.byte = [1, 2, 3, 4, 5, 6, 7, 8, 9, 10, 11, 12,
    13, 14])

/-! ### Outstanding entries, claims, grants -/

/-- The response deadline of an entry in AWAITING counts a timeout and ends it TIMEOUT; an orphan just ends (R108).
Entries in DELIVERING are offered room in the order in which they entered it, once room has returned (R110, R184;
log 22). A refusal in place of a response ends its entry and places a REFUSAL item from the ECU; under a probe that is not
binding the record is offered, written or lost, and the item placed (R111); with a binding record that finds no room the
entry holds it in DELIVERING, under the probe's terms of that offer, until the record is written (R111, R177); that the
end comes before the item is placed is the model's choice (log 36). An orphan just ends, with no record and no item
(R112). At the end of an entry it is free, the heads held OUTSTANDING, and those held PAIR for its slot and ECU, are
listed for evaluation, and a closing that waits for it goes on: to its end with an empty close message, else to the
close buffer (R93, R113, R129). The entries of a slot that is detached or whose job ends become ORPHANED in the phase
they have, in rising number (the model's choice, log 31); one in DELIVERING ends and releases the response it holds
(R112). -/
def Obligations.EntriesEnd : Prop :=
  (∀ (i : EntryIx) (dt : Nat) (s : State) (x : Entry), s.flow.entries.get i = some x →
    let u := s.advance dt
    let counted := u.flow.countEcu x.ecu fun c => { c with timeouts := c.timeouts + 1 }
    (x.state = .awaiting → expired u.tab.now x.deadline = true →
      exec (.responseDeadline i dt) s = .next ((u.withFlow counted).run [.refuseEntry i .timeout]))
    ∧ (x.state = .orphaned .awaiting → expired u.tab.now x.deadline = true →
      exec (.responseDeadline i dt) s = .next (u.withFlow (entryEnd u.tab counted i)))
    ∧ ((x.state ≠ .awaiting ∧ x.state ≠ .orphaned .awaiting) ∨ expired u.tab.now x.deadline = false →
      exec (.responseDeadline i dt) s = .next u))
  ∧ (∀ s : State,
    (s.tab.active = true → s.flow.roomReport = true →
      exec .deliveringOffer s =
        .next ((s.withFlow { s.flow with roomReport := false }).run (s.flow.delivering.map .deliver)))
    ∧ (s.tab.active = false ∨ s.flow.roomReport = false → exec .deliveringOffer s = .next s))
  ∧ (∀ (t : Tables) (f : Flow) (i : EntryIx) (x : Entry) (r : Reason), f.entries.get i = some x →
    let probe := governing t .refusal x.slot (some x.ecu) (some x.cls)
    let places := fun g : Flow => (entryEnd t g i, [Act.placeItem x.slot (.refusal [t.marker, x.code, r.byte])
      (t.ecus.get x.ecu).node (some x.ecu) (.entry x.ecu)])
    let kept := fun g : ProbeTerms =>
      captureBinding t f (refusalRecord t x.slot (some x.ecu) (some x.cls) x.code (some x.grant) r none g)
    (x.state.isOrphan = true → act t (.refuseEntry i r) f = (entryEnd t f i, []))
    ∧ (x.state = .sending ∨ x.state = .awaiting ∨ x.state = .receiving →
      (probe = none → act t (.refuseEntry i r) f = places f)
      ∧ (∀ p, probe = some p → (t.probes.get p).binding = true →
        let a := kept (probeTerms t p)
        (a.1 = true → act t (.refuseEntry i r) f = places a.2)
        ∧ (a.1 = false →
          act t (.refuseEntry i r) f = (toDelivering a.2 i (.refusal r (probeTerms t p)), []))))
    ∧ (∀ g, x.state = .delivering → x.held = some (.refusal r g) →
      ((kept g).1 = true → act t (.deliver i) f = places (kept g).2)
      ∧ ((kept g).1 = false → act t (.deliver i) f = ((kept g).2, []))))
  ∧ (∀ (t : Tables) (f : Flow) (i : EntryIx), (entryEnd t f i).entries.get i = none)
  ∧ (∀ (t : Tables) (f : Flow) (i : EntryIx) (x : Entry), f.entries.get i = some x →
    let g := Flow.markHeads
      { f with entries := Vector.putRow f.entries i none, delivering := f.delivering.filter (· != i) }
      fun k h => h.reason == .outstanding || (h.reason == .pair && k == x.slot && h.ecu == some x.ecu)
    let c := f.claims.get x.ecu
    let waits := c.state = .closing ∧ c.phase = some .waitEntry ∧ c.holder = x.slot
    (¬waits → entryEnd t f i = g)
    ∧ (waits → (t.ecus.get x.ecu).closeMsg = [] → entryEnd t f i = closeEnd t 0 g x.ecu .empty none)
    ∧ (waits → (t.ecus.get x.ecu).closeMsg ≠ [] → entryEnd t f i = enterBuffer t g x.ecu))
  ∧ (∀ (t : Tables) (f : Flow) (k : Slot) (e : EntryIx) (x : Entry), f.entries.get e = some x →
    let goes := fun y : EntryState => (f.modEntry e (fun z => { z with state := y }), ([] : List Act))
    orphanSlot t f k = (List.finRange 40).foldl (fun a i => match a.1.entries.get i with
      | none => a
      | some y => if y.slot = k then ((orphanEntry t a.1 i).1, a.2 ++ (orphanEntry t a.1 i).2) else a) (f, [])
    ∧ (x.state = .sending → orphanEntry t f e = goes (.orphaned .sending))
    ∧ (x.state = .awaiting → orphanEntry t f e = goes (.orphaned .awaiting))
    ∧ (x.state = .receiving → orphanEntry t f e = goes (.orphaned .receiving))
    ∧ (x.state.isOrphan = true → orphanEntry t f e = (f, []))
    ∧ (x.state = .delivering → orphanEntry t f e = (entryEnd t f e, match x.held with
      | some (.response m) => [.release m.charge]
      | _ => [])))
  ∧ (∀ (t : Tables) (f : Flow) (i : EntryIx) (x : Entry) (r : Reason) (p : ProbeIx), f.entries.get i = some x →
    x.state = .sending ∨ x.state = .awaiting ∨ x.state = .receiving →
    governing t .refusal x.slot (some x.ecu) (some x.cls) = some p → (t.probes.get p).binding = false →
    act t (.refuseEntry i r) f = (entryEnd t (captureOffer t f
      (refusalRecord t x.slot (some x.ecu) (some x.cls) x.code (some x.grant) r none (probeTerms t p))) i,
      [Act.placeItem x.slot (.refusal [t.marker, x.code, r.byte]) (t.ecus.get x.ecu).node (some x.ecu) (.entry x.ecu)]))

/-- The hold-off of a claim in force releases it with cause HOLD_OFF: it waits for an entry of its holder to the ECU, or
takes its port's close buffer, or stands in the close list, or, with an empty close message, is FREE at once (R125,
R127, R129, R130). The close deadline ends a closing that awaits its answer with NO_ANSWER (R132, R133). A grant whose
deadline is reached becomes EXPIRED with a remaining lifetime of 0 and sets GRANT; no other grant changes; a claim of
its slot on one of its ECUs that no other grant supports is in force no longer, and every other claim in force stays
(R46, R47, R54). In general, a release in force moves the claim to CLOSING with its cause and tells it, and then the
closing waits for the holder's entry, ends EMPTY, or goes to the close buffer (R127, R129). The end of a closing passes
the close buffer on, writes every waiting RELEASE_CLAIM order DONE with cause, outcome and answer byte, and tells the
FREED claim (R133, R135). A claim change lists the heads held CONDITION, CLAIMED or CLOSING for its ECU, sets CLAIM and
offers an event record (R93, R136, R180; its class field: log 19). Release causes, close outcomes and claim events have
the codes of R121, R136, R210 and R211. A detach or a job's end releases every claim of its slot (R128), in rising ECU
number (the model's choice, log 31). In full, an expiry offers the grant's event record, then releases claims, and then
lists the held head of the grant's slot (R47, R54; the order is the model's choice, logs 10, 36). -/
def Obligations.ClaimAndGrantTimers : Prop :=
  ((∀ (e : EcuIx) (dt : Nat) (s : State),
      let u := s.advance dt
      let c := s.flow.claims.get e
      let ecu := s.tab.ecus.get e
      let buf := (s.flow.vbs.get ecu.port).closeBuf
      (s.tab.active = true → c.inForce = true → expired u.tab.now c.holdOff = true → (∀ b, buf = some b → b.ecu ≠ e) →
        ∃ t, exec (.holdOffExpiry e dt) s = .next t ∧ t.flow.hasNews .claim = true ∧ t.tab = u.tab
          ∧ t.grants = s.grants ∧ t.flow.entries = s.flow.entries
          ∧ (∀ i, i ≠ e → t.flow.claims.get i = s.flow.claims.get i)
          ∧ ((s.flow.entryOf c.holder e).isSome → t.flow.claims.get e =
            { c with state := .closing, cause := some .holdOff, holdOff := none, phase := some .waitEntry })
          ∧ (s.flow.entryOf c.holder e = none →
            (ecu.closeMsg = [] → t.flow.claims.get e =
              { c with state := .free, cause := none, holdOff := none, phase := none, closeDeadline := none
                       outcome := .empty, answer := none })
            ∧ (ecu.closeMsg ≠ [] → buf = none →
              t.flow.claims.get e =
                { c with state := .closing, cause := some .holdOff, holdOff := none, phase := some .sending }
              ∧ (t.flow.vbs.get ecu.port).closeBuf = some { ecu := e, bytes := ecu.closeMsg })
            ∧ (ecu.closeMsg ≠ [] → buf.isSome →
              t.flow.claims.get e =
                { c with state := .closing, cause := some .holdOff, holdOff := none, phase := some .waitBuffer }
              ∧ (t.flow.vbs.get ecu.port).closeList = (s.flow.vbs.get ecu.port).closeList ++ [e])))
      ∧ (s.tab.active = false ∨ c.inForce = false ∨ expired u.tab.now c.holdOff = false →
        exec (.holdOffExpiry e dt) s = .next u))
    ∧ (∀ (e : EcuIx) (dt : Nat) (s : State),
      let u := s.advance dt
      let c := s.flow.claims.get e
      let v := (s.tab.ecus.get e).port
      (∀ b, s.tab.active = true → c.state = .closing → c.phase = some .awaiting → expired u.tab.now c.closeDeadline = true →
        (s.flow.vbs.get v).closeBuf = some b → b.ecu = e → e ∉ (s.flow.vbs.get v).closeList →
        ∃ t, exec (.closeDeadline e dt) s = .next t ∧ t.flow.hasNews .claim = true ∧ t.tab = u.tab
          ∧ t.flow.claims.get e =
            { c with state := .free, cause := none, phase := none, closeDeadline := none, outcome := .noAnswer
                     answer := none }
          ∧ (∀ n rest, (s.flow.vbs.get v).closeList = n :: rest →
            (t.flow.vbs.get v).closeBuf = some { ecu := n, bytes := (s.tab.ecus.get n).closeMsg }
            ∧ (t.flow.vbs.get v).closeList = rest ∧ (t.flow.claims.get n).phase = some .sending)
          ∧ ((s.flow.vbs.get v).closeList = [] → (t.flow.vbs.get v).closeBuf = none))
      ∧ (s.tab.active = false ∨ c.state ≠ .closing ∨ c.phase ≠ some .awaiting ∨ expired u.tab.now c.closeDeadline = false →
        exec (.closeDeadline e dt) s = .next u)))
  ∧ (∀ (i : GrantIx) (dt : Nat) (s : State),
      let u := s.advance dt
      let g := s.grants.get i
      (∀ d, s.tab.active = true → g.state = .active ∨ g.state = .suspended → g.life = .running d →
        reached u.tab.now d = true →
        ∃ t, exec (.grantExpiry i dt) s = .next t ∧ t.flow.hasNews .grant = true ∧ t.tab = u.tab
          ∧ t.grants = Vector.putRow s.grants i { g with state := .expired, life := .held 0 }
          ∧ ∀ e, (s.flow.claims.get e).inForce = true →
            let c := s.flow.claims.get e
            if g.ecus.getLsbD e.val = true ∧ c.holder = g.slot ∧ supported t.grants g.slot e c.level = false then
              (t.flow.claims.get e).inForce = false
            else (t.flow.claims.get e).Same c)
      ∧ (s.tab.active = false ∨ (g.state ≠ .active ∧ g.state ≠ .suspended) ∨ expired u.tab.now (match g.life with
          | .running d => some d
          | _ => none) = false → exec (.grantExpiry i dt) s = .next u))
  ∧ (∀ (t : Tables) (keep : Nat) (f : Flow) (e : EcuIx) (o : CloseOutcome) (answer : Option Byte),
    let cause := (f.claims.get e).cause
    let freed := passBuffer t (f.modClaim e fun c => { c with
      outcome := o, answer, state := .free, cause := none, phase := none, closeDeadline := none }) e
    let detail := [orOnes (cause.map ReleaseCause.byte), o.byte] ++ optByteBytes answer
    let ended := (f.releaseWaits.filter fun w => w.ecu == e).foldl (fun g w => orderDone t g w.orderSlot .ok detail)
      { freed with releaseWaits := f.releaseWaits.filter fun w => w.ecu != e }
    closeEnd t keep f e o answer = claimChanged t keep ended e .freed (some o.byte) answer.toList)
  ∧ (∀ (t : Tables) (keep : Nat) (entering : Bool) (f : Flow) (e : EcuIx) (cause : ReleaseCause),
    let c := f.claims.get e
    let next := claimRelease t keep entering f e cause
    let closing := claimChanged t keep (f.modClaim e fun c => { c with
      state := .closing, cause := some cause, holdOff := none, phase := some .waitEntry }) e .released
        (some cause.byte) []
    let waits := entering = true ∨ (f.entryOf c.holder e).isSome
    (c.inForce = false → next = f)
    ∧ (c.inForce = true → waits → next = closing)
    ∧ (c.inForce = true → ¬waits → (t.ecus.get e).closeMsg = [] → next = closeEnd t keep closing e .empty none)
    ∧ (c.inForce = true → ¬waits → (t.ecus.get e).closeMsg ≠ [] → next = enterBuffer t closing e))
  ∧ (∀ (t : Tables) (keep : Nat) (f : Flow) (e : EcuIx) (ev : ClaimEvent) (reason : Option Byte)
      (content : List Byte),
    let c := f.claims.get e
    let marked := f.markHeads fun _ h =>
      (h.reason == .condition || h.reason == .claimed || h.reason == .closing) && h.ecu == some e
    claimChanged t keep f e ev reason content = event t keep { marked with news := f.news ||| 0x040 }
      { event := true, source := 5, slot := ixByte c.holder, subject := some (ixByte e), cls := some c.level.cls.byte
        code := 0, grant := none, outcome := some ev.byte, reason, probe := none, stamp := none, length := 0, content })
  ∧ (∀ (t : Tables) (f : Flow) (k : Slot) (cause : ReleaseCause),
    releaseClaimsOf t f k cause = (List.finRange 32).foldl (fun g e =>
      if (g.claims.get e).holder = k then claimRelease t 0 false g e cause else g) f)
  ∧ (∀ (i : GrantIx) (dt : Nat) (s : State) (d : Word),
    let u := s.advance dt
    let g := s.grants.get i
    let gs := Vector.putRow s.grants i { g with state := .expired, life := .held 0 }
    s.tab.active = true → g.state = .active ∨ g.state = .suspended → g.life = .running d → reached u.tab.now d = true →
    exec (.grantExpiry i dt) s = .next { u with
      grants := gs
      flow := (supportCheck u.tab gs 0 none (grantStep u.tab 0 u.flow i g 1) g).markHeads fun j _ => j == g.slot })
  ∧ [ReleaseCause.holdOff, .order, .detach, .jobEnd, .support, .stopping].map ReleaseCause.byte = [0, 1, 2, 3, 4, 5]
  ∧ [CloseOutcome.noOutcome, .empty, .answered, .noAnswer, .undelivered].map CloseOutcome.byte = [0, 1, 2, 3, 4]
  ∧ [ClaimEvent.taken, .raised, .halted, .resumed, .released, .freed].map ClaimEvent.byte = [0, 1, 2, 3, 4, 5]

/-! ### Jobs -/

/-- A RUNNING job at a step it can read (R161 to R163, R168 to R171): the command of another kind does nothing (the
model's choice, log 26), a false guard skips the step, a true one counts it and carries it out as its kind says. The
step is the 32 bytes of the pool step at the list's start plus the current step; pool step 0, kinds other than 1 to 6,
guards other than 0 to 3, a REPEAT or END within a span (R161, R163, R209, R212) and an absent pool (R160) make it a
step it cannot carry out. ALWAYS holds on every verdict, the other guards as the table of R162 says. -/
def Obligations.JobStepsCarriedOut : Prop :=
  (∀ (j : JobIx) (s : State),
    let b := s.flow.jobs.get j
    (∀ k : StepKind, s.tab.ctl ≠ .running ∨ b.state ≠ .running → exec (k.command j) s = .next s)
    ∧ (∀ k g bs, s.tab.ctl = .running → b.state = .running → readStep s.tab s.flow j = .step k g bs →
      let u := s.withFlow (s.flow.modJob j fun x => { x with steps := x.steps + 1 })
      let put := fun h : Job → Job => u.withFlow (u.flow.modJob j h)
      let bad := (Host.Outcome.next (u.run [.endJob j .badStep 0 b.cur]) : Host.Outcome State Fault Refusal)
      let finished := fun v : State => (Host.Outcome.next (v.run [.stepDone j]) : Host.Outcome State Fault Refusal)
      (∀ k', k' ≠ k → exec (k'.command j) s = .next s)
      ∧ (g.holds b.verdict = false → exec (k.command j) s = finished s)
      ∧ (g.holds b.verdict = true →
        (k = .rep →
          let count := numAt bs 2 2
          let span := (byteAt bs 4).toNat
          let ok := 1 ≤ count ∧ 1 ≤ span ∧ span ≤ 16 ∧ b.cur + span < b.listLength
          (ok → exec (.jobRepeat j) s = .next (put fun x => { x with
            rep := some { start := b.cur + 1, span := span, count := count, pass := 0 }, cur := b.cur + 1 }))
          ∧ (¬ok → exec (.jobRepeat j) s = bad))
        ∧ (k = .waitTime →
          (getDuration bs 2 = none → exec (.jobWaitTime j) s = bad)
          ∧ (∀ d, getDuration bs 2 = some d → d.count = 0 → exec (.jobWaitTime j) s = finished u)
          ∧ (∀ d, getDuration bs 2 = some d → d.count ≠ 0 → exec (.jobWaitTime j) s = .next (put fun x =>
            { x with state := .waiting .time, deadline := some (after s.tab.now d) })))
        ∧ (k = .waitCondition →
          (getSet 6 (byteAt bs 2) = none ∨ getDuration bs 4 = none → exec (.jobWaitCondition j) s = bad)
          ∧ (∀ cs d, getSet 6 (byteAt bs 2) = some cs → getDuration bs 4 = some d → satisfied s.tab cs = true →
            exec (.jobWaitCondition j) s = finished (put fun x => { x with verdict := .positive }))
          ∧ (∀ cs d, getSet 6 (byteAt bs 2) = some cs → getDuration bs 4 = some d → satisfied s.tab cs = false →
            exec (.jobWaitCondition j) s = .next (put fun x => { x with
              state := .waiting .condition, condSet := cs
              deadline := if d.count = 0 then none else some (after s.tab.now d) })))
        ∧ (k = .sync →
          (b.requests = [] → exec (.jobSync j) s = finished u)
          ∧ (b.requests ≠ [] → exec (.jobSync j) s = .next (put fun x => { x with state := .waiting .sync })))
        ∧ (k = .fin → exec (.jobEnd j) s = .next (u.run [.endJob j .completed (byteAt bs 2) b.cur]))))
    ∧ (s.tab.ctl = .running → b.state = .running → readStep s.tab s.flow j = .bad →
      exec (.badStep j) s = .next (s.run [.endJob j .badStep 0 b.cur]))
    ∧ (s.tab.ctl ≠ .running ∨ b.state ≠ .running ∨ readStep s.tab s.flow j ≠ .bad → exec (.badStep j) s = .next s))
  ∧ (∀ (t : Tables) (f : Flow) (j : JobIx) (p : Pool), t.dir.bind (·.pool) = some p →
    let b := f.jobs.get j
    let n := b.listStart + b.cur
    let bs := ramRead f.ram (p.leaf + 32 * n) 32
    let kind : Option StepKind := [none, some .send, some .rep, some .waitTime, some .waitCondition, some .sync,
      some .fin].getD (byteAt bs 0).toNat none
    let guard : Option Guard :=
      [some .always, some .ifPositive, some .ifNegative, some .ifNotPositive].getD (byteAt bs 1).toNat none
    let inSpan := ∃ r, b.rep = some r ∧ r.start ≤ b.cur ∧ b.cur < r.start + r.span
    (n = 0 ∨ kind = none ∨ guard = none ∨ inSpan ∧ (kind = some .rep ∨ kind = some .fin) → readStep t f j = .bad)
    ∧ (∀ k g, n ≠ 0 → kind = some k → guard = some g → ¬(inSpan ∧ (k = .rep ∨ k = .fin)) →
      readStep t f j = .step k g bs))
  ∧ (∀ (t : Tables) (f : Flow) (j : JobIx), t.dir.bind (·.pool) = none → readStep t f j = .bad)
  ∧ (∀ v : Verdict, Guard.holds .always v = true ∧ (Guard.holds .ifPositive v = true ↔ v = .positive)
    ∧ (Guard.holds .ifNegative v = true ↔ v = .negative) ∧ (Guard.holds .ifNotPositive v = true ↔ v ≠ .positive))

/-- A SEND with a true guard (R164, R165): its message is charged to the job's slot and appended, or waits for cells in
the waiting list; one whose fields or pass counter are out of range ends the job BAD_STEP. A SEND to an invalid ECU gets
the verdict REFUSED and, in its result buffer, a refusal with reason NO_ECU, and ends the step, or the job with
stop-on-failure, or with MEMORY_ERROR (the stages: log 21). The fields of the step stand where R212 puts them; a field
whose option bit is clear is not read. The message is the inline bytes and then the data at its offset plus the pass
times its length, with the final length on the last pass of a repeat; a message of a length out of 1 to 2,048 is
malformed; the pass counter adds the pass to its start value at its position (R22, R164). A charged job appends its
message when its slot's inbound queue has a place, with a record of the request, and then waits for the request or goes
on; without a place it waits for one (R159). -/
def Obligations.JobSendIssues : Prop :=
  (∀ (j : JobIx) (s : State) (g : Guard) (bs : List Byte) (k : Slot),
      let b := s.flow.jobs.get j
      let u := s.withFlow (s.flow.modJob j fun x => { x with steps := x.steps + 1 })
      s.tab.ctl = .running → b.state = .running → b.slot = some k → readStep s.tab s.flow j = .step .send g bs →
      g.holds b.verdict = true →
        (getSend bs = none → exec (.jobSend j) s = .next (u.run [.endJob j .badStep 0 b.cur]))
        ∧ (∀ x, getSend bs = some x → (s.tab.ecus.get x.ecu).valid = true →
          (buildSend s.tab u.flow j x = none → exec (.jobSend j) s = .next (u.run [.endJob j .badStep 0 b.cur]))
          ∧ (∀ m, buildSend s.tab u.flow j x = some m →
            let grade := (classOf s.tab m.code).grade
            let cells := if m.malformed then 1 else cellsFor m.length
            (∀ f h, charge s.tab u.flow k grade cells = some (f, h) →
              let a := act s.tab (.jobAppend j) (f.modJob j fun y =>
                { y with build := some { m with charge := some h } })
              exec (.jobSend j) s = .next ((s.withFlow a.1).run a.2))
            ∧ (charge s.tab u.flow k grade cells = none →
              exec (.jobSend j) s = .next (s.withFlow { u.flow.modJob j (fun y =>
                  { y with build := some m, state := .waiting .cells }) with
                waiting := s.flow.waiting ++
                  [{ who := .job j, slot := k, grade := grade, cells := cells, since := s.tab.now }] })))))
  ∧ (∀ (t : Tables) (f : Flow) (j : JobIx) (k : Slot) (m : Build) (h : Charge),
      let b := f.jobs.get j
      b.slot = some k → b.state ≠ .idle → b.build = some m → m.charge = some h →
        (f.inboundFree k = false →
          act t (.jobAppend j) f = (f.modJob j (fun x => { x with state := .waiting .place }), []))
        ∧ (f.inboundFree k = true →
          act t (.jobAppend j) f =
            ((f.modSlot k fun x => { x with inbound := x.inbound ++ [{ target := m.target, msg :=
                { charge := h, length := m.length, malformed := m.malformed, code := m.code, payload := m.payload } }]
              }).modJob j (fun x => { x with
                build := none
                requests := x.requests ++ [{ step := b.cur, pass := b.pass, ecu := m.ecu, result := m.result
                                             stop := m.stop, stage := .queued, waited := m.wait }]
                state := if m.wait then .waiting .request else .running }),
             if m.wait then [] else [.stepDone j])))
  ∧ (∀ (j : JobIx) (s : State) (g : Guard) (bs : List Byte) (k : Slot),
      let b := s.flow.jobs.get j
      let u := s.withFlow (s.flow.modJob j fun x => { x with steps := x.steps + 1 })
      s.tab.ctl = .running → b.state = .running → b.slot = some k → readStep s.tab s.flow j = .step .send g bs →
      g.holds b.verdict = true →
        (∀ x, getSend bs = some x → (s.tab.ecus.get x.ecu).valid = false →
          let copy := writeResult s.tab (u.flow.modJob j fun y => { y with verdict := .refused }) j x.result 3
            [s.tab.marker, firstByte x.inlined, 0x01]
          exec (.jobSend j) s = .next ((u.withFlow copy.2).run
            (if copy.1 = true then [.endJob j .memoryError 0 b.cur]
            else if x.stop then [.endJob j .failed 0 b.cur] else [.stepDone j]))))
  ∧ (∀ bs : List Byte,
    let has := fun n : Nat => (byteAt bs 12).getLsbD n
    let bad := 32 ≤ (byteAt bs 2).toNat ∨ 8 < (byteAt bs 3).toNat
      ∨ has 0 = true ∧ (numAt bs 14 2 = 0 ∨ 2048 < numAt bs 14 2) ∨ has 0 = true ∧ has 1 = true ∧ 2048 < numAt bs 20 2
      ∨ has 2 = true ∧ 2047 < numAt bs 22 2 ∨ has 3 = true ∧ 2048 < numAt bs 28 2
    (bad → getSend bs = none)
    ∧ (¬bad → ∃ e : EcuIx, e.val = (byteAt bs 2).toNat ∧ getSend bs = some
      { ecu := e, inlined := (bs.drop 4).take (byteAt bs 3).toNat
        data := if has 0 then some
            { offset := numAt bs 16 4, length := numAt bs 14 2, final := if has 1 then some (numAt bs 20 2) else none }
          else none
        counter := if has 2 then some { position := numAt bs 22 2, start := byteAt bs 13 } else none
        result := if has 3 then some { offset := numAt bs 24 4, max := numAt bs 28 2 } else none
        wait := has 4, stop := has 5 }))
  ∧ (∀ (t : Tables) (f : Flow) (j : JobIx) (x : SendStep) (d : Directory), t.dir = some d →
    let b := f.jobs.get j
    let pass := match b.rep with
      | none => 0
      | some r => r.pass
    let size := match x.data, b.rep with
      | none, _ => 0
      | some y, none => y.length
      | some y, some r => if r.pass + 1 = r.count then y.final.getD y.length else y.length
    let read := fun n : Nat => match x.data with
      | none => []
      | some y => ramRead f.ram (d.base + y.offset + pass * y.length) n
    let len := x.inlined.length + size
    let built := fun (malformed : Bool) (code : Byte) (payload : List Byte) => some
      ({ target := (t.ecus.get x.ecu).node, ecu := x.ecu, length := len, malformed, code, payload, charge := none
         result := x.result, wait := x.wait, stop := x.stop } : Build)
    let pay := x.inlined ++ read size
    (len = 0 → buildSend t f j x = built true 0 [])
    ∧ (2048 < len → buildSend t f j x = built true (firstByte (x.inlined ++ read 1)) [])
    ∧ (1 ≤ len → len ≤ 2048 →
      (x.counter = none → buildSend t f j x = built false (firstByte pay) pay)
      ∧ (∀ c, x.counter = some c → len ≤ c.position → buildSend t f j x = none)
      ∧ (∀ c, x.counter = some c → c.position < len →
        let pay := pay.set c.position (c.start + BitVec.ofNat 8 pass)
        buildSend t f j x = built false (firstByte pay) pay)))

/-- The job unit takes a RESPONSE or REFUSAL item of its slot as it is placed (R117, R166): the verdict is set by the
item and the ECU's negative marker (R162), the result buffer takes the full length and the payload up to its maximum
(R167; the memory error: log 21), a response's cells are released, the record is removed, and then the job ends
MEMORY_ERROR, or FAILED with stop-on-failure and another verdict than POSITIVE, or finishes the SEND or SYNC step that
waits, or goes on as it was. An INTERIM item, and one that no record awaits, are removed with no further effect. That
the claimants which the release of a response's cells charged go on only after the job's own effects is the model's
reading (log 16). -/
def Obligations.JobItemTaken : Prop :=
  (∀ (t : Tables) (f : Flow) (k : Slot) (b : ItemBody) (src : Byte) (e : Option EcuIx) (o : ItemOrigin),
    (t.testers.get k).kind = .job → act t (.placeItem k b src e o) f = jobItem t f k b o)
  ∧ (∀ (t : Tables) (f : Flow) (k : Slot) (o : ItemOrigin),
    let awaited := ∃ j, jobOf f k = some j ∧ ∃ r ∈ (f.jobs.get j).requests, o.ofReq r = true
    (∀ pay, jobItem t f k (.interim pay) o = (f, []))
    ∧ (¬awaited → (∀ m, jobItem t f k (.response m) o = (f, [.release m.charge]))
      ∧ ∀ bs, jobItem t f k (.refusal bs) o = (f, [])))
  ∧ (∀ (t : Tables) (f : Flow) (k : Slot) (b : ItemBody) (o : ItemOrigin) (j : JobIx) (r : Req),
    (∀ pay, b ≠ .interim pay) → jobOf f k = some j → (f.jobs.get j).requests.find? o.ofReq = some r →
    let v := itemVerdict t r.ecu b
    let copy := writeResult t (f.modJob j fun x => { x with verdict := v }) j r.result b.content.1 b.content.2
    let freed := match b with
      | .response m => act t (.release m.charge) copy.2
      | _ => (copy.2, [])
    let g := freed.1.modJob j fun x => { x with requests := x.requests.eraseP o.ofReq }
    let y := g.jobs.get j
    let goesOn : List Act :=
      if copy.1 = true then [.endJob j .memoryError 0 r.step]
      else if r.stop = true ∧ v ≠ .positive then [.endJob j .failed 0 r.step]
      else if r.waited = true ∧ y.state = .waiting .request ∨ y.state = .waiting .sync ∧ y.requests = [] then [.stepDone j]
      else []
    jobItem t f k b o = (g, goesOn ++ freed.2))
  ∧ (∀ (t : Tables) (e : EcuIx),
    (∀ m : Message, itemVerdict t e (.response m) =
      if m.payload ≠ [] ∧ m.payload.head? = (t.ecus.get e).negMarker then .negative else .positive)
    ∧ ∀ (marker code : Byte) (r : Reason), itemVerdict t e (.refusal [marker, code, r.byte]) =
      match r with
      | .timeout => .timeout
      | .overflow => .overflow
      | .undelivered => .undelivered
      | _ => .refused)
  ∧ (∀ (t : Tables) (f : Flow) (j : JobIx) (b : ResultBuf) (n : Nat) (pay : List Byte),
    writeResult t f j none n pay = (false, f)
    ∧ ((f.jobs.get j).resultError = true →
      writeResult t f j (some b) n pay = (true, f.modJob j fun x => { x with resultError := false }))
    ∧ ∀ d, (f.jobs.get j).resultError = false → t.dir = some d →
      writeResult t f j (some b) n pay =
        (false, { f with ram := ramWrite f.ram (d.base + b.offset) (leBytes 2 n ++ pay.take b.max) }))

/-- The end of a step moves to the next one, within a repeat's span too; the last step of the span starts the next pass
or ends the repeat, and a run past the list ends the job COMPLETED (R161, R163, R171). The time of a WAIT_TIME step ends
it, the limit of a WAIT_CONDITION step ends it with verdict TIMEOUT (R168, R169). An ended job leaves its context idle,
its slot's queue flushed, its entries orphaned and its claims no longer in force, and sets JOB_END (R173). Its waits
end, its START_JOB order reads DONE with the end code, the result byte, the verdict, the last step and the two counts as
detail, and an event record is offered (R173, R180, R210). What it discards, the built message, the queue and the
responses that entries held, is released after all this, in that order (the model's reading, log 16), the messages of
the queue head first (the model's choice, log 16). -/
def Obligations.JobStepsAndJobsEnd : Prop :=
  (∀ (t : Tables) (f : Flow) (j : JobIx),
    let b := f.jobs.get j
    b.state ≠ .idle → b.build = none →
      (b.rep = none →
        act t (.stepDone j) f =
          (f.modJob j (fun x => { x with state := .running, deadline := none, cur := b.cur + 1 }),
           if b.cur + 1 < b.listLength then [] else [.endJob j .completed 0 (b.listLength - 1)]))
      ∧ (∀ r, b.rep = some r → b.cur + 1 ≠ r.start + r.span →
        act t (.stepDone j) f =
          (f.modJob j (fun x => { x with state := .running, deadline := none, cur := b.cur + 1 }),
           if b.cur + 1 < b.listLength then [] else [.endJob j .completed 0 (b.listLength - 1)]))
      ∧ (∀ r, b.rep = some r → b.cur + 1 = r.start + r.span → r.pass + 1 < r.count → r.start < b.listLength →
        act t (.stepDone j) f =
          (f.modJob j (fun x => { x with
            state := .running, deadline := none, cur := r.start, passes := b.passes + 1
            rep := some { r with pass := r.pass + 1 } }), []))
      ∧ (∀ r, b.rep = some r → b.cur + 1 = r.start + r.span → r.count ≤ r.pass + 1 →
        act t (.stepDone j) f =
          (f.modJob j (fun x => { x with
            state := .running, deadline := none, cur := b.cur + 1, passes := b.passes + 1, rep := none }),
           if b.cur + 1 < b.listLength then [] else [.endJob j .completed 0 (b.listLength - 1)])))
  ∧ (∀ (j : JobIx) (dt : Nat) (s : State),
    let u := s.advance dt
    let b := s.flow.jobs.get j
    (b.state = .waiting .time → expired u.tab.now b.deadline = true →
      exec (.jobTimeExpiry j dt) s = .next (u.run [.stepDone j]))
    ∧ (b.state ≠ .waiting .time ∨ expired u.tab.now b.deadline = false → exec (.jobTimeExpiry j dt) s = .next u)
    ∧ (b.state = .waiting .condition → expired u.tab.now b.deadline = true →
      exec (.conditionWaitExpiry j dt) s =
        .next ((u.withFlow (u.flow.modJob j fun x => { x with verdict := .timeout })).run [.stepDone j]))
    ∧ (b.state ≠ .waiting .condition ∨ expired u.tab.now b.deadline = false →
      exec (.conditionWaitExpiry j dt) s = .next u))
  ∧ (∀ (t : Tables) (f : Flow) (j : JobIx) (k : Slot) (code : EndCode) (result : Byte) (last : Nat),
    (f.jobs.get j).state ≠ .idle → (f.jobs.get j).slot = some k →
    let g := (act t (.endJob j code result last) f).1
    g.jobs.get j = .reset ∧ g.hasNews .jobEnd = true
    ∧ (g.slots.get k).inbound = [] ∧ (g.slots.get k).held = none
    ∧ (∀ i x, g.entries.get i = some x → x.slot = k → x.state.isOrphan = true)
    ∧ (∀ e, (g.claims.get e).holder = k → (g.claims.get e).inForce = false))
  ∧ (∀ (t : Tables) (f : Flow) (j : JobIx) (k : Slot) (code : EndCode) (result : Byte) (last : Nat),
    (f.jobs.get j).state ≠ .idle → (f.jobs.get j).slot = some k →
    let b := f.jobs.get j
    let built : List Act := match b.build.bind (·.charge) with
      | none => []
      | some h => [.release h]
    let waitsNoMore : Flow := { f with waiting := f.waiting.filter fun w => w.who != .job j }
    let orphaned := orphanSlot t (waitsNoMore.modSlot k fun x => { x with inbound := [], held := none }) k
    let let_go := releaseClaimsOf t orphaned.1 k .jobEnd
    let ordered := match b.orderSlot with
      | none => let_go
      | some n => orderDone t let_go n .ok ([code.byte, result, b.verdict.byte, BitVec.ofNat 8 last]
          ++ leBytes 4 b.steps ++ leBytes 4 b.passes)
    let idle := ordered.modJob j fun _ => .reset
    act t (.endJob j code result last) f = (event t 0 { idle with news := idle.news ||| 0x100 }
      { event := true, source := 6, slot := ixByte k, subject := some (ixByte j), cls := none, code := 0, grant := none
        outcome := some code.byte, reason := none, probe := none, stamp := none, length := 0
        content := [ixByte j, result] },
      built ++ (f.slots.get k).inbound.map (fun m => .release m.msg.charge) ++ orphaned.2))
  ∧ (([EndCode.completed, .aborted, .stopped, .badStep, .failed, .memoryError].map EndCode.byte = [0, 1, 2, 3, 4, 5]
    ∧ [Verdict.noVerdict, .positive, .negative, .timeout, .refused, .overflow, .undelivered].map Verdict.byte
      = [0, 1, 2, 3, 4, 5, 6]))

/-! ### Orders -/

/-- How every order begins and ends (R199, R200). Outside RUNNING the seventeen orders that set or change the part end
with STATE. A row whose code is not the one on the board takes no order (the model's choice, log 7), nor does any with no
POSTED slot ahead. An order that ends has its result code and its 12 detail bytes written and reads DONE (3); no byte outside
its slot changes, and ORDER_DONE is set. -/
def Obligations.OrdersBeginAndEnd : Prop :=
  (∀ (s : State) (d : Directory) (l : Look) (code : Byte) (c : Instr), (code, c) ∈ runningOrders →
    (s.tab.ctl ≠ .running → s.Finds d l code → exec c s = .next ((s.took d l).answers d l .state))
    ∧ (∀ other, other ≠ code → s.Finds d l other → exec c s = .next s)
    ∧ (s.flow.look = none → exec c s = .next s))
  ∧ (∀ (t : Tables) (f : Flow) (d : Directory) (n : Nat) (r : OrderResult) (detail : List Byte), t.dir = some d →
    ramWf f.ram → d.orderAddr n + 64 ≤ 2 ^ 32 → detail.length ≤ 12 →
    let a := d.orderAddr n
    let g := orderDone t f n r detail
    ramNum g.ram a 4 = 3 ∧ ramByte g.ram (a + 5) = r.byte ∧ ramRead g.ram (a + 8) 12 = padTo 12 detail
    ∧ (∀ b, b < a ∨ a + 20 ≤ b ∨ b = a + 4 ∨ b = a + 6 ∨ b = a + 7 → ramByte g.ram b = ramByte f.ram b)
    ∧ g.hasNews .orderDone = true ∧ g = { f with ram := g.ram, news := g.news })

/-- SET_TESTER and DETACH_TESTER in RUNNING (R8 to R14). A DETACHED slot takes the order's fields and its weight as
allowance; an ATTACHED one takes new terms when its identity is the order's: a lowered weight cuts its allowance, the
hold deadline is measured anew from the first hold, a limit passed by it refuses the head at once, the held head is
evaluated again, and a relay channel stopped at the slot's record takes it again in REFUSE mode, after that refusal with
all it causes (the order is the model's choice, log 36). A detached slot has no allowance, both queues empty, no held
head, no TB context, its entries ORPHANED and its claims no longer in force, before the cells of what was flushed are
released (log 16). SET_ECU in RUNNING (R18, R19): the entry takes the order's fields and every held head is evaluated
again, unless a field is out of range, or the entry's claim is not FREE, or it has an outstanding entry, or its address
is taken. Which conflicts bar an attachment (R9) and a valid entry (R18, step 4), which identity an attached slot keeps
(R8, step 2) and which job bars a detachment (R12) are said case by case. A duration and the slot and ECU records have
the layout of R208 and R213, and are in range as R8 and R18 say (a presence flag other than 0 and 1 is out of range:
log 17). -/
def Obligations.TesterAndEcuOrders : Prop :=
  (∀ (s : State) (d : Directory) (l : Look), s.tab.ctl = .running →
      let u := s.took d l
      let ps := s.params d l
      let ends := fun (v : State) (r : OrderResult) =>
        (Host.Outcome.next ((v.done l.next r).looksOn d l) : Host.Outcome State Fault Refusal)
      (s.Finds d l 0x01 →
        (asIx 16 (byteAt ps 0).toNat = none ∨ getTester (ps.drop 1) true = none → exec .setTester s = ends u .badParam)
        ∧ (∀ k x, asIx 16 (byteAt ps 0).toNat = some k → getTester (ps.drop 1) true = some x →
          let old := s.tab.testers.get k
          (old.attached = true → sameIdentity x old = false → exec .setTester s = ends u .badParam)
          ∧ (old.attached = true → sameIdentity x old = true →
            exec .setTester s = ends (changeTester u k x) .ok
            ∧ (let terms := { old with mode := x.mode, weight := x.weight, limit := x.limit, holdLimit := x.holdLimit }
              let t := { s.tab with testers := Vector.putRow s.tab.testers k terms }
              let f := u.flow.modSlot k fun y => { y with
                allowance := min y.allowance x.weight
                held := y.held.map fun h => { h with
                  deadline := if x.holdLimit.count = 0 then none else some (after h.firstHold x.holdLimit) } }
              let held := (f.slots.get k).held
              let late := ∃ h, held = some h ∧ h.passed = false ∧ expired s.tab.now h.deadline = true
              let ends := fun g : Flow =>
                let g := g.markHeads fun j _ => j == k
                (changeTester u k x).flow = settle t (if x.mode = .refuse ∧ old.mode = .hold ∧ g.relayStoppedAt k = true
                  then [.relayTake] else []) g
              (changeTester u k x).tab = t
              ∧ (¬late → ends f)
              ∧ (∀ h m ms, late → held = some h → (f.slots.get k).inbound = m :: ms →
                ends (settled t (headRefuse t f k .heldTooLong h.ecu (some (classOf t m.msg.code))))))
            ∧ ((changeTester u k x).flow.slots.get k).allowance = min (s.flow.slots.get k).allowance x.weight)
          ∧ (old.attached = false → s.flow.hasEntry k = true → exec .setTester s = ends u .busy)
          ∧ (old.attached = false → s.flow.hasEntry k = false → testerConflict s.tab s.flow k x = true →
            exec .setTester s = ends u .inUse)
          ∧ (old.attached = false → s.flow.hasEntry k = false → testerConflict s.tab s.flow k x = false →
            exec .setTester s = ends { u with
              tab := { s.tab with testers := Vector.putRow s.tab.testers k { x with attached := true } }
              flow := u.flow.modSlot k fun y => { y with allowance := x.weight } } .ok)))
      ∧ (s.Finds d l 0x02 →
        (asIx 16 (byteAt ps 0).toNat = none → exec .detachTester s = ends u .badParam)
        ∧ (∀ k, asIx 16 (byteAt ps 0).toNat = some k →
          let old := s.tab.testers.get k
          (old.attached = false → exec .detachTester s = ends u .noEntry)
          ∧ (old.attached = true → jobBusy s old = true → exec .detachTester s = ends u .busy)
          ∧ (old.attached = true → jobBusy s old = false →
            exec .detachTester s = ends (detach u k) .ok
            ∧ (detach u k).tab = { s.tab with testers := Vector.putRow s.tab.testers k { old with attached := false } }
            ∧ ((detach u k).flow.slots.get k).allowance = 0
            ∧ (∃ f acts, (detach u k).flow = settle (detach u k).tab acts f
              ∧ (f.slots.get k).inbound = [] ∧ (f.slots.get k).items = [] ∧ (f.slots.get k).held = none
              ∧ (∀ c x, f.ctx .tb c = some x → x.owner ≠ .slot k)
              ∧ (∀ i x, f.entries.get i = some x → x.slot = k → x.state.isOrphan = true)
              ∧ (∀ e, (f.claims.get e).inForce = true → (f.claims.get e).holder ≠ k)
              ∧ (acts.head? = some .relayTake ↔ s.flow.relayStoppedAt k = true)
              ∧ (∀ m ∈ (s.flow.slots.get k).inbound, .release m.msg.charge ∈ acts)
              ∧ (∀ it ∈ (s.flow.slots.get k).items, ∀ m, it.body = .response m → .release m.charge ∈ acts)
              ∧ ∀ a ∈ acts, a = .relayTake ∨ a = .placeFreed k ∨ ∃ c, a = .release c)
            ∧ ∀ e, ((detach u k).flow.claims.get e).inForce = true → ((detach u k).flow.claims.get e).holder ≠ k))))
  ∧ (∀ (s : State) (d : Directory) (l : Look), s.tab.ctl = .running → s.Finds d l 0x03 →
      let u := s.took d l
      let ps := s.params d l
      let ends := fun (v : State) (r : OrderResult) =>
        (Host.Outcome.next ((v.done l.next r).looksOn d l) : Host.Outcome State Fault Refusal)
      (asIx 32 (byteAt ps 0).toNat = none ∨ getEcu (ps.drop 1) = none → exec .setEcu s = ends u .badParam)
      ∧ (∀ e x, asIx 32 (byteAt ps 0).toNat = some e → getEcu (ps.drop 1) = some x →
        let used := (s.flow.claims.get e).state ≠ .free ∨ ecuHasEntry s.flow e = true ∨ ecuConflict s.tab s.flow e x = true
        (used → exec .setEcu s = ends u .inUse)
        ∧ (¬used → exec .setEcu s = ends { u with
            tab := { s.tab with ecus := Vector.putRow s.tab.ecus e x }
            flow := u.flow.markHeads fun _ _ => true } .ok)))
  ∧ (∀ (bs : List Byte) (i : Nat),
      let n := numAt bs i 2
      let d : Duration := { code := BitVec.ofNat 3 (n / 4096), count := BitVec.ofNat 12 n }
      (n < 2 ^ 15 → getDuration bs i = some d ∧ getTimeout bs i = if d.count = 0 then none else some d)
      ∧ (2 ^ 15 ≤ n → getDuration bs i = none ∧ getTimeout bs i = none))
  ∧ (∀ (bs : List Byte) (a : Bool) (x : Tester), getTester bs a = some x ↔
      (byteAt bs 1 = 0 ∧ x.kind = .bus ∨ byteAt bs 1 = 1 ∧ x.kind = .relay
        ∨ byteAt bs 1 = 2 ∧ x.kind = .job ∧ (byteAt bs 4).toNat ≤ 3)
      ∧ (byteAt bs 6 = 0 ∧ x.mode = .hold ∨ byteAt bs 6 = 1 ∧ x.mode = .refuse)
      ∧ 1 ≤ x.weight ∧ x.weight ≤ 8 ∧ x.weight = (byteAt bs 7).toNat
      ∧ 1 ≤ x.limit ∧ x.limit ≤ 8 ∧ x.limit = (byteAt bs 8).toNat
      ∧ getDuration bs 10 = some x.holdLimit ∧ x.attached = a ∧ x.tbAddr = byteAt bs 2 ∧ x.relayId = byteAt bs 3
      ∧ x.jobCtx = byteAt bs 4 ∧ x.vehicle = byteAt bs 5)
  ∧ (∀ (bs : List Byte) (x : Ecu), getEcu bs = some x ↔
      byteAt bs 0 = (if x.valid then 1 else 0) ∧ x.port.val = (byteAt bs 1).toNat ∧ x.node = byteAt bs 2
      ∧ 1 ≤ x.interimLimit ∧ x.interimLimit = (byteAt bs 3).toNat ∧ byteAt bs 4 = (if x.interimFwd then 1 else 0)
      ∧ (byteAt bs 5 = 0 ∧ x.interimMarker = none ∨ byteAt bs 5 = 1 ∧ x.interimMarker = some (byteAt bs 6))
      ∧ (byteAt bs 7 = 0 ∧ x.negMarker = none ∨ byteAt bs 7 = 1 ∧ x.negMarker = some (byteAt bs 8))
      ∧ (byteAt bs 9).toNat ≤ 8 ∧ x.closeMsg = (bs.drop 10).take (byteAt bs 9).toNat
      ∧ getTimeout bs 18 = some x.respTimeout ∧ getTimeout bs 20 = some x.longTimeout
      ∧ getTimeout bs 22 = some x.holdOff)
  ∧ (∀ (t : Tables) (f : Flow) (k : Slot) (x : Tester),
    let vs := fun y : Tester => if y.kind = .bus then y.tbAddr else y.vehicle
    let held := fun j : Slot => (t.testers.get j).attached = true ∨ ∃ i y, f.entries.get i = some y ∧ y.slot = j
    testerConflict t f k x = true ↔
    (∃ j, j ≠ k ∧ held j ∧ vs (t.testers.get j) = vs x)
    ∨ (∃ v : VbIx, (t.port (.vb v)).node = vs x)
    ∨ (∃ e, (t.ecus.get e).valid = true ∧ (t.ecus.get e).node = vs x)
    ∨ (x.kind = .bus ∧ (t.port .tb).node = x.tbAddr)
    ∨ (∃ j, j ≠ k ∧ (t.testers.get j).attached = true ∧ (t.testers.get j).kind = x.kind
      ∧ (x.kind = .relay ∧ (t.testers.get j).relayId = x.relayId ∨ x.kind = .job ∧ (t.testers.get j).jobCtx = x.jobCtx)))
  ∧ (∀ (t : Tables) (f : Flow) (e : EcuIx) (x : Ecu), ecuConflict t f e x = true ↔
    x.valid = true
    ∧ ((∃ i, i ≠ e ∧ (t.ecus.get i).valid = true ∧ (t.ecus.get i).node = x.node) ∨ (t.port (.vb x.port)).node = x.node
      ∨ ∃ k, ((t.testers.get k).attached = true ∨ ∃ i y, f.entries.get i = some y ∧ y.slot = k)
        ∧ (if (t.testers.get k).kind = .bus then (t.testers.get k).tbAddr else (t.testers.get k).vehicle) = x.node))
  ∧ (∀ x y : Tester, sameIdentity x y = true ↔ x.kind = y.kind
    ∧ (y.kind = .bus → x.tbAddr = y.tbAddr) ∧ (y.kind = .relay → x.relayId = y.relayId ∧ x.vehicle = y.vehicle)
    ∧ (y.kind = .job → x.jobCtx = y.jobCtx ∧ x.vehicle = y.vehicle))
  ∧ (∀ (s : State) (x : Tester), jobBusy s x = true ↔
    x.kind = .job ∧ ∃ j : JobIx, j.val = x.jobCtx.toNat ∧ (s.flow.jobs.get j).state ≠ .idle)

/-- The five grant orders in RUNNING, by the state of the grant (R49 to R53). A grant that changes has the held head of
its slot evaluated again (R54); at a REVOKE_GRANT it is listed after the heads that the released claims concern, each
claim with a run of its own (the model's choice, log 10). INSTALL_GRANT's fields stand and are in range as R49 and R210
say. -/
def Obligations.GrantOrders : Prop :=
  (∀ (s : State) (d : Directory) (l : Look), s.tab.ctl = .running →
    let u := s.took d l
    let ps := s.params d l
    let ends := fun (v : State) (r : OrderResult) =>
      (Host.Outcome.next ((v.done l.next r).looksOn d l) : Host.Outcome State Fault Refusal)
    let number := asIx 64 (byteAt ps 0).toNat
    let put := fun (i : GrantIx) (g : Grant) (k : Slot) => { u with
      grants := Vector.putRow s.grants i g, flow := u.flow.markHeads fun j _ => j == k }
    let fresh := fun g : Grant => if g.lifetime.count = 0 then Life.unlimited
      else .running (after s.tab.now g.lifetime)
    (s.Finds d l 0x04 →
      (number = none ∨ getGrant (ps.drop 1) = none → exec .installGrant s = ends u .badParam)
      ∧ (∀ i x, number = some i → getGrant (ps.drop 1) = some x →
        ((s.grants.get i).state ≠ .free → exec .installGrant s = ends u .inUse)
        ∧ ((s.grants.get i).state = .free →
          exec .installGrant s = ends (put i { x with life := fresh x } x.slot) .ok ∧ x.state = .active
            ∧ x.left = (if x.budget = 0 then none else some x.budget))))
    ∧ (s.Finds d l 0x05 →
      (number = none → exec .revokeGrant s = ends u .badParam)
      ∧ (∀ i, number = some i →
        let g := s.grants.get i
        let gs := Vector.putRow s.grants i .reset
        (g.state = .free → exec .revokeGrant s = ends u .noEntry)
        ∧ (g.state ≠ .free → exec .revokeGrant s = ends { u with
            grants := gs
            flow := (supportCheck s.tab gs 0 none u.flow g).markHeads fun j _ => j == g.slot } .ok)))
    ∧ (s.Finds d l 0x06 →
      (number = none → exec .suspendGrant s = ends u .badParam)
      ∧ (∀ i, number = some i →
        let g := s.grants.get i
        (g.state = .free → exec .suspendGrant s = ends u .noEntry)
        ∧ (g.state = .active → exec .suspendGrant s = ends (put i { g with state := .suspended } g.slot) .ok)
        ∧ (g.state = .suspended → exec .suspendGrant s = ends u .ok)
        ∧ (g.state = .spent ∨ g.state = .expired → exec .suspendGrant s = ends u .state)))
    ∧ (s.Finds d l 0x07 →
      (number = none → exec .resumeGrant s = ends u .badParam)
      ∧ (∀ i, number = some i →
        let g := s.grants.get i
        (g.state = .free → exec .resumeGrant s = ends u .noEntry)
        ∧ (g.state = .suspended → exec .resumeGrant s = ends (put i { g with state := .active } g.slot) .ok)
        ∧ (g.state = .active → exec .resumeGrant s = ends u .ok)
        ∧ (g.state = .spent ∨ g.state = .expired → exec .resumeGrant s = ends u .state)))
    ∧ (s.Finds d l 0x08 →
      (number = none → exec .renewGrant s = ends u .badParam)
      ∧ (∀ i, number = some i →
        let g := s.grants.get i
        (g.state = .free → exec .renewGrant s = ends u .noEntry)
        ∧ (g.state ≠ .free → exec .renewGrant s = ends (put i { g with
            left := if g.budget = 0 then none else some g.budget, life := fresh g
            state := if g.state = .suspended then .suspended else .active } g.slot) .ok))))
  ∧ (∀ (bs : List Byte) (x : Grant), getGrant bs = some x ↔
      x.slot.val = (byteAt bs 0).toNat ∧ x.ecus = BitVec.ofNat 32 (numAt bs 1 4)
      ∧ (byteAt bs 5).toNat < 32 ∧ x.classes = BitVec.ofNat 6 (byteAt bs 5).toNat
      ∧ (byteAt bs 6).toNat < 64 ∧ x.conds = BitVec.ofNat 6 (byteAt bs 6).toNat
      ∧ (byteAt bs 7 = 0 ∧ x.level = .noClaim ∨ byteAt bs 7 = 1 ∧ x.level = .adjust
        ∨ byteAt bs 7 = 2 ∧ x.level = .program)
      ∧ getDuration bs 8 = some x.lifetime ∧ x.budget = numAt bs 10 2
      ∧ x.left = (if x.budget = 0 then none else some x.budget) ∧ x.state = .active ∧ x.life = .unlimited)

/-- SET_STANDSTILL and SET_CONDITION_TIMES in RUNNING (R31, R32): a value that differs becomes the raw value of
STANDSTILL, a raw change, and an equal one leaves it alone; that byte 1 is true and byte 0 false is the model's choice
(log 30). The two times are replaced and nothing else of the condition changes. -/
def Obligations.ConditionOrders : Prop :=
  ∀ (s : State) (d : Directory) (l : Look), s.tab.ctl = .running →
    let u := s.took d l
    let ps := s.params d l
    let ends := fun (v : State) (r : OrderResult) =>
      (Host.Outcome.next ((v.done l.next r).looksOn d l) : Host.Outcome State Fault Refusal)
    (s.Finds d l 0x09 →
      ((byteAt ps 0 ≠ 0 ∧ byteAt ps 0 ≠ 1) → exec .setStandstill s = ends u .badParam)
      ∧ (∀ b : Bool, byteAt ps 0 = (if b then 1 else 0) →
        ((s.tab.conds.get 5).raw = b → exec .setStandstill s = ends u .ok)
        ∧ ((s.tab.conds.get 5).raw ≠ b →
          exec .setStandstill s = ends (reportRaw u 5 b) .ok ∧ ((reportRaw u 5 b).tab.conds.get 5).raw = b)))
    ∧ (s.Finds d l 0x0A →
      (6 ≤ (byteAt ps 0).toNat ∨ getDuration ps 1 = none ∨ getDuration ps 3 = none →
        exec .setConditionTimes s = ends u .badParam)
      ∧ (∀ i rise fall, asIx 6 (byteAt ps 0).toNat = some i → getDuration ps 1 = some rise → getDuration ps 3 = some fall →
        let c := { s.tab.conds.get i with rise := rise, fall := fall }
        exec .setConditionTimes s = ends { u with
          tab := { s.tab with conds := Vector.putRow s.tab.conds i c } } .ok))

/-- RELEASE_CLAIM, START_JOB and ABORT_JOB in RUNNING. A RELEASE_CLAIM of a claim that is not FREE stays TAKEN until the
closing ends, and releases a claim in force (R135). A started job runs at step 0 of its list, in the context and slot the
order names; the order stays TAKEN, and an event record of the start is offered when event capture is on (R160). An aborted
job ends ABORTED (R172). -/
def Obligations.ClaimAndJobOrders : Prop :=
  ∀ (s : State) (d : Directory) (l : Look), s.tab.ctl = .running →
    let u := s.took d l
    let ps := s.params d l
    let ends := fun (v : State) (r : OrderResult) =>
      (Host.Outcome.next ((v.done l.next r).looksOn d l) : Host.Outcome State Fault Refusal)
    (s.Finds d l 0x0B →
      (asIx 32 (byteAt ps 0).toNat = none → exec .releaseClaim s = ends u .badParam)
      ∧ (∀ e, asIx 32 (byteAt ps 0).toNat = some e →
        let f := { u.flow with releaseWaits := s.flow.releaseWaits ++ [{ orderSlot := l.next, ecu := e }] }
        let c := s.flow.claims.get e
        (c.state = .free → exec .releaseClaim s = ends u .noEntry)
        ∧ (c.state = .closing → exec .releaseClaim s = .next ((u.withFlow f).looksOn d l))
        ∧ (c.inForce = true →
          exec .releaseClaim s = .next ((u.withFlow (claimRelease s.tab 0 false f e .order)).looksOn d l)
          ∧ ((claimRelease s.tab 0 false f e .order).claims.get e).inForce = false)))
    ∧ (s.Finds d l 0x0F →
      let start := numAt ps 1 2
      let len := numAt ps 3 2
      (asIx 4 (byteAt ps 0).toNat = none ∨ len = 0 ∨ 256 < len → exec .startJob s = ends u .badParam)
      ∧ (∀ j, asIx 4 (byteAt ps 0).toNat = some j → 1 ≤ len → len ≤ 256 →
        ((s.flow.jobs.get j).state ≠ .idle → exec .startJob s = ends u .busy)
        ∧ ((s.flow.jobs.get j).state = .idle → jobSlot s.tab j = none → exec .startJob s = ends u .noEntry)
        ∧ (∀ k, (s.flow.jobs.get j).state = .idle → jobSlot s.tab j = some k →
          (s.tab.poolSteps < start + len → exec .startJob s = ends u .badParam)
          ∧ (start + len ≤ s.tab.poolSteps →
            let runs := Vector.putRow s.flow.jobs j
              { state := .running, slot := some k, listStart := start, listLength := len, cur := 0, rep := none
                verdict := .noVerdict, requests := [], build := none, deadline := none, condSet := 0, steps := 0
                passes := 0, orderSlot := some l.next, resultError := false }
            let v := u.withFlow (event s.tab 0 { u.flow with jobs := runs }
              (eventRecord 6 (ixByte k) (ixByte j) none (some 0x10) none [ixByte j]))
            exec .startJob s = .next (v.looksOn d l) ∧ v.flow.jobs = runs ∧ v.flow.slots = s.flow.slots
            ∧ v.flow.claims = s.flow.claims
            ∧ (s.tab.eventCapture = false → Memory.wf s → d.orderAddr l.next + 64 ≤ 2 ^ 32 →
              ramNum v.flow.ram (d.orderAddr l.next) 4 = 2)))))
    ∧ (s.Finds d l 0x10 →
      (asIx 4 (byteAt ps 0).toNat = none → exec .abortJob s = ends u .badParam)
      ∧ (∀ j, asIx 4 (byteAt ps 0).toNat = some j →
        ((s.flow.jobs.get j).state = .idle → exec .abortJob s = ends u .noEntry)
        ∧ ((s.flow.jobs.get j).state ≠ .idle →
          exec .abortJob s = ends (u.run [.endJob j .aborted 0 (s.flow.jobs.get j).cur]) .ok)))

/-- SET_ACCOUNTS, SET_PROBE and SET_NEWS_MASK in RUNNING, and a code that names no order in any state (R72, R73, R186,
R193, R200). New thresholds must fit the store, cover what the accounts carry and leave the free cells at or above the
unused reservation; then the waiting list is offered cells. A probe record stands and is in range as R175 and R213
say. -/
def Obligations.SettingsOrders : Prop :=
  (∀ (s : State) (d : Directory) (l : Look),
    let u := s.took d l
    let ps := s.params d l
    let ends := fun (v : State) (r : OrderResult) =>
      (Host.Outcome.next ((v.done l.next r).looksOn d l) : Host.Outcome State Fault Refusal)
    (s.tab.ctl = .running → s.Finds d l 0x0C →
      let first := (byteAt ps 0).toNat
      let count := (byteAt ps 1).toNat
      let xs := getHalves count (ps.drop 2)
      let th := replaceRun s.tab.thresholds first xs
      let inRange := first ≤ 50 ∧ 1 ≤ count ∧ count ≤ 20 ∧ first + count ≤ 51 ∧ (∀ x ∈ xs, x ≤ 1024)
        ∧ sumReserve (fun a => th.get a) ≤ 1024
      let carried := (∀ a, s.flow.usage.get a ≤ th.get a) ∧ reservation th s.flow.usage ≤ s.flow.free
      (¬inRange → exec .setAccounts s = ends u .badParam)
      ∧ (inRange → ¬carried → exec .setAccounts s = ends u .inUse)
      ∧ (inRange → carried → exec .setAccounts s =
        ends (({ u with tab := { s.tab with thresholds := th } } : State).run [.offer]) .ok))
    ∧ (s.tab.ctl = .running → s.Finds d l 0x0D →
      (asIx 4 (byteAt ps 0).toNat = none ∨ getProbe (ps.drop 1) = none → exec .setProbe s = ends u .badParam)
      ∧ (∀ i p, asIx 4 (byteAt ps 0).toNat = some i → getProbe (ps.drop 1) = some p →
        (p.enabled = true → s.tab.captureRing = none → exec .setProbe s = ends u .noEntry)
        ∧ (p.enabled = false ∨ s.tab.captureRing.isSome → exec .setProbe s = ends { u with
            tab := { s.tab with probes := Vector.putRow s.tab.probes i p }
            flow := u.flow.markHeads fun _ h => h.reason == .capture } .ok)))
    ∧ (s.tab.ctl = .running → s.Finds d l 0x13 →
      (2 ^ 11 ≤ numAt ps 0 4 → exec .setNewsMask s = ends u .badParam)
      ∧ (numAt ps 0 4 < 2 ^ 11 → exec .setNewsMask s = ends { u with mask := BitVec.ofNat 11 (numAt ps 0 4) } .ok))
    ∧ (∀ code : Byte, code = 0 ∨ 0x13 < code.toNat → s.Finds d l code →
      exec .unknownOrderCode s = ends u .badOrder))
  ∧ (∀ (bs : List Byte) (x : Probe), getProbe bs = some x ↔
      byteAt bs 0 = (if x.enabled then 1 else 0)
      ∧ (byteAt bs 1).toNat < 8 ∧ x.dirs = BitVec.ofNat 3 (byteAt bs 1).toNat
      ∧ byteAt bs 2 = (if x.binding then 1 else 0)
      ∧ (byteAt bs 3).toNat < 64 ∧ x.classes = BitVec.ofNat 6 (byteAt bs 3).toNat
      ∧ x.slots = BitVec.ofNat 16 (numAt bs 4 2) ∧ x.limit ≤ 2048 ∧ x.limit = numAt bs 6 2
      ∧ x.ecus = BitVec.ofNat 32 (numAt bs 8 4))

/-- SET_SAMPLER (R187): a rate above 4,096 or a class set naming a seventh class is BAD_PARAM, as is an enabled flag that
is neither 0 nor 1; an enabled sampler without a capture ring is NO_ENTRY; otherwise the three fields take the order's
values and nothing else of the sampler changes. It and SET_PROBE end with STATE outside RUNNING. -/
def Obligations.SetSamplerOrder : Prop :=
  ∀ (s : State) (d : Directory) (l : Look),
    let u := s.took d l
    let ps := s.params d l
    let ends := fun (v : State) (r : OrderResult) =>
      (Host.Outcome.next ((v.done l.next r).looksOn d l) : Host.Outcome State Fault Refusal)
    let rate := numAt ps 1 2
    let classes := byteAt ps 3
    (s.Finds d l 0x0E → s.tab.ctl = .running →
      (4096 < rate ∨ 64 ≤ classes.toNat ∨ (byteAt ps 0 ≠ 0 ∧ byteAt ps 0 ≠ 1) → exec .setSampler s = ends u .badParam)
      ∧ (∀ b : Bool, byteAt ps 0 = (if b then 1 else 0) → rate ≤ 4096 → classes.toNat < 64 →
        (b = true → s.tab.captureRing = none → exec .setSampler s = ends u .noEntry)
        ∧ (b = false ∨ s.tab.captureRing.isSome →
          exec .setSampler s = ends { u with tab := { s.tab with
            sampler := { enabled := b, rate := rate, classes := BitVec.ofNat 6 classes.toNat } } } .ok)))
    ∧ (s.tab.ctl ≠ .running →
      (s.Finds d l 0x0D → exec .setProbe s = ends u .state) ∧ (s.Finds d l 0x0E → exec .setSampler s = ends u .state))

/-- READ_COUNTERS and READ_TABLES, in every controller state with a directory (R205, R206). The counter block, 908
bytes, holds the count, the slots' and ECUs' counters and the two unknown counters as they stand, each at its place
(R214), and with the clear flag they are cleared in the same event; that all are read and cleared at one moment is the
model's choice (log 40). The snapshot, 4,244 bytes, holds the count at its start and end and between them every section
of R215 at its offset: grants, claims, close buffers and lists, entries, delivery places, conditions, the rotation
monitor, the store, accounts and waiting list, the ports and the capture unit, each record with its rule's fields in
their order, padded with zeros (R36, R56, R75, R119, R137, R156, R181). The places inside a record (log 18), flags (log
30), the low byte of a count past 255 (log 32), and what free entries, unused places, durations of none and a condition
in OFF show (log 33) are the model's reading or choice, and so are how long a deadline reads as passed (log 29) and that
all sections are taken at one moment (log 40). It is written to an area that is long enough and clear of the directory
and every leaf; a memory error there ends the order MEMORY_ERROR with the first bytes written, as many as the command
says (the model's choice, log 21). The area's address goes on at 0 past the top of the address space (log 20). -/
def Obligations.SnapshotOrders : Prop :=
  (∀ (t : Tables) (f : Flow) (k : Slot), (counterBytes t f).length = 908
    ∧ numAt (counterBytes t f) 0 4 = t.now.toNat
    ∧ numAt (counterBytes t f) (4 + 16 * k.val) 4 = (f.slots.get k).admitted.toNat)
  ∧ (∀ s : State, (snapshot s).length = 4244 ∧ numAt (snapshot s) 0 4 = s.tab.now.toNat)
  ∧ (∀ (s : State) (d : Directory) (l : Look),
    let u := s.took d l
    let ps := s.params d l
    let ends := fun (v : State) (r : OrderResult) =>
      (Host.Outcome.next ((v.done l.next r).looksOn d l) : Host.Outcome State Fault Refusal)
    (s.Finds d l 0x11 →
      (byteAt ps 0 ≠ 0 ∧ byteAt ps 0 ≠ 1 → exec .readCounters s = ends u .badParam)
      ∧ (byteAt ps 0 = 0 ∨ byteAt ps 0 = 1 → d.counters = none → exec .readCounters s = ends u .noEntry)
      ∧ (∀ a, d.counters = some a →
        let f := { u.flow with ram := ramWrite u.flow.ram a (counterBytes s.tab u.flow) }
        (byteAt ps 0 = 0 → exec .readCounters s = ends (u.withFlow f) .ok)
        ∧ (byteAt ps 0 = 1 → exec .readCounters s = ends (u.withFlow { f with
            slots := tableOf 16 fun k =>
              { f.slots.get k with admitted := 0, refused := 0, heldTooLong := 0, deliveryFails := 0 }
            ecuCounts := tableOf 32 fun _ => { forwarded := 0, responses := 0, timeouts := 0, strays := 0
                                               sendFailures := 0 }
            tbUnknown := 0, relayUnknown := 0 }) .ok)))
    ∧ (s.Finds d l 0x12 →
      let a := (d.base + numAt ps 0 4) % 2 ^ 32
      let len := numAt ps 4 2
      (areaOk d a len = false → exec .readTables s = ends u .badParam)
      ∧ (areaOk d a len = true →
        exec .readTables s = ends (u.withFlow { u.flow with ram := ramWrite u.flow.ram a (snapshot u) }) .ok
        ∧ ∀ n again, exec (.memoryError (.tablesArea n) again) s = ends (u.withFlow { u.flow with
            ram := ramWrite u.flow.ram a ((snapshot u).take n) }) .memoryError)))
  ∧ (∀ (d : Directory) (a len : Nat),
    let extents := [(d.base, 8 + 4 * d.entries), (d.settings, 1816), (d.board, 16 + 64 * d.slots)]
      ++ (d.relayIn.toList ++ d.relayOut.toList ++ d.capture.toList).map (fun r => (r.leaf, 16 + r.pages * r.size))
      ++ d.pool.toList.map (fun p => (p.leaf, 32 * p.steps)) ++ d.counters.toList.map (fun c => (c, 908))
    let area := if a + len ≤ 2 ^ 32 then [(a, len)] else [(a, 2 ^ 32 - a), (0, a + len - 2 ^ 32)]
    areaOk d a len = true ↔
      4244 ≤ len ∧ ∀ x ∈ area, ∀ y ∈ extents, x.1 + x.2 ≤ y.1 ∨ y.1 + y.2 ≤ x.1)
  ∧ (∀ (t : Tables) (f : Flow),
    let bs := counterBytes t f
    let at_ := fun n o : Nat => (bs.drop o).take n
    let words := fun l : List Word => l.flatMap fun w => leBytes 4 w.toNat
    bs.length = 908 ∧ at_ 4 0 = leBytes 4 t.now.toNat
    ∧ (∀ k : Slot, let x := f.slots.get k
      at_ 16 (4 + 16 * k.val) = words [x.admitted, x.refused, x.heldTooLong, x.deliveryFails])
    ∧ (∀ e : EcuIx, let x := f.ecuCounts.get e
      at_ 20 (260 + 20 * e.val) = words [x.forwarded, x.responses, x.timeouts, x.strays, x.sendFailures])
    ∧ at_ 4 900 = leBytes 4 f.tbUnknown.toNat ∧ at_ 4 904 = leBytes 4 f.relayUnknown.toNat)
  ∧ (∀ s : State,
    let t := s.tab
    let f := s.flow
    let bs := snapshot s
    let at_ := fun n o : Nat => (bs.drop o).take n
    let padded := fun (n : Nat) (l : List Byte) => l ++ List.replicate (n - l.length) (0 : Byte)
    let num := fun n : Nat => BitVec.ofNat 8 n
    let flag := fun b : Bool => if b then (1 : Byte) else 0
    let orOnes := fun b : Option Byte => b.getD 0xFF
    let time := fun d : Duration => leBytes 2 (d.count.toNat + 4096 * d.code.toNat)
    let left := fun d : Option Word => leBytes 4 (match d with
      | none => 0
      | some d => if (t.now - d).toNat < 2 ^ 31 then 0 else (d - t.now).toNat)
    bs.length = 4244 ∧ at_ 4 0 = leBytes 4 t.now.toNat ∧ at_ 4 0x1090 = leBytes 4 t.now.toNat
    ∧ (∀ i : GrantIx, let g := s.grants.get i
      at_ 24 (4 + 24 * i.val) = padded 24
        ([match g.state with | .free => 0 | .active => 1 | .suspended => 2 | .spent => 3 | .expired => 4, num g.slot.val]
        ++ leBytes 4 g.ecus.toNat ++ [num g.classes.toNat, num g.conds.toNat
        , match g.level with | .noClaim => 0 | .adjust => 1 | .program => 2]
        ++ time g.lifetime ++ leBytes 2 g.budget
        ++ (match g.life with
          | .unlimited => [0xFF, 0xFF, 0xFF, 0xFF]
          | .running d => left (some d)
          | .held n => leBytes 4 n)
        ++ leBytes 2 (g.left.getD 0)))
    ∧ (∀ e : EcuIx, let c := f.claims.get e
      at_ 20 (0x604 + 20 * e.val) = padded 20
        ([match c.state with | .free => 0 | .held => 1 | .halted => 2 | .closing => 3, num c.holder.val
        , match c.level with | .adjust => 0 | .program => 1, num c.guard.toNat]
        ++ left c.holdOff
        ++ [orOnes (c.cause.map ReleaseCause.byte)
        , match c.phase with
          | none => 0xFF
          | some .waitEntry => 0
          | some .waitBuffer => 1
          | some .sending => 2
          | some .awaiting => 3]
        ++ left c.closeDeadline ++ [c.outcome.byte, flag c.answer.isSome, orOnes c.answer]))
    ∧ (∀ v : VbIx, let x := f.vbs.get v
      at_ 36 (0x884 + 36 * v.val) = padded 36
        ([flag x.closeBuf.isSome, orOnes (x.closeBuf.map fun b => num b.ecu.val)]
        ++ ((x.closeList.map fun e : EcuIx => num e.val) ++ List.replicate 32 0xFF).take 32))
    ∧ (∀ i : EntryIx, at_ 16 (0x8F0 + 16 * i.val) = match f.entries.get i with
      | none => [0] ++ List.replicate 9 0xFF ++ List.replicate 5 0 ++ [0xFF]
      | some x => padded 16 ([1, num x.slot.val, num x.ecu.val, x.code, num x.cls.num
        , match x.cls with | .adjust | .program => 1 | _ => 0, num x.grant.val, flag x.binding]
        ++ (match x.state with
          | .sending => [0, 0xFF] | .awaiting => [1, 0xFF] | .receiving => [2, 0xFF] | .delivering => [3, 0xFF]
          | .orphaned .sending => [4, 0] | .orphaned .awaiting => [4, 1] | .orphaned .receiving => [4, 2])
        ++ left x.deadline ++ [num x.interims
        , match x.held with | none => 0xFF | some (.response _) => 0 | some (.refusal _ _) => 1]))
    ∧ (∀ k : Slot, at_ 3 (0xB70 + 3 * k.val) =
      [num (f.slots.get k).items.length
      , num (f.entries.toList.countP fun x => match x with
        | none => false
        | some x => x.slot == k && !x.state.isOrphan)
      , flag (f.slots.get k).held.isSome])
    ∧ (∀ i : CondIx, let c := t.conds.get i
      at_ 12 (0xBA0 + 12 * i.val) = padded 12
        ([flag c.raw, match c.qual with | .isFalse => 0 | .rising => 1 | .isTrue => 2 | .falling => 3
        , match c.qual with | .isTrue | .falling => 1 | _ => 0] ++ time c.rise ++ time c.fall ++ left c.deadline))
    ∧ at_ 8 0xBE8 = padded 8 (leBytes 2 s.rot.last ++ [flag s.rot.completed] ++ time s.rot.window
      ++ leBytes 2 s.rot.threshold)
    ∧ at_ 8 0xBF0 = padded 8 (leBytes 2 f.free ++ leBytes 2 (unusedReservation t f) ++ [num f.waiting.length])
    ∧ (∀ a : AccountIx, at_ 4 (0xBF8 + 4 * a.val) = leBytes 2 (f.usage.get a) ++ leBytes 2 (t.thresholds.get a))
    ∧ (∀ i < 37, at_ 12 (0xCC4 + 12 * i) = match f.waiting[i]? with
      | none => List.replicate 12 0
      | some w => padded 12
        ((match w.who with
          | .tbCtx c => [0, num c.val] | .vbCtx v c => [1, num (8 * v.val + c.val)] | .relay => [2, 0]
          | .job j => [3, num j.val])
        ++ [num w.slot.val, match w.grade with | .routine => 0 | .heavy => 1, num w.cells]
        ++ leBytes 4 (t.now - w.since).toNat))
    ∧ (∀ p : PortId, let o := 0xE80 + 108 * (match p with | .tb => 0 | .vb v => 1 + v.val)
      at_ 8 o = (match (f.port p).tx with
        | none => [1] ++ List.replicate 7 0xFF
        | some x => [0, match x.phase with | .first => 0 | .waitCredit => 1 | .run => 2 | .waitDone => 3, x.source, x.target]
          ++ leBytes 2 x.segments ++ leBytes 2 x.sent)
      ∧ (∀ c : CtxIx, at_ 12 (o + 8 + 12 * c.val) = padded 12 (match f.ctx p c with
        | none => [0] ++ List.replicate 8 0xFF
        | some x => [1, x.source, x.target] ++ leBytes 2 x.length ++ leBytes 2 x.received
          ++ [num x.stalls, match x.wait with | .noWait => 0 | _ => 1]))
      ∧ at_ 4 (o + 104) = [match p with | .tb => 0xFF | .vb v => num (f.vbs.get v).outbound.length, 0, 0, 0])
    ∧ at_ 96 0x1030 = padded 96
      ([num f.writer.pos, flag f.writer.page.isSome]
      ++ (match f.writer.page with
        | none => List.replicate 8 0xFF
        | some p => leBytes 2 p.used ++ leBytes 2 p.count ++ (match p.deadline with
          | none => [0xFF, 0xFF, 0xFF, 0xFF]
          | some d => leBytes 4 d.toNat))
      ++ leBytes 2 f.writer.seq.toNat ++ leBytes 2 f.writer.gap ++ [flag f.writer.blocked]
      ++ ((List.finRange 4).flatMap fun i =>
        let p := t.probes.get i
        [flag p.enabled, num p.dirs.toNat] ++ leBytes 2 p.slots.toNat ++ leBytes 4 p.ecus.toNat
          ++ [num p.classes.toNat, flag p.binding] ++ leBytes 2 p.limit)
      ++ [flag t.sampler.enabled] ++ leBytes 2 t.sampler.rate ++ [num t.sampler.classes.toNat]
      ++ leBytes 4 f.candidates.toNat ++ leBytes 4 f.samples.toNat ++ [flag t.eventCapture] ++ time t.captureFlush))

/-! ### What every step keeps -/

/-- Every step keeps the controller state, the fault code and the loaded directory in agreement (R194, R195, R198). -/
def Obligations.StepKeepsControllerLaw : Prop :=
  ∀ s t : State, s.ControllerLaw → step s = .next t → t.ControllerLaw

/-- Every step keeps each condition's raw value, state and timer in agreement, and each claim in agreement with the
qualified values of its guard set (R25, R26, R122). -/
def Obligations.StepKeepsConditionsAndClaims : Prop :=
  ∀ s t : State, s.ConditionLaw → s.ClaimLaw → step s = .next t → t.ConditionLaw ∧ t.ClaimLaw

/-- Every step keeps at most one outstanding entry for a slot and an ECU (R101), and the used, reserved and kept delivery
places of every slot at most 8 (R81, R114). -/
def Obligations.StepKeepsPairsAndPlaces : Prop :=
  (∀ s t : State, s.PairLaw → step s = .next t → t.PairLaw)
  ∧ (∀ s t : State, s.PlaceLaw → step s = .next t → t.PlaceLaw)

/-- Every step keeps the store's accounts (R58, R61, R64): the usage of each account is the sum of the counts that the
charges of the messages in the part record, those charges and the free cells make 1,024, no account carries more than its
threshold, and the free cells stay at or above the unused reservation. -/
def Obligations.StepKeepsStore : Prop :=
  ∀ s t : State, s.StoreLaw → step s = .next t → t.StoreLaw

/-- Every step keeps each claim in force with an ATTACHED holder and a grant that supports it (R122, second law; R54), and
each held head with an ATTACHED slot. -/
def Obligations.StepKeepsClaimSupport : Prop :=
  ∀ s t : State, s.SupportLaw → step s = .next t → t.SupportLaw

/-- Every step keeps shared RAM in its canonical form, and a news flag stays set until NEWS is read, a reset, or the entry
to FAULTED (R193, R198). -/
def Obligations.StepKeepsMemoryAndNews : Prop :=
  (∀ s t : State, Memory.wf s → step s = .next t → Memory.wf t)
  ∧ (∀ (s t : State) (c : Instr) (rest : List Instr), s.pending = c :: rest → step s = .next t →
    (∀ st, c ≠ .newsRead st) → c ≠ .hardwareReset →
    (∀ w st, c = .enable w st ∨ c = .softReset w st ∨ c = .irqEnable w st → w.getLsbD 1 = false) →
    (t.tab.ctl = .faulted → s.tab.ctl = .faulted) →
    ∀ n, s.flow.hasNews n = true → t.flow.hasNews n = true)

end
end

