-- ==== Sys2Proof/Laws/Memory.lean ====
section
/-! SUPPORT. What every operation on shared RAM can do: it keeps the canonical form, a byte written reads back, a byte
outside a write reads as before (00_scope.md; logs 1, 20). -/

namespace Sys2Proof.Machine

/-! ### Single bytes -/

theorem ramByte_of_not_mem {m : List Host.Cell} {a : Nat} (h : ∀ c ∈ m, c.1 ≠ a) : ramByte m a = ramDefault := by
  induction m with
  | nil => rfl
  | cons c m ih =>
    obtain ⟨k, v⟩ := c
    have hk : k ≠ a := h (k, v) (by simp)
    simp only [ramByte, hk, if_false]
    exact ih fun c hc => h c (by simp [hc])

theorem ramByte_append_left {m n : List Host.Cell} {a : Nat} (h : ∀ c ∈ m, c.1 ≠ a) :
    ramByte (m ++ n) a = ramByte n a := by
  induction m with
  | nil => rfl
  | cons c m ih =>
    obtain ⟨k, v⟩ := c
    have hk : k ≠ a := h (k, v) (by simp)
    simp only [List.cons_append, ramByte, hk, if_false]
    exact ih fun c hc => h c (by simp [hc])

theorem ramByte_append_right {m n : List Host.Cell} {a : Nat} (h : ∀ c ∈ n, c.1 ≠ a) :
    ramByte (m ++ n) a = ramByte m a := by
  induction m with
  | nil => simpa [ramByte] using ramByte_of_not_mem h
  | cons c m ih =>
    obtain ⟨k, v⟩ := c
    simp only [List.cons_append, ramByte]
    split <;> simp_all

/-- A filter that keeps the address does not change what it reads as. -/
theorem ramByte_filter {m : List Host.Cell} {a : Nat} {p : Host.Cell → Bool} (h : ∀ v, p (a, v) = true) :
    ramByte (m.filter p) a = ramByte m a := by
  induction m with
  | nil => rfl
  | cons c m ih =>
    obtain ⟨k, v⟩ := c
    by_cases hk : k = a
    · subst hk
      simp [List.filter, h v, ramByte]
    · by_cases hp : p (k, v) = true
      · simp [List.filter, hp, ramByte, hk, ih]
      · simp [List.filter, hp, ramByte, hk, ih]

/-! ### The cells of a run of bytes -/

theorem mem_ramCells {a : Nat} {bs : List Byte} {c : Host.Cell} (h : c ∈ ramCells a bs) :
    a ≤ c.1 ∧ c.1 < a + bs.length ∧ c.2 ≠ ramDefault := by
  induction bs generalizing a with
  | nil => simp [ramCells] at h
  | cons b bs ih =>
    simp only [ramCells] at h
    split at h
    · have := ih h
      simp only [List.length_cons]
      refine ⟨by omega, by omega, this.2.2⟩
    · rename_i hb
      simp only [List.mem_cons] at h
      rcases h with h | h
      · subst h; simp [hb]
      · have := ih h
        simp only [List.length_cons]
        refine ⟨by omega, by omega, this.2.2⟩

theorem ramCells_sorted (a : Nat) (bs : List Byte) : (ramCells a bs).Pairwise (fun x y => x.1 < y.1) := by
  induction bs generalizing a with
  | nil => simp [ramCells]
  | cons b bs ih =>
    simp only [ramCells]
    split
    · exact ih _
    · refine List.pairwise_cons.2 ⟨fun c hc => ?_, ih _⟩
      have := (mem_ramCells hc).1
      simp only; omega

theorem ramByte_ramCells (a : Nat) (bs : List Byte) (i : Nat) :
    ramByte (ramCells a bs) (a + i) = bs.getD i ramDefault := by
  induction bs generalizing a i with
  | nil => simp [ramCells, ramByte]
  | cons b bs ih =>
    cases i with
    | zero =>
      simp only [ramCells]
      split
      · rename_i hb
        have : ramByte (ramCells (a + 1) bs) (a + 0) = ramDefault :=
          ramByte_of_not_mem fun c hc => by have := (mem_ramCells hc).1; omega
        rw [this, hb]
        rfl
      · simp [ramByte]
    | succ i =>
      have e : a + (i + 1) = (a + 1) + i := by omega
      have hne : a ≠ a + (i + 1) := by omega
      simp only [ramCells]
      split
      · rw [e, ih]; simp
      · simp only [ramByte, if_neg hne]
        rw [e, ih]; simp

/-! ### Writing a run that ends at or below the top -/

/-- The canonical form is kept. -/
theorem ramPut_wf {m : List Host.Cell} {a : Nat} {bs : List Byte} (h : ramWf m) (ht : a + bs.length ≤ ramTop) :
    ramWf (ramPut m a bs) := by
  obtain ⟨hs, hc⟩ := h
  refine ⟨?_, ?_⟩
  · unfold ramPut
    rw [List.append_assoc]
    refine List.pairwise_append.2 ⟨hs.filter _, List.pairwise_append.2 ⟨ramCells_sorted _ _, hs.filter _, ?_⟩, ?_⟩
    · intro x hx y hy
      have hx := mem_ramCells hx
      have hy := (List.mem_filter.1 hy).2
      simp only [decide_eq_true_eq] at hy
      omega
    · intro x hx y hy
      have hx := (List.mem_filter.1 hx).2
      simp only [decide_eq_true_eq] at hx
      rcases List.mem_append.1 hy with hy | hy
      · have := (mem_ramCells hy).1; omega
      · have hy := (List.mem_filter.1 hy).2
        simp only [decide_eq_true_eq] at hy
        omega
  · intro c hc'
    simp only [ramPut, List.mem_append, List.mem_filter] at hc'
    rcases hc' with (⟨h1, _⟩ | h1) | ⟨h1, _⟩
    · exact hc c h1
    · have := mem_ramCells h1
      exact ⟨this.2.2, by omega⟩
    · exact hc c h1

/-- A byte of the run reads back. -/
theorem ramPut_inside (m : List Host.Cell) (a : Nat) (bs : List Byte) (i : Nat) (hi : i < bs.length) :
    ramByte (ramPut m a bs) (a + i) = bs.getD i ramDefault := by
  unfold ramPut
  rw [ramByte_append_right, ramByte_append_left, ramByte_ramCells]
  · intro c hc
    have := (List.mem_filter.1 hc).2
    simp only [decide_eq_true_eq] at this
    omega
  · intro c hc
    have := (List.mem_filter.1 hc).2
    simp only [decide_eq_true_eq] at this
    omega

/-- A byte outside the run reads as before. -/
theorem ramPut_outside (m : List Host.Cell) (a : Nat) (bs : List Byte) (b : Nat) (h : b < a ∨ a + bs.length ≤ b) :
    ramByte (ramPut m a bs) b = ramByte m b := by
  unfold ramPut
  rcases h with h | h
  · rw [ramByte_append_right, ramByte_append_right, ramByte_filter]
    · intro v; simpa using h
    · intro c hc; have := (mem_ramCells hc).1; omega
    · intro c hc
      have := (List.mem_filter.1 hc).2
      simp only [decide_eq_true_eq] at this
      omega
  · rw [ramByte_append_left, ramByte_filter]
    · intro v; simpa using h
    · intro c hc
      rcases List.mem_append.1 hc with hc | hc
      · have := (List.mem_filter.1 hc).2
        simp only [decide_eq_true_eq] at this
        omega
      · have := (mem_ramCells hc).2.1; omega

/-! ### Writing with addresses that wrap -/

theorem ramTop_pos : 0 < ramTop := by decide

theorem ramWrite_wf {m : List Host.Cell} (h : ramWf m) (a : Nat) (bs : List Byte) : ramWf (ramWrite m a bs) := by
  unfold ramWrite
  have ha : a % ramTop < ramTop := Nat.mod_lt _ ramTop_pos
  simp only
  split
  · exact ramPut_wf h (by omega)
  · refine ramPut_wf (ramPut_wf h ?_) ?_
    · rw [List.length_take]; omega
    · rw [List.length_take]; omega

theorem ramStores_wf {m : List Host.Cell} (h : ramWf m) (st : Stores) : ramWf (ramStores m st) := by
  induction st generalizing m with
  | nil => exact h
  | cons c st ih => exact ih (ramWrite_wf h c.1 [c.2])

/-- A write of bytes that do not run past the top of the address space reads back. -/
theorem ramWrite_inside (m : List Host.Cell) (a : Nat) (bs : List Byte) (ht : a + bs.length ≤ ramTop) (i : Nat)
    (hi : i < bs.length) : ramByte (ramWrite m a bs) (a + i) = bs.getD i ramDefault := by
  have ha : a % ramTop = a := Nat.mod_eq_of_lt (by omega)
  unfold ramWrite
  simp only [ha]
  rw [if_pos (by omega)]
  exact ramPut_inside m a bs i hi

/-- A byte outside a write reads as before. -/
theorem ramWrite_outside (m : List Host.Cell) (a : Nat) (bs : List Byte) (ht : a + bs.length ≤ ramTop) (b : Nat)
    (h : b < a ∨ a + bs.length ≤ b) : ramByte (ramWrite m a bs) b = ramByte m b := by
  unfold ramWrite
  rcases Nat.lt_or_ge a ramTop with hlt | hge
  · have ha : a % ramTop = a := Nat.mod_eq_of_lt hlt
    simp only [ha]
    rw [if_pos (by omega)]
    exact ramPut_outside m a bs b h
  · have hn : bs = [] := List.eq_nil_of_length_eq_zero (by omega)
    subst hn
    have hk : a % ramTop < ramTop := Nat.mod_lt _ ramTop_pos
    simp only [List.length_nil, Nat.zero_le, if_true]
    exact ramPut_outside m _ [] b (by simp; omega)

@[simp] theorem ramWrite_nil_byte (m : List Host.Cell) (a b : Nat) : ramByte (ramWrite m a []) b = ramByte m b := by
  unfold ramWrite
  simp only [List.length_nil, Nat.zero_le, if_true]
  exact ramPut_outside m _ [] b (by simp; omega)

/-! ### Reading runs -/

theorem ramWalk_eq (m : List Host.Cell) (a n : Nat) (hs : m.Pairwise (fun x y => x.1 < y.1)) (h : ∀ c ∈ m, a ≤ c.1) :
    ramWalk m a n = (List.range n).map fun i => ramByte m (a + i) := by
  induction n generalizing m a with
  | zero => cases m <;> rfl
  | succ n ih =>
    cases m with
    | nil =>
      simp only [ramWalk, zeros, ramByte, ramDefault]
      simp [List.map_const']
    | cons c m =>
      obtain ⟨k, v⟩ := c
      have hs' := List.pairwise_cons.1 hs
      rw [List.range_succ_eq_map]
      simp only [List.map_cons, List.map_map, ramWalk]
      by_cases hk : k = a
      · subst hk
        simp only [if_true]
        rw [ih m (k + 1) hs'.2 fun c hc => by have := hs'.1 c hc; simp only at this; omega]
        simp only [ramByte, Nat.add_zero, if_true]
        congr 1
        apply List.map_congr_left
        intro i _
        have : k ≠ k + (i + 1) := by omega
        simp only [Function.comp, Nat.succ_eq_add_one, if_neg this]
        congr 1
        omega
      · have hk' : a + 1 ≤ k := by have := h (k, v) (by simp); simp only at this; omega
        simp only [hk, if_false]
        rw [ih ((k, v) :: m) (a + 1) hs fun c hc => by
          rcases List.mem_cons.1 hc with hc | hc
          · subst hc; exact hk'
          · have := hs'.1 c hc; simp only at this; omega]
        have : ramByte ((k, v) :: m) (a + 0) = ramDefault := by
          refine ramByte_of_not_mem fun c hc => ?_
          rcases List.mem_cons.1 hc with hc | hc
          · subst hc; simp only; omega
          · have := hs'.1 c hc; simp only at this; omega
        rw [this]
        congr 1
        apply List.map_congr_left
        intro i _
        simp only [Function.comp, Nat.succ_eq_add_one]
        congr 1
        omega

theorem ramByte_dropWhile {m : List Host.Cell} {a b : Nat} (h : a ≤ b) :
    ramByte (m.dropWhile fun c => decide (c.1 < a)) b = ramByte m b := by
  induction m with
  | nil => rfl
  | cons c m ih =>
    obtain ⟨k, v⟩ := c
    by_cases hk : k < a
    · have : k ≠ b := by omega
      simp [List.dropWhile, hk, ramByte, this, ih]
    · simp [List.dropWhile, hk]

theorem le_of_mem_dropWhile {m : List Host.Cell} {a : Nat} {c : Host.Cell} (hs : m.Pairwise (fun x y => x.1 < y.1))
    (h : c ∈ m.dropWhile fun c => decide (c.1 < a)) : a ≤ c.1 := by
  induction m with
  | nil => simp at h
  | cons d m ih =>
    have hs' := List.pairwise_cons.1 hs
    by_cases hd : d.1 < a
    · simp only [List.dropWhile, hd, decide_true] at h
      exact ih hs'.2 h
    · simp only [List.dropWhile, hd, decide_false] at h
      rcases List.mem_cons.1 h with h | h
      · subst h; omega
      · have := hs'.1 c h; omega

/-- In canonical memory a run of bytes is the bytes at its addresses. -/
theorem ramRun_eq {m : List Host.Cell} (hs : m.Pairwise (fun x y => x.1 < y.1)) (a n : Nat) :
    ramRun m a n = (List.range n).map fun i => ramByte m (a + i) := by
  unfold ramRun
  rw [ramWalk_eq _ _ _ (hs.sublist (List.dropWhile_sublist _))]
  · apply List.map_congr_left
    intro i _
    exact ramByte_dropWhile (by omega)
  · exact fun c hc => le_of_mem_dropWhile hs hc

/-- In canonical memory a read that does not run past the top gives the bytes at its addresses. -/
theorem ramRead_eq {m : List Host.Cell} (h : ramWf m) {a n : Nat} (ht : a + n ≤ ramTop) :
    ramRead m a n = (List.range n).map fun i => ramByte m (a + i) := by
  unfold ramRead
  cases n with
  | zero =>
    have : a % ramTop < ramTop := Nat.mod_lt _ ramTop_pos
    simp only [Nat.add_zero]
    rw [if_pos (by omega), ramRun_eq h.1]
    simp
  | succ n =>
    have ha : a % ramTop = a := Nat.mod_eq_of_lt (by omega)
    simp only [ha]
    rw [if_pos ht, ramRun_eq h.1]

/-- Reading back what was just written. -/
theorem ramRead_ramWrite {m : List Host.Cell} (h : ramWf m) (a : Nat) (bs : List Byte) (ht : a + bs.length ≤ ramTop) :
    ramRead (ramWrite m a bs) a bs.length = bs := by
  rw [ramRead_eq (ramWrite_wf h a bs) ht]
  apply List.ext_getElem
  · simp
  · intro i h1 h2
    simp only [List.getElem_map, List.getElem_range]
    rw [ramWrite_inside m a bs ht i h2, List.getD_eq_getElem?_getD, List.getElem?_eq_getElem h2]
    rfl

/-- A read apart from a write gives what it gave before. -/
theorem ramRead_apart {m : List Host.Cell} (h : ramWf m) (a : Nat) (bs : List Byte) (ht : a + bs.length ≤ ramTop)
    {b n : Nat} (hb : b + n ≤ ramTop) (hd : b + n ≤ a ∨ a + bs.length ≤ b) :
    ramRead (ramWrite m a bs) b n = ramRead m b n := by
  rw [ramRead_eq (ramWrite_wf h a bs) hb, ramRead_eq h hb]
  apply List.map_congr_left
  intro i hi
  have := List.mem_range.1 hi
  exact ramWrite_outside m a bs ht (b + i) (by omega)

/-! ### Little-endian numbers -/

@[simp] theorem leBytes_length (k n : Nat) : (leBytes k n).length = k := by
  induction k generalizing n with
  | zero => rfl
  | succ k ih => simp [leBytes, ih]

/-- A number that fits its bytes reads back. -/
theorem leNat_leBytes (k n : Nat) (h : n < 256 ^ k) : leNat (leBytes k n) = n := by
  induction k generalizing n with
  | zero => simp at h; subst h; rfl
  | succ k ih =>
    simp only [leBytes, leNat]
    rw [ih (n / 256) (by rw [Nat.pow_succ] at h; omega)]
    simp only [BitVec.toNat_ofNat]
    omega

/-- A state word just written reads back. -/
theorem ramNum_ramWrite {m : List Host.Cell} (h : ramWf m) (a k n : Nat) (ht : a + k ≤ ramTop) (hn : n < 256 ^ k) :
    ramNum (ramWrite m a (leBytes k n)) a k = n := by
  unfold ramNum
  have := ramRead_ramWrite h a (leBytes k n) (by simpa using ht)
  rw [leBytes_length] at this
  rw [this, leNat_leBytes k n hn]

/-- A number apart from a write reads as before. -/
theorem ramNum_apart {m : List Host.Cell} (h : ramWf m) (a : Nat) (bs : List Byte) (ht : a + bs.length ≤ ramTop)
    {b k : Nat} (hb : b + k ≤ ramTop) (hd : b + k ≤ a ∨ a + bs.length ≤ b) :
    ramNum (ramWrite m a bs) b k = ramNum m b k := by
  unfold ramNum
  rw [ramRead_apart h a bs ht hb hd]

/-- The empty memory of the reset state is canonical. -/
theorem ramWf_nil : ramWf [] := ⟨List.Pairwise.nil, by simp⟩

end Sys2Proof.Machine
end

