-- ==== Sys2Proof/Laws/State.lean ====
section
/-! SUPPORT. One lemma per field and update of the state, each true by rfl, so that no proof unfolds a record update. -/

namespace Sys2Proof.Machine

/-! ### The updates of `Flow` leave the other fields alone -/

@[simp] theorem Flow.modSlot_news (f : Flow) (k : Slot) (g : SlotFlow → SlotFlow) : (f.modSlot k g).news = f.news := rfl
@[simp] theorem Flow.modSlot_ram (f : Flow) (k : Slot) (g : SlotFlow → SlotFlow) : (f.modSlot k g).ram = f.ram := rfl
@[simp] theorem Flow.modSlot_boardPos (f : Flow) (k : Slot) (g : SlotFlow → SlotFlow) : (f.modSlot k g).boardPos = f.boardPos := rfl
@[simp] theorem Flow.modSlot_look (f : Flow) (k : Slot) (g : SlotFlow → SlotFlow) : (f.modSlot k g).look = f.look := rfl
@[simp] theorem Flow.modSlot_lookDue (f : Flow) (k : Slot) (g : SlotFlow → SlotFlow) : (f.modSlot k g).lookDue = f.lookDue := rfl
@[simp] theorem Flow.modSlot_releaseWaits (f : Flow) (k : Slot) (g : SlotFlow → SlotFlow) : (f.modSlot k g).releaseWaits = f.releaseWaits := rfl
@[simp] theorem Flow.modSlot_relayIn (f : Flow) (k : Slot) (g : SlotFlow → SlotFlow) : (f.modSlot k g).relayIn = f.relayIn := rfl
@[simp] theorem Flow.modSlot_relayOut (f : Flow) (k : Slot) (g : SlotFlow → SlotFlow) : (f.modSlot k g).relayOut = f.relayOut := rfl
@[simp] theorem Flow.modSlot_relayUnknown (f : Flow) (k : Slot) (g : SlotFlow → SlotFlow) : (f.modSlot k g).relayUnknown = f.relayUnknown := rfl
@[simp] theorem Flow.modSlot_tbUnknown (f : Flow) (k : Slot) (g : SlotFlow → SlotFlow) : (f.modSlot k g).tbUnknown = f.tbUnknown := rfl
@[simp] theorem Flow.modSlot_visitPos (f : Flow) (k : Slot) (g : SlotFlow → SlotFlow) : (f.modSlot k g).visitPos = f.visitPos := rfl
@[simp] theorem Flow.modSlot_again (f : Flow) (k : Slot) (g : SlotFlow → SlotFlow) : (f.modSlot k g).again = f.again := rfl
@[simp] theorem Flow.modSlot_placed (f : Flow) (k : Slot) (g : SlotFlow → SlotFlow) : (f.modSlot k g).placed = f.placed := rfl
@[simp] theorem Flow.modSlot_free (f : Flow) (k : Slot) (g : SlotFlow → SlotFlow) : (f.modSlot k g).free = f.free := rfl
@[simp] theorem Flow.modSlot_usage (f : Flow) (k : Slot) (g : SlotFlow → SlotFlow) : (f.modSlot k g).usage = f.usage := rfl
@[simp] theorem Flow.modSlot_waiting (f : Flow) (k : Slot) (g : SlotFlow → SlotFlow) : (f.modSlot k g).waiting = f.waiting := rfl
@[simp] theorem Flow.modSlot_entries (f : Flow) (k : Slot) (g : SlotFlow → SlotFlow) : (f.modSlot k g).entries = f.entries := rfl
@[simp] theorem Flow.modSlot_delivering (f : Flow) (k : Slot) (g : SlotFlow → SlotFlow) : (f.modSlot k g).delivering = f.delivering := rfl
@[simp] theorem Flow.modSlot_roomReport (f : Flow) (k : Slot) (g : SlotFlow → SlotFlow) : (f.modSlot k g).roomReport = f.roomReport := rfl
@[simp] theorem Flow.modSlot_ecuCounts (f : Flow) (k : Slot) (g : SlotFlow → SlotFlow) : (f.modSlot k g).ecuCounts = f.ecuCounts := rfl
@[simp] theorem Flow.modSlot_claims (f : Flow) (k : Slot) (g : SlotFlow → SlotFlow) : (f.modSlot k g).claims = f.claims := rfl
@[simp] theorem Flow.modSlot_ports (f : Flow) (k : Slot) (g : SlotFlow → SlotFlow) : (f.modSlot k g).ports = f.ports := rfl
@[simp] theorem Flow.modSlot_vbs (f : Flow) (k : Slot) (g : SlotFlow → SlotFlow) : (f.modSlot k g).vbs = f.vbs := rfl
@[simp] theorem Flow.modSlot_jobs (f : Flow) (k : Slot) (g : SlotFlow → SlotFlow) : (f.modSlot k g).jobs = f.jobs := rfl
@[simp] theorem Flow.modSlot_writer (f : Flow) (k : Slot) (g : SlotFlow → SlotFlow) : (f.modSlot k g).writer = f.writer := rfl
@[simp] theorem Flow.modSlot_candidates (f : Flow) (k : Slot) (g : SlotFlow → SlotFlow) : (f.modSlot k g).candidates = f.candidates := rfl
@[simp] theorem Flow.modSlot_samples (f : Flow) (k : Slot) (g : SlotFlow → SlotFlow) : (f.modSlot k g).samples = f.samples := rfl

@[simp] theorem Flow.modClaim_news (f : Flow) (e : EcuIx) (g : Claim → Claim) : (f.modClaim e g).news = f.news := rfl
@[simp] theorem Flow.modClaim_ram (f : Flow) (e : EcuIx) (g : Claim → Claim) : (f.modClaim e g).ram = f.ram := rfl
@[simp] theorem Flow.modClaim_boardPos (f : Flow) (e : EcuIx) (g : Claim → Claim) : (f.modClaim e g).boardPos = f.boardPos := rfl
@[simp] theorem Flow.modClaim_look (f : Flow) (e : EcuIx) (g : Claim → Claim) : (f.modClaim e g).look = f.look := rfl
@[simp] theorem Flow.modClaim_lookDue (f : Flow) (e : EcuIx) (g : Claim → Claim) : (f.modClaim e g).lookDue = f.lookDue := rfl
@[simp] theorem Flow.modClaim_releaseWaits (f : Flow) (e : EcuIx) (g : Claim → Claim) : (f.modClaim e g).releaseWaits = f.releaseWaits := rfl
@[simp] theorem Flow.modClaim_relayIn (f : Flow) (e : EcuIx) (g : Claim → Claim) : (f.modClaim e g).relayIn = f.relayIn := rfl
@[simp] theorem Flow.modClaim_relayOut (f : Flow) (e : EcuIx) (g : Claim → Claim) : (f.modClaim e g).relayOut = f.relayOut := rfl
@[simp] theorem Flow.modClaim_relayUnknown (f : Flow) (e : EcuIx) (g : Claim → Claim) : (f.modClaim e g).relayUnknown = f.relayUnknown := rfl
@[simp] theorem Flow.modClaim_tbUnknown (f : Flow) (e : EcuIx) (g : Claim → Claim) : (f.modClaim e g).tbUnknown = f.tbUnknown := rfl
@[simp] theorem Flow.modClaim_slots (f : Flow) (e : EcuIx) (g : Claim → Claim) : (f.modClaim e g).slots = f.slots := rfl
@[simp] theorem Flow.modClaim_visitPos (f : Flow) (e : EcuIx) (g : Claim → Claim) : (f.modClaim e g).visitPos = f.visitPos := rfl
@[simp] theorem Flow.modClaim_again (f : Flow) (e : EcuIx) (g : Claim → Claim) : (f.modClaim e g).again = f.again := rfl
@[simp] theorem Flow.modClaim_placed (f : Flow) (e : EcuIx) (g : Claim → Claim) : (f.modClaim e g).placed = f.placed := rfl
@[simp] theorem Flow.modClaim_free (f : Flow) (e : EcuIx) (g : Claim → Claim) : (f.modClaim e g).free = f.free := rfl
@[simp] theorem Flow.modClaim_usage (f : Flow) (e : EcuIx) (g : Claim → Claim) : (f.modClaim e g).usage = f.usage := rfl
@[simp] theorem Flow.modClaim_waiting (f : Flow) (e : EcuIx) (g : Claim → Claim) : (f.modClaim e g).waiting = f.waiting := rfl
@[simp] theorem Flow.modClaim_entries (f : Flow) (e : EcuIx) (g : Claim → Claim) : (f.modClaim e g).entries = f.entries := rfl
@[simp] theorem Flow.modClaim_delivering (f : Flow) (e : EcuIx) (g : Claim → Claim) : (f.modClaim e g).delivering = f.delivering := rfl
@[simp] theorem Flow.modClaim_roomReport (f : Flow) (e : EcuIx) (g : Claim → Claim) : (f.modClaim e g).roomReport = f.roomReport := rfl
@[simp] theorem Flow.modClaim_ecuCounts (f : Flow) (e : EcuIx) (g : Claim → Claim) : (f.modClaim e g).ecuCounts = f.ecuCounts := rfl
@[simp] theorem Flow.modClaim_ports (f : Flow) (e : EcuIx) (g : Claim → Claim) : (f.modClaim e g).ports = f.ports := rfl
@[simp] theorem Flow.modClaim_vbs (f : Flow) (e : EcuIx) (g : Claim → Claim) : (f.modClaim e g).vbs = f.vbs := rfl
@[simp] theorem Flow.modClaim_jobs (f : Flow) (e : EcuIx) (g : Claim → Claim) : (f.modClaim e g).jobs = f.jobs := rfl
@[simp] theorem Flow.modClaim_writer (f : Flow) (e : EcuIx) (g : Claim → Claim) : (f.modClaim e g).writer = f.writer := rfl
@[simp] theorem Flow.modClaim_candidates (f : Flow) (e : EcuIx) (g : Claim → Claim) : (f.modClaim e g).candidates = f.candidates := rfl
@[simp] theorem Flow.modClaim_samples (f : Flow) (e : EcuIx) (g : Claim → Claim) : (f.modClaim e g).samples = f.samples := rfl

@[simp] theorem Flow.modPort_news (f : Flow) (p : PortId) (g : PortFlow → PortFlow) : (f.modPort p g).news = f.news := rfl
@[simp] theorem Flow.modPort_ram (f : Flow) (p : PortId) (g : PortFlow → PortFlow) : (f.modPort p g).ram = f.ram := rfl
@[simp] theorem Flow.modPort_boardPos (f : Flow) (p : PortId) (g : PortFlow → PortFlow) : (f.modPort p g).boardPos = f.boardPos := rfl
@[simp] theorem Flow.modPort_look (f : Flow) (p : PortId) (g : PortFlow → PortFlow) : (f.modPort p g).look = f.look := rfl
@[simp] theorem Flow.modPort_lookDue (f : Flow) (p : PortId) (g : PortFlow → PortFlow) : (f.modPort p g).lookDue = f.lookDue := rfl
@[simp] theorem Flow.modPort_releaseWaits (f : Flow) (p : PortId) (g : PortFlow → PortFlow) : (f.modPort p g).releaseWaits = f.releaseWaits := rfl
@[simp] theorem Flow.modPort_relayIn (f : Flow) (p : PortId) (g : PortFlow → PortFlow) : (f.modPort p g).relayIn = f.relayIn := rfl
@[simp] theorem Flow.modPort_relayOut (f : Flow) (p : PortId) (g : PortFlow → PortFlow) : (f.modPort p g).relayOut = f.relayOut := rfl
@[simp] theorem Flow.modPort_relayUnknown (f : Flow) (p : PortId) (g : PortFlow → PortFlow) : (f.modPort p g).relayUnknown = f.relayUnknown := rfl
@[simp] theorem Flow.modPort_tbUnknown (f : Flow) (p : PortId) (g : PortFlow → PortFlow) : (f.modPort p g).tbUnknown = f.tbUnknown := rfl
@[simp] theorem Flow.modPort_slots (f : Flow) (p : PortId) (g : PortFlow → PortFlow) : (f.modPort p g).slots = f.slots := rfl
@[simp] theorem Flow.modPort_visitPos (f : Flow) (p : PortId) (g : PortFlow → PortFlow) : (f.modPort p g).visitPos = f.visitPos := rfl
@[simp] theorem Flow.modPort_again (f : Flow) (p : PortId) (g : PortFlow → PortFlow) : (f.modPort p g).again = f.again := rfl
@[simp] theorem Flow.modPort_placed (f : Flow) (p : PortId) (g : PortFlow → PortFlow) : (f.modPort p g).placed = f.placed := rfl
@[simp] theorem Flow.modPort_free (f : Flow) (p : PortId) (g : PortFlow → PortFlow) : (f.modPort p g).free = f.free := rfl
@[simp] theorem Flow.modPort_usage (f : Flow) (p : PortId) (g : PortFlow → PortFlow) : (f.modPort p g).usage = f.usage := rfl
@[simp] theorem Flow.modPort_waiting (f : Flow) (p : PortId) (g : PortFlow → PortFlow) : (f.modPort p g).waiting = f.waiting := rfl
@[simp] theorem Flow.modPort_entries (f : Flow) (p : PortId) (g : PortFlow → PortFlow) : (f.modPort p g).entries = f.entries := rfl
@[simp] theorem Flow.modPort_delivering (f : Flow) (p : PortId) (g : PortFlow → PortFlow) : (f.modPort p g).delivering = f.delivering := rfl
@[simp] theorem Flow.modPort_roomReport (f : Flow) (p : PortId) (g : PortFlow → PortFlow) : (f.modPort p g).roomReport = f.roomReport := rfl
@[simp] theorem Flow.modPort_ecuCounts (f : Flow) (p : PortId) (g : PortFlow → PortFlow) : (f.modPort p g).ecuCounts = f.ecuCounts := rfl
@[simp] theorem Flow.modPort_claims (f : Flow) (p : PortId) (g : PortFlow → PortFlow) : (f.modPort p g).claims = f.claims := rfl
@[simp] theorem Flow.modPort_vbs (f : Flow) (p : PortId) (g : PortFlow → PortFlow) : (f.modPort p g).vbs = f.vbs := rfl
@[simp] theorem Flow.modPort_jobs (f : Flow) (p : PortId) (g : PortFlow → PortFlow) : (f.modPort p g).jobs = f.jobs := rfl
@[simp] theorem Flow.modPort_writer (f : Flow) (p : PortId) (g : PortFlow → PortFlow) : (f.modPort p g).writer = f.writer := rfl
@[simp] theorem Flow.modPort_candidates (f : Flow) (p : PortId) (g : PortFlow → PortFlow) : (f.modPort p g).candidates = f.candidates := rfl
@[simp] theorem Flow.modPort_samples (f : Flow) (p : PortId) (g : PortFlow → PortFlow) : (f.modPort p g).samples = f.samples := rfl

@[simp] theorem Flow.modVb_news (f : Flow) (v : VbIx) (g : VbFlow → VbFlow) : (f.modVb v g).news = f.news := rfl
@[simp] theorem Flow.modVb_ram (f : Flow) (v : VbIx) (g : VbFlow → VbFlow) : (f.modVb v g).ram = f.ram := rfl
@[simp] theorem Flow.modVb_boardPos (f : Flow) (v : VbIx) (g : VbFlow → VbFlow) : (f.modVb v g).boardPos = f.boardPos := rfl
@[simp] theorem Flow.modVb_look (f : Flow) (v : VbIx) (g : VbFlow → VbFlow) : (f.modVb v g).look = f.look := rfl
@[simp] theorem Flow.modVb_lookDue (f : Flow) (v : VbIx) (g : VbFlow → VbFlow) : (f.modVb v g).lookDue = f.lookDue := rfl
@[simp] theorem Flow.modVb_releaseWaits (f : Flow) (v : VbIx) (g : VbFlow → VbFlow) : (f.modVb v g).releaseWaits = f.releaseWaits := rfl
@[simp] theorem Flow.modVb_relayIn (f : Flow) (v : VbIx) (g : VbFlow → VbFlow) : (f.modVb v g).relayIn = f.relayIn := rfl
@[simp] theorem Flow.modVb_relayOut (f : Flow) (v : VbIx) (g : VbFlow → VbFlow) : (f.modVb v g).relayOut = f.relayOut := rfl
@[simp] theorem Flow.modVb_relayUnknown (f : Flow) (v : VbIx) (g : VbFlow → VbFlow) : (f.modVb v g).relayUnknown = f.relayUnknown := rfl
@[simp] theorem Flow.modVb_tbUnknown (f : Flow) (v : VbIx) (g : VbFlow → VbFlow) : (f.modVb v g).tbUnknown = f.tbUnknown := rfl
@[simp] theorem Flow.modVb_slots (f : Flow) (v : VbIx) (g : VbFlow → VbFlow) : (f.modVb v g).slots = f.slots := rfl
@[simp] theorem Flow.modVb_visitPos (f : Flow) (v : VbIx) (g : VbFlow → VbFlow) : (f.modVb v g).visitPos = f.visitPos := rfl
@[simp] theorem Flow.modVb_again (f : Flow) (v : VbIx) (g : VbFlow → VbFlow) : (f.modVb v g).again = f.again := rfl
@[simp] theorem Flow.modVb_placed (f : Flow) (v : VbIx) (g : VbFlow → VbFlow) : (f.modVb v g).placed = f.placed := rfl
@[simp] theorem Flow.modVb_free (f : Flow) (v : VbIx) (g : VbFlow → VbFlow) : (f.modVb v g).free = f.free := rfl
@[simp] theorem Flow.modVb_usage (f : Flow) (v : VbIx) (g : VbFlow → VbFlow) : (f.modVb v g).usage = f.usage := rfl
@[simp] theorem Flow.modVb_waiting (f : Flow) (v : VbIx) (g : VbFlow → VbFlow) : (f.modVb v g).waiting = f.waiting := rfl
@[simp] theorem Flow.modVb_entries (f : Flow) (v : VbIx) (g : VbFlow → VbFlow) : (f.modVb v g).entries = f.entries := rfl
@[simp] theorem Flow.modVb_delivering (f : Flow) (v : VbIx) (g : VbFlow → VbFlow) : (f.modVb v g).delivering = f.delivering := rfl
@[simp] theorem Flow.modVb_roomReport (f : Flow) (v : VbIx) (g : VbFlow → VbFlow) : (f.modVb v g).roomReport = f.roomReport := rfl
@[simp] theorem Flow.modVb_ecuCounts (f : Flow) (v : VbIx) (g : VbFlow → VbFlow) : (f.modVb v g).ecuCounts = f.ecuCounts := rfl
@[simp] theorem Flow.modVb_claims (f : Flow) (v : VbIx) (g : VbFlow → VbFlow) : (f.modVb v g).claims = f.claims := rfl
@[simp] theorem Flow.modVb_ports (f : Flow) (v : VbIx) (g : VbFlow → VbFlow) : (f.modVb v g).ports = f.ports := rfl
@[simp] theorem Flow.modVb_jobs (f : Flow) (v : VbIx) (g : VbFlow → VbFlow) : (f.modVb v g).jobs = f.jobs := rfl
@[simp] theorem Flow.modVb_writer (f : Flow) (v : VbIx) (g : VbFlow → VbFlow) : (f.modVb v g).writer = f.writer := rfl
@[simp] theorem Flow.modVb_candidates (f : Flow) (v : VbIx) (g : VbFlow → VbFlow) : (f.modVb v g).candidates = f.candidates := rfl
@[simp] theorem Flow.modVb_samples (f : Flow) (v : VbIx) (g : VbFlow → VbFlow) : (f.modVb v g).samples = f.samples := rfl

@[simp] theorem Flow.modJob_news (f : Flow) (j : JobIx) (g : Job → Job) : (f.modJob j g).news = f.news := rfl
@[simp] theorem Flow.modJob_ram (f : Flow) (j : JobIx) (g : Job → Job) : (f.modJob j g).ram = f.ram := rfl
@[simp] theorem Flow.modJob_boardPos (f : Flow) (j : JobIx) (g : Job → Job) : (f.modJob j g).boardPos = f.boardPos := rfl
@[simp] theorem Flow.modJob_look (f : Flow) (j : JobIx) (g : Job → Job) : (f.modJob j g).look = f.look := rfl
@[simp] theorem Flow.modJob_lookDue (f : Flow) (j : JobIx) (g : Job → Job) : (f.modJob j g).lookDue = f.lookDue := rfl
@[simp] theorem Flow.modJob_releaseWaits (f : Flow) (j : JobIx) (g : Job → Job) : (f.modJob j g).releaseWaits = f.releaseWaits := rfl
@[simp] theorem Flow.modJob_relayIn (f : Flow) (j : JobIx) (g : Job → Job) : (f.modJob j g).relayIn = f.relayIn := rfl
@[simp] theorem Flow.modJob_relayOut (f : Flow) (j : JobIx) (g : Job → Job) : (f.modJob j g).relayOut = f.relayOut := rfl
@[simp] theorem Flow.modJob_relayUnknown (f : Flow) (j : JobIx) (g : Job → Job) : (f.modJob j g).relayUnknown = f.relayUnknown := rfl
@[simp] theorem Flow.modJob_tbUnknown (f : Flow) (j : JobIx) (g : Job → Job) : (f.modJob j g).tbUnknown = f.tbUnknown := rfl
@[simp] theorem Flow.modJob_slots (f : Flow) (j : JobIx) (g : Job → Job) : (f.modJob j g).slots = f.slots := rfl
@[simp] theorem Flow.modJob_visitPos (f : Flow) (j : JobIx) (g : Job → Job) : (f.modJob j g).visitPos = f.visitPos := rfl
@[simp] theorem Flow.modJob_again (f : Flow) (j : JobIx) (g : Job → Job) : (f.modJob j g).again = f.again := rfl
@[simp] theorem Flow.modJob_placed (f : Flow) (j : JobIx) (g : Job → Job) : (f.modJob j g).placed = f.placed := rfl
@[simp] theorem Flow.modJob_free (f : Flow) (j : JobIx) (g : Job → Job) : (f.modJob j g).free = f.free := rfl
@[simp] theorem Flow.modJob_usage (f : Flow) (j : JobIx) (g : Job → Job) : (f.modJob j g).usage = f.usage := rfl
@[simp] theorem Flow.modJob_waiting (f : Flow) (j : JobIx) (g : Job → Job) : (f.modJob j g).waiting = f.waiting := rfl
@[simp] theorem Flow.modJob_entries (f : Flow) (j : JobIx) (g : Job → Job) : (f.modJob j g).entries = f.entries := rfl
@[simp] theorem Flow.modJob_delivering (f : Flow) (j : JobIx) (g : Job → Job) : (f.modJob j g).delivering = f.delivering := rfl
@[simp] theorem Flow.modJob_roomReport (f : Flow) (j : JobIx) (g : Job → Job) : (f.modJob j g).roomReport = f.roomReport := rfl
@[simp] theorem Flow.modJob_ecuCounts (f : Flow) (j : JobIx) (g : Job → Job) : (f.modJob j g).ecuCounts = f.ecuCounts := rfl
@[simp] theorem Flow.modJob_claims (f : Flow) (j : JobIx) (g : Job → Job) : (f.modJob j g).claims = f.claims := rfl
@[simp] theorem Flow.modJob_ports (f : Flow) (j : JobIx) (g : Job → Job) : (f.modJob j g).ports = f.ports := rfl
@[simp] theorem Flow.modJob_vbs (f : Flow) (j : JobIx) (g : Job → Job) : (f.modJob j g).vbs = f.vbs := rfl
@[simp] theorem Flow.modJob_writer (f : Flow) (j : JobIx) (g : Job → Job) : (f.modJob j g).writer = f.writer := rfl
@[simp] theorem Flow.modJob_candidates (f : Flow) (j : JobIx) (g : Job → Job) : (f.modJob j g).candidates = f.candidates := rfl
@[simp] theorem Flow.modJob_samples (f : Flow) (j : JobIx) (g : Job → Job) : (f.modJob j g).samples = f.samples := rfl

@[simp] theorem Flow.modEntry_news (f : Flow) (i : EntryIx) (g : Entry → Entry) : (f.modEntry i g).news = f.news := rfl
@[simp] theorem Flow.modEntry_ram (f : Flow) (i : EntryIx) (g : Entry → Entry) : (f.modEntry i g).ram = f.ram := rfl
@[simp] theorem Flow.modEntry_boardPos (f : Flow) (i : EntryIx) (g : Entry → Entry) : (f.modEntry i g).boardPos = f.boardPos := rfl
@[simp] theorem Flow.modEntry_look (f : Flow) (i : EntryIx) (g : Entry → Entry) : (f.modEntry i g).look = f.look := rfl
@[simp] theorem Flow.modEntry_lookDue (f : Flow) (i : EntryIx) (g : Entry → Entry) : (f.modEntry i g).lookDue = f.lookDue := rfl
@[simp] theorem Flow.modEntry_releaseWaits (f : Flow) (i : EntryIx) (g : Entry → Entry) : (f.modEntry i g).releaseWaits = f.releaseWaits := rfl
@[simp] theorem Flow.modEntry_relayIn (f : Flow) (i : EntryIx) (g : Entry → Entry) : (f.modEntry i g).relayIn = f.relayIn := rfl
@[simp] theorem Flow.modEntry_relayOut (f : Flow) (i : EntryIx) (g : Entry → Entry) : (f.modEntry i g).relayOut = f.relayOut := rfl
@[simp] theorem Flow.modEntry_relayUnknown (f : Flow) (i : EntryIx) (g : Entry → Entry) : (f.modEntry i g).relayUnknown = f.relayUnknown := rfl
@[simp] theorem Flow.modEntry_tbUnknown (f : Flow) (i : EntryIx) (g : Entry → Entry) : (f.modEntry i g).tbUnknown = f.tbUnknown := rfl
@[simp] theorem Flow.modEntry_slots (f : Flow) (i : EntryIx) (g : Entry → Entry) : (f.modEntry i g).slots = f.slots := rfl
@[simp] theorem Flow.modEntry_visitPos (f : Flow) (i : EntryIx) (g : Entry → Entry) : (f.modEntry i g).visitPos = f.visitPos := rfl
@[simp] theorem Flow.modEntry_again (f : Flow) (i : EntryIx) (g : Entry → Entry) : (f.modEntry i g).again = f.again := rfl
@[simp] theorem Flow.modEntry_placed (f : Flow) (i : EntryIx) (g : Entry → Entry) : (f.modEntry i g).placed = f.placed := rfl
@[simp] theorem Flow.modEntry_free (f : Flow) (i : EntryIx) (g : Entry → Entry) : (f.modEntry i g).free = f.free := rfl
@[simp] theorem Flow.modEntry_usage (f : Flow) (i : EntryIx) (g : Entry → Entry) : (f.modEntry i g).usage = f.usage := rfl
@[simp] theorem Flow.modEntry_waiting (f : Flow) (i : EntryIx) (g : Entry → Entry) : (f.modEntry i g).waiting = f.waiting := rfl
@[simp] theorem Flow.modEntry_delivering (f : Flow) (i : EntryIx) (g : Entry → Entry) : (f.modEntry i g).delivering = f.delivering := rfl
@[simp] theorem Flow.modEntry_roomReport (f : Flow) (i : EntryIx) (g : Entry → Entry) : (f.modEntry i g).roomReport = f.roomReport := rfl
@[simp] theorem Flow.modEntry_ecuCounts (f : Flow) (i : EntryIx) (g : Entry → Entry) : (f.modEntry i g).ecuCounts = f.ecuCounts := rfl
@[simp] theorem Flow.modEntry_claims (f : Flow) (i : EntryIx) (g : Entry → Entry) : (f.modEntry i g).claims = f.claims := rfl
@[simp] theorem Flow.modEntry_ports (f : Flow) (i : EntryIx) (g : Entry → Entry) : (f.modEntry i g).ports = f.ports := rfl
@[simp] theorem Flow.modEntry_vbs (f : Flow) (i : EntryIx) (g : Entry → Entry) : (f.modEntry i g).vbs = f.vbs := rfl
@[simp] theorem Flow.modEntry_jobs (f : Flow) (i : EntryIx) (g : Entry → Entry) : (f.modEntry i g).jobs = f.jobs := rfl
@[simp] theorem Flow.modEntry_writer (f : Flow) (i : EntryIx) (g : Entry → Entry) : (f.modEntry i g).writer = f.writer := rfl
@[simp] theorem Flow.modEntry_candidates (f : Flow) (i : EntryIx) (g : Entry → Entry) : (f.modEntry i g).candidates = f.candidates := rfl
@[simp] theorem Flow.modEntry_samples (f : Flow) (i : EntryIx) (g : Entry → Entry) : (f.modEntry i g).samples = f.samples := rfl

@[simp] theorem Flow.countEcu_news (f : Flow) (e : EcuIx) (g : EcuCounts → EcuCounts) : (f.countEcu e g).news = f.news := rfl
@[simp] theorem Flow.countEcu_ram (f : Flow) (e : EcuIx) (g : EcuCounts → EcuCounts) : (f.countEcu e g).ram = f.ram := rfl
@[simp] theorem Flow.countEcu_boardPos (f : Flow) (e : EcuIx) (g : EcuCounts → EcuCounts) : (f.countEcu e g).boardPos = f.boardPos := rfl
@[simp] theorem Flow.countEcu_look (f : Flow) (e : EcuIx) (g : EcuCounts → EcuCounts) : (f.countEcu e g).look = f.look := rfl
@[simp] theorem Flow.countEcu_lookDue (f : Flow) (e : EcuIx) (g : EcuCounts → EcuCounts) : (f.countEcu e g).lookDue = f.lookDue := rfl
@[simp] theorem Flow.countEcu_releaseWaits (f : Flow) (e : EcuIx) (g : EcuCounts → EcuCounts) : (f.countEcu e g).releaseWaits = f.releaseWaits := rfl
@[simp] theorem Flow.countEcu_relayIn (f : Flow) (e : EcuIx) (g : EcuCounts → EcuCounts) : (f.countEcu e g).relayIn = f.relayIn := rfl
@[simp] theorem Flow.countEcu_relayOut (f : Flow) (e : EcuIx) (g : EcuCounts → EcuCounts) : (f.countEcu e g).relayOut = f.relayOut := rfl
@[simp] theorem Flow.countEcu_relayUnknown (f : Flow) (e : EcuIx) (g : EcuCounts → EcuCounts) : (f.countEcu e g).relayUnknown = f.relayUnknown := rfl
@[simp] theorem Flow.countEcu_tbUnknown (f : Flow) (e : EcuIx) (g : EcuCounts → EcuCounts) : (f.countEcu e g).tbUnknown = f.tbUnknown := rfl
@[simp] theorem Flow.countEcu_slots (f : Flow) (e : EcuIx) (g : EcuCounts → EcuCounts) : (f.countEcu e g).slots = f.slots := rfl
@[simp] theorem Flow.countEcu_visitPos (f : Flow) (e : EcuIx) (g : EcuCounts → EcuCounts) : (f.countEcu e g).visitPos = f.visitPos := rfl
@[simp] theorem Flow.countEcu_again (f : Flow) (e : EcuIx) (g : EcuCounts → EcuCounts) : (f.countEcu e g).again = f.again := rfl
@[simp] theorem Flow.countEcu_placed (f : Flow) (e : EcuIx) (g : EcuCounts → EcuCounts) : (f.countEcu e g).placed = f.placed := rfl
@[simp] theorem Flow.countEcu_free (f : Flow) (e : EcuIx) (g : EcuCounts → EcuCounts) : (f.countEcu e g).free = f.free := rfl
@[simp] theorem Flow.countEcu_usage (f : Flow) (e : EcuIx) (g : EcuCounts → EcuCounts) : (f.countEcu e g).usage = f.usage := rfl
@[simp] theorem Flow.countEcu_waiting (f : Flow) (e : EcuIx) (g : EcuCounts → EcuCounts) : (f.countEcu e g).waiting = f.waiting := rfl
@[simp] theorem Flow.countEcu_entries (f : Flow) (e : EcuIx) (g : EcuCounts → EcuCounts) : (f.countEcu e g).entries = f.entries := rfl
@[simp] theorem Flow.countEcu_delivering (f : Flow) (e : EcuIx) (g : EcuCounts → EcuCounts) : (f.countEcu e g).delivering = f.delivering := rfl
@[simp] theorem Flow.countEcu_roomReport (f : Flow) (e : EcuIx) (g : EcuCounts → EcuCounts) : (f.countEcu e g).roomReport = f.roomReport := rfl
@[simp] theorem Flow.countEcu_claims (f : Flow) (e : EcuIx) (g : EcuCounts → EcuCounts) : (f.countEcu e g).claims = f.claims := rfl
@[simp] theorem Flow.countEcu_ports (f : Flow) (e : EcuIx) (g : EcuCounts → EcuCounts) : (f.countEcu e g).ports = f.ports := rfl
@[simp] theorem Flow.countEcu_vbs (f : Flow) (e : EcuIx) (g : EcuCounts → EcuCounts) : (f.countEcu e g).vbs = f.vbs := rfl
@[simp] theorem Flow.countEcu_jobs (f : Flow) (e : EcuIx) (g : EcuCounts → EcuCounts) : (f.countEcu e g).jobs = f.jobs := rfl
@[simp] theorem Flow.countEcu_writer (f : Flow) (e : EcuIx) (g : EcuCounts → EcuCounts) : (f.countEcu e g).writer = f.writer := rfl
@[simp] theorem Flow.countEcu_candidates (f : Flow) (e : EcuIx) (g : EcuCounts → EcuCounts) : (f.countEcu e g).candidates = f.candidates := rfl
@[simp] theorem Flow.countEcu_samples (f : Flow) (e : EcuIx) (g : EcuCounts → EcuCounts) : (f.countEcu e g).samples = f.samples := rfl

@[simp] theorem Flow.setNews_ram (f : Flow) (n : News) : (f.setNews n).ram = f.ram := rfl
@[simp] theorem Flow.setNews_boardPos (f : Flow) (n : News) : (f.setNews n).boardPos = f.boardPos := rfl
@[simp] theorem Flow.setNews_look (f : Flow) (n : News) : (f.setNews n).look = f.look := rfl
@[simp] theorem Flow.setNews_lookDue (f : Flow) (n : News) : (f.setNews n).lookDue = f.lookDue := rfl
@[simp] theorem Flow.setNews_releaseWaits (f : Flow) (n : News) : (f.setNews n).releaseWaits = f.releaseWaits := rfl
@[simp] theorem Flow.setNews_relayIn (f : Flow) (n : News) : (f.setNews n).relayIn = f.relayIn := rfl
@[simp] theorem Flow.setNews_relayOut (f : Flow) (n : News) : (f.setNews n).relayOut = f.relayOut := rfl
@[simp] theorem Flow.setNews_relayUnknown (f : Flow) (n : News) : (f.setNews n).relayUnknown = f.relayUnknown := rfl
@[simp] theorem Flow.setNews_tbUnknown (f : Flow) (n : News) : (f.setNews n).tbUnknown = f.tbUnknown := rfl
@[simp] theorem Flow.setNews_slots (f : Flow) (n : News) : (f.setNews n).slots = f.slots := rfl
@[simp] theorem Flow.setNews_visitPos (f : Flow) (n : News) : (f.setNews n).visitPos = f.visitPos := rfl
@[simp] theorem Flow.setNews_again (f : Flow) (n : News) : (f.setNews n).again = f.again := rfl
@[simp] theorem Flow.setNews_placed (f : Flow) (n : News) : (f.setNews n).placed = f.placed := rfl
@[simp] theorem Flow.setNews_free (f : Flow) (n : News) : (f.setNews n).free = f.free := rfl
@[simp] theorem Flow.setNews_usage (f : Flow) (n : News) : (f.setNews n).usage = f.usage := rfl
@[simp] theorem Flow.setNews_waiting (f : Flow) (n : News) : (f.setNews n).waiting = f.waiting := rfl
@[simp] theorem Flow.setNews_entries (f : Flow) (n : News) : (f.setNews n).entries = f.entries := rfl
@[simp] theorem Flow.setNews_delivering (f : Flow) (n : News) : (f.setNews n).delivering = f.delivering := rfl
@[simp] theorem Flow.setNews_roomReport (f : Flow) (n : News) : (f.setNews n).roomReport = f.roomReport := rfl
@[simp] theorem Flow.setNews_ecuCounts (f : Flow) (n : News) : (f.setNews n).ecuCounts = f.ecuCounts := rfl
@[simp] theorem Flow.setNews_claims (f : Flow) (n : News) : (f.setNews n).claims = f.claims := rfl
@[simp] theorem Flow.setNews_ports (f : Flow) (n : News) : (f.setNews n).ports = f.ports := rfl
@[simp] theorem Flow.setNews_vbs (f : Flow) (n : News) : (f.setNews n).vbs = f.vbs := rfl
@[simp] theorem Flow.setNews_jobs (f : Flow) (n : News) : (f.setNews n).jobs = f.jobs := rfl
@[simp] theorem Flow.setNews_writer (f : Flow) (n : News) : (f.setNews n).writer = f.writer := rfl
@[simp] theorem Flow.setNews_candidates (f : Flow) (n : News) : (f.setNews n).candidates = f.candidates := rfl
@[simp] theorem Flow.setNews_samples (f : Flow) (n : News) : (f.setNews n).samples = f.samples := rfl

@[simp] theorem Flow.leaveWait_news (f : Flow) (w : Claimant) : (f.leaveWait w).news = f.news := rfl
@[simp] theorem Flow.leaveWait_ram (f : Flow) (w : Claimant) : (f.leaveWait w).ram = f.ram := rfl
@[simp] theorem Flow.leaveWait_boardPos (f : Flow) (w : Claimant) : (f.leaveWait w).boardPos = f.boardPos := rfl
@[simp] theorem Flow.leaveWait_look (f : Flow) (w : Claimant) : (f.leaveWait w).look = f.look := rfl
@[simp] theorem Flow.leaveWait_lookDue (f : Flow) (w : Claimant) : (f.leaveWait w).lookDue = f.lookDue := rfl
@[simp] theorem Flow.leaveWait_releaseWaits (f : Flow) (w : Claimant) : (f.leaveWait w).releaseWaits = f.releaseWaits := rfl
@[simp] theorem Flow.leaveWait_relayIn (f : Flow) (w : Claimant) : (f.leaveWait w).relayIn = f.relayIn := rfl
@[simp] theorem Flow.leaveWait_relayOut (f : Flow) (w : Claimant) : (f.leaveWait w).relayOut = f.relayOut := rfl
@[simp] theorem Flow.leaveWait_relayUnknown (f : Flow) (w : Claimant) : (f.leaveWait w).relayUnknown = f.relayUnknown := rfl
@[simp] theorem Flow.leaveWait_tbUnknown (f : Flow) (w : Claimant) : (f.leaveWait w).tbUnknown = f.tbUnknown := rfl
@[simp] theorem Flow.leaveWait_slots (f : Flow) (w : Claimant) : (f.leaveWait w).slots = f.slots := rfl
@[simp] theorem Flow.leaveWait_visitPos (f : Flow) (w : Claimant) : (f.leaveWait w).visitPos = f.visitPos := rfl
@[simp] theorem Flow.leaveWait_again (f : Flow) (w : Claimant) : (f.leaveWait w).again = f.again := rfl
@[simp] theorem Flow.leaveWait_placed (f : Flow) (w : Claimant) : (f.leaveWait w).placed = f.placed := rfl
@[simp] theorem Flow.leaveWait_free (f : Flow) (w : Claimant) : (f.leaveWait w).free = f.free := rfl
@[simp] theorem Flow.leaveWait_usage (f : Flow) (w : Claimant) : (f.leaveWait w).usage = f.usage := rfl
@[simp] theorem Flow.leaveWait_entries (f : Flow) (w : Claimant) : (f.leaveWait w).entries = f.entries := rfl
@[simp] theorem Flow.leaveWait_delivering (f : Flow) (w : Claimant) : (f.leaveWait w).delivering = f.delivering := rfl
@[simp] theorem Flow.leaveWait_roomReport (f : Flow) (w : Claimant) : (f.leaveWait w).roomReport = f.roomReport := rfl
@[simp] theorem Flow.leaveWait_ecuCounts (f : Flow) (w : Claimant) : (f.leaveWait w).ecuCounts = f.ecuCounts := rfl
@[simp] theorem Flow.leaveWait_claims (f : Flow) (w : Claimant) : (f.leaveWait w).claims = f.claims := rfl
@[simp] theorem Flow.leaveWait_ports (f : Flow) (w : Claimant) : (f.leaveWait w).ports = f.ports := rfl
@[simp] theorem Flow.leaveWait_vbs (f : Flow) (w : Claimant) : (f.leaveWait w).vbs = f.vbs := rfl
@[simp] theorem Flow.leaveWait_jobs (f : Flow) (w : Claimant) : (f.leaveWait w).jobs = f.jobs := rfl
@[simp] theorem Flow.leaveWait_writer (f : Flow) (w : Claimant) : (f.leaveWait w).writer = f.writer := rfl
@[simp] theorem Flow.leaveWait_candidates (f : Flow) (w : Claimant) : (f.leaveWait w).candidates = f.candidates := rfl
@[simp] theorem Flow.leaveWait_samples (f : Flow) (w : Claimant) : (f.leaveWait w).samples = f.samples := rfl

@[simp] theorem Flow.markHeads_news (f : Flow) (p : Slot → Held → Bool) : (f.markHeads p).news = f.news := rfl
@[simp] theorem Flow.markHeads_ram (f : Flow) (p : Slot → Held → Bool) : (f.markHeads p).ram = f.ram := rfl
@[simp] theorem Flow.markHeads_boardPos (f : Flow) (p : Slot → Held → Bool) : (f.markHeads p).boardPos = f.boardPos := rfl
@[simp] theorem Flow.markHeads_look (f : Flow) (p : Slot → Held → Bool) : (f.markHeads p).look = f.look := rfl
@[simp] theorem Flow.markHeads_lookDue (f : Flow) (p : Slot → Held → Bool) : (f.markHeads p).lookDue = f.lookDue := rfl
@[simp] theorem Flow.markHeads_releaseWaits (f : Flow) (p : Slot → Held → Bool) : (f.markHeads p).releaseWaits = f.releaseWaits := rfl
@[simp] theorem Flow.markHeads_relayIn (f : Flow) (p : Slot → Held → Bool) : (f.markHeads p).relayIn = f.relayIn := rfl
@[simp] theorem Flow.markHeads_relayOut (f : Flow) (p : Slot → Held → Bool) : (f.markHeads p).relayOut = f.relayOut := rfl
@[simp] theorem Flow.markHeads_relayUnknown (f : Flow) (p : Slot → Held → Bool) : (f.markHeads p).relayUnknown = f.relayUnknown := rfl
@[simp] theorem Flow.markHeads_tbUnknown (f : Flow) (p : Slot → Held → Bool) : (f.markHeads p).tbUnknown = f.tbUnknown := rfl
@[simp] theorem Flow.markHeads_slots (f : Flow) (p : Slot → Held → Bool) : (f.markHeads p).slots = f.slots := rfl
@[simp] theorem Flow.markHeads_visitPos (f : Flow) (p : Slot → Held → Bool) : (f.markHeads p).visitPos = f.visitPos := rfl
@[simp] theorem Flow.markHeads_placed (f : Flow) (p : Slot → Held → Bool) : (f.markHeads p).placed = f.placed := rfl
@[simp] theorem Flow.markHeads_free (f : Flow) (p : Slot → Held → Bool) : (f.markHeads p).free = f.free := rfl
@[simp] theorem Flow.markHeads_usage (f : Flow) (p : Slot → Held → Bool) : (f.markHeads p).usage = f.usage := rfl
@[simp] theorem Flow.markHeads_waiting (f : Flow) (p : Slot → Held → Bool) : (f.markHeads p).waiting = f.waiting := rfl
@[simp] theorem Flow.markHeads_entries (f : Flow) (p : Slot → Held → Bool) : (f.markHeads p).entries = f.entries := rfl
@[simp] theorem Flow.markHeads_delivering (f : Flow) (p : Slot → Held → Bool) : (f.markHeads p).delivering = f.delivering := rfl
@[simp] theorem Flow.markHeads_roomReport (f : Flow) (p : Slot → Held → Bool) : (f.markHeads p).roomReport = f.roomReport := rfl
@[simp] theorem Flow.markHeads_ecuCounts (f : Flow) (p : Slot → Held → Bool) : (f.markHeads p).ecuCounts = f.ecuCounts := rfl
@[simp] theorem Flow.markHeads_claims (f : Flow) (p : Slot → Held → Bool) : (f.markHeads p).claims = f.claims := rfl
@[simp] theorem Flow.markHeads_ports (f : Flow) (p : Slot → Held → Bool) : (f.markHeads p).ports = f.ports := rfl
@[simp] theorem Flow.markHeads_vbs (f : Flow) (p : Slot → Held → Bool) : (f.markHeads p).vbs = f.vbs := rfl
@[simp] theorem Flow.markHeads_jobs (f : Flow) (p : Slot → Held → Bool) : (f.markHeads p).jobs = f.jobs := rfl
@[simp] theorem Flow.markHeads_writer (f : Flow) (p : Slot → Held → Bool) : (f.markHeads p).writer = f.writer := rfl
@[simp] theorem Flow.markHeads_candidates (f : Flow) (p : Slot → Held → Bool) : (f.markHeads p).candidates = f.candidates := rfl
@[simp] theorem Flow.markHeads_samples (f : Flow) (p : Slot → Held → Bool) : (f.markHeads p).samples = f.samples := rfl

/-! ### Updates of `State` -/

@[simp] theorem State.withFlow_pending (s : State) (f : Flow) : (s.withFlow f).pending = s.pending := rfl
@[simp] theorem State.withFlow_readData (s : State) (f : Flow) : (s.withFlow f).readData = s.readData := rfl
@[simp] theorem State.withFlow_lines (s : State) (f : Flow) : (s.withFlow f).lines = s.lines := rfl
@[simp] theorem State.withFlow_enable (s : State) (f : Flow) : (s.withFlow f).enable = s.enable := rfl
@[simp] theorem State.withFlow_irqEnable (s : State) (f : Flow) : (s.withFlow f).irqEnable = s.irqEnable := rfl
@[simp] theorem State.withFlow_xbase (s : State) (f : Flow) : (s.withFlow f).xbase = s.xbase := rfl
@[simp] theorem State.withFlow_mask (s : State) (f : Flow) : (s.withFlow f).mask = s.mask := rfl
@[simp] theorem State.withFlow_scanDl (s : State) (f : Flow) : (s.withFlow f).scanDl = s.scanDl := rfl
@[simp] theorem State.withFlow_rot (s : State) (f : Flow) : (s.withFlow f).rot = s.rot := rfl
@[simp] theorem State.withFlow_grants (s : State) (f : Flow) : (s.withFlow f).grants = s.grants := rfl
@[simp] theorem State.withFlow_fresh (s : State) (f : Flow) : (s.withFlow f).fresh = s.fresh := rfl
@[simp] theorem State.withFlow_tab (s : State) (f : Flow) : (s.withFlow f).tab = s.tab := rfl
@[simp] theorem State.withFlow_flow (s : State) (f : Flow) : (s.withFlow f).flow = f := rfl
@[simp] theorem State.withFlow_self (s : State) : s.withFlow s.flow = s := rfl

@[simp] theorem State.run_pending (s : State) (as : List Act) : (s.run as).pending = s.pending := rfl
@[simp] theorem State.run_readData (s : State) (as : List Act) : (s.run as).readData = s.readData := rfl
@[simp] theorem State.run_lines (s : State) (as : List Act) : (s.run as).lines = s.lines := rfl
@[simp] theorem State.run_enable (s : State) (as : List Act) : (s.run as).enable = s.enable := rfl
@[simp] theorem State.run_irqEnable (s : State) (as : List Act) : (s.run as).irqEnable = s.irqEnable := rfl
@[simp] theorem State.run_xbase (s : State) (as : List Act) : (s.run as).xbase = s.xbase := rfl
@[simp] theorem State.run_mask (s : State) (as : List Act) : (s.run as).mask = s.mask := rfl
@[simp] theorem State.run_scanDl (s : State) (as : List Act) : (s.run as).scanDl = s.scanDl := rfl
@[simp] theorem State.run_rot (s : State) (as : List Act) : (s.run as).rot = s.rot := rfl
@[simp] theorem State.run_grants (s : State) (as : List Act) : (s.run as).grants = s.grants := rfl
@[simp] theorem State.run_fresh (s : State) (as : List Act) : (s.run as).fresh = s.fresh := rfl
@[simp] theorem State.run_tab (s : State) (as : List Act) : (s.run as).tab = s.tab := rfl
@[simp] theorem State.run_flow (s : State) (as : List Act) : (s.run as).flow = settle s.tab as s.flow := rfl

@[simp] theorem State.store_pending (s : State) (st : Stores) : (s.store st).pending = s.pending := rfl
@[simp] theorem State.store_readData (s : State) (st : Stores) : (s.store st).readData = s.readData := rfl
@[simp] theorem State.store_lines (s : State) (st : Stores) : (s.store st).lines = s.lines := rfl
@[simp] theorem State.store_enable (s : State) (st : Stores) : (s.store st).enable = s.enable := rfl
@[simp] theorem State.store_irqEnable (s : State) (st : Stores) : (s.store st).irqEnable = s.irqEnable := rfl
@[simp] theorem State.store_xbase (s : State) (st : Stores) : (s.store st).xbase = s.xbase := rfl
@[simp] theorem State.store_mask (s : State) (st : Stores) : (s.store st).mask = s.mask := rfl
@[simp] theorem State.store_scanDl (s : State) (st : Stores) : (s.store st).scanDl = s.scanDl := rfl
@[simp] theorem State.store_rot (s : State) (st : Stores) : (s.store st).rot = s.rot := rfl
@[simp] theorem State.store_grants (s : State) (st : Stores) : (s.store st).grants = s.grants := rfl
@[simp] theorem State.store_fresh (s : State) (st : Stores) : (s.store st).fresh = s.fresh := rfl
@[simp] theorem State.store_tab (s : State) (st : Stores) : (s.store st).tab = s.tab := rfl
@[simp] theorem State.store_flow_news (s : State) (st : Stores) : (s.store st).flow.news = s.flow.news := rfl
@[simp] theorem State.store_flow_boardPos (s : State) (st : Stores) : (s.store st).flow.boardPos = s.flow.boardPos := rfl
@[simp] theorem State.store_flow_look (s : State) (st : Stores) : (s.store st).flow.look = s.flow.look := rfl
@[simp] theorem State.store_flow_lookDue (s : State) (st : Stores) : (s.store st).flow.lookDue = s.flow.lookDue := rfl
@[simp] theorem State.store_flow_releaseWaits (s : State) (st : Stores) : (s.store st).flow.releaseWaits = s.flow.releaseWaits := rfl
@[simp] theorem State.store_flow_relayIn (s : State) (st : Stores) : (s.store st).flow.relayIn = s.flow.relayIn := rfl
@[simp] theorem State.store_flow_relayOut (s : State) (st : Stores) : (s.store st).flow.relayOut = s.flow.relayOut := rfl
@[simp] theorem State.store_flow_relayUnknown (s : State) (st : Stores) : (s.store st).flow.relayUnknown = s.flow.relayUnknown := rfl
@[simp] theorem State.store_flow_tbUnknown (s : State) (st : Stores) : (s.store st).flow.tbUnknown = s.flow.tbUnknown := rfl
@[simp] theorem State.store_flow_slots (s : State) (st : Stores) : (s.store st).flow.slots = s.flow.slots := rfl
@[simp] theorem State.store_flow_visitPos (s : State) (st : Stores) : (s.store st).flow.visitPos = s.flow.visitPos := rfl
@[simp] theorem State.store_flow_again (s : State) (st : Stores) : (s.store st).flow.again = s.flow.again := rfl
@[simp] theorem State.store_flow_placed (s : State) (st : Stores) : (s.store st).flow.placed = s.flow.placed := rfl
@[simp] theorem State.store_flow_free (s : State) (st : Stores) : (s.store st).flow.free = s.flow.free := rfl
@[simp] theorem State.store_flow_usage (s : State) (st : Stores) : (s.store st).flow.usage = s.flow.usage := rfl
@[simp] theorem State.store_flow_waiting (s : State) (st : Stores) : (s.store st).flow.waiting = s.flow.waiting := rfl
@[simp] theorem State.store_flow_entries (s : State) (st : Stores) : (s.store st).flow.entries = s.flow.entries := rfl
@[simp] theorem State.store_flow_delivering (s : State) (st : Stores) : (s.store st).flow.delivering = s.flow.delivering := rfl
@[simp] theorem State.store_flow_roomReport (s : State) (st : Stores) : (s.store st).flow.roomReport = s.flow.roomReport := rfl
@[simp] theorem State.store_flow_ecuCounts (s : State) (st : Stores) : (s.store st).flow.ecuCounts = s.flow.ecuCounts := rfl
@[simp] theorem State.store_flow_claims (s : State) (st : Stores) : (s.store st).flow.claims = s.flow.claims := rfl
@[simp] theorem State.store_flow_ports (s : State) (st : Stores) : (s.store st).flow.ports = s.flow.ports := rfl
@[simp] theorem State.store_flow_vbs (s : State) (st : Stores) : (s.store st).flow.vbs = s.flow.vbs := rfl
@[simp] theorem State.store_flow_jobs (s : State) (st : Stores) : (s.store st).flow.jobs = s.flow.jobs := rfl
@[simp] theorem State.store_flow_writer (s : State) (st : Stores) : (s.store st).flow.writer = s.flow.writer := rfl
@[simp] theorem State.store_flow_candidates (s : State) (st : Stores) : (s.store st).flow.candidates = s.flow.candidates := rfl
@[simp] theorem State.store_flow_samples (s : State) (st : Stores) : (s.store st).flow.samples = s.flow.samples := rfl
@[simp] theorem State.store_ram (s : State) (st : Stores) : (s.store st).flow.ram = ramStores s.flow.ram st := rfl
@[simp] theorem State.store_nil (s : State) : s.store [] = s := rfl

@[simp] theorem State.advance_pending (s : State) (dt : Nat) : (s.advance dt).pending = s.pending := rfl
@[simp] theorem State.advance_readData (s : State) (dt : Nat) : (s.advance dt).readData = s.readData := rfl
@[simp] theorem State.advance_lines (s : State) (dt : Nat) : (s.advance dt).lines = s.lines := rfl
@[simp] theorem State.advance_enable (s : State) (dt : Nat) : (s.advance dt).enable = s.enable := rfl
@[simp] theorem State.advance_irqEnable (s : State) (dt : Nat) : (s.advance dt).irqEnable = s.irqEnable := rfl
@[simp] theorem State.advance_xbase (s : State) (dt : Nat) : (s.advance dt).xbase = s.xbase := rfl
@[simp] theorem State.advance_mask (s : State) (dt : Nat) : (s.advance dt).mask = s.mask := rfl
@[simp] theorem State.advance_scanDl (s : State) (dt : Nat) : (s.advance dt).scanDl = s.scanDl := rfl
@[simp] theorem State.advance_rot (s : State) (dt : Nat) : (s.advance dt).rot = s.rot := rfl
@[simp] theorem State.advance_grants (s : State) (dt : Nat) : (s.advance dt).grants = s.grants := rfl
@[simp] theorem State.advance_fresh (s : State) (dt : Nat) : (s.advance dt).fresh = s.fresh := rfl
@[simp] theorem State.advance_ctl (s : State) (dt : Nat) : (s.advance dt).tab.ctl = s.tab.ctl := rfl
@[simp] theorem State.advance_fault (s : State) (dt : Nat) : (s.advance dt).tab.fault = s.tab.fault := rfl
@[simp] theorem State.advance_dir (s : State) (dt : Nat) : (s.advance dt).tab.dir = s.tab.dir := rfl
@[simp] theorem State.advance_testers (s : State) (dt : Nat) : (s.advance dt).tab.testers = s.tab.testers := rfl
@[simp] theorem State.advance_ecus (s : State) (dt : Nat) : (s.advance dt).tab.ecus = s.tab.ecus := rfl
@[simp] theorem State.advance_classMap (s : State) (dt : Nat) : (s.advance dt).tab.classMap = s.tab.classMap := rfl
@[simp] theorem State.advance_conds (s : State) (dt : Nat) : (s.advance dt).tab.conds = s.tab.conds := rfl
@[simp] theorem State.advance_thresholds (s : State) (dt : Nat) : (s.advance dt).tab.thresholds = s.tab.thresholds := rfl
@[simp] theorem State.advance_ports (s : State) (dt : Nat) : (s.advance dt).tab.ports = s.tab.ports := rfl
@[simp] theorem State.advance_probes (s : State) (dt : Nat) : (s.advance dt).tab.probes = s.tab.probes := rfl
@[simp] theorem State.advance_sampler (s : State) (dt : Nat) : (s.advance dt).tab.sampler = s.tab.sampler := rfl
@[simp] theorem State.advance_eventCapture (s : State) (dt : Nat) : (s.advance dt).tab.eventCapture = s.tab.eventCapture := rfl
@[simp] theorem State.advance_captureFlush (s : State) (dt : Nat) : (s.advance dt).tab.captureFlush = s.tab.captureFlush := rfl
@[simp] theorem State.advance_relayFlush (s : State) (dt : Nat) : (s.advance dt).tab.relayFlush = s.tab.relayFlush := rfl
@[simp] theorem State.advance_scan (s : State) (dt : Nat) : (s.advance dt).tab.scan = s.tab.scan := rfl
@[simp] theorem State.advance_marker (s : State) (dt : Nat) : (s.advance dt).tab.marker = s.tab.marker := rfl
@[simp] theorem State.advance_now (s : State) (dt : Nat) :
    (s.advance dt).tab.now = s.tab.now + BitVec.ofNat 32 dt := rfl
@[simp] theorem startFrames_news (t : Tables) (f : Flow) : (startFrames t f).news = f.news := by
  simp only [startFrames, List.foldl, Flow.modPort_news]
@[simp] theorem startFrames_ram (t : Tables) (f : Flow) : (startFrames t f).ram = f.ram := by
  simp only [startFrames, List.foldl, Flow.modPort_ram]
@[simp] theorem startFrames_boardPos (t : Tables) (f : Flow) : (startFrames t f).boardPos = f.boardPos := by
  simp only [startFrames, List.foldl, Flow.modPort_boardPos]
@[simp] theorem startFrames_look (t : Tables) (f : Flow) : (startFrames t f).look = f.look := by
  simp only [startFrames, List.foldl, Flow.modPort_look]
@[simp] theorem startFrames_lookDue (t : Tables) (f : Flow) : (startFrames t f).lookDue = f.lookDue := by
  simp only [startFrames, List.foldl, Flow.modPort_lookDue]
@[simp] theorem startFrames_releaseWaits (t : Tables) (f : Flow) : (startFrames t f).releaseWaits = f.releaseWaits := by
  simp only [startFrames, List.foldl, Flow.modPort_releaseWaits]
@[simp] theorem startFrames_relayIn (t : Tables) (f : Flow) : (startFrames t f).relayIn = f.relayIn := by
  simp only [startFrames, List.foldl, Flow.modPort_relayIn]
@[simp] theorem startFrames_relayOut (t : Tables) (f : Flow) : (startFrames t f).relayOut = f.relayOut := by
  simp only [startFrames, List.foldl, Flow.modPort_relayOut]
@[simp] theorem startFrames_relayUnknown (t : Tables) (f : Flow) : (startFrames t f).relayUnknown = f.relayUnknown := by
  simp only [startFrames, List.foldl, Flow.modPort_relayUnknown]
@[simp] theorem startFrames_tbUnknown (t : Tables) (f : Flow) : (startFrames t f).tbUnknown = f.tbUnknown := by
  simp only [startFrames, List.foldl, Flow.modPort_tbUnknown]
@[simp] theorem startFrames_slots (t : Tables) (f : Flow) : (startFrames t f).slots = f.slots := by
  simp only [startFrames, List.foldl, Flow.modPort_slots]
@[simp] theorem startFrames_visitPos (t : Tables) (f : Flow) : (startFrames t f).visitPos = f.visitPos := by
  simp only [startFrames, List.foldl, Flow.modPort_visitPos]
@[simp] theorem startFrames_again (t : Tables) (f : Flow) : (startFrames t f).again = f.again := by
  simp only [startFrames, List.foldl, Flow.modPort_again]
@[simp] theorem startFrames_placed (t : Tables) (f : Flow) : (startFrames t f).placed = f.placed := by
  simp only [startFrames, List.foldl, Flow.modPort_placed]
@[simp] theorem startFrames_free (t : Tables) (f : Flow) : (startFrames t f).free = f.free := by
  simp only [startFrames, List.foldl, Flow.modPort_free]
@[simp] theorem startFrames_usage (t : Tables) (f : Flow) : (startFrames t f).usage = f.usage := by
  simp only [startFrames, List.foldl, Flow.modPort_usage]
@[simp] theorem startFrames_waiting (t : Tables) (f : Flow) : (startFrames t f).waiting = f.waiting := by
  simp only [startFrames, List.foldl, Flow.modPort_waiting]
@[simp] theorem startFrames_entries (t : Tables) (f : Flow) : (startFrames t f).entries = f.entries := by
  simp only [startFrames, List.foldl, Flow.modPort_entries]
@[simp] theorem startFrames_delivering (t : Tables) (f : Flow) : (startFrames t f).delivering = f.delivering := by
  simp only [startFrames, List.foldl, Flow.modPort_delivering]
@[simp] theorem startFrames_roomReport (t : Tables) (f : Flow) : (startFrames t f).roomReport = f.roomReport := by
  simp only [startFrames, List.foldl, Flow.modPort_roomReport]
@[simp] theorem startFrames_ecuCounts (t : Tables) (f : Flow) : (startFrames t f).ecuCounts = f.ecuCounts := by
  simp only [startFrames, List.foldl, Flow.modPort_ecuCounts]
@[simp] theorem startFrames_claims (t : Tables) (f : Flow) : (startFrames t f).claims = f.claims := by
  simp only [startFrames, List.foldl, Flow.modPort_claims]
@[simp] theorem startFrames_vbs (t : Tables) (f : Flow) : (startFrames t f).vbs = f.vbs := by
  simp only [startFrames, List.foldl, Flow.modPort_vbs]
@[simp] theorem startFrames_jobs (t : Tables) (f : Flow) : (startFrames t f).jobs = f.jobs := by
  simp only [startFrames, List.foldl, Flow.modPort_jobs]
@[simp] theorem startFrames_writer (t : Tables) (f : Flow) : (startFrames t f).writer = f.writer := by
  simp only [startFrames, List.foldl, Flow.modPort_writer]
@[simp] theorem startFrames_candidates (t : Tables) (f : Flow) : (startFrames t f).candidates = f.candidates := by
  simp only [startFrames, List.foldl, Flow.modPort_candidates]
@[simp] theorem startFrames_samples (t : Tables) (f : Flow) : (startFrames t f).samples = f.samples := by
  simp only [startFrames, List.foldl, Flow.modPort_samples]
@[simp] theorem State.advance_flow_news (s : State) (dt : Nat) : (s.advance dt).flow.news = s.flow.news := by
  simp only [State.advance, startFrames_news]
@[simp] theorem State.advance_flow_ram (s : State) (dt : Nat) : (s.advance dt).flow.ram = s.flow.ram := by
  simp only [State.advance, startFrames_ram]
@[simp] theorem State.advance_flow_boardPos (s : State) (dt : Nat) : (s.advance dt).flow.boardPos = s.flow.boardPos := by
  simp only [State.advance, startFrames_boardPos]
@[simp] theorem State.advance_flow_look (s : State) (dt : Nat) : (s.advance dt).flow.look = s.flow.look := by
  simp only [State.advance, startFrames_look]
@[simp] theorem State.advance_flow_lookDue (s : State) (dt : Nat) : (s.advance dt).flow.lookDue = s.flow.lookDue := by
  simp only [State.advance, startFrames_lookDue]
@[simp] theorem State.advance_flow_releaseWaits (s : State) (dt : Nat) : (s.advance dt).flow.releaseWaits = s.flow.releaseWaits := by
  simp only [State.advance, startFrames_releaseWaits]
@[simp] theorem State.advance_flow_relayIn (s : State) (dt : Nat) : (s.advance dt).flow.relayIn = s.flow.relayIn := by
  simp only [State.advance, startFrames_relayIn]
@[simp] theorem State.advance_flow_relayOut (s : State) (dt : Nat) : (s.advance dt).flow.relayOut = s.flow.relayOut := by
  simp only [State.advance, startFrames_relayOut]
@[simp] theorem State.advance_flow_relayUnknown (s : State) (dt : Nat) : (s.advance dt).flow.relayUnknown = s.flow.relayUnknown := by
  simp only [State.advance, startFrames_relayUnknown]
@[simp] theorem State.advance_flow_tbUnknown (s : State) (dt : Nat) : (s.advance dt).flow.tbUnknown = s.flow.tbUnknown := by
  simp only [State.advance, startFrames_tbUnknown]
@[simp] theorem State.advance_flow_slots (s : State) (dt : Nat) : (s.advance dt).flow.slots = s.flow.slots := by
  simp only [State.advance, startFrames_slots]
@[simp] theorem State.advance_flow_visitPos (s : State) (dt : Nat) : (s.advance dt).flow.visitPos = s.flow.visitPos := by
  simp only [State.advance, startFrames_visitPos]
@[simp] theorem State.advance_flow_again (s : State) (dt : Nat) : (s.advance dt).flow.again = s.flow.again := by
  simp only [State.advance, startFrames_again]
@[simp] theorem State.advance_flow_placed (s : State) (dt : Nat) : (s.advance dt).flow.placed = s.flow.placed := by
  simp only [State.advance, startFrames_placed]
@[simp] theorem State.advance_flow_free (s : State) (dt : Nat) : (s.advance dt).flow.free = s.flow.free := by
  simp only [State.advance, startFrames_free]
@[simp] theorem State.advance_flow_usage (s : State) (dt : Nat) : (s.advance dt).flow.usage = s.flow.usage := by
  simp only [State.advance, startFrames_usage]
@[simp] theorem State.advance_flow_waiting (s : State) (dt : Nat) : (s.advance dt).flow.waiting = s.flow.waiting := by
  simp only [State.advance, startFrames_waiting]
@[simp] theorem State.advance_flow_entries (s : State) (dt : Nat) : (s.advance dt).flow.entries = s.flow.entries := by
  simp only [State.advance, startFrames_entries]
@[simp] theorem State.advance_flow_delivering (s : State) (dt : Nat) : (s.advance dt).flow.delivering = s.flow.delivering := by
  simp only [State.advance, startFrames_delivering]
@[simp] theorem State.advance_flow_roomReport (s : State) (dt : Nat) : (s.advance dt).flow.roomReport = s.flow.roomReport := by
  simp only [State.advance, startFrames_roomReport]
@[simp] theorem State.advance_flow_ecuCounts (s : State) (dt : Nat) : (s.advance dt).flow.ecuCounts = s.flow.ecuCounts := by
  simp only [State.advance, startFrames_ecuCounts]
@[simp] theorem State.advance_flow_claims (s : State) (dt : Nat) : (s.advance dt).flow.claims = s.flow.claims := by
  simp only [State.advance, startFrames_claims]
@[simp] theorem State.advance_flow_vbs (s : State) (dt : Nat) : (s.advance dt).flow.vbs = s.flow.vbs := by
  simp only [State.advance, startFrames_vbs]
@[simp] theorem State.advance_flow_jobs (s : State) (dt : Nat) : (s.advance dt).flow.jobs = s.flow.jobs := by
  simp only [State.advance, startFrames_jobs]
@[simp] theorem State.advance_flow_writer (s : State) (dt : Nat) : (s.advance dt).flow.writer = s.flow.writer := by
  simp only [State.advance, startFrames_writer]
@[simp] theorem State.advance_flow_candidates (s : State) (dt : Nat) : (s.advance dt).flow.candidates = s.flow.candidates := by
  simp only [State.advance, startFrames_candidates]
@[simp] theorem State.advance_flow_samples (s : State) (dt : Nat) : (s.advance dt).flow.samples = s.flow.samples := by
  simp only [State.advance, startFrames_samples]

/-! ### Rows of tables -/

@[simp] theorem Vector.modifyRow_get_self {α : Type} {n : Nat} (v : Vector α n) (i : Fin n) (g : α → α) :
    (Vector.modifyRow v i g).get i = g (v.get i) := by
  simp [Vector.modifyRow, Vector.get_eq_getElem]

theorem Vector.modifyRow_get_ne {α : Type} {n : Nat} (v : Vector α n) (i j : Fin n) (g : α → α) (h : j ≠ i) :
    (Vector.modifyRow v i g).get j = v.get j := by
  have h' : i.val ≠ j.val := fun e => h (Fin.ext e.symm)
  simp [Vector.modifyRow, Vector.get_eq_getElem, h']

theorem Vector.modifyRow_get {α : Type} {n : Nat} (v : Vector α n) (i j : Fin n) (g : α → α) :
    (Vector.modifyRow v i g).get j = if j = i then g (v.get i) else v.get j := by
  by_cases h : j = i
  · subst h; simp
  · simp [h, Vector.modifyRow_get_ne v i j g h]

@[simp] theorem Vector.putRow_get_self {α : Type} {n : Nat} (v : Vector α n) (i : Fin n) (x : α) :
    (Vector.putRow v i x).get i = x := by
  simp [Vector.putRow, Vector.get_eq_getElem]

theorem Vector.putRow_get_ne {α : Type} {n : Nat} (v : Vector α n) (i j : Fin n) (x : α) (h : j ≠ i) :
    (Vector.putRow v i x).get j = v.get j := by
  have h' : i.val ≠ j.val := fun e => h (Fin.ext e.symm)
  simp [Vector.putRow, Vector.get_eq_getElem, h']

theorem Vector.putRow_get {α : Type} {n : Nat} (v : Vector α n) (i j : Fin n) (x : α) :
    (Vector.putRow v i x).get j = if j = i then x else v.get j := by
  by_cases h : j = i
  · subst h; simp
  · simp [h, Vector.putRow_get_ne v i j x h]

@[simp] theorem tableOf_get {α : Type} (n : Nat) (g : Fin n → α) (i : Fin n) : (tableOf n g).get i = g i := by
  simp [tableOf, Vector.get_eq_getElem]

@[simp] theorem Vector.replicate_get {α : Type} (n : Nat) (x : α) (i : Fin n) : (Vector.replicate n x).get i = x := by
  simp [Vector.get_eq_getElem]

@[simp] theorem Vector.map_get {α β : Type} {n : Nat} (v : Vector α n) (g : α → β) (i : Fin n) :
    (v.map g).get i = g (v.get i) := by
  simp [Vector.get_eq_getElem]

/-! ### Rows of `Flow` after an update -/

@[simp] theorem Flow.modSlot_get_self (f : Flow) (k : Slot) (g : SlotFlow → SlotFlow) :
    (f.modSlot k g).slots.get k = g (f.slots.get k) := by simp [Flow.modSlot]

theorem Flow.modSlot_get (f : Flow) (k j : Slot) (g : SlotFlow → SlotFlow) :
    (f.modSlot k g).slots.get j = if j = k then g (f.slots.get k) else f.slots.get j := by
  simp [Flow.modSlot, Vector.modifyRow_get]

@[simp] theorem Flow.modClaim_get_self (f : Flow) (e : EcuIx) (g : Claim → Claim) :
    (f.modClaim e g).claims.get e = g (f.claims.get e) := by simp [Flow.modClaim]

theorem Flow.modClaim_get (f : Flow) (e i : EcuIx) (g : Claim → Claim) :
    (f.modClaim e g).claims.get i = if i = e then g (f.claims.get e) else f.claims.get i := by
  simp [Flow.modClaim, Vector.modifyRow_get]

theorem portIx_inj {p q : PortId} (h : portIx p = portIx q) : p = q := by
  cases p <;> cases q <;> simp_all [portIx, Fin.succ_ne_zero, eq_comm]

@[simp] theorem Flow.modPort_port_self (f : Flow) (p : PortId) (g : PortFlow → PortFlow) :
    (f.modPort p g).port p = g (f.port p) := by simp [Flow.modPort, Flow.port]

theorem Flow.modPort_port (f : Flow) (p q : PortId) (g : PortFlow → PortFlow) :
    (f.modPort p g).port q = if q = p then g (f.port p) else f.port q := by
  by_cases h : q = p
  · subst h; simp
  · have : portIx q ≠ portIx p := fun e => h (portIx_inj e)
    simp [Flow.modPort, Flow.port, Vector.modifyRow_get, h, this]

@[simp] theorem Flow.modVb_get_self (f : Flow) (v : VbIx) (g : VbFlow → VbFlow) :
    (f.modVb v g).vbs.get v = g (f.vbs.get v) := by simp [Flow.modVb]

@[simp] theorem Flow.modJob_get_self (f : Flow) (j : JobIx) (g : Job → Job) :
    (f.modJob j g).jobs.get j = g (f.jobs.get j) := by simp [Flow.modJob]

theorem Flow.modJob_get (f : Flow) (j i : JobIx) (g : Job → Job) :
    (f.modJob j g).jobs.get i = if i = j then g (f.jobs.get j) else f.jobs.get i := by
  simp [Flow.modJob, Vector.modifyRow_get]

@[simp] theorem Flow.modEntry_get_self (f : Flow) (i : EntryIx) (g : Entry → Entry) :
    (f.modEntry i g).entries.get i = (f.entries.get i).map g := by simp [Flow.modEntry]

@[simp] theorem Flow.countEcu_get_self (f : Flow) (e : EcuIx) (g : EcuCounts → EcuCounts) :
    (f.countEcu e g).ecuCounts.get e = g (f.ecuCounts.get e) := by simp [Flow.countEcu]

end Sys2Proof.Machine
end

