-- ==== Sys2Proof/Laws/Keeps.lean ====
section
/-! SUPPORT. What every shared operation on the traffic, every act and the running of acts leave alone: each keeps
`Flow.Keeps`, stated in Sys2Proof/Safety.lean, so that a proof cites one lemma in place of unfolding the cascade. -/

namespace Sys2Proof.Machine

/-! ### The relation -/

theorem Claim.Same.refl (x : Claim) : x.Same x := ⟨rfl, rfl, rfl, rfl⟩

theorem Claim.Same.trans {x y z : Claim} (a : x.Same y) (b : y.Same z) : x.Same z :=
  ⟨a.1.trans b.1, a.2.1.trans b.2.1, a.2.2.1.trans b.2.2.1, a.2.2.2.trans b.2.2.2⟩

theorem Entry.Stays.refl (x : Option Entry) : Entry.Stays x x := by cases x <;> simp [Entry.Stays]

theorem Entry.Stays.none (x : Option Entry) : Entry.Stays x none := by cases x <;> exact True.intro

theorem Entry.Stays.trans {x y z : Option Entry} (a : Entry.Stays x y) (b : Entry.Stays y z) : Entry.Stays x z := by
  cases x <;> cases y <;> cases z <;> simp_all [Entry.Stays]

theorem Entry.Stays.map (x : Option Entry) (u : Entry → Entry) (h : ∀ y, (u y).slot = y.slot ∧ (u y).ecu = y.ecu) :
    Entry.Stays x (x.map u) := by
  cases x with
  | none => exact True.intro
  | some y => exact h y

theorem Claim.Same.inForce {x y : Claim} (h : x.Same y) : y.inForce = x.inForce := by simp [Claim.inForce, h.1]

namespace Flow.Keeps

theorem refl (f : Flow) : f.Keeps f where
  ram := id
  news := BitVec.and_self
  boardPos := rfl
  look := rfl
  lookDue := rfl
  visitPos := rfl
  roomReport := rfl
  tbUnknown := rfl
  candidates := rfl
  samples := rfl
  relayOut := rfl
  entries := fun _ => Entry.Stays.refl _
  held := fun _ => id
  relayIn := fun _ _ => rfl
  slots := fun _ => ⟨rfl, rfl, rfl⟩
  ports := fun _ => rfl
  vbs := fun _ => rfl
  ecuCounts := fun _ => ⟨rfl, rfl, rfl⟩
  claims := fun _ _ => Claim.Same.refl _
  jobs := fun j => by by_cases h : (f.jobs.get j).state = .idle <;> simp [h]

theorem trans {f g h : Flow} (a : f.Keeps g) (b : g.Keeps h) : f.Keeps h where
  ram := b.ram ∘ a.ram
  news := by
    have ha := a.news
    have hb := b.news
    calc f.news &&& h.news = (f.news &&& g.news) &&& h.news := by rw [ha]
      _ = f.news &&& (g.news &&& h.news) := BitVec.and_assoc ..
      _ = f.news := by rw [hb, ha]
  boardPos := b.boardPos.trans a.boardPos
  look := b.look.trans a.look
  lookDue := b.lookDue.trans a.lookDue
  visitPos := b.visitPos.trans a.visitPos
  roomReport := b.roomReport.trans a.roomReport
  tbUnknown := b.tbUnknown.trans a.tbUnknown
  candidates := b.candidates.trans a.candidates
  samples := b.samples.trans a.samples
  relayOut := b.relayOut.trans a.relayOut
  entries := fun i => (a.entries i).trans (b.entries i)
  held := fun k h => a.held k (b.held k h)
  relayIn := fun h1 h2 => by
    have e := a.relayIn h1 h2
    exact (b.relayIn (e ▸ h1) (e ▸ h2)).trans e
  slots := fun k => ⟨(b.slots k).1.trans (a.slots k).1, (b.slots k).2.1.trans (a.slots k).2.1,
    (b.slots k).2.2.trans (a.slots k).2.2⟩
  ports := fun p => (b.ports p).trans (a.ports p)
  vbs := fun v => (b.vbs v).trans (a.vbs v)
  ecuCounts := fun e => ⟨(b.ecuCounts e).1.trans (a.ecuCounts e).1, (b.ecuCounts e).2.1.trans (a.ecuCounts e).2.1,
    (b.ecuCounts e).2.2.trans (a.ecuCounts e).2.2⟩
  claims := fun e h => by
    have h1 := b.claims e h
    exact h1.trans (a.claims e (by rw [h1.inForce]; exact h))
  jobs := fun j => by
    rcases b.jobs j with h | ⟨h1, h2⟩
    · exact .inl h
    · rcases a.jobs j with h | ⟨h3, h4⟩
      · exact absurd h h1
      · exact .inr ⟨h3, h2.trans h4⟩

theorem after {f g h : Flow} (b : g.Keeps h) (a : f.Keeps g) : f.Keeps h := a.trans b

/-- A change of fields that the relation does not speak of. -/
theorem same {f g : Flow} (ram : ramWf f.ram → ramWf g.ram := by exact id) (news : g.news = f.news := by rfl)
    (boardPos : g.boardPos = f.boardPos := by rfl) (look : g.look = f.look := by rfl)
    (lookDue : g.lookDue = f.lookDue := by rfl) (visitPos : g.visitPos = f.visitPos := by rfl)
    (roomReport : g.roomReport = f.roomReport := by rfl) (tbUnknown : g.tbUnknown = f.tbUnknown := by rfl)
    (candidates : g.candidates = f.candidates := by rfl) (samples : g.samples = f.samples := by rfl)
    (relayOut : g.relayOut = f.relayOut := by rfl)
    (entries : ∀ i, Entry.Stays (f.entries.get i) (g.entries.get i) := by exact fun _ => Entry.Stays.refl _)
    (relayIn : g.relayIn = f.relayIn := by rfl)
    (slots : g.slots = f.slots := by rfl) (ports : g.ports = f.ports := by rfl) (vbs : g.vbs = f.vbs := by rfl)
    (ecuCounts : g.ecuCounts = f.ecuCounts := by rfl) (claims : g.claims = f.claims := by rfl)
    (jobs : g.jobs = f.jobs := by rfl) : f.Keeps g where
  ram := ram
  news := by rw [news, BitVec.and_self]
  boardPos := boardPos
  look := look
  lookDue := lookDue
  visitPos := visitPos
  roomReport := roomReport
  tbUnknown := tbUnknown
  candidates := candidates
  samples := samples
  relayOut := relayOut
  entries := entries
  held := fun _ h => by simpa [slots] using h
  relayIn := fun _ _ => relayIn
  slots := fun _ => by simp [slots]
  ports := fun _ => by simp [Flow.port, ports]
  vbs := fun _ => by simp [vbs]
  ecuCounts := fun _ => by simp [ecuCounts]
  claims := fun _ _ => by rw [claims]; exact Claim.Same.refl _
  jobs := fun j => by rw [jobs]; exact (refl f).jobs j

theorem modSlot (f : Flow) (k : Slot) (u : SlotFlow → SlotFlow)
    (h : ∀ x, (u x).allowance = x.allowance ∧ (u x).admitted = x.admitted ∧ (u x).deliveryFails = x.deliveryFails)
    (hh : (u (f.slots.get k)).held.isSome → (f.slots.get k).held.isSome := by exact id) : f.Keeps (f.modSlot k u) :=
  { refl f with
    held := fun j => by
      by_cases e : j = k
      · subst e; simpa using hh
      · simp [Flow.modSlot, Vector.modifyRow_get_ne _ _ _ _ e]
    slots := fun j => by
      by_cases e : j = k
      · subst e; simpa using h _
      · simp [Flow.modSlot, Vector.modifyRow_get_ne _ _ _ _ e] }

theorem modClaim (f : Flow) (e : EcuIx) (u : Claim → Claim)
    (h : (u (f.claims.get e)).inForce = true → (u (f.claims.get e)).Same (f.claims.get e)) :
    f.Keeps (f.modClaim e u) :=
  { refl f with
    claims := fun i hi => by
      by_cases ei : i = e
      · subst ei
        simp only [Flow.modClaim, Vector.modifyRow_get_self] at hi ⊢
        exact h hi
      · simp only [Flow.modClaim, Vector.modifyRow_get_ne _ _ _ _ ei]
        exact Claim.Same.refl _ }

theorem modPort (f : Flow) (p : PortId) (u : PortFlow → PortFlow) (h : ∀ x, (u x).tx = x.tx) :
    f.Keeps (f.modPort p u) :=
  { refl f with
    ports := fun q => by
      by_cases e : portIx q = portIx p
      · simp only [Flow.port, Flow.modPort, e, Vector.modifyRow_get_self, h]
      · simp [Flow.port, Flow.modPort, Vector.modifyRow_get_ne _ _ _ _ e] }

theorem modVb (f : Flow) (v : VbIx) (u : VbFlow → VbFlow) (h : ∀ x, (u x).outbound = x.outbound) :
    f.Keeps (f.modVb v u) :=
  { refl f with
    vbs := fun w => by
      by_cases e : w = v
      · subst e; simp [Flow.modVb, h]
      · simp [Flow.modVb, Vector.modifyRow_get_ne _ _ _ _ e] }

theorem modJob (f : Flow) (j : JobIx) (u : Job → Job)
    (h : (u (f.jobs.get j)).state = .idle
      ∨ (f.jobs.get j).state ≠ .idle ∧ (u (f.jobs.get j)).slot = (f.jobs.get j).slot) : f.Keeps (f.modJob j u) :=
  { refl f with
    jobs := fun i => by
      by_cases e : i = j
      · subst e; simpa [Flow.modJob] using h
      · simpa [Flow.modJob, Vector.modifyRow_get_ne _ _ _ _ e] using (refl f).jobs i }

/-- A change of a job that leaves its state and its slot. -/
theorem modJobInner (f : Flow) (j : JobIx) (u : Job → Job) (h : ∀ x, (u x).state = x.state ∧ (u x).slot = x.slot) :
    f.Keeps (f.modJob j u) :=
  modJob f j u (by rw [(h _).1, (h _).2]; exact (refl f).jobs j)

theorem modEntry (f : Flow) (i : EntryIx) (u : Entry → Entry)
    (h : ∀ x, (u x).slot = x.slot ∧ (u x).ecu = x.ecu := by exact fun _ => ⟨rfl, rfl⟩) : f.Keeps (f.modEntry i u) :=
  same (entries := fun j => by
    by_cases e : j = i
    · subst e; simpa [Flow.modEntry] using Entry.Stays.map _ u h
    · simpa [Flow.modEntry, Vector.modifyRow_get_ne _ _ _ _ e] using Entry.Stays.refl _)

theorem countEcu (f : Flow) (e : EcuIx) (u : EcuCounts → EcuCounts)
    (h : ∀ x, (u x).forwarded = x.forwarded ∧ (u x).strays = x.strays ∧ (u x).sendFailures = x.sendFailures) :
    f.Keeps (f.countEcu e u) :=
  { refl f with
    ecuCounts := fun i => by
      by_cases ei : i = e
      · subst ei; simpa [Flow.countEcu] using h _
      · simp [Flow.countEcu, Vector.modifyRow_get_ne _ _ _ _ ei] }

theorem setNews (f : Flow) (n : News) : f.Keeps (f.setNews n) :=
  { refl f with
    news := by
      simp only [Flow.setNews]
      ext i hi
      simp only [BitVec.getElem_and, BitVec.getElem_or]
      cases f.news[i] <;> simp }

theorem leaveWait (f : Flow) (w : Claimant) : f.Keeps (f.leaveWait w) := same
theorem enterWait (f : Flow) (t : Tables) (w : Claimant) (k : Slot) (g : Grade) (n : Nat) :
    f.Keeps (f.enterWait t w k g n) := same
theorem markHeads (f : Flow) (p : Slot → Held → Bool) : f.Keeps (f.markHeads p) := same
theorem leavePlace (f : Flow) (k : Slot) (c : CtxIx) : f.Keeps (f.leavePlace k c) :=
  modSlot _ _ _ fun _ => ⟨rfl, rfl, rfl⟩

/-- A fold of changes that keep the relation keeps it. -/
theorem foldl {α : Type} (u : Flow → α → Flow) (h : ∀ (f : Flow) x, f.Keeps (u f x)) (xs : List α) (f : Flow) :
    f.Keeps (xs.foldl u f) := by
  induction xs generalizing f with
  | nil => exact refl f
  | cons x xs ih => exact (h f x).trans (ih _)

/-- A fold that also gathers acts. -/
theorem foldlActs {α β : Type} (u : Flow × β → α → Flow × β) (h : ∀ (a : Flow × β) x, a.1.Keeps (u a x).1) (xs : List α)
    (a : Flow × β) : a.1.Keeps (xs.foldl u a).1 := by
  induction xs generalizing a with
  | nil => exact refl _
  | cons x xs ih => exact (h a x).trans (ih _)

end Flow.Keeps

open Flow.Keeps

/-! ### Capture (R181 to R185) -/

theorem Writer.room_spec (w : Writer) (r : Ring) (ram : List Host.Cell) (size : Nat) :
    (w.room r ram size).2 = w ∨ (w.room r ram size).2 = { w with blocked := true } := by
  unfold Writer.room
  split_ifs <;> simp

theorem Writer.commit_wf (w : Writer) (r : Ring) (ram : List Host.Cell) (p : OpenPage) (h : ramWf ram) :
    ramWf (w.commit r ram p).2 := ramWrite_wf h _ _

theorem Writer.write_wf (w : Writer) (r : Ring) (ram : List Host.Cell) (now : Word) (d : Duration) (bs : List Byte)
    (h : ramWf ram) : ramWf (w.write r ram now d bs).2.1 := by
  unfold Writer.write
  cases w.page with
  | none => exact ramWrite_wf h _ _
  | some p =>
    by_cases hp : p.used + bs.length ≤ r.size
    · simp only [hp, if_true]
      exact ramWrite_wf h _ _
    · simp only [hp, if_false]
      exact ramWrite_wf (Writer.commit_wf w r ram p h) _ _

theorem captureRoom_keeps (t : Tables) (f : Flow) (n : Nat) : f.Keeps (captureRoom t f n).2 := by
  unfold captureRoom
  split
  · exact refl f
  · exact same

theorem captureWrite_keeps (t : Tables) (f : Flow) (c : CaptureRecord) : f.Keeps (captureWrite t f c) := by
  unfold captureWrite
  split
  · exact refl f
  · rename_i r _
    simp only
    have h : f.Keeps { f with
        writer := (f.writer.write r f.ram t.now t.captureFlush (c.bytes t.now)).1
        ram := (f.writer.write r f.ram t.now t.captureFlush (c.bytes t.now)).2.1 } :=
      same (ram := fun h => Writer.write_wf _ _ _ _ _ _ h)
    split
    · exact h.trans (setNews _ _)
    · exact h

theorem captureLost_keeps (f : Flow) : f.Keeps (captureLost f) :=
  (same (g := { f with writer := { f.writer with gap := min 65535 (f.writer.gap + 1) } })).trans (setNews _ _)

theorem captureOffer_keeps (t : Tables) (f : Flow) (c : CaptureRecord) : f.Keeps (captureOffer t f c) := by
  unfold captureOffer
  simp only
  split
  · exact (captureRoom_keeps _ _ _).trans (captureWrite_keeps _ _ _)
  · exact (captureRoom_keeps _ _ _).trans (captureLost_keeps _)

theorem captureBinding_keeps (t : Tables) (f : Flow) (c : CaptureRecord) : f.Keeps (captureBinding t f c).2 := by
  unfold captureBinding
  simp only
  split
  · exact (captureRoom_keeps _ _ _).trans (captureWrite_keeps _ _ _)
  · exact captureRoom_keeps _ _ _

theorem captureRefusal_keeps (t : Tables) (f : Flow) (k : Slot) (e : Option EcuIx) (c : Option ServiceClass)
    (code : Byte) (g : Option GrantIx) (r : Reason) (n : Option Nat) :
    f.Keeps (captureRefusal t f k e c code g r n).2 := by
  unfold captureRefusal
  split
  · exact refl f
  · simp only
    split
    · exact captureBinding_keeps _ _ _
    · exact captureOffer_keeps _ _ _

theorem captureCommit_keeps (t : Tables) (f : Flow) : f.Keeps (captureCommit t f) := by
  unfold captureCommit
  split
  · rename_i r p _ _
    exact (same (g := { f with
      writer := (f.writer.commit r f.ram p).1.advance r, ram := (f.writer.commit r f.ram p).2 })
      (ram := fun h => Writer.commit_wf f.writer r f.ram p h)).trans (setNews _ _)
  · exact refl f

theorem event_keeps (t : Tables) (n : Nat) (f : Flow) (c : CaptureRecord) : f.Keeps (event t n f c) := by
  unfold event
  split
  · split
    · exact captureOffer_keeps _ _ _
    · simp only
      split
      · exact (captureRoom_keeps _ _ _).trans (captureLost_keeps _)
      · split
        · exact (captureRoom_keeps _ _ _).trans (captureWrite_keeps _ _ _)
        · exact captureLost_keeps _
  · exact refl f

theorem captureRoom_slots (t : Tables) (f : Flow) (n : Nat) : (captureRoom t f n).2.slots = f.slots := by
  unfold captureRoom; split <;> rfl

theorem captureWrite_slots (t : Tables) (f : Flow) (c : CaptureRecord) : (captureWrite t f c).slots = f.slots := by
  unfold captureWrite; split
  · rfl
  · dsimp only; split <;> rfl

theorem captureBinding_slots (t : Tables) (f : Flow) (c : CaptureRecord) :
    (captureBinding t f c).2.slots = f.slots := by
  unfold captureBinding; dsimp only; split <;> simp [captureRoom_slots, captureWrite_slots]

theorem captureOffer_slots (t : Tables) (f : Flow) (c : CaptureRecord) : (captureOffer t f c).slots = f.slots := by
  unfold captureOffer; dsimp only; split
  · rw [captureWrite_slots, captureRoom_slots]
  · exact captureRoom_slots t f _

/-! ### Claims and closings (R121 to R136) -/

theorem claimReport_keeps (t : Tables) (n : Nat) (f : Flow) (e : EcuIx) (ev : ClaimEvent) (r : Option Byte)
    (c : List Byte) : f.Keeps (claimReport t n f e ev r c) := (setNews _ _).trans (event_keeps _ _ _ _)

theorem claimChanged_keeps (t : Tables) (n : Nat) (f : Flow) (e : EcuIx) (ev : ClaimEvent) (r : Option Byte)
    (c : List Byte) : f.Keeps (claimChanged t n f e ev r c) :=
  (markHeads _ _).trans (claimReport_keeps _ _ _ _ _ _ _)

theorem orderDone_keeps (t : Tables) (f : Flow) (n : Nat) (r : OrderResult) (d : List Byte) :
    f.Keeps (orderDone t f n r d) := by
  unfold orderDone
  split
  · exact refl f
  · refine Flow.Keeps.trans ?_ (setNews _ _)
    exact same (ram := fun h => ramWrite_wf (ramWrite_wf (ramWrite_wf h _ _) _ _) _ _)

theorem modClaim_phase_keeps (f : Flow) (e : EcuIx) (u : Claim → Claim)
    (h : ∀ c, (u c).Same c) : f.Keeps (f.modClaim e u) := modClaim _ _ _ fun _ => h _

theorem enterBuffer_keeps (t : Tables) (f : Flow) (e : EcuIx) : f.Keeps (enterBuffer t f e) := by
  unfold enterBuffer
  simp only
  split
  · refine Flow.Keeps.after (modClaim_phase_keeps _ _ _ ?_) (modVb _ _ _ ?_)
    · exact fun _ => ⟨rfl, rfl, rfl, rfl⟩
    · exact fun _ => rfl
  · refine Flow.Keeps.after (modClaim_phase_keeps _ _ _ ?_) (modVb _ _ _ ?_)
    · exact fun _ => ⟨rfl, rfl, rfl, rfl⟩
    · exact fun _ => rfl

theorem passBuffer_keeps (t : Tables) (f : Flow) (e : EcuIx) : f.Keeps (passBuffer t f e) := by
  unfold passBuffer
  simp only
  split
  · exact refl f
  · split
    · split
      · exact modVb _ _ _ fun _ => rfl
      · refine Flow.Keeps.after (modClaim_phase_keeps _ _ _ ?_) (modVb _ _ _ ?_)
        · exact fun _ => ⟨rfl, rfl, rfl, rfl⟩
        · exact fun _ => rfl
    · exact refl f

theorem endReleaseOrders_keeps (t : Tables) (f : Flow) (e : EcuIx) (c : Option ReleaseCause) (o : CloseOutcome)
    (a : Option Byte) : f.Keeps (endReleaseOrders t f e c o a) :=
  (same (g := { f with releaseWaits := f.releaseWaits.filter fun w => w.ecu != e })).trans
    (Flow.Keeps.foldl _ (fun _ _ => orderDone_keeps _ _ _ _ _) _ _)

theorem closeEnd_keeps (t : Tables) (n : Nat) (f : Flow) (e : EcuIx) (o : CloseOutcome) (a : Option Byte) :
    f.Keeps (closeEnd t n f e o a) := by
  unfold closeEnd
  exact ((((modClaim _ _ _ fun h => by simp [Claim.inForce] at h).trans (passBuffer_keeps _ _ _)).trans
    (endReleaseOrders_keeps _ _ _ _ _ _))).trans (claimChanged_keeps _ _ _ _ _ _ _)

theorem closingProceeds_keeps (t : Tables) (n : Nat) (f : Flow) (e : EcuIx) : f.Keeps (closingProceeds t n f e) := by
  unfold closingProceeds
  split
  · exact closeEnd_keeps _ _ _ _ _ _
  · exact enterBuffer_keeps _ _ _

theorem claimRelease_keeps (t : Tables) (n : Nat) (b : Bool) (f : Flow) (e : EcuIx) (c : ReleaseCause) :
    f.Keeps (claimRelease t n b f e c) := by
  unfold claimRelease
  simp only
  split
  · have h : f.Keeps (claimChanged t n
        (f.modClaim e fun x =>
          { x with state := .closing, cause := some c, holdOff := none, phase := some .waitEntry })
        e .released (some c.byte) []) :=
      (modClaim _ _ _ fun h => by simp [Claim.inForce] at h).trans (claimChanged_keeps _ _ _ _ _ _ _)
    split
    · exact h
    · exact h.trans (closingProceeds_keeps _ _ _ _)
  · exact refl f

theorem releaseClaimsOf_keeps (t : Tables) (f : Flow) (k : Slot) (c : ReleaseCause) :
    f.Keeps (releaseClaimsOf t f k c) := by
  unfold releaseClaimsOf
  refine Flow.Keeps.foldl _ (fun f e => ?_) _ _
  split
  · exact claimRelease_keeps _ _ _ _ _ _
  · exact refl f

theorem refreshClaim_keeps (t : Tables) (f : Flow) (k : Slot) (e : EcuIx) : f.Keeps (refreshClaim t f k e) := by
  unfold refreshClaim
  simp only
  split
  · exact modClaim_phase_keeps _ _ _ fun _ => ⟨rfl, rfl, rfl, rfl⟩
  · exact refl f

theorem entryEnd_keeps (t : Tables) (f : Flow) (i : EntryIx) : f.Keeps (entryEnd t f i) := by
  unfold entryEnd
  split
  · exact refl f
  · simp only
    have h : ∀ p, f.Keeps (Flow.markHeads
        { f with entries := Vector.putRow f.entries i none, delivering := f.delivering.filter (· != i) } p) :=
      fun p => same (entries := fun j => by
        by_cases e : j = i
        · subst e; simpa [Flow.markHeads] using Entry.Stays.none _
        · simpa [Flow.markHeads, Vector.putRow_get_ne _ _ _ _ e] using Entry.Stays.refl _)
    split
    · exact (h _).trans (closingProceeds_keeps _ _ _ _)
    · exact h _

/-! ### Ports (R142 to R149) -/

theorem startFrame_tx (t : Tables) (p : PortId) (x : PortFlow) : (startFrame t p x).tx = x.tx := by
  unfold startFrame
  split
  · rfl
  · split
    · split <;> rfl
    · rfl

theorem startFrames_keeps (t : Tables) (f : Flow) : f.Keeps (startFrames t f) :=
  Flow.Keeps.foldl _ (fun _ _ => modPort _ _ _ fun _ => startFrame_tx _ _ _) _ _

theorem pushControl_keeps (t : Tables) (f : Flow) (p : PortId) (o : FrameOwner) (a b : Byte) (d : List Byte) :
    f.Keeps (pushControl t f p o a b d) := modPort _ _ _ fun _ => startFrame_tx _ _ _

theorem pushTx_keeps (t : Tables) (f : Flow) (p : PortId) (o : FrameOwner) (a b : Byte) (d : List Byte) :
    f.Keeps (pushTx t f p o a b d) := modPort _ _ _ fun _ => startFrame_tx _ _ _

theorem putCtx_keeps (f : Flow) (p : PortId) (c : CtxIx) (x : Option Ctx) : f.Keeps (f.putCtx p c x) :=
  modPort _ _ _ fun _ => rfl

theorem freeContext_keeps (f : Flow) (p : PortId) (c : CtxIx) : f.Keeps (freeContext f p c) := by
  unfold freeContext
  split
  · exact refl f
  · rename_i x _
    simp only
    have h := (putCtx_keeps f p c none).trans (leaveWait _ (ctxClaimant p c))
    cases x.owner with
    | slot k => exact (h.trans (leavePlace _ _ _)).trans (modPort _ _ _ fun _ => rfl)
    | entry e => exact h.trans (modPort _ _ _ fun _ => rfl)
    | close e => exact h.trans (modPort _ _ _ fun _ => rfl)

theorem abortTo_keeps (t : Tables) (f : Flow) (p : PortId) (a b : Byte) (r : AbortReason) :
    f.Keeps (abortTo t f p a b r) := pushControl_keeps _ _ _ _ _ _ _

theorem sendGrant_keeps (t : Tables) (f : Flow) (p : PortId) (c : CtxIx) (x : Ctx) : f.Keeps (sendGrant t f p c x) :=
  (putCtx_keeps _ _ _ _).trans (pushControl_keeps _ _ _ _ _ _ _)

/-! ### The store (R58 to R68) -/

theorem releaseCharge_keeps (f : Flow) (c : Charge) : f.Keeps (releaseCharge f c) := same

theorem charge_keeps {t : Tables} {f g : Flow} {k : Slot} {d : Grade} {n : Nat} {h : Charge}
    (e : charge t f k d n = some (g, h)) : f.Keeps g := by
  unfold charge at e
  simp only at e
  split at e
  · simp only [Option.some.injEq, Prod.mk.injEq] at e
    rw [← e.1]
    exact same
  · simp at e

/-! ### Taking messages in (R146 to R150, R153) -/

theorem appendInbound_keeps (f : Flow) (k : Slot) (a : Byte) (m : Message) : f.Keeps (appendInbound f k a m) :=
  modSlot _ _ _ fun _ => ⟨rfl, rfl, rfl⟩

theorem handOver_keeps (f : Flow) (o : CtxOwner) (a : Byte) (m : Message) : f.Keeps (handOver f o a m).1 := by
  unfold handOver
  split
  · exact appendInbound_keeps _ _ _ _
  · exact refl f
  · exact refl f

theorem abandonCtx_keeps (f : Flow) (p : PortId) (c : CtxIx) (b : Bool) : f.Keeps (abandonCtx f p c b).1 := by
  unfold abandonCtx
  split
  · exact refl f
  · exact freeContext_keeps _ _ _

theorem stallTick_keeps (t : Tables) (f : Flow) (p : PortId) (c : CtxIx) : f.Keeps (stallTick t f p c).1 := by
  unfold stallTick
  split
  · exact refl f
  · split
    · exact (putCtx_keeps _ _ _ _).trans (pushControl_keeps _ _ _ _ _ _ _)
    · exact (abortTo_keeps _ _ _ _ _ _).trans (abandonCtx_keeps _ _ _ _)

theorem ctxCharged_keeps (t : Tables) (f : Flow) (p : PortId) (c : CtxIx) (h : Charge) :
    f.Keeps (ctxCharged t f p c h).1 := by
  unfold ctxCharged
  split
  · exact refl f
  · simp only
    split
    · exact refl f
    · split
      · exact (freeContext_keeps _ _ _).trans (handOver_keeps _ _ _ _)
      · split
        · exact ((freeContext_keeps _ _ _).trans (pushControl_keeps _ _ _ _ _ _ _)).trans (handOver_keeps _ _ _ _)
        · exact sendGrant_keeps _ _ _ _ _

theorem noRoomFor_keeps (t : Tables) (f : Flow) (p : PortId) (fr : FirstFrame) : f.Keeps (noRoomFor t f p fr).1 :=
  abortTo_keeps _ _ _ _ _ _

theorem seekTb_keeps (t : Tables) (f : Flow) (i : Option CtxIx) (fr : FirstFrame) (k : Slot) :
    f.Keeps (seekTb t f i fr k).1 := by
  unfold seekTb
  simp only
  split
  · rename_i g h e
    have hg : f.Keeps g := by
      split at e
      · exact charge_keeps e
      · simp at e
    split
    · exact hg.trans (appendInbound_keeps _ _ _ _)
    · split
      · exact (hg.trans (pushControl_keeps _ _ _ _ _ _ _)).trans (appendInbound_keeps _ _ _ _)
      · split
        · exact hg
        · exact hg.trans (sendGrant_keeps _ _ _ _ _)
  · split
    · split
      · exact noRoomFor_keeps _ _ _ _
      · split
        · exact ((putCtx_keeps _ _ _ _).trans (enterWait _ _ _ _ _ _)).trans (stallTick_keeps _ _ _ _)
        · refine (stallTick_keeps _ _ _ _).after (Flow.Keeps.after (modSlot _ _ _ ?_) (putCtx_keeps _ _ _ _))
          exact fun _ => ⟨rfl, rfl, rfl⟩
    · exact noRoomFor_keeps _ _ _ _

theorem seekVb_keeps (t : Tables) (f : Flow) (v : VbIx) (i : Option CtxIx) (fr : FirstFrame) (e : EntryIx) :
    f.Keeps (seekVb t f v i fr e).1 := by
  unfold seekVb
  split
  · exact refl f
  · simp only
    split
    · rename_i g h hc
      have hg := charge_keeps hc
      split
      · exact hg
      · split
        · exact hg.trans (pushControl_keeps _ _ _ _ _ _ _)
        · split
          · exact hg
          · exact hg.trans (sendGrant_keeps _ _ _ _ _)
    · split
      · exact noRoomFor_keeps _ _ _ _
      · exact ((putCtx_keeps _ _ _ _).trans (enterWait _ _ _ _ _ _)).trans (stallTick_keeps _ _ _ _)

theorem seekClose_keeps (t : Tables) (f : Flow) (p : PortId) (i : Option CtxIx) (fr : FirstFrame) :
    f.Keeps (seekClose t f p i fr).1 := by
  unfold seekClose
  split
  · exact refl f
  · split
    · exact pushControl_keeps _ _ _ _ _ _ _
    · split
      · exact abortTo_keeps _ _ _ _ _ _
      · exact sendGrant_keeps _ _ _ _ _

theorem seekRoom_keeps (t : Tables) (f : Flow) (p : PortId) (i : Option CtxIx) (fr : FirstFrame) :
    f.Keeps (seekRoom t f p i fr).1 := by
  unfold seekRoom
  split
  · exact seekTb_keeps _ _ _ _ _
  · exact seekVb_keeps _ _ _ _ _ _
  · exact refl f
  · exact seekClose_keeps _ _ _ _ _

theorem placeToCtx_keeps (t : Tables) (f : Flow) (k : Slot) (c : CtxIx) : f.Keeps (placeToCtx t f k c).1 := by
  unfold placeToCtx
  simp only
  split
  · exact leavePlace _ _ _
  · split
    · rename_i g h hc
      exact (((leavePlace _ _ _).trans (charge_keeps hc)).trans (putCtx_keeps _ _ _ _)).trans (ctxCharged_keeps _ _ _ _ _)
    · exact ((leavePlace _ _ _).trans (putCtx_keeps _ _ _ _)).trans (enterWait _ _ _ _ _ _)

/-! ### Outstanding entries (R109 to R112) -/

theorem toDelivering_keeps (f : Flow) (e : EntryIx) (h : HeldItem) : f.Keeps (toDelivering f e h) :=
  (modEntry f e fun x => { x with state := .delivering, deadline := none, held := some h }).trans same

theorem orphanEnds_keeps (t : Tables) (f : Flow) (e : EntryIx) : f.Keeps (orphanEnds t f e) := by
  unfold orphanEnds
  split
  · exact refl f
  · split
    · exact entryEnd_keeps _ _ _
    · exact refl f

theorem responseComplete_keeps (f : Flow) (e : EntryIx) (m : Message) :
    f.Keeps (responseComplete f e m).1 := by
  unfold responseComplete
  split
  · exact refl f
  · have h := Flow.Keeps.countEcu f (‹Entry›).ecu (fun c => { c with responses := c.responses + 1 })
      fun _ => ⟨rfl, rfl, rfl⟩
    simp only
    split
    · exact refl f
    · split
      · exact h
      · exact h.trans (toDelivering_keeps _ _ _)

theorem responseAbandoned_keeps (f : Flow) (t : Tables) (e : EntryIx) (b : Bool) :
    f.Keeps (responseAbandoned f t e b).1 := by
  unfold responseAbandoned
  split
  · exact refl f
  · simp only
    split
    · split
      · exact entryEnd_keeps _ _ _
      · refine (entryEnd_keeps _ _ _).after (Flow.Keeps.countEcu _ _ _ ?_)
        exact fun _ => ⟨rfl, rfl, rfl⟩
    · split <;> exact Flow.Keeps.countEcu _ _ _ fun _ => ⟨rfl, rfl, rfl⟩

theorem entryRefused_keeps (t : Tables) (f : Flow) (e : EntryIx) (r : Reason) : f.Keeps (entryRefused t f e r).1 := by
  unfold entryRefused
  split
  · exact refl f
  · split
    · exact entryEnd_keeps _ _ _
    · exact refl f
    all_goals
      simp only
      split
      · exact (captureRefusal_keeps _ _ _ _ _ _ _ _ _).trans (entryEnd_keeps _ _ _)
      · exact (captureRefusal_keeps _ _ _ _ _ _ _ _ _).trans (toDelivering_keeps _ _ _)

theorem entryDeliver_keeps (t : Tables) (f : Flow) (e : EntryIx) : f.Keeps (entryDeliver t f e).1 := by
  unfold entryDeliver
  cases hx : f.entries.get e with
  | none => exact refl f
  | some x =>
    simp only
    split
    · rename_i m _ _
      have h : f.Keeps
          (if x.binding then captureBinding t f (responseRecord t x m)
           else if (governing t .response x.slot (some x.ecu) (some x.cls)).isSome then
            (true, captureOffer t f (responseRecord t x m))
           else (true, f)).2 := by
        split
        · exact captureBinding_keeps _ _ _
        · split
          · exact captureOffer_keeps _ _ _
          · exact refl f
      revert h
      generalize (if x.binding then captureBinding t f (responseRecord t x m)
           else if (governing t .response x.slot (some x.ecu) (some x.cls)).isSome then
            (true, captureOffer t f (responseRecord t x m))
           else (true, f)) = a
      intro h
      split
      · exact (h.trans (refreshClaim_keeps _ _ _ _)).trans (entryEnd_keeps _ _ _)
      · exact h
    · split
      · exact (captureBinding_keeps _ _ _).trans (entryEnd_keeps _ _ _)
      · exact captureBinding_keeps _ _ _
    · exact refl f

theorem orphanEntry_keeps (t : Tables) (f : Flow) (e : EntryIx) : f.Keeps (orphanEntry t f e).1 := by
  unfold orphanEntry
  split
  · exact refl f
  · split
    · exact modEntry _ _ _
    · exact modEntry _ _ _
    · exact modEntry _ _ _
    · exact refl f
    · exact entryEnd_keeps _ _ _

theorem orphanSlot_keeps (t : Tables) (f : Flow) (k : Slot) : f.Keeps (orphanSlot t f k).1 := by
  refine Flow.Keeps.foldlActs _ (fun a e => ?_) _ (f, [])
  split
  · exact refl _
  · split
    · exact orphanEntry_keeps _ _ _
    · exact refl _

/-! ### Jobs (R159 to R167, R173) -/

theorem jobAppend_keeps (f : Flow) (j : JobIx) : f.Keeps (jobAppend f j).1 := by
  unfold jobAppend
  simp only
  split
  · rename_i k m hs hb
    have ha : (f.jobs.get j).state ≠ .idle := fun hi => by simp [Job.active, hi] at hb
    split
    · exact refl f
    · split
      · refine Flow.Keeps.after (modJob _ _ _ (.inr ⟨?_, rfl⟩)) (appendInbound_keeps _ _ _ _)
        exact ha
      · exact modJob _ _ _ (.inr ⟨ha, rfl⟩)
  · exact refl f

theorem jobStepDone_keeps (f : Flow) (j : JobIx) : f.Keeps (jobStepDone f j).1 := by
  unfold jobStepDone
  simp only
  split
  · rename_i h
    refine modJob _ _ _ (.inr ⟨fun hi => by simp [Job.active, hi] at h, ?_⟩)
    split
    · rfl
    · split_ifs <;> rfl
  · exact refl f

theorem writeResult_keeps (t : Tables) (f : Flow) (j : JobIx) (b : Option ResultBuf) (n : Nat) (p : List Byte) :
    f.Keeps (writeResult t f j b n p).2 := by
  unfold writeResult
  split
  · exact refl f
  · split
    · exact modJobInner _ _ _ fun _ => ⟨rfl, rfl⟩
    · split
      · exact refl f
      · exact same (ram := fun h => ramWrite_wf h _ _)

theorem offerCells_keeps (t : Tables) (f : Flow) : f.Keeps (offerCells t f).1 := by
  refine Flow.Keeps.foldlActs _ (fun a w => ?_) _ (f, [])
  unfold tryWaiter
  split
  · exact refl _
  · rename_i h; exact (charge_keeps h).trans (leaveWait _ _)

theorem offered_keeps (t : Tables) (f : Flow) : f.Keeps (offered t f).1 := offerCells_keeps t f

theorem released_keeps (t : Tables) (f : Flow) (c : Charge) : f.Keeps (released t f c).1 :=
  (releaseCharge_keeps f c).trans (offered_keeps _ _)

theorem releaseBody_keeps (t : Tables) (f : Flow) (b : ItemBody) : f.Keeps (releaseBody t f b).1 := by
  unfold releaseBody
  split
  · exact released_keeps _ _ _
  · exact refl f
  · exact refl f

theorem jobItem_keeps (t : Tables) (f : Flow) (k : Slot) (b : ItemBody) (o : ItemOrigin) :
    f.Keeps (jobItem t f k b o).1 := by
  unfold jobItem
  split
  · exact refl f
  · exact refl f
  · split
    · exact refl f
    · refine Flow.Keeps.after (modJobInner _ _ _ ?_) (Flow.Keeps.after (releaseBody_keeps _ _ _)
        (Flow.Keeps.after (writeResult_keeps _ _ _ _ _ _) (modJobInner _ _ _ ?_)))
      · exact fun _ => ⟨rfl, rfl⟩
      · exact fun _ => ⟨rfl, rfl⟩

theorem flushInbound_keeps (f : Flow) (k : Slot) : f.Keeps (flushInbound f k).1 :=
  modSlot _ _ _ (fun _ => ⟨rfl, rfl, rfl⟩) fun h => by simp at h

theorem jobEnds_keeps (t : Tables) (f : Flow) (j : JobIx) (c : EndCode) (r : Byte) (l : Nat) :
    f.Keeps (jobEnds t f j c r l).1 := by
  unfold jobEnds
  simp only
  split
  · exact refl f
  · rename_i k _
    split
    · exact refl f
    · have h := (((leaveWait f (.job j)).trans (flushInbound_keeps _ k)).trans
        (orphanSlot_keeps t _ k)).trans (releaseClaimsOf_keeps t _ k .jobEnd)
      refine (event_keeps _ _ _ _).after ((setNews _ _).after (Flow.Keeps.after (modJob _ _ _ ?_) ?_))
      · exact .inl rfl
      · split
        · exact h
        · exact h.trans (orderDone_keeps _ _ _ _ _)

/-! ### The relay channel (R202, R203) -/

/-- A channel that is neither in a page nor stopped has nothing to lose; any other may move. -/
theorem relayMoved {f g : Flow} (h : f.relayIn.count ≠ none ∨ f.relayIn.stop ≠ none)
    (k : f.Keeps { g with relayIn := f.relayIn }) : f.Keeps g :=
  { ram := k.ram
    news := k.news
    boardPos := k.boardPos
    look := k.look
    lookDue := k.lookDue
    visitPos := k.visitPos
    roomReport := k.roomReport
    tbUnknown := k.tbUnknown
    candidates := k.candidates
    samples := k.samples
    relayOut := k.relayOut
    entries := k.entries
    held := k.held
    relayIn := fun h1 h2 => by rcases h with h | h <;> contradiction
    slots := k.slots
    ports := k.ports
    vbs := k.vbs
    ecuCounts := k.ecuCounts
    claims := k.claims
    jobs := k.jobs }

/-- The relation without the relay position: what the channel keeps while it moves. -/
def Flow.KeepsButRelay (f g : Flow) : Prop := f.Keeps { g with relayIn := f.relayIn }

theorem Flow.KeepsButRelay.refl (f : Flow) : f.KeepsButRelay f := Flow.Keeps.refl f

theorem Flow.KeepsButRelay.trans {f g h : Flow} (a : f.KeepsButRelay g) (b : g.KeepsButRelay h) :
    f.KeepsButRelay h := by
  unfold Flow.KeepsButRelay at *
  refine Flow.Keeps.trans a ?_
  exact
  { ram := b.ram
    news := b.news
    boardPos := b.boardPos
    look := b.look
    lookDue := b.lookDue
    visitPos := b.visitPos
    roomReport := b.roomReport
    tbUnknown := b.tbUnknown
    candidates := b.candidates
    samples := b.samples
    relayOut := b.relayOut
    entries := b.entries
    held := b.held
    relayIn := fun _ _ => rfl
    slots := b.slots
    ports := b.ports
    vbs := b.vbs
    ecuCounts := b.ecuCounts
    claims := b.claims
    jobs := b.jobs }

theorem Flow.Keeps.butRelay {f g : Flow} (k : f.Keeps g) : f.KeepsButRelay g :=
  { ram := k.ram
    news := k.news
    boardPos := k.boardPos
    look := k.look
    lookDue := k.lookDue
    visitPos := k.visitPos
    roomReport := k.roomReport
    tbUnknown := k.tbUnknown
    candidates := k.candidates
    samples := k.samples
    relayOut := k.relayOut
    entries := k.entries
    held := k.held
    relayIn := fun _ _ => rfl
    slots := k.slots
    ports := k.ports
    vbs := k.vbs
    ecuCounts := k.ecuCounts
    claims := k.claims
    jobs := k.jobs }

/-- A move of the relay position alone. -/
theorem Flow.KeepsButRelay.moved (f : Flow) (r : RelayIn) : f.KeepsButRelay { f with relayIn := r } :=
  Flow.Keeps.refl f

theorem relayPageDone_keeps (r : Ring) (f : Flow) : f.KeepsButRelay (relayPageDone r f) :=
  ((same (g := { f with ram := ramWrite f.ram (r.pageAddr f.relayIn.page) (leBytes 4 pageEmpty) })
    (ram := fun h => ramWrite_wf h _ _)).butRelay.trans
    (Flow.KeepsButRelay.moved _ _)).trans (setNews _ _).butRelay

theorem relayPages_keeps (r : Ring) (n : Nat) (f : Flow) : f.KeepsButRelay (relayPages r n f) := by
  induction n generalizing f with
  | zero => exact .refl f
  | succ n ih =>
    simp only [relayPages]
    split
    · have h : f.KeepsButRelay { f with ram := ramWrite f.ram (r.pageAddr f.relayIn.page) (leBytes 4 pageTaken) } :=
        (same (ram := fun h => ramWrite_wf h _ _)).butRelay
      split
      · exact (h.trans (relayPageDone_keeps r _)).trans (ih _)
      · exact h.trans (Flow.KeepsButRelay.moved _ _)
    · exact .refl f

theorem relayAdvance_keeps (r : Ring) (f : Flow) (n : Nat) (b : Bool) : f.KeepsButRelay (relayAdvance r f n b) := by
  unfold relayAdvance
  simp only
  split
  · exact (relayPageDone_keeps r f).trans (relayPages_keeps r _ _)
  · exact Flow.KeepsButRelay.moved _ _

theorem relayRefuse_keeps (t : Tables) (f : Flow) (k : Slot) (x : RelayRecord) : f.Keeps (relayRefuse t f k x).1 := by
  refine Flow.Keeps.after (modSlot _ _ _ ?_) (captureRefusal_keeps _ _ _ _ _ _ _ _ _)
  exact fun _ => ⟨rfl, rfl, rfl⟩

theorem relayNoRoom_keeps (t : Tables) (r : Ring) (f : Flow) (k : Slot) (x : RelayRecord) (w : RelayWait) :
    f.KeepsButRelay (relayNoRoom t r f k x w).1 := by
  unfold relayNoRoom
  split
  · exact (relayRefuse_keeps t f k x).butRelay.trans (relayAdvance_keeps _ _ _ _)
  · cases w
    · exact Flow.KeepsButRelay.moved _ _
    · exact (Flow.KeepsButRelay.moved _ _).trans (enterWait _ _ _ _ _ _).butRelay

theorem relayTakeRecord_keeps (t : Tables) (f : Flow) : f.Keeps (relayTakeRecord t f).1 := by
  unfold relayTakeRecord
  split
  · rename_i r n _ hn
    refine relayMoved (Or.inl (by simp [hn])) ?_
    change f.KeepsButRelay _
    simp only
    have h : f.KeepsButRelay { (f.leaveWait .relay) with relayIn := { (f.leaveWait .relay).relayIn with stop := none } } :=
      (leaveWait f .relay).butRelay.trans (Flow.KeepsButRelay.moved _ _)
    refine h.trans ?_
    split
    · exact (relayPageDone_keeps r _).trans (relayPages_keeps r _ _)
    · split
      · refine Flow.KeepsButRelay.trans ?_ (relayAdvance_keeps _ _ _ _)
        exact Flow.Keeps.butRelay same
      · split
        · split
          · rename_i hc
            exact ((charge_keeps hc).butRelay.trans (appendInbound_keeps _ _ _ _).butRelay).trans
              (relayAdvance_keeps _ _ _ _)
          · exact relayNoRoom_keeps _ _ _ _ _ _
        · exact relayNoRoom_keeps _ _ _ _ _ _
  · exact refl f

theorem relayCharged_keeps (t : Tables) (f : Flow) (h : Charge) : f.Keeps (relayCharged t f h).1 := by
  unfold relayCharged
  split
  · rename_i r s _ hs
    split
    · exact refl f
    · refine relayMoved (Or.inr (by simp [hs])) ?_
      exact (appendInbound_keeps _ _ _ _).butRelay.trans (relayAdvance_keeps _ _ _ _)
  · exact refl f

/-! ### Refusing, holding and placing (R79, R90, R92, R114) -/

/-- A head that is held may be held again. -/
theorem setHeld_keeps (t : Tables) (f : Flow) (k : Slot) (r : HoldReason) (e : Option EcuIx) (b : Bool)
    (h : (f.slots.get k).held.isSome) : f.Keeps (setHeld t f k r e b) :=
  modSlot _ _ _ (fun _ => ⟨rfl, rfl, rfl⟩) fun _ => h

/-- A refusal either goes on, or holds the head once its record found no room. -/
theorem headRefuse_cases (t : Tables) (f : Flow) (k : Slot) (r : Reason) (e : Option EcuIx) (c : Option ServiceClass) :
    f.Keeps (headRefuse t f k r e c).1
    ∨ ∃ g, f.Keeps g ∧ headRefuse t f k r e c = (setHeld t g k .capture e (r == .heldTooLong), []) := by
  unfold headRefuse
  split
  · exact .inl (refl f)
  · simp only
    split
    · left
      refine Flow.Keeps.after (modSlot _ _ _ ?_) (captureRefusal_keeps _ _ _ _ _ _ _ _ _)
      exact fun _ => ⟨rfl, rfl, rfl⟩
    · exact .inr ⟨_, captureRefusal_keeps _ _ _ _ _ _ _ _ _, rfl⟩

theorem captureRefusal_slots (t : Tables) (f : Flow) (k : Slot) (e : Option EcuIx) (c : Option ServiceClass)
    (code : Byte) (g : Option GrantIx) (r : Reason) (n : Option Nat) :
    (captureRefusal t f k e c code g r n).2.slots = f.slots := by
  unfold captureRefusal
  split
  · rfl
  · simp only
    split
    · exact captureBinding_slots _ _ _
    · exact captureOffer_slots _ _ _

theorem headRefuse_keeps (t : Tables) (f : Flow) (k : Slot) (r : Reason) (e : Option EcuIx) (c : Option ServiceClass)
    (h : (f.slots.get k).held.isSome) : f.Keeps (headRefuse t f k r e c).1 := by
  unfold headRefuse
  split
  · exact refl f
  · simp only
    split
    · refine Flow.Keeps.after (modSlot _ _ _ ?_) (captureRefusal_keeps _ _ _ _ _ _ _ _ _)
      exact fun _ => ⟨rfl, rfl, rfl⟩
    · refine (captureRefusal_keeps _ _ _ _ _ _ _ _ _).trans (setHeld_keeps _ _ _ _ _ _ ?_)
      rw [captureRefusal_slots]; exact h

theorem tooLong_keeps (t : Tables) (f : Flow) (k : Slot) : f.Keeps (tooLong t f k).1 := by
  unfold tooLong
  split
  · rename_i h _; exact headRefuse_keeps _ _ _ _ _ _ (by simp [h])
  · exact refl f

theorem refuseHeldHead_keeps (t : Tables) (f : Flow) (k : Slot) : f.Keeps (refuseHeldHead t f k).1 := by
  unfold refuseHeldHead
  split
  · exact refl f
  · rename_i h
    split
    · exact tooLong_keeps _ _ _
    · exact headRefuse_keeps _ _ _ _ _ _ (by simp [h])

theorem placeItem_keeps (t : Tables) (f : Flow) (k : Slot) (b : ItemBody) (s : Byte) (e : Option EcuIx)
    (o : ItemOrigin) : f.Keeps (placeItem t f k b s e o).1 := by
  unfold placeItem
  split
  · exact jobItem_keeps _ _ _ _ _
  · exact (modSlot f k (fun x => { x with items := x.items ++ [⟨b, s, e, f.placed⟩] })
      fun _ => ⟨rfl, rfl, rfl⟩).trans same
  · exact (modSlot f k (fun x => { x with items := x.items ++ [⟨b, s, e, f.placed⟩] })
      fun _ => ⟨rfl, rfl, rfl⟩).trans same

theorem headRefused_keeps (t : Tables) (f : Flow) (k : Slot) (r : Reason) (a b : Byte) (e : Option EcuIx) :
    f.Keeps (headRefused t f k r a b e).1 :=
  (placeItem_keeps _ _ _ _ _ _ _).trans (modSlot _ _ _ (fun _ => ⟨rfl, rfl, rfl⟩) fun h => by simp at h)

theorem offerPlace_keeps (t : Tables) (f : Flow) (k : Slot) : f.Keeps (offerPlace t f k).1 := by
  unfold offerPlace
  split
  · split
    · exact placeToCtx_keeps _ _ _ _
    · split
      · exact refl f
      · split <;> exact refl f
  · exact refl f

/-! ### Acts -/

theorem jobCharged_keeps (f : Flow) (j : JobIx) (h : Charge) : f.Keeps (jobCharged f j h).1 := by
  unfold jobCharged
  split
  · exact refl f
  · split
    · exact refl f
    · refine Flow.Keeps.after (jobAppend_keeps _ _) (modJobInner _ _ _ ?_)
      exact fun _ => ⟨rfl, rfl⟩

theorem claimantCharged_keeps (t : Tables) (f : Flow) (w : Claimant) (h : Charge) :
    f.Keeps (claimantCharged t f w h).1 := by
  unfold claimantCharged
  split
  · exact ctxCharged_keeps _ _ _ _ _
  · exact ctxCharged_keeps _ _ _ _ _
  · exact relayCharged_keeps _ _ _
  · exact jobCharged_keeps _ _ _

/-- One act keeps the relation. -/
theorem act_keeps (t : Tables) (a : Act) (f : Flow) : f.Keeps (act t a f).1 := by
  cases a with
  | release c => exact released_keeps _ _ _
  | offer => exact offered_keeps _ _
  | charged w c => exact claimantCharged_keeps _ _ _ _
  | placeFreed k => exact offerPlace_keeps _ _ _
  | seek p i fr => exact seekRoom_keeps _ _ _ _ _
  | response e m => exact responseComplete_keeps _ _ _
  | abandoned e b => exact responseAbandoned_keeps _ _ _ _
  | refuseEntry e r => exact entryRefused_keeps _ _ _ _
  | orphanEnds e => exact orphanEnds_keeps _ _ _
  | deliver e => exact entryDeliver_keeps _ _ _
  | interim e pay => exact refl f
  | placeItem k b s e o => exact placeItem_keeps _ _ _ _ _ _ _
  | relayTake => exact relayTakeRecord_keeps _ _
  | jobAppend j => exact jobAppend_keeps _ _
  | stepDone j => exact jobStepDone_keeps _ _
  | endJob j c r l => exact jobEnds_keeps _ _ _ _ _ _
  | refused k r a b e => exact headRefused_keeps _ _ _ _ _ _ _

theorem settleFor_keeps (t : Tables) (n : Nat) (as : List Act) (f : Flow) : f.Keeps (settleFor t n as f) := by
  induction n generalizing as f with
  | zero => exact Flow.Keeps.foldl _ (fun _ _ => releaseCharge_keeps _ _) _ f
  | succ n ih =>
    cases as with
    | nil => exact refl f
    | cons a as => exact (act_keeps t a f).trans (ih _ _)

/-- Running acts to their end keeps the relation. -/
theorem settle_keeps (t : Tables) (as : List Act) (f : Flow) : f.Keeps (settle t as f) := settleFor_keeps _ _ _ _

theorem settled_keeps (t : Tables) (r : Flow × List Act) : r.1.Keeps (settled t r) := settle_keeps _ _ _

/-! ### Running acts -/

/-- Nothing follows from no act. -/
@[simp] theorem settle_nil (t : Tables) (f : Flow) : settle t [] f = f := rfl

/-- A change without consequences. -/
@[simp] theorem settled_nil (t : Tables) (f : Flow) : settled t (f, []) = f := rfl

@[simp] theorem State.run_nil (s : State) : s.run [] = s := rfl

end Sys2Proof.Machine
end

