-- ==== Sys2Proof/Laws/Effects.lean ====
section
/-! SUPPORT. What the shared operations and the acts do, each said once in the fields it changes: transfers, entries,
responses, claims, heads, jobs, records and the condition monitor. -/

namespace Sys2Proof.Machine

@[simp] theorem Vector.putRow_putRow {α : Type} {n : Nat} (v : Vector α n) (i : Fin n) (x y : α) :
    Vector.putRow (Vector.putRow v i x) i y = Vector.putRow v i y := by simp [Vector.putRow]
theorem Vector.modifyRow_modifyRow {α : Type} {n : Nat} (v : Vector α n) (i : Fin n) (g h : α → α) :
    Vector.modifyRow (Vector.modifyRow v i g) i h = Vector.modifyRow v i fun x => h (g x) := by
  have e := Vector.modifyRow_get_self v i g
  unfold Vector.modifyRow at e ⊢
  rw [e]
  simp
/-- A row changed by two functions that agree on it. -/
theorem Vector.modifyRow_congr {α : Type} {n : Nat} (v : Vector α n) (i : Fin n) {g h : α → α} (e : g (v.get i) = h
    (v.get i)) :
    Vector.modifyRow v i g = Vector.modifyRow v i h := by simp [Vector.modifyRow, e]
@[simp] theorem Flow.putCtx_ctx_self (f : Flow) (p : PortId) (c : CtxIx) (x : Option Ctx) :
    (f.putCtx p c x).ctx p c = x := by
  simp [Flow.putCtx, Flow.ctx, Flow.port, Flow.modPort]
@[simp] theorem Flow.putCtx_putCtx (f : Flow) (p : PortId) (c : CtxIx) (x y : Option Ctx) :
    (f.putCtx p c x).putCtx p c y = f.putCtx p c y := by
  simp [Flow.putCtx, Flow.modPort, Vector.modifyRow_modifyRow]
/-- An entry changed by two functions that agree on it. -/
theorem Flow.modEntry_congr {f : Flow} {e : EntryIx} {x : Entry} {g h : Entry → Entry} (hx : f.entries.get e = some x)
    (hg : g x = h x) : f.modEntry e g = f.modEntry e h := by
  unfold Flow.modEntry
  rw [Vector.modifyRow_congr]
  simp [hx, hg]

/-- The heads an event concerns, in rising slot number from the visit position (R94). -/
theorem Flow.markHeads_eq : ∀ (f : Flow) (p : Slot → Held → Bool),
    f.markHeads p = { f with again := f.again ++ ((List.finRange 16).map fun n => f.visitPos + n).filter fun k =>
      match (f.slots.get k).held with
      | none => false
      | some h => p k h } := by
  intro f p
  have : ∀ q : Slot, slotsFrom q = (List.finRange 16).map fun n => q + n := by decide
  simp only [Flow.markHeads, this] <;> congr 2

/-- The end of the transfer of a request (R103). -/
theorem transferEnd_request : (∀ (t : Tables) (f : Flow) (p : PortId) (x : Transfer) (m : Message) (e : EntryIx)
    (y : Entry),
      (f.port p).tx = some x → x.cargo = .request m e → f.entries.get e = some y →
      y.state = .sending ∨ y.state = .orphaned .sending →
      transferEnd t f p true = ((idleTx f p).modEntry e (fun z => { z with
          state := if y.state = .sending then .awaiting else .orphaned .awaiting
          deadline := some (after t.now (t.ecus.get y.ecu).respTimeout) }), [.release m.charge])
      ∧ transferEnd t f p false = ((idleTx f p).countEcu y.ecu (fun c => { c with sendFailures := c.sendFailures + 1 }),
          [.release m.charge, .refuseEntry e .undelivered])) := by
  intro t f p x m e y hx hc he hs
  have he' : (idleTx f p).entries.get e = some y := he
  have hm : ∀ g h : Entry → Entry, g y = h y → (idleTx f p).modEntry e g = (idleTx f p).modEntry e h := by
    intro g h e1
    unfold Flow.modEntry
    congr 1
    unfold Vector.modifyRow
    rw [he']
    simp [e1]
  rcases hs with hs | hs <;> simp [transferEnd, hx, hc, requestSent, he', hs, EntryState.inTransfer]
  · apply hm; simp [hs, EntryState.toPhase]
  · apply hm; simp [hs, EntryState.toPhase]

/-- The end of the transfer of a close message (R131). -/
theorem transferEnd_closing : (∀ (t : Tables) (f : Flow) (p : PortId) (x : Transfer) (e : EcuIx),
      (f.port p).tx = some x → x.cargo = .close e →
      transferEnd t f p true = ((idleTx f p).modClaim e (fun c => { c with
          phase := some .awaiting, closeDeadline := some (after t.now (t.ecus.get e).respTimeout) }), [])
      ∧ transferEnd t f p false = (closeEnd t 0 (idleTx f p) e .undelivered none, [])) := by
  intro t f p x e hx hc
  simp [transferEnd, hx, hc, closeSent]

/-- The end of the transfer of a delivery item (R115). -/
theorem transferEnd_item : (∀ (t : Tables) (f : Flow) (p : PortId) (x : Transfer) (k : Slot) (it : Item),
      (f.port p).tx = some x → x.cargo = .item k it →
      let freed : List Act := match it.body with
        | .response m => [.release m.charge]
        | _ => []
      transferEnd t f p true = (idleTx f p, freed)
      ∧ transferEnd t f p false = ((idleTx f p).modSlot k (fun y => { y with deliveryFails := y.deliveryFails + 1 }),
          freed)) := by
  intro t f p x k it hx hc
  cases hb : it.body <;> simp [transferEnd, hx, hc, ItemBody.releases, hb]

/-- The end of an outstanding entry (R113, R129). -/
theorem entryEnd_eq : (∀ (t : Tables) (f : Flow) (i : EntryIx) (x : Entry), f.entries.get i = some x →
    let g := Flow.markHeads
      { f with entries := Vector.putRow f.entries i none, delivering := f.delivering.filter (· != i) }
      fun k h => h.reason == .outstanding || (h.reason == .pair && k == x.slot && h.ecu == some x.ecu)
    let c := f.claims.get x.ecu
    let waits := c.state = .closing ∧ c.phase = some .waitEntry ∧ c.holder = x.slot
    (¬waits → entryEnd t f i = g)
    ∧ (waits → (t.ecus.get x.ecu).closeMsg = [] → entryEnd t f i = closeEnd t 0 g x.ecu .empty none)
    ∧ (waits → (t.ecus.get x.ecu).closeMsg ≠ [] → entryEnd t f i = enterBuffer t g x.ecu)) := by
  intro t f i x hx g c waits
  have hc : (Flow.markHeads
      { f with entries := Vector.putRow f.entries i none, delivering := f.delivering.filter (· != i) }
      fun k h => h.reason == .outstanding ||
          (h.reason == .pair && k == x.slot && h.ecu == some x.ecu)).claims = f.claims := rfl
  by_cases hw : waits
  · have hw' := hw
    obtain ⟨h1, h2, h3⟩ := hw'
    simp only [entryEnd, hx, hc]
    change (f.claims.get x.ecu).state = _ at h1
    change (f.claims.get x.ecu).phase = _ at h2
    change (f.claims.get x.ecu).holder = _ at h3
    simp only [h1, h2, h3, beq_self_eq_true, Bool.and_self, if_true]
    refine ⟨fun h => absurd hw h, fun _ e => ?_, fun _ e => ?_⟩
    · simp [closingProceeds, e, g]
    · simp [closingProceeds, e, g]
  · refine ⟨fun _ => ?_, fun h => absurd h hw, fun h => absurd h hw⟩
    simp only [entryEnd, hx, hc]
    split
    · rename_i h
      simp at h
      exact absurd ⟨h.1.1, h.1.2, h.2⟩ hw
    · rfl

/-- How the entries of a slot become ORPHANED (R112). -/
theorem orphanSlot_eq : (∀ (t : Tables) (f : Flow) (k : Slot) (e : EntryIx) (x : Entry), f.entries.get e = some x →
    let goes := fun y : EntryState => (f.modEntry e (fun z => { z with state := y }), ([] : List Act))
    orphanSlot t f k = (List.finRange 40).foldl (fun a i => match a.1.entries.get i with
      | none => a
      | some y => if y.slot = k then ((orphanEntry t a.1 i).1, a.2 ++ (orphanEntry t a.1 i).2) else a) (f, [])
    ∧ (x.state = .sending → orphanEntry t f e = goes (.orphaned .sending))
    ∧ (x.state = .awaiting → orphanEntry t f e = goes (.orphaned .awaiting))
    ∧ (x.state = .receiving → orphanEntry t f e = goes (.orphaned .receiving))
    ∧ (x.state.isOrphan = true → orphanEntry t f e = (f, []))
    ∧ (x.state = .delivering → orphanEntry t f e = (entryEnd t f e, match x.held with
      | some (.response m) => [.release m.charge]
      | _ => []))) := by
  intro t f k e x hx goes
  refine ⟨?_, fun h => ?_, fun h => ?_, fun h => ?_, fun h => ?_, fun h => ?_⟩
  · simp only [orphanSlot]
    congr 1
    funext a i
    cases a.1.entries.get i with
    | none => rfl
    | some y => simp
  · simp [orphanEntry, hx, h, goes]
  · simp [orphanEntry, hx, h, goes]
  · simp [orphanEntry, hx, h, goes]
  · cases hs : x.state <;> simp [EntryState.isOrphan, hs] at h
    simp [orphanEntry, hx, hs]
  · simp only [orphanEntry, hx, h]
    cases x.held with
    | none => rfl
    | some y => cases y <;> rfl

/-- A first frame of an entry seeks room on a VB port (R146, R149, R153). -/
theorem act_seek_vb : (∀ (t : Tables) (f : Flow) (v : VbIx) (i : Option CtxIx) (fr : FirstFrame) (e : EntryIx)
    (x : Entry),
    fr.owner = .entry e → f.entries.get e = some x → fr.malformed = false →
    let cells := cellsFor fr.length
    let next := act t (.seek (.vb v) i fr) f
    let answer := fun (g : Flow) (o : FrameOwner) (d : List Byte) => pushControl t g (.vb v) o fr.source fr.target d
    let free := match i with
      | none => f.freeCtx (.vb v)
      | some c => if f.ctx (.vb v) c = none then some c else none
    (∀ g h, charge t f x.slot x.cls.grade cells = some (g, h) →
      let m : Message :=
        { charge := h, length := fr.length, malformed := false, code := fr.code, payload := fr.bytes.take fr.length }
      (fr.single = true → next = (g, [.response e m]))
      ∧ (fr.single = false → fr.length ≤ 6 → next = (answer g .nobody [0x32], [.response e m]))
      ∧ (∀ c, fr.single = false → 6 < fr.length → free = some c →
        let granted := min (t.port (.vb v)).window ((fr.length - 6 + 6) / 7)
        next = (answer (g.putCtx (.vb v) c (some { fr.ctx with
          granted, charge := some h, timer := .gap (after t.now (t.port (.vb v)).gap) }))
          (.context c) [0x30, BitVec.ofNat 8 granted], [])))
    ∧ (charge t f x.slot x.cls.grade cells = none →
      (free = none → next = (answer f .nobody [0x40, 1], [.abandoned e true]))
      ∧ (∀ c, free = some c →
        let listed : Flow := { f with waiting := f.waiting ++
          [{ who := .vbCtx v c, slot := x.slot, grade := x.cls.grade, cells := cells, since := t.now }] }
        let waits := fun y : Ctx => listed.putCtx (.vb v) c (some { y with wait := .cells })
        (0 < (t.port (.vb v)).stallLimit → next = (answer (waits { fr.ctx with
          stalls := 1, timer := .stall (after t.now (t.port (.vb v)).stallInterval) }) (.context c) [0x31], []))
        ∧ ((t.port (.vb v)).stallLimit = 0 →
          next = abandonCtx (answer (waits fr.ctx) .nobody [0x40, 1]) (.vb v) c true)))) := by
  intro t f v i fr e x ho hx hm cells next answer free
  have hn : next = seekVb t f v i fr e := by simp [next, act, seekRoom, ho]
  have hcells : fr.cells = cells := by simp [FirstFrame.cells, hm, cells]
  have hfree : waitCtx f (.vb v) i = free := by
    cases i with
    | none => rfl
    | some c => simp only [waitCtx, free]; cases f.ctx (.vb v) c <;> simp
  rw [hn]
  simp only [seekVb, hx, hcells]
  refine ⟨fun g h hc => ?_, fun hc => ?_⟩
  · have hg : waitCtx g (.vb v) i = free := by
      rw [← hfree]
      unfold charge at hc
      simp only at hc
      split at hc
      · cases hc; rfl
      · cases hc
    rw [hc]
    simp only [hg]
    refine ⟨fun h1 => ?_, fun h1 h2 => ?_, fun c h1 h2 h3 => ?_⟩
    · simp [h1, ctxMessage, hm]
    · have : segmentsFor fr.length = 0 := by simp [segmentsFor]; omega
      simp [h1, this, ctxMessage, hm, answer, doneData]
    · have : segmentsFor fr.length ≠ 0 := by simp [segmentsFor]; omega
      have hs : segmentsFor fr.length = (fr.length - 6 + 6) / 7 := rfl
      simp only [h1, this, h3]
      simp only [hs] at *
      simp [answer, sendGrant, FirstFrame.ctx, grantData, h1]
      rfl
  · rw [hc, hfree]
    refine ⟨fun h1 => ?_, fun c h1 => ?_⟩
    · simp [h1, noRoomFor, ho, abortTo, abortData, AbortReason.byte, answer]
    · have hw : ∀ y, (f.putCtx (.vb v) c (some y)).enterWait t (.vbCtx v c) x.slot x.cls.grade cells =
        ({ f with waiting := f.waiting ++
          [{ who := .vbCtx v c, slot := x.slot, grade := x.cls.grade, cells := cells,
              since := t.now }] } : Flow).putCtx (.vb v) c (some y) :=
        fun _ => rfl
      rw [h1]
      simp only [hw, stallTick, Flow.putCtx_ctx_self, FirstFrame.ctx]
      refine ⟨fun h2 => ?_, fun h2 => ?_⟩
      · rw [if_pos h2, Flow.putCtx_putCtx]
        simp [answer, stallData]
      · rw [if_neg (by omega)]
        simp [answer, abortTo, abortData, AbortReason.byte]

/-- A response complete or given up (R109). -/
theorem act_response : (∀ (t : Tables) (f : Flow) (e : EntryIx) (x : Entry) (m : Message), f.entries.get e = some x →
    let counted := f.countEcu x.ecu fun c => { c with responses := c.responses + 1 }
    let timed := f.countEcu x.ecu fun c => { c with timeouts := c.timeouts + 1 }
    (x.state = .receiving →
      act t (.response e m) f = ({ counted.modEntry e (fun y => { y with
          state := .delivering, deadline := none, held := some (.response m) }) with
        delivering := f.delivering ++ [e] }, [.deliver e])
      ∧ act t (.abandoned e true) f = (counted, [.refuseEntry e .overflow])
      ∧ act t (.abandoned e false) f = (timed, [.refuseEntry e .timeout]))
    ∧ (x.state.isOrphan = true →
      act t (.response e m) f = (counted, [.release m.charge, .orphanEnds e])
      ∧ act t (.orphanEnds e) f = (entryEnd t f e, [])
      ∧ act t (.abandoned e true) f = (entryEnd t f e, [])
      ∧ act t (.abandoned e false) f = (entryEnd t timed e, []))) := by
  intro t f e x m hx counted timed
  refine ⟨fun h => ?_, fun h => ?_⟩
  · simp [act, responseComplete, responseAbandoned, hx, h, EntryState.isOrphan, toDelivering, counted, timed]
  · have hd : x.state ≠ .delivering := by intro e; simp [e, EntryState.isOrphan] at h
    simp [act, responseComplete, responseAbandoned, orphanEnds, hx, h, hd, counted, timed]

/-- A response in DELIVERING is offered and placed (R110). -/
theorem act_deliver_response : (∀ (t : Tables) (f : Flow) (e : EntryIx) (x : Entry) (m : Message),
    f.entries.get e = some x →
    x.state = .delivering → x.held = some (.response m) →
    let probe := governing t .response x.slot (some x.ecu) (some x.cls)
    let record : CaptureRecord :=
      { event := false, source := 1, slot := ixByte x.slot, subject := some (ixByte x.ecu), cls := some x.cls.byte
        code := x.code, grant := some (ixByte x.grant), outcome := none, reason := none, probe := probe.map ixByte
        stamp := none, length := m.length
        content := match probe with
          | none => []
          | some p => m.payload.take (min (t.probes.get p).limit t.contentCap) }
    let places := fun g : Flow => (entryEnd t (refreshClaim t g x.slot x.ecu) e,
      [Act.placeItem x.slot (.response m) (t.ecus.get x.ecu).node (some x.ecu) (.entry x.ecu)])
    (x.binding = false →
      (probe = none → act t (.deliver e) f = places f)
      ∧ (probe ≠ none → act t (.deliver e) f = places (captureOffer t f record)))
    ∧ (x.binding = true →
      let a := captureBinding t f record
      (a.1 = true → act t (.deliver e) f = places a.2) ∧ (a.1 = false → act t (.deliver e) f = (a.2, [])))) := by
  intro t f e x m hx hs hh probe record places
  have hr : responseRecord t x m = record := by
    have : governing t .response x.slot (some x.ecu) (some x.cls) = probe := rfl
    simp only [responseRecord, messageRecord, this, record]
    cases probe <;> simp [Direction.bit, probeTerms, contentFor]
  have hp : governing t .response x.slot (some x.ecu) (some x.cls) = probe := rfl
  have hi : entryItem t x (.response m) = Act.placeItem x.slot (.response m) (t.ecus.get x.ecu).node (some x.ecu)
      (.entry x.ecu) := rfl
  refine ⟨fun hb => ⟨fun h => ?_, fun h => ?_⟩, ?_⟩
  · simp [act, entryDeliver, hx, hs, hh, hb, hp, h, places, hi]
  · have h' : probe.isSome = true := by cases hq : probe with
      | none => exact absurd hq h
      | some _ => rfl
    simp [act, entryDeliver, hx, hs, hh, hb, hp, h', places, hi, hr]
  · intro hb a
    refine ⟨fun h => ?_, fun h => ?_⟩
    · simp only [a] at h
      simp [act, entryDeliver, hx, hs, hh, hb, places, hi, hr, h, a]
    · simp only [a] at h
      simp [act, entryDeliver, hx, hs, hh, hb, hr, h, a]

/-- The hold-off of a claim in force restarts (R125). -/
theorem refreshClaim_eq : (∀ (t : Tables) (f : Flow) (k : Slot) (e : EcuIx),
    let c := f.claims.get e
    let holds := (c.state = .held ∨ c.state = .halted) ∧ c.holder = k
    (holds → refreshClaim t f k e = f.modClaim e fun c =>
      { c with holdOff := some (after t.now (t.ecus.get e).holdOff) })
    ∧ (¬holds → refreshClaim t f k e = f)) := by
  intro t f k e
  simp [refreshClaim, Claim.inForce]
  constructor
  · rintro (h | h) h2 <;> simp [h, h2]
  · intro h h1 h2
    exact absurd h2 (h h1)

/-- A context that got its cells goes on (R146, R149). -/
theorem act_charged_ctx : (∀ (t : Tables) (f : Flow) (p : PortId) (c : CtxIx) (h : Charge) (x : Ctx),
    f.ctx p c = some x →
    let next := act t (.charged (ctxClaimant p c) h) f
    let m : Message :=
      { charge := h, length := x.length, malformed := x.malformed, code := x.code
        payload := if x.malformed then [] else x.bytes.take x.length }
    let done := fun g : Flow => match x.owner with
      | .slot k => (g.modSlot k fun y => { y with inbound := y.inbound ++ [{ target := x.target, msg := m }] }, [])
      | .entry e => (g, [.response e m])
      | .close _ => (g, [Act.release h])
    (x.charge.isSome → next = (f, [.release h]))
    ∧ (x.charge = none →
      (x.single = true → next = done (freeContext f p c))
      ∧ (x.single = false → x.segments = 0 →
        next = done (pushControl t (freeContext f p c) p .nobody x.source x.target [0x32]))
      ∧ (x.single = false → x.segments ≠ 0 →
        let n := min (t.port p).window (x.segments - x.received)
        next = (pushControl t (f.putCtx p c (some { x with
          charge := some h, granted := n, timer := .gap (after t.now (t.port p).gap), wait := .noWait }))
          p (.context c) x.source x.target [0x30, BitVec.ofNat 8 n], [])))) := by
  intro t f p c h x hx next m done
  have hn : next = ctxCharged t f p c h := by cases p <;> rfl
  have hd : ∀ g, handOver g x.owner x.target m = done g := by
    intro g; simp only [handOver, done]; cases x.owner <;> rfl
  have hm : ctxMessage x.length x.malformed x.code x.bytes h = m := rfl
  rw [hn]
  refine ⟨fun h1 => ?_, fun h0 => ⟨fun h1 => ?_, fun h1 h2 => ?_, ?_⟩⟩
  · simp [ctxCharged, hx, h1]
  · simp [ctxCharged, hx, h0, h1, hd, hm]
  · simp [ctxCharged, hx, h0, h1, h2, hd, hm, doneData]
  · intro h1 h2 n
    simp [ctxCharged, hx, h0, h1, h2, sendGrant, grantData, n]

/-- The relay channel or a job that got its cells goes on, and a claimant that waits no more does not (R68, R165,
    R203). -/
theorem act_charged_others : (∀ (t : Tables) (f : Flow) (p : PortId) (c : CtxIx) (h : Charge), f.ctx p c = none →
      act t (.charged (ctxClaimant p c) h) f = (f, [.release h]))
    ∧ (∀ (t : Tables) (f : Flow) (h : Charge),
      (∀ r st x, t.relayInRing = some r → f.relayIn.stop = some st → relayRecordAt r f = some x →
        act t (.charged .relay h) f = (relayAdvance r (f.modSlot st.slot fun y => { y with inbound := y.inbound ++
          [{ target := x.target, msg :=
            { charge := h, length := x.length, malformed := x.malformed, code := x.code, payload := x.payload } }] })
          x.length x.malformed, []))
      ∧ (f.relayIn.stop = none → act t (.charged .relay h) f = (f, [.release h])))
    ∧ (∀ (t : Tables) (f : Flow) (j : JobIx) (h : Charge),
      (∀ m, (f.jobs.get j).build = some m → m.charge = none →
        act t (.charged (.job j) h) f
          = act t (.jobAppend j) (f.modJob j fun b => { b with build := some { m with charge := some h } }))
      ∧ ((∀ m, (f.jobs.get j).build = some m → m.charge.isSome) → act t (.charged (.job j) h) f = (f,
          [.release h]))) := by
  refine ⟨fun t f p c h hx => ?_, fun t f h => ⟨fun r st x h1 h2 h3 => ?_, fun h1 => ?_⟩,
      fun t f j h => ⟨fun m h1 h2 => ?_, fun h1 => ?_⟩⟩
  · have hn : act t (.charged (ctxClaimant p c) h) f = ctxCharged t f p c h := by cases p <;> rfl
    rw [hn]; simp [ctxCharged, hx]
  · simp [act, claimantCharged, relayCharged, h1, h2, h3, appendInbound, RelayRecord.message]
  · simp only [act, claimantCharged, relayCharged, h1]
    cases t.relayInRing <;> rfl
  · simp [act, claimantCharged, jobCharged, h1, h2]
  · simp only [act, claimantCharged, jobCharged]
    cases hb : (f.jobs.get j).build with
    | none => rfl
    | some m => simp [h1 m hb]

/-- The claim at an admission (R124, R125). -/
theorem claimAdmit_eq : (∀ (t : Tables) (keep : Nat) (f : Flow) (k : Slot) (e : EcuIx) (c : ServiceClass) (g : Grant),
    let x := f.claims.get e
    let dl := some (after t.now (t.ecus.get e).holdOff)
    let next := claimAdmit t keep f k e c g
    let raises := x.state = .held ∧ x.holder = k ∧ x.level = .adjust ∧ c = .program
    (∀ l, x.state = .free → c.level = some l →
      next = claimChanged t keep (f.modClaim e fun y => { y with
        state := .held, holder := k, level := l, guard := g.conds, holdOff := dl, cause := none, phase := none
        closeDeadline := none }) e .taken none [])
    ∧ (raises → next = claimChanged t keep (f.modClaim e fun y => { y with
        level := .program, guard := x.guard ||| g.conds, holdOff := dl }) e .raised none [])
    ∧ (x.inForce = true → x.holder = k → ¬raises → next = f.modClaim e fun y => { y with holdOff := dl })
    ∧ (x.inForce = true → x.holder ≠ k → next = f)
    ∧ (x.inForce = false → x.state ≠ .free ∨ c.level = none → next = f)) := by
  intro t keep f k e c g
  simp only
  have hmod : ∀ (u w : Claim → Claim), u (f.claims.get e) = w (f.claims.get e) → f.modClaim e u = f.modClaim e w := by
    intro u w h; unfold Flow.modClaim; rw [Vector.modifyRow_congr _ _ h]
  refine ⟨fun l h1 h2 => ?_, fun ⟨h1, h2, h3, h4⟩ => ?_, fun h1 h2 h3 => ?_, fun h1 h2 => ?_, fun h1 h2 => ?_⟩
  · simp [claimAdmit, h1, h2]
  · subst h4
    simp only [claimAdmit, h1, h2, h3, ServiceClass.level]
    simp
    congr 1
  · simp only [claimAdmit, refreshClaim, h1, h2]
    cases hs : (f.claims.get e).state <;> simp [Claim.inForce, hs] at h1
    · cases hc : c <;> simp [ServiceClass.level]
      intro hl
      exact absurd ⟨hs, h2, hl, hc⟩ h3
    · simp
  · simp only [claimAdmit, refreshClaim]
    cases hs : (f.claims.get e).state <;> simp [Claim.inForce, hs] at h1
    · cases hc : c <;> simp [ServiceClass.level, h2]
    · simp [h2]
  · simp only [claimAdmit, refreshClaim, h1]
    cases hs : (f.claims.get e).state <;> simp [Claim.inForce, hs] at h1 h2
    · simp [h2]
    · simp

/-- The end of a closing (R133, R135). -/
theorem closeEnd_eq : (∀ (t : Tables) (keep : Nat) (f : Flow) (e : EcuIx) (o : CloseOutcome) (answer : Option Byte),
    let cause := (f.claims.get e).cause
    let freed := passBuffer t (f.modClaim e fun c => { c with
      outcome := o, answer, state := .free, cause := none, phase := none, closeDeadline := none }) e
    let detail := [orOnes (cause.map ReleaseCause.byte), o.byte] ++ optByteBytes answer
    let ended := (f.releaseWaits.filter fun w => w.ecu == e).foldl (fun g w => orderDone t g w.orderSlot .ok detail)
      { freed with releaseWaits := f.releaseWaits.filter fun w => w.ecu != e }
    closeEnd t keep f e o answer = claimChanged t keep ended e .freed (some o.byte) answer.toList) := by
  intro t keep f e o answer
  have : (passBuffer t (f.modClaim e fun c => { c with
      outcome := o, answer, state := .free, cause := none, phase := none,
          closeDeadline := none }) e).releaseWaits = f.releaseWaits := by
    unfold passBuffer; simp only; split
    · rfl
    · split
      · split <;> rfl
      · rfl
  simp only [closeEnd, endReleaseOrders, this]

/-- The release of a claim (R127, R129). -/
theorem claimRelease_eq : (∀ (t : Tables) (keep : Nat) (entering : Bool) (f : Flow) (e : EcuIx) (cause : ReleaseCause),
    let c := f.claims.get e
    let next := claimRelease t keep entering f e cause
    let closing := claimChanged t keep (f.modClaim e fun c => { c with
      state := .closing, cause := some cause, holdOff := none, phase := some .waitEntry }) e .released
        (some cause.byte) []
    let waits := entering = true ∨ (f.entryOf c.holder e).isSome
    (c.inForce = false → next = f)
    ∧ (c.inForce = true → waits → next = closing)
    ∧ (c.inForce = true → ¬waits → (t.ecus.get e).closeMsg = [] → next = closeEnd t keep closing e .empty none)
    ∧ (c.inForce = true → ¬waits → (t.ecus.get e).closeMsg ≠ [] → next = enterBuffer t closing e)) := by
  intro t keep entering f e cause
  simp only [claimRelease]
  refine ⟨fun h => by simp [h], fun h w => ?_, fun h w z => ?_, fun h w z => ?_⟩
  · rcases w with w | w <;> simp [h, w]
  · have : (entering || (f.entryOf (f.claims.get e).holder e).isSome) = false := by
      simpa using w
    simp [h, this, closingProceeds, z]
  · have : (entering || (f.entryOf (f.claims.get e).holder e).isSome) = false := by
      simpa using w
    simp [h, this, closingProceeds, z]

/-- What a claim change tells (R93, R136). -/
theorem claimChanged_eq : (∀ (t : Tables) (keep : Nat) (f : Flow) (e : EcuIx) (ev : ClaimEvent) (reason : Option Byte)
      (content : List Byte),
    let c := f.claims.get e
    let marked := f.markHeads fun _ h =>
      (h.reason == .condition || h.reason == .claimed || h.reason == .closing) && h.ecu == some e
    claimChanged t keep f e ev reason content = event t keep { marked with news := f.news ||| 0x040 }
      { event := true, source := 5, slot := ixByte c.holder, subject := some (ixByte e), cls := some c.level.cls.byte
        code := 0, grant := none, outcome := some ev.byte, reason, probe := none, stamp := none, length := 0,
            content }) := by
  intro t keep f e ev reason content c marked
  have : (fun (_ : Slot) (h : Held) => h.onClaimOf (· == e)) = fun _ h =>
      (h.reason == .condition || h.reason == .claimed || h.reason == .closing) && h.ecu == some e := by
    funext _ h
    unfold Held.onClaimOf
    congr 1
    · cases h.reason <;> rfl
    · cases h.ecu <;> simp
  simp only [claimChanged, this]
  rfl

/-- The claim support check and the report of a step of a grant (R47, R54). -/
theorem supportCheck_eq : (∀ (t : Tables) (gs : Vector Grant 64) (keep : Nat) (entering : Option EcuIx) (f : Flow)
    (old : Grant)
      (i : GrantIx) (outcome : Byte),
    supportCheck t gs keep entering f old = (List.finRange 32).foldl (fun h e =>
      let c := h.claims.get e
      if old.ecus.getLsbD e.val = true ∧ c.inForce = true ∧ c.holder = old.slot
        ∧ supported gs old.slot e c.level = false then claimRelease t keep (entering == some e) h e .support else h) f
    ∧ grantStep t keep f i old outcome = event t keep { f with news := f.news ||| 0x080 }
      { event := true, source := 4, slot := ixByte old.slot, subject := some (ixByte i), cls := none, code := 0
        grant := none, outcome := some outcome, reason := none, probe := none, stamp := none, length := 0
        content := [] }) := by
  intro t gs keep entering f old i outcome
  refine ⟨?_, rfl⟩
  unfold supportCheck
  suffices h : (fun (f : Flow) (e : EcuIx) =>
    let c := f.claims.get e
    if (old.ecus.getLsbD e.val && c.inForce && c.holder == old.slot && !supported gs old.slot e c.level) = true then
      claimRelease t keep (entering == some e) f e .support
    else f) = _ by rw [h]
  funext h e
  simp [and_assoc]

/-- A refusal of the head of a slot (R90). -/
theorem headRefuse_eq : (∀ (t : Tables) (f : Flow) (k : Slot) (m : InMsg) (rest : List InMsg) (r : Reason)
    (e : Option EcuIx)
        (c : Option ServiceClass), (f.slots.get k).inbound = m :: rest →
      let limit := (t.testers.get k).holdLimit
      let removed := fun g : Flow => (g.modSlot k (fun x => { x with inbound := rest }),
        [Act.release m.msg.charge, .refused k r m.msg.code m.target e])
      let first : Held :=
        { reason := .capture, ecu := e, firstHold := t.now, passed := r == .heldTooLong
          deadline := if limit.count = 0 then none else some (after t.now limit) }
      (governing t .refusal k e c = none → headRefuse t f k r e c = removed f)
      ∧ (∀ i, governing t .refusal k e c = some i →
        let record := refusalRecord t k e c m.msg.code none r (if m.msg.malformed then some m.msg.length else none)
          (probeTerms t i)
        ((t.probes.get i).binding = false → headRefuse t f k r e c = removed (captureOffer t f record))
        ∧ ((t.probes.get i).binding = true →
          let a := captureBinding t f record
          (a.1 = true → headRefuse t f k r e c = removed a.2)
          ∧ (a.1 = false → headRefuse t f k r e c = (a.2.modSlot k (fun x => { x with held := some (match x.held with
              | none => first
              | some h => { h with reason := .capture, ecu := e, passed := h.passed || r == .heldTooLong }) }),
                  []))))) := by
  intro t f k m rest r e c hm limit removed first
  refine ⟨fun h => ?_, fun i h => ⟨fun hb => ?_, fun hb => ⟨fun ha => ?_, fun ha => ?_⟩⟩⟩
  · simp [headRefuse, hm, captureRefusal, h, removed]
  · simp [headRefuse, hm, captureRefusal, h, hb, removed, Message.declared]
  · simp only [headRefuse, hm, captureRefusal, h, hb, if_true, Message.declared] at *
    simp [ha, removed]
  · simp only [headRefuse, hm, captureRefusal, h, hb, if_true, Message.declared] at *
    simp only [ha]
    simp only [Bool.false_eq_true, if_false, Option.isNone]
    refine Prod.ext ?_ rfl
    simp only [setHeld, Flow.modSlot]
    congr 1
    congr 1
    funext x
    congr 1
    cases x.held with
    | none => simp [first, holdDeadlineOf, Duration.isZero, limit]
    | some y => rfl

/-- The rest of a refusal on a JOB slot (R90, R117). -/
theorem act_refused_job : (∀ (t : Tables) (f : Flow) (k : Slot) (r : Reason) (code target : Byte) (e : Option EcuIx),
      (t.testers.get k).kind = .job →
      let a := jobItem t f k (.refusal [t.marker, code, r.byte]) .head
      act t (.refused k r code target e) f = (a.1.modSlot k (fun x => { x with
          refused := x.refused + 1, held := none
          heldTooLong := if r = .heldTooLong then x.heldTooLong + 1 else x.heldTooLong }),
              a.2 ++ [.placeFreed k])) := by
  intro t f k r code target e h
  simp only [act, headRefused, placeItem, h]
  rfl

/-- A refusal record and the terms of its probe (R179, R181). -/
theorem refusalRecord_eq : (∀ (t : Tables) (k : Slot) (e : Option EcuIx) (c : Option ServiceClass) (code : Byte)
    (grant : Option GrantIx)
      (r : Reason) (declared : Option Nat) (i : ProbeIx),
    (∀ ring, t.captureRing = some ring →
      probeTerms t i = { number := i, limit := min (t.probes.get i).limit (ring.size - 48) })
    ∧ refusalRecord t k e c code grant r declared (probeTerms t i) =
      { event := false, source := 2, slot := ixByte k, subject := e.map ixByte, cls := c.map (·.byte), code
        grant := grant.map ixByte, outcome := some r.byte, reason := none, probe := some (ixByte i), stamp := none
        length := declared.getD 3
        content := match declared with
          | none => [t.marker, code, r.byte].take (probeTerms t i).limit
          | some _ => [] }) := by
  intro t k e c code grant r declared i
  refine ⟨fun ring h => by simp [probeTerms, Tables.contentCap, h], ?_⟩
  cases declared <;> simp [refusalRecord, messageRecord, contentFor, refusalBytes, Direction.bit, probeTerms,
    Option.getD]

/-- The offer of an event record (R88, R180). -/
theorem event_eq : (∀ (t : Tables) (keep : Nat) (f : Flow) (x : CaptureRecord),
    let a := captureRoom t f (32 + round4 x.content.length)
    let g := captureWrite t a.2 x
    let lost := fun h : Flow =>
      { h with writer := { h.writer with gap := min 65535 (h.writer.gap + 1) }, news := h.news ||| 0x010 }
    (t.eventCapture = false → event t keep f x = f)
    ∧ (t.eventCapture = true →
      (keep = 0 → event t keep f x = captureOffer t f x)
      ∧ (keep ≠ 0 →
        (a.1 = false → event t keep f x = lost a.2)
        ∧ (a.1 = true → (captureRoom t g keep).1 = true → event t keep f x = g)
        ∧ (a.1 = true → (captureRoom t g keep).1 = false → event t keep f x = lost f)))) := by
  intro t keep f x a g lost
  refine ⟨fun h => by simp [event, h], fun h => ⟨fun hk => by simp [event, h, hk], fun hk => ⟨fun ha => ?_,
      fun ha hg => ?_, fun ha hg => ?_⟩⟩⟩
  all_goals simp only [event, h, if_true, if_neg hk, recordSize]
  all_goals simp only [a] at ha
  · simp only [ha]; rfl
  · simp only [ha]; simp only [g, a] at hg; simp [hg, g, a]
  · simp only [ha]; simp only [g, a] at hg; simp only [hg]; rfl

/-- The commit of an open capture or relay page (R183, R204). -/
theorem commit_eq : (∀ (t : Tables) (f : Flow),
    let next := fun (w : Writer) (r : Ring) =>
      ({ w with page := none, seq := w.seq + 1, gap := 0, pos := (w.pos + 1) % r.pages } : Writer)
    let header := fun (w : Writer) (p : OpenPage) =>
      [3, 0, 0, 0] ++ leBytes 2 p.count ++ leBytes 2 w.seq.toNat ++ leBytes 2 w.gap ++ [0, 0, 0, 0, 0, 0]
    (∀ r p, t.captureRing = some r → f.writer.page = some p → captureCommit t f = { f with
      writer := next f.writer r, news := f.news ||| 0x008
      ram := ramWrite f.ram (r.leaf + 16 + f.writer.pos * r.size) (header f.writer p) })
    ∧ (t.captureRing = none ∨ f.writer.page = none → captureCommit t f = f)
    ∧ (∀ r p, t.relayOutRing = some r → f.relayOut.page = some p → relayCommit t f = { f with
      relayOut := next f.relayOut r, news := f.news ||| 0x002
      ram := ramWrite f.ram (r.leaf + 16 + f.relayOut.pos * r.size) (header f.relayOut p) })
    ∧ (t.relayOutRing = none ∨ f.relayOut.page = none → relayCommit t f = f)) := by
  intro t f next header
  refine ⟨fun r p h1 h2 => ?_, ?_, fun r p h1 h2 => ?_, ?_⟩
  · simp only [captureCommit, h1, h2]; rfl
  · rintro (h | h)
    · simp [captureCommit, h]
    · simp only [captureCommit, h]; cases t.captureRing <;> rfl
  · simp only [relayCommit, h1, h2]; rfl
  · rintro (h | h)
    · simp [relayCommit, h]
    · simp only [relayCommit, h]; cases t.relayOutRing <;> rfl

/-- The message that a SEND builds (R164). -/
theorem buildSend_eq : (∀ (t : Tables) (f : Flow) (j : JobIx) (x : SendStep) (d : Directory), t.dir = some d →
    let b := f.jobs.get j
    let pass := match b.rep with
      | none => 0
      | some r => r.pass
    let size := match x.data, b.rep with
      | none, _ => 0
      | some y, none => y.length
      | some y, some r => if r.pass + 1 = r.count then y.final.getD y.length else y.length
    let read := fun n : Nat => match x.data with
      | none => []
      | some y => ramRead f.ram (d.base + y.offset + pass * y.length) n
    let len := x.inlined.length + size
    let built := fun (malformed : Bool) (code : Byte) (payload : List Byte) => some
      ({ target := (t.ecus.get x.ecu).node, ecu := x.ecu, length := len, malformed, code, payload, charge := none
         result := x.result, wait := x.wait, stop := x.stop } : Build)
    let pay := x.inlined ++ read size
    (len = 0 → buildSend t f j x = built true 0 [])
    ∧ (2048 < len → buildSend t f j x = built true (firstByte (x.inlined ++ read 1)) [])
    ∧ (1 ≤ len → len ≤ 2048 →
      (x.counter = none → buildSend t f j x = built false (firstByte pay) pay)
      ∧ (∀ c, x.counter = some c → len ≤ c.position → buildSend t f j x = none)
      ∧ (∀ c, x.counter = some c → c.position < len →
        let pay := pay.set c.position (c.start + BitVec.ofNat 8 pass)
        buildSend t f j x = built false (firstByte pay) pay))) := by
  intro t f j x d hd b pass size read len built pay
  have hpass : (f.jobs.get j).pass = pass := rfl
  have hsize : x.dataLength (f.jobs.get j) = size := by
    cases hx : x.data with
    | none => simp [SendStep.dataLength, size, hx]
    | some y =>
      cases hr : (f.jobs.get j).rep <;> cases hf : y.final <;> simp [SendStep.dataLength, size, hx, Job.lastPass, b,
          hr, hf]
  have hl : len = x.inlined.length + size := rfl
  have hb1 : (len = 0 ∨ 2048 < len) → badLength (x.inlined.length + size) = true := by
    intro h; unfold badLength; simp only [Bool.or_eq_true, beq_iff_eq, decide_eq_true_eq]; omega
  have hb2 : 1 ≤ len → len ≤ 2048 → ¬badLength (x.inlined.length + size) = true := by
    intro h h'; unfold badLength; simp only [Bool.or_eq_true, beq_iff_eq, decide_eq_true_eq]; omega
  have hread : ∀ n, x.dataBytes (f.jobs.get j) d.base f.ram n = read n := by
    intro n
    simp only [SendStep.dataBytes, read, hpass] <;> split <;> simp_all
  unfold buildSend
  simp only [hd, Option.map_some, Option.getD_some, hsize, hread]
  refine ⟨fun h => ?_, fun h => ?_, fun h h' => ⟨fun hc => ?_, fun c hc h2 => ?_, fun c hc h2 => ?_⟩⟩
  · rw [if_pos (hb1 (.inl h)), if_pos (hl ▸ h)]
  · rw [if_pos (hb1 (.inr h)), if_neg (by omega)]
  · rw [if_neg (hb2 h h'), hc]
  · rw [if_neg (hb2 h h'), hc]
    simp only
    rw [if_pos (by omega)]
  · rw [if_neg (hb2 h h'), hc]
    simp only
    rw [if_neg (by omega), hpass]
    rfl

/-- The end of a job (R173). -/
theorem act_endJob : (∀ (t : Tables) (f : Flow) (j : JobIx) (k : Slot) (code : EndCode) (result : Byte) (last : Nat),
    (f.jobs.get j).state ≠ .idle → (f.jobs.get j).slot = some k →
    let b := f.jobs.get j
    let built : List Act := match b.build.bind (·.charge) with
      | none => []
      | some h => [.release h]
    let waitsNoMore : Flow := { f with waiting := f.waiting.filter fun w => w.who != .job j }
    let orphaned := orphanSlot t (waitsNoMore.modSlot k fun x => { x with inbound := [], held := none }) k
    let let_go := releaseClaimsOf t orphaned.1 k .jobEnd
    let ordered := match b.orderSlot with
      | none => let_go
      | some n => orderDone t let_go n .ok ([code.byte, result, b.verdict.byte, BitVec.ofNat 8 last]
          ++ leBytes 4 b.steps ++ leBytes 4 b.passes)
    let idle := ordered.modJob j fun _ => .reset
    act t (.endJob j code result last) f = (event t 0 { idle with news := idle.news ||| 0x100 }
      { event := true, source := 6, slot := ixByte k, subject := some (ixByte j), cls := none, code := 0, grant := none
        outcome := some code.byte, reason := none, probe := none, stamp := none, length := 0
        content := [ixByte j, result] },
      built ++ (f.slots.get k).inbound.map (fun m => .release m.msg.charge) ++ orphaned.2)) := by
  intro t f j k code result last h1 h2 b built wnm orp lg ord idle
  have hb : b.active = true := by simp [Job.active, b, h1]
  simp only [act, jobEnds, h2]
  have : (!(f.jobs.get j).active) = false := by rw [show (f.jobs.get j).active = true from hb]; rfl
  rw [this]
  simp only [Bool.false_eq_true, if_false]
  refine Prod.ext ?_ ?_
  · simp only [ord, idle, lg, orp, wnm, b]
    cases (f.jobs.get j).orderSlot <;> rfl
  · simp only [built, b]
    cases (f.jobs.get j).build with
    | none => rfl
    | some m => cases hm : m.charge <;> simp [hm] <;> rfl

/-- A qualified change (R33, R126, R169). -/
theorem qualifiedChange_eq : (∀ (t : Tables) (f : Flow) (i : CondIx) (value : Bool),
    let reports := fun (g : Flow) (e : EcuIx) (st : ClaimState) (ev : Byte) =>
      let c := g.claims.get e
      event t 0 { g.modClaim e (fun c => { c with state := st }) with news := g.news ||| 0x040 }
        { event := true, source := 5, slot := ixByte c.holder, subject := some (ixByte e)
          cls := some (if c.level = .adjust then 3 else 4), code := 0, grant := none, outcome := some ev, reason := none
          probe := none, stamp := none, length := 0, content := [] }
    let one := fun (g : Flow) (e : EcuIx) =>
      let c := g.claims.get e
      if value = false ∧ c.state = .held ∧ c.guard.getLsbD i.val = true then reports g e .halted 2
      else if value = true ∧ c.state = .halted ∧ satisfied t c.guard = true then reports g e .held 3
      else g
    let moved := (List.finRange 32).foldl one f
    let marked := moved.markHeads fun _ h => h.reason == .condition
      || (h.reason == .claimed || h.reason == .closing) && (match h.ecu with
        | none => false
        | some e => (moved.claims.get e).state != (f.claims.get e).state)
    let told := event t 0 { marked with news := marked.news ||| 0x020 }
      { event := true, source := 3, slot := 0, subject := some (ixByte i), cls := none, code := 0, grant := none
        outcome := some (if value then 1 else 0), reason := none, probe := none, stamp := none, length := 0
        content := [] }
    let met := (List.finRange 4).filter fun j =>
      (told.jobs.get j).state == .waiting .condition && satisfied t (told.jobs.get j).condSet
    qualifiedChange t f i value
      = (met.foldl (fun g j => g.modJob j fun b => { b with verdict := .positive }) told, met.map .stepDone)) := by
  intro t f i value reports one moved marked told met
  have h1 : haltOrResume t i value = one := by
    funext g e
    simp only [haltOrResume, one, reports, claimReport, eventRecord]
    have hc : ∀ st, ((g.modClaim e fun c => { c with state := st }).claims.get e) = { g.claims.get e with state := st } := by
      intro st; simp [Flow.modClaim]
    have hl : ∀ l : ClaimLevel, l.cls.byte = if l = .adjust then 3 else 4 := by intro l; cases l <;> rfl
    cases value <;> cases hs : (g.claims.get e).state <;> simp [hc, hl] <;> rfl
  have h2 : (List.finRange 32).foldl (haltOrResume t i value) f = moved := by rw [h1]
  simp only [qualifiedChange, h2]
  have h3 : (fun (_ : Slot) (h : Held) => h.reason == .condition || h.onClaimOf (claimMoved f moved)) =
      fun _ h => h.reason == .condition
      || (h.reason == .claimed || h.reason == .closing) && (match h.ecu with
        | none => false
        | some e => (moved.claims.get e).state != (f.claims.get e).state) := by
    funext _ h
    simp only [Held.onClaimOf, claimMoved]
    cases h.reason <;> cases h.ecu <;> simp [HoldReason.onClaim]
  rw [h3]
  have h4 : event t 0 (marked.setNews .condition) (eventRecord 3 0 (ixByte i) none (some
      (flagByte value)) none []) = told := rfl
  rw [h4]
  -- jobs
  have hj : ∀ (l : List JobIx) (g : Flow) (acts : List Act), l.Nodup →
      (l.foldl (fun a j =>
        if (a.1.jobs.get j).conditionMet t then
          (a.1.modJob j fun b => { b with verdict := .positive }, a.2 ++ [.stepDone j])
        else a) (g, acts)) =
      (let m := l.filter fun j => (g.jobs.get j).conditionMet t
       (m.foldl (fun g j => g.modJob j fun b => { b with verdict := .positive }) g, acts ++ m.map Act.stepDone)) := by
    intro l
    induction l with
    | nil => intro g acts _; simp
    | cons j l ih =>
      intro g acts hn
      simp only [List.nodup_cons] at hn
      simp only [List.foldl_cons]
      by_cases h : (g.jobs.get j).conditionMet t = true
      · rw [if_pos h, ih _ _ hn.2]
        have : l.filter (fun i => ((g.modJob j fun b => { b with verdict := .positive }).jobs.get i).conditionMet t)
            = l.filter fun i => (g.jobs.get i).conditionMet t := by
          apply List.filter_congr
          intro i hi
          have : i ≠ j := fun e => hn.1 (e ▸ hi)
          simp [Flow.modJob, Vector.modifyRow_get_ne _ _ _ _ this]
        simp only [this, List.filter_cons, h, if_true, List.foldl_cons, List.map_cons]
        simp
      · rw [if_neg h, ih _ _ hn.2]
        simp [h]
  simp only [jobsOnCondition]
  rw [hj _ _ _ (List.nodup_finRange 4)]
  simp [met, Job.conditionMet]

/-- A value reported to the condition monitor (R26). -/
theorem reportRaw_eq : (∀ (s : State) (i : CondIx) (b : Bool),
    let c := s.tab.conds.get i
    let goes := fun x : Condition =>
      reportRaw s i b = { s with tab := { s.tab with conds := Vector.putRow s.tab.conds i x } }
    let qualifies := fun x : Condition =>
      let t := { s.tab with conds := Vector.putRow s.tab.conds i x }
      let a := qualifiedChange t s.flow i b
      reportRaw s i b = { s with tab := t, flow := settle t a.2 a.1 }
    (c.raw = b → reportRaw s i b = s)
    ∧ (c.raw = false → b = true →
      (c.qual = .isFalse → c.rise.count ≠ 0 →
        goes { c with raw := true, qual := .rising, deadline := some (after s.tab.now c.rise) })
      ∧ (c.qual = .isFalse → c.rise.count = 0 → qualifies { c with raw := true, qual := .isTrue, deadline := none })
      ∧ (c.qual = .falling → goes { c with raw := true, qual := .isTrue, deadline := none }))
    ∧ (c.raw = true → b = false →
      (c.qual = .isTrue → c.fall.count ≠ 0 →
        goes { c with raw := false, qual := .falling, deadline := some (after s.tab.now c.fall) })
      ∧ (c.qual = .isTrue → c.fall.count = 0 → qualifies { c with raw := false, qual := .isFalse, deadline := none })
      ∧ (c.qual = .rising → goes { c with raw := false, qual := .isFalse, deadline := none }))
    ∧ ((reportRaw s i b).tab.conds.get i).raw = b) := by
  intro s i b c goes qualifies
  refine ⟨fun h => ?_, fun h hb => ⟨fun h1 h2 => ?_, fun h1 h2 => ?_, fun h1 => ?_⟩, fun h hb => ⟨fun h1 h2 => ?_,
      fun h1 h2 => ?_, fun h1 => ?_⟩, ?_⟩
  · simp [reportRaw, c] at *; intro hh; exact absurd h hh
  all_goals (try subst hb)
  · change (s.tab.conds.get i).raw = _ at h; change
      (s.tab.conds.get i).qual = _ at h1; change ¬((s.tab.conds.get i).rise).count = 0#12 at h2
    simp [goes, reportRaw, h, Condition.rawTo, h1, Duration.isZero, h2, putCondition, Condition.qualified, c]
  · change (s.tab.conds.get i).raw = _ at h; change (s.tab.conds.get i).qual = _ at h1; change
      ((s.tab.conds.get i).rise).count = _ at h2
    simp [qualifies, reportRaw, h, Condition.rawTo, h1, Duration.isZero, h2, putCondition, Condition.qualified, c,
        settled]
  · change (s.tab.conds.get i).raw = _ at h; change (s.tab.conds.get i).qual = _ at h1
    simp [goes, reportRaw, h, Condition.rawTo, h1, putCondition, Condition.qualified, c]
  · change (s.tab.conds.get i).raw = _ at h; change
      (s.tab.conds.get i).qual = _ at h1; change ¬((s.tab.conds.get i).fall).count = 0#12 at h2
    simp [goes, reportRaw, h, Condition.rawTo, h1, Duration.isZero, h2, putCondition, Condition.qualified, c]
  · change (s.tab.conds.get i).raw = _ at h; change (s.tab.conds.get i).qual = _ at h1; change
      ((s.tab.conds.get i).fall).count = _ at h2
    simp [qualifies, reportRaw, h, Condition.rawTo, h1, Duration.isZero, h2, putCondition, Condition.qualified, c,
        settled]
  · change (s.tab.conds.get i).raw = _ at h; change (s.tab.conds.get i).qual = _ at h1
    simp [goes, reportRaw, h, Condition.rawTo, h1, putCondition, Condition.qualified, c]
  · simp only [reportRaw]
    split
    · assumption
    · have : (Condition.rawTo s.tab.now (s.tab.conds.get i) b).raw = b := by
        unfold Condition.rawTo; split <;> (try split) <;> simp_all
      simp only [putCondition]
      split <;> simp [this]

end Sys2Proof.Machine
end

