-- ==== Sys2Proof/Laws/Layouts.lean ====
section
/-! SUPPORT. What the parsers of exchange-area records accept and what they read, field by field (R208, R210, R213). -/

namespace Sys2Proof.Machine

/-- A byte by its number. -/
theorem Byte.toNat_eq_iff (n : Nat) : ∀ b : Byte, (b.toNat = n ↔ b = BitVec.ofNat 8 n ∧ n < 256) := by
  intro b
  constructor
  · intro h; subst h; simp; exact b.isLt
  · rintro ⟨rfl, h⟩; simp; omega

/-- A number between two bounds. -/
theorem inRange_some (lo hi n m : Nat) : inRange lo hi n = some m ↔ lo ≤ n ∧ n ≤ hi ∧ n = m := by
  unfold inRange
  by_cases h : lo ≤ n ∧ n ≤ hi
  · rw [if_pos h]; simp; exact ⟨fun e => ⟨h.1, h.2, e⟩, fun e => e.2.2⟩
  · rw [if_neg h]; simp; intro a b; exact absurd ⟨a, b⟩ h

/-- A flag (R208). -/
theorem getFlag_some (b : Byte) (x : Bool) : getFlag b = some x ↔ b = (if x then 1 else 0) := by
  unfold getFlag
  by_cases h : b = 0
  · subst h; cases x <;> simp
  · by_cases h1 : b = 1
    · subst h1; cases x <;> simp
    · rw [if_neg h, if_neg h1]; cases x <;> simp <;> assumption

/-- A duration and a timeout (R208). -/
theorem getDuration_eq : (∀ (bs : List Byte) (i : Nat),
      let n := numAt bs i 2
      let d : Duration := { code := BitVec.ofNat 3 (n / 4096), count := BitVec.ofNat 12 n }
      (n < 2 ^ 15 → getDuration bs i = some d ∧ getTimeout bs i = if d.count = 0 then none else some d)
      ∧ (2 ^ 15 ≤ n → getDuration bs i = none ∧ getTimeout bs i = none)) := by
  intro bs i n d
  constructor
  · intro h
    have : getDuration bs i = some d := if_pos h
    refine ⟨this, ?_⟩
    simp [getTimeout, this, Duration.isZero]
  · intro h
    have : getDuration bs i = none := if_neg (by omega)
    exact ⟨this, by simp [getTimeout, this]⟩

/-- A slot record (R8, R213). -/
theorem getTester_some : (∀ (bs : List Byte) (a : Bool) (x : Tester), getTester bs a = some x ↔
      (byteAt bs 1 = 0 ∧ x.kind = .bus ∨ byteAt bs 1 = 1 ∧ x.kind = .relay
        ∨ byteAt bs 1 = 2 ∧ x.kind = .job ∧ (byteAt bs 4).toNat ≤ 3)
      ∧ (byteAt bs 6 = 0 ∧ x.mode = .hold ∨ byteAt bs 6 = 1 ∧ x.mode = .refuse)
      ∧ 1 ≤ x.weight ∧ x.weight ≤ 8 ∧ x.weight = (byteAt bs 7).toNat
      ∧ 1 ≤ x.limit ∧ x.limit ≤ 8 ∧ x.limit = (byteAt bs 8).toNat
      ∧ getDuration bs 10 = some x.holdLimit ∧ x.attached = a ∧ x.tbAddr = byteAt bs 2 ∧ x.relayId = byteAt bs 3
      ∧ x.jobCtx = byteAt bs 4 ∧ x.vehicle = byteAt bs 5) := by
  intro bs a x
  have hk : getKind (byteAt bs 1) = some .bus ↔ byteAt bs 1 = 0 := by
    unfold getKind; split <;> simp_all [Byte.toNat_eq_iff]
  have hk1 : getKind (byteAt bs 1) = some .relay ↔ byteAt bs 1 = 1 := by
    unfold getKind; split <;> simp_all [Byte.toNat_eq_iff]
  have hk2 : getKind (byteAt bs 1) = some .job ↔ byteAt bs 1 = 2 := by
    unfold getKind; split <;> simp_all [Byte.toNat_eq_iff]
  have hm : getMode (byteAt bs 6) = some .hold ↔ byteAt bs 6 = 0 := by
    unfold getMode; split <;> simp_all [Byte.toNat_eq_iff]
  have hm1 : getMode (byteAt bs 6) = some .refuse ↔ byteAt bs 6 = 1 := by
    unfold getMode; split <;> simp_all [Byte.toNat_eq_iff]
  unfold getTester
  simp only [Option.bind_eq_bind, Option.bind_eq_some_iff, inRange_some]
  obtain ⟨att, kind, tb, rid, jc, ve, mode, w, l, hl⟩ := x
  constructor
  · rintro ⟨k, h1, m, h2, w', h3, l', h4, d, h5, h6⟩
    split at h6
    · cases h6
    · rename_i hn
      simp only [Option.some.injEq, Tester.mk.injEq] at h6
      obtain ⟨rfl, rfl, rfl, rfl, rfl, rfl, rfl, rfl, rfl, rfl⟩ := h6
      simp only
      refine ⟨?_, ?_, by omega, by omega, by omega, by omega, by omega, by omega, h5, ?_⟩
      · cases k
        · exact .inl ⟨hk.1 h1, rfl⟩
        · exact .inr (.inl ⟨hk1.1 h1, rfl⟩)
        · exact .inr (.inr ⟨hk2.1 h1, rfl, by simp at hn; omega⟩)
      · cases m
        · exact .inl ⟨hm.1 h2, rfl⟩
        · exact .inr ⟨hm1.1 h2, rfl⟩
      · simp
  · simp only
    rintro ⟨h1, h2, h3, h4, h5, h6, h7, h8, h9, rfl, rfl, rfl, rfl, rfl⟩
    refine ⟨kind, ?_, mode, ?_, w, by omega, l, by omega, hl, h9, ?_⟩
    · rcases h1 with ⟨h, rfl⟩ | ⟨h, rfl⟩ | ⟨h, rfl, _⟩
      · exact hk.2 h
      · exact hk1.2 h
      · exact hk2.2 h
    · rcases h2 with ⟨h, rfl⟩ | ⟨h, rfl⟩
      · exact hm.2 h
      · exact hm1.2 h
    · rw [if_neg]
      rintro ⟨rfl, hh⟩
      rcases h1 with ⟨h, h'⟩ | ⟨h, h'⟩ | ⟨h, h', q⟩ <;> first | (cases h'; done) |
          (have := Nat.not_lt.2 q; exact this hh)

/-- A set held in one byte (R208). -/
theorem getSet_some (n : Nat) (b : Byte) (x : BitVec n) : getSet n b = some x ↔ b.toNat < 2 ^ n
    ∧ x = BitVec.ofNat n b.toNat := by
  unfold getSet
  by_cases h : b.toNat < 2 ^ n
  · rw [if_pos h]; simp [h]; exact eq_comm
  · rw [if_neg h]; simp [h]

/-- An optional byte (R208). -/
theorem getOptByte_some (bs : List Byte) (i : Nat) (x : Option Byte) : getOptByte bs i = some x ↔
    byteAt bs i = 0 ∧ x = none ∨ byteAt bs i = 1 ∧ x = some (byteAt bs (i + 1)) := by
  unfold getOptByte
  have h0 := getFlag_some (byteAt bs i) false
  have h1 := getFlag_some (byteAt bs i) true
  cases h : getFlag (byteAt bs i) with
  | none => rw [h] at h0 h1; simp at h0 h1; simp [h0, h1]
  | some b =>
    have := (getFlag_some _ _).1 h
    cases b <;> simp at this <;> simp [this] <;> exact eq_comm

/-- A number of a row. -/
theorem asIx_some (n k : Nat) (x : Fin n) : asIx n k = some x ↔ x.val = k := by
  unfold asIx; split
  · rename_i h; simp [Fin.ext_iff]; exact eq_comm
  · rename_i h; simp; intro e; exact h (e ▸ x.isLt)

/-- An ECU record (R18, R213). -/
theorem getEcu_some : (∀ (bs : List Byte) (x : Ecu), getEcu bs = some x ↔
      byteAt bs 0 = (if x.valid then 1 else 0) ∧ x.port.val = (byteAt bs 1).toNat ∧ x.node = byteAt bs 2
      ∧ 1 ≤ x.interimLimit ∧ x.interimLimit = (byteAt bs 3).toNat ∧ byteAt bs 4 = (if x.interimFwd then 1 else 0)
      ∧ (byteAt bs 5 = 0 ∧ x.interimMarker = none ∨ byteAt bs 5 = 1 ∧ x.interimMarker = some (byteAt bs 6))
      ∧ (byteAt bs 7 = 0 ∧ x.negMarker = none ∨ byteAt bs 7 = 1 ∧ x.negMarker = some (byteAt bs 8))
      ∧ (byteAt bs 9).toNat ≤ 8 ∧ x.closeMsg = (bs.drop 10).take (byteAt bs 9).toNat
      ∧ getTimeout bs 18 = some x.respTimeout ∧ getTimeout bs 20 = some x.longTimeout
      ∧ getTimeout bs 22 = some x.holdOff) := by
  intro bs x
  unfold getEcu
  simp only [Option.bind_eq_bind, Option.bind_eq_some_iff, inRange_some, getFlag_some, getOptByte_some, asIx_some]
  obtain ⟨va, po, no, rt, lt, im, il, ifw, ng, cm, ho⟩ := x
  constructor
  · rintro ⟨v, h1, p, h2, l, h3, w, h4, i, h5, g, h6, c, h7, r, h8, lo, h9, hh, h10, h11⟩
    simp only [Option.some.injEq, Ecu.mk.injEq] at h11
    obtain ⟨rfl, rfl, rfl, rfl, rfl, rfl, rfl, rfl, rfl, rfl, rfl⟩ := h11
    obtain ⟨_, h7b, h7c⟩ := h7
    subst h7c
    dsimp only
    exact ⟨h1, h2, rfl, by omega, by omega, h4, h5, h6, h7b, rfl, h8, h9, h10⟩
  · simp only
    rintro ⟨h1, h2, rfl, h3, h4, h5, h6, h7, h8, rfl, h9, h10, h11⟩
    refine ⟨va, h1, po, h2, il, ⟨by omega, ?_, h4.symm⟩, ifw, h5, im, h6, ng, h7, _, ⟨by omega, h8, rfl⟩, rt, h9,
        lt, h10, ho, h11, rfl⟩
    have := (byteAt bs 3).isLt
    omega

/-- The fields of INSTALL_GRANT (R49, R210). -/
theorem getGrant_some : (∀ (bs : List Byte) (x : Grant), getGrant bs = some x ↔
      x.slot.val = (byteAt bs 0).toNat ∧ x.ecus = BitVec.ofNat 32 (numAt bs 1 4)
      ∧ (byteAt bs 5).toNat < 32 ∧ x.classes = BitVec.ofNat 6 (byteAt bs 5).toNat
      ∧ (byteAt bs 6).toNat < 64 ∧ x.conds = BitVec.ofNat 6 (byteAt bs 6).toNat
      ∧ (byteAt bs 7 = 0 ∧ x.level = .noClaim ∨ byteAt bs 7 = 1 ∧ x.level = .adjust
        ∨ byteAt bs 7 = 2 ∧ x.level = .program)
      ∧ getDuration bs 8 = some x.lifetime ∧ x.budget = numAt bs 10 2
      ∧ x.left = (if x.budget = 0 then none else some x.budget) ∧ x.state = .active ∧ x.life = .unlimited) := by
  intro bs x
  have hl0 : getLevel (byteAt bs 7) = some .noClaim ↔ byteAt bs 7 = 0 := by
    unfold getLevel; split <;> simp_all [Byte.toNat_eq_iff]
  have hl1 : getLevel (byteAt bs 7) = some .adjust ↔ byteAt bs 7 = 1 := by
    unfold getLevel; split <;> simp_all [Byte.toNat_eq_iff]
  have hl2 : getLevel (byteAt bs 7) = some .program ↔ byteAt bs 7 = 2 := by
    unfold getLevel; split <;> simp_all [Byte.toNat_eq_iff]
  have hset : ∀ n : Nat, n < 32 → (BitVec.ofNat 5 n).setWidth 6 = BitVec.ofNat 6 n := by
    intro n h; apply BitVec.eq_of_toNat_eq; simp; omega
  unfold getGrant
  simp only [Option.bind_eq_bind, Option.bind_eq_some_iff, asIx_some, getSet_some]
  obtain ⟨sta, sl, ec, cl, co, le, lif, li, bu, lef⟩ := x
  constructor
  · rintro ⟨s, h1, c, ⟨h2, rfl⟩, d, ⟨h3, rfl⟩, l, h4, t, h5, h6⟩
    simp only [Option.some.injEq, Grant.mk.injEq] at h6
    obtain ⟨rfl, rfl, rfl, rfl, rfl, rfl, rfl, rfl, rfl, rfl⟩ := h6
    refine ⟨h1, rfl, h2, hset _ h2, h3, rfl, ?_, h5, rfl, rfl, rfl, rfl⟩
    cases l
    · exact .inl ⟨hl0.1 h4, rfl⟩
    · exact .inr (.inl ⟨hl1.1 h4, rfl⟩)
    · exact .inr (.inr ⟨hl2.1 h4, rfl⟩)
  · simp only
    rintro ⟨h1, rfl, h2, rfl, h3, rfl, h4, h5, rfl, rfl, rfl, rfl⟩
    refine ⟨sl, h1, _, ⟨h2, rfl⟩, _, ⟨h3, rfl⟩, le, ?_, lif, h5, ?_⟩
    · rcases h4 with ⟨h, rfl⟩ | ⟨h, rfl⟩ | ⟨h, rfl⟩
      · exact hl0.2 h
      · exact hl1.2 h
      · exact hl2.2 h
    · rw [hset _ h2]

/-- A probe record (R175, R213). -/
theorem getProbe_some : (∀ (bs : List Byte) (x : Probe), getProbe bs = some x ↔
      byteAt bs 0 = (if x.enabled then 1 else 0)
      ∧ (byteAt bs 1).toNat < 8 ∧ x.dirs = BitVec.ofNat 3 (byteAt bs 1).toNat
      ∧ byteAt bs 2 = (if x.binding then 1 else 0)
      ∧ (byteAt bs 3).toNat < 64 ∧ x.classes = BitVec.ofNat 6 (byteAt bs 3).toNat
      ∧ x.slots = BitVec.ofNat 16 (numAt bs 4 2) ∧ x.limit ≤ 2048 ∧ x.limit = numAt bs 6 2
      ∧ x.ecus = BitVec.ofNat 32 (numAt bs 8 4)) := by
  intro bs x
  unfold getProbe
  simp only [Option.bind_eq_bind, Option.bind_eq_some_iff, inRange_some, getFlag_some, getSet_some]
  obtain ⟨en, di, sl, ec, cl, bi, li⟩ := x
  constructor
  · rintro ⟨e, h1, d, ⟨h2, rfl⟩, b, h3, c, ⟨h4, rfl⟩, l, h5, h6⟩
    simp only [Option.some.injEq, Probe.mk.injEq] at h6
    obtain ⟨rfl, rfl, rfl, rfl, rfl, rfl, rfl⟩ := h6
    dsimp only
    exact ⟨h1, h2, rfl, h3, h4, rfl, rfl, by omega, by omega, rfl⟩
  · simp only
    rintro ⟨h1, h2, rfl, h3, h4, rfl, rfl, h5, h6, rfl⟩
    exact ⟨en, h1, _, ⟨h2, rfl⟩, bi, h3, _, ⟨h4, rfl⟩, li, by omega, rfl⟩

/-- A port record (R139, R213). -/
theorem getPort_some : (∀ (bs : List Byte) (x : PortSettings), getPort bs = some x ↔
      x.node = byteAt bs 0 ∧ x.kind = byteAt bs 1
      ∧ (byteAt bs 2).toNat < 8 ∧ x.priority = BitVec.ofNat 3 (byteAt bs 2).toNat
      ∧ 1 ≤ x.window ∧ x.window ≤ 63 ∧ x.window = (byteAt bs 3).toNat ∧ x.stallLimit = (byteAt bs 4).toNat
      ∧ getTimeout bs 6 = some x.creditWait ∧ getTimeout bs 8 = some x.gap ∧ getTimeout bs 10 = some x.doneWait
      ∧ getTimeout bs 12 = some x.stallInterval ∧ getDuration bs 14 = some x.spacing) := by
  intro bs x
  unfold getPort
  simp only [Option.bind_eq_bind, Option.bind_eq_some_iff, inRange_some]
  obtain ⟨no, ki, pr, wi, cw, ga, dw, si, sl, sp⟩ := x
  constructor
  · rintro ⟨p, h1, w, h2, a, h3, b, h4, c, h5, d, h6, e, h7, h8⟩
    simp only [Option.some.injEq, PortSettings.mk.injEq] at h8
    obtain ⟨rfl, rfl, rfl, rfl, rfl, rfl, rfl, rfl, rfl, rfl⟩ := h8
    obtain ⟨_, h1b, rfl⟩ := h1
    dsimp only
    exact ⟨rfl, rfl, by omega, rfl, by omega, by omega, by omega, rfl, h3, h4, h5, h6, h7⟩
  · simp only
    rintro ⟨rfl, rfl, h1, rfl, h2, h3, h4, rfl, h5, h6, h7, h8, h9⟩
    exact ⟨_, ⟨by omega, by omega, rfl⟩, wi, by omega, cw, h5, ga, h6, dw, h7, si, h8, sp, h9, rfl⟩

/-- Every record of a run parses. -/
theorem getAll_some {α : Type} {g : List Byte → Option α} : ∀ {rs : List (List Byte)} {xs : List α},
    getAll g rs = some xs →
    ∀ (i : Nat) (r : List Byte), rs[i]? = some r → ∃ x : α, xs[i]? = some x ∧ g r = some x := by
  intro rs
  induction rs with
  | nil => intro xs _ i r h; simp at h
  | cons r rs ih =>
    intro xs h i q hq
    simp only [getAll, Option.bind_eq_bind, Option.bind_eq_some_iff] at h
    obtain ⟨x, h1, ys, h2, h3⟩ := h
    cases h3
    cases i with
    | zero => simp at hq; subst hq; exact ⟨x, by simp, h1⟩
    | succ i => simp at hq; obtain ⟨y, a, b⟩ := ih h2 i q hq; exact ⟨y, by simpa using a, b⟩

/-- The records of a run. -/
theorem records_get (size : Nat) : ∀ (n : Nat) (bs : List Byte) (i : Nat), i < n →
    (records size n bs)[i]? = some ((bs.drop (size * i)).take size) := by
  intro n
  induction n with
  | zero => intro _ i h; omega
  | succ n ih =>
    intro bs i h
    cases i with
    | zero => simp [records]
    | succ i =>
      simp only [records, List.getElem?_cons_succ]
      rw [ih _ _ (by omega), List.drop_drop]
      congr 3
      rw [Nat.mul_succ]; omega

/-- A table read from a run of records. -/
theorem vectorOf_records {α : Type} {n : Nat} {g : List Byte →
    Option α} {size : Nat} {bs : List Byte} {xs : List α} (d : α)
    (h : getAll g (records size n bs) = some xs) (i : Fin n) :
    g ((bs.drop (size * i.val)).take size) = some ((vectorOf (n := n) xs d).get i) := by
  obtain ⟨x, h1, h2⟩ := getAll_some h i.val _ (records_get size n bs i.val i.isLt)
  rw [h2]
  simp [vectorOf, List.getD_eq_getElem?_getD, h1]

/-- The ECU entries that a load leaves (R23). -/
theorem loadEcus_some {f : Flow} : ∀ {l : List (EcuIx × List Byte)} {t u : Tables}, loadEcus f l t = some u →
    (l.map (·.1)).Nodup →
    (∃ v, u = { t with ecus := v }) ∧ (∀ p ∈ l, getEcu p.2 = some (u.ecus.get p.1))
    ∧ ∀ e, e ∉ l.map (·.1) → u.ecus.get e = t.ecus.get e := by
  intro l
  induction l with
  | nil => intro t u h _; cases h; exact ⟨⟨_, rfl⟩, by simp, by simp⟩
  | cons p l ih =>
    intro t u h hn
    obtain ⟨e, bs⟩ := p
    simp only [loadEcus] at h
    cases hx : getEcu bs with
    | none => rw [hx] at h; cases h
    | some x =>
      rw [hx] at h
      simp only at h
      split at h
      · cases h
      · simp only [List.map_cons, List.nodup_cons] at hn
        obtain ⟨⟨v, hv⟩, h2, h3⟩ := ih h hn.2
        refine ⟨⟨v, hv⟩, ?_, ?_⟩
        · intro p hp
          rcases List.mem_cons.1 hp with rfl | hp
          · rw [h3 e hn.1]; simp [hx]
          · exact h2 p hp
        · intro e' he
          simp at he
          rw [h3 e' (by simpa using he.2)]
          exact Vector.putRow_get_ne _ _ _ _ he.1

/-- The slot records that a load leaves (R23). -/
theorem loadTesters_some {f : Flow} {b : Bool} : ∀ {l : List (Slot × List Byte)} {t u : Tables},
    loadTesters f b l t = some u →
    (l.map (·.1)).Nodup →
    (∃ v, u = { t with testers := v })
    ∧ (∀ p ∈ l, getFlag (byteAt p.2 0) = some b → getTester p.2 b = some (u.testers.get p.1))
    ∧ (∀ p ∈ l, (getFlag (byteAt p.2 0)).isSome)
    ∧ ∀ e, (∀ p ∈ l, p.1 = e → getFlag (byteAt p.2 0) ≠ some b) → u.testers.get e = t.testers.get e := by
  intro l
  induction l with
  | nil => intro t u h _; cases h; exact ⟨⟨_, rfl⟩, by simp, by simp, by simp⟩
  | cons p l ih =>
    intro t u h hn
    obtain ⟨e, bs⟩ := p
    simp only [loadTesters] at h
    simp only [List.map_cons, List.nodup_cons] at hn
    cases hx : getFlag (byteAt bs 0) with
    | none => rw [hx] at h; cases h
    | some x =>
      rw [hx] at h
      simp only at h
      split at h
      · rename_i hb
        subst hb
        cases hy : getTester bs x with
        | none => rw [hy] at h; cases h
        | some y =>
          rw [hy] at h
          simp only at h
          split at h
          · cases h
          · obtain ⟨⟨v, hv⟩, h2, h3, h4⟩ := ih h hn.2
            have hq : ∀ p ∈ l, p.1 ≠ e := fun p hp he => hn.1 (by rw [← he]; exact List.mem_map_of_mem hp)
            refine ⟨⟨v, hv⟩, ?_, ?_, ?_⟩
            · intro p hp hf
              rcases List.mem_cons.1 hp with rfl | hp
              · simp only
                rw [h4 e (fun p hp he => absurd he (hq p hp))]; simp [hy]
              · exact h2 p hp hf
            · intro p hp
              rcases List.mem_cons.1 hp with rfl | hp
              · simp [hx]
              · exact h3 p hp
            · intro e' he
              have h0 : e ≠ e' := fun hh => he (e, bs) (by simp) hh hx
              rw [h4 e' (fun p hp => he p (by simp [hp]))]
              exact Vector.putRow_get_ne _ _ _ _ (Ne.symm h0)
      · rename_i hb
        obtain ⟨⟨v, hv⟩, h2, h3, h4⟩ := ih h hn.2
        refine ⟨⟨v, hv⟩, ?_, ?_, ?_⟩
        · intro p hp hf
          rcases List.mem_cons.1 hp with rfl | hp
          · simp only [hx, Option.some.injEq] at hf; exact absurd hf hb
          · exact h2 p hp hf
        · intro p hp
          rcases List.mem_cons.1 hp with rfl | hp
          · simp [hx]
          · exact h3 p hp
        · intro e' he
          exact h4 e' (fun p hp => he p (by simp [hp]))

/-- The numbers of a numbered run. -/
theorem recordsAt_keys (n size off : Nat) (bs : List Byte) : ((recordsAt n size off bs).map
    (·.1)) = List.finRange n := by
  simp [recordsAt, Function.comp_def]

/-- A byte of a record. -/
theorem byteAt_take_drop (bs : List Byte) (o n i : Nat) (h : i < n) : byteAt ((bs.drop o).take n) i = byteAt bs
    (o + i) := by
  simp [byteAt, List.getD_eq_getElem?_getD, h]

/-- A number of a record. -/
theorem numAt_take_drop (bs : List Byte) (o n i k : Nat) (h : i + k ≤ n) : numAt
    ((bs.drop o).take n) i k = numAt bs (o + i) k := by
  simp only [numAt, List.drop_take, List.take_take, List.drop_drop]
  rw [Nat.min_eq_left (by omega)]

set_option maxHeartbeats 2000000 in
/-- The settings that STARTING reads, at the offsets of the settings leaf (R213). -/
theorem readStarting_ok : (∀ (s : State) (x : Settings), readStarting s = .ok x → ∃ d, x.tab.dir = some d ∧
    let bs := ramRead s.flow.ram d.settings 1816
    let record := fun (at_ size i : Nat) => (bs.drop (at_ + size * i)).take size
    (∀ i : Fin 4, getPort (record 0 16 i.val) = some (x.tab.ports.get i))
    ∧ x.tab.marker = byteAt bs 0x40 ∧ byteAt bs 0x41 = (if x.tab.eventCapture then 1 else 0)
    ∧ x.still = numAt bs 0x42 2 ∧ x.still ≤ 255 ∧ getDuration bs 0x44 = some x.tab.scan
    ∧ getDuration bs 0x46 = some x.tab.relayFlush ∧ getDuration bs 0x48 = some x.tab.captureFlush
    ∧ getTimeout bs 0x4A = some x.window ∧ numAt bs 0x4C 4 < 2 ^ 11 ∧ x.mask = BitVec.ofNat 11 (numAt bs 0x4C 4)
    ∧ (∀ i : CondIx, getDuration bs (0x50 + 4 * i.val) = some (x.tab.conds.get i).rise
      ∧ getDuration bs (0x52 + 4 * i.val) = some (x.tab.conds.get i).fall)
    ∧ byteAt bs 0x68 = (if x.tab.sampler.enabled then 1 else 0) ∧ (byteAt bs 0x69).toNat < 64
    ∧ x.tab.sampler.classes = BitVec.ofNat 6 (byteAt bs 0x69).toNat
    ∧ x.tab.sampler.rate = numAt bs 0x6A 2 ∧ x.tab.sampler.rate ≤ 4096
    ∧ (∀ i : ProbeIx, getProbe (record 0x70 16 i.val) = some (x.tab.probes.get i))
    ∧ (∀ a : AccountIx, x.tab.thresholds.get a = numAt bs (0xB0 + 2 * a.val) 2 ∧ x.tab.thresholds.get a ≤ 1024)
    ∧ sumReserve (fun a => x.tab.thresholds.get a) ≤ 1024
    ∧ (∀ k : Slot, byteAt bs (0x118 + 16 * k.val) = (if (x.tab.testers.get k).attached then 1 else 0)
      ∧ getTester (record 0x118 16 k.val) (x.tab.testers.get k).attached = some (x.tab.testers.get k))
    ∧ (∀ e : EcuIx, getEcu (record 0x218 32 e.val) = some (x.tab.ecus.get e))
    ∧ (∀ c : Byte, getClass (byteAt bs (0x618 + c.toNat)) = some (classOf x.tab c))
    ∧ (x.tab.relayOutRing.isSome → x.tab.relayFlush.count ≠ 0)
    ∧ (x.tab.captureRing = none → x.tab.eventCapture = false ∧ x.tab.sampler.enabled = false
      ∧ ∀ i, (x.tab.probes.get i).enabled = false)) := by
  intro s x h
  unfold readStarting at h
  cases hd : readDirectory s.flow.ram s.xbase.toNat with
  | error c => rw [hd] at h; cases h
  | ok d =>
  rw [hd] at h
  simp only at h
  split at h
  · cases h
  rename_i y hy
  cases h
  refine ⟨d, ?_⟩
  simp only
  generalize ramRead s.flow.ram d.settings 1816 = bs at hy ⊢
  unfold readSettings at hy
  simp only [Option.bind_eq_bind, Option.bind_eq_some_iff] at hy
  obtain ⟨t1, ht1, conds, hc, window, hw, ths, hth, hy⟩ := hy
  split at hy
  · cases hy
  rename_i hfit
  simp only [Option.bind_eq_some_iff] at hy
  obtain ⟨t2, ht2, scan, hsc, rfl', hrf, mask, hma, still, hst, hy⟩ := hy
  split at hy
  · cases hy
  rename_i hflush
  cases hy
  unfold readTablesLeaf at ht1
  simp only [Option.bind_eq_bind, Option.bind_eq_some_iff] at ht1
  obtain ⟨ports, hp, map, hm, ta, hta, tb, htb, htc⟩ := ht1
  obtain ⟨⟨va, hva⟩, ha2, ha3⟩ := loadEcus_some hta (by rw [recordsAt_keys]; exact List.nodup_finRange _)
  obtain ⟨⟨vb, hvb⟩, hb2, hb3, hb4⟩ := loadTesters_some htb (by rw [recordsAt_keys]; exact List.nodup_finRange _)
  obtain ⟨⟨vc, hvc⟩, hc2, hc3, hc4⟩ := loadTesters_some htc (by rw [recordsAt_keys]; exact List.nodup_finRange _)
  unfold readCaptureLeaf at ht2
  simp only [Option.bind_eq_bind, Option.bind_eq_some_iff] at ht2
  obtain ⟨ec, hec, cf, hcf, probes, hpr, sa, hsa, ht2⟩ := ht2
  split at ht2
  · cases ht2
  rename_i hring
  cases ht2
  subst hva hvb hvc
  simp only at *
  have hmem : ∀ (n size off : Nat) (i : Fin n), (i, (bs.drop
      (off + size * i.val)).take size) ∈ recordsAt n size off bs :=
    fun n size off i => List.mem_map.2 ⟨i, List.mem_finRange i, rfl⟩
  unfold getSampler at hsa
  simp only [Option.bind_eq_bind, Option.bind_eq_some_iff, getFlag_some, getSet_some, inRange_some] at hsa
  obtain ⟨se, h1, sc, ⟨h2, h2'⟩, sr, ⟨_, h3, h3'⟩, h4⟩ := hsa
  cases h4
  refine ⟨by trivial, ?_, by trivial, (getFlag_some _ _).1 hec, ?_, ?_, hsc, hrf, hcf, hw, ?_, ?_, ?_, ?_, ?_, ?_,
      ?_, ?_, ?_, ?_, ?_, ?_, ?_, ?_, ?_, ?_⟩
  · intro i; simpa using vectorOf_records PortSettings.reset hp i
  · have := (inRange_some _ _ _ _).1 hst; exact this.2.2.symm
  · have := (inRange_some _ _ _ _).1 hst; omega
  · unfold getMask at hma; split at hma
    · assumption
    · cases hma
  · unfold getMask at hma; split at hma
    · cases hma; rfl
    · cases hma
  · intro i
    have := vectorOf_records Condition.reset hc i
    rw [List.drop_drop] at this
    unfold getTimes at this
    simp only [Option.bind_eq_bind, Option.bind_eq_some_iff] at this
    obtain ⟨r, hr, fa, hf, he⟩ := this
    simp only [Option.some.injEq] at he
    rw [← he]
    simp only
    unfold getDuration at *
    rw [numAt_take_drop _ _ _ _ _ (by omega)] at hr hf
    exact ⟨by simpa using hr, by rw [show 0x52 + 4 * i.val = 0x50 + 4 * i.val + 2 by omega]; simpa using hf⟩
  · exact h1
  · exact h2
  · exact h2'
  · exact h3'.symm
  · dsimp only; omega
  · intro i
    have := vectorOf_records Probe.reset hpr i
    rw [List.drop_drop] at this; exact this
  · intro a
    have := vectorOf_records 0 hth a
    rw [List.drop_drop] at this
    unfold getThreshold at this
    have := (inRange_some _ _ _ _).1 this
    rw [numAt_take_drop _ _ _ _ _ (by omega)] at this
    simp only [Nat.add_zero] at this
    exact ⟨this.2.2.symm, by omega⟩
  · simpa [thresholdsFit] using hfit
  · intro k
    have hk := hmem 16 16 0x118 k
    have hs := hc3 _ hk
    simp only [byteAt_take_drop _ _ 16 0 (by omega), Nat.add_zero] at hs
    cases hg : getFlag (byteAt bs (0x118 + 16 * k.val)) with
    | none => rw [hg] at hs; cases hs
    | some b =>
      have hat : ∀ (bs : List Byte) (a : Bool) (x : Tester), getTester bs a = some x → x.attached = a := fun bs a x h =>
        ((getTester_some bs a x).1 h).2.2.2.2.2.2.2.2.2.1
      have huniq : ∀ p ∈ recordsAt 16 16 0x118 bs, p.1 = k → p.2 = (bs.drop (0x118 + 16 * k.val)).take 16 := by
        intro p hp he
        obtain ⟨i, _, rfl⟩ := List.mem_map.1 hp
        simp only at he; subst he; rfl
      cases b
      · have := hc2 _ hk (by simpa [byteAt_take_drop] using hg)
        simp only at this
        rw [hat _ _ _ this]
        exact ⟨by simpa using (getFlag_some _ _).1 hg, this⟩
      · have h1 := hb2 _ hk (by simpa [byteAt_take_drop] using hg)
        have h2 := hc4 k (fun p hp he => by rw [huniq p hp he]; simp [byteAt_take_drop, hg])
        simp only at h1 h2
        rw [h2, hat _ _ _ h1]
        exact ⟨by simpa using (getFlag_some _ _).1 hg, h1⟩
  · intro e
    have := ha2 _ (hmem 32 32 0x218 e)
    exact this
  · intro c
    have := vectorOf_records (n := 256) ServiceClass.barred hm c.toFin
    rw [List.drop_drop, byteAt_take_drop _ _ _ _ (by omega)] at this
    simpa [classOf] using this
  · intro hr
    simp [Duration.isZero] at hflush
    exact hflush hr
  · intro hr
    have hq : ∀ i, (vectorOf
        (n := 4) probes Probe.reset).get i = probes.getD i.val .reset := fun i => by simp [vectorOf]
    simp only [Tables.captureRing] at hr hring
    simp only [hr] at hring
    simp at hring
    refine ⟨hring.1.1, hring.1.2, fun i => ?_⟩
    rw [hq]
    rw [List.getD_eq_getElem?_getD]
    cases hg : probes[i.val]? with
    | none => rfl
    | some p => exact hring.2 p (List.mem_of_getElem? hg)

end Sys2Proof.Machine
end

