-- ==== Sys2Proof/Laws/Orders.lean ====
section
/-! SUPPORT. What taking an order does (R199, R200): one lemma for the whole of `takeOrder`, and what ending an order
writes. -/

namespace Sys2Proof.Machine

/-- An order whose code is one of the row's is taken and carried out, or ended with STATE; then the look goes on. -/
theorem takeOrder_finds {s : State} {d : Directory} {l : Look} {c : Byte} {mine : Byte → Bool} {any : Bool}
    {g : OrderEffect} (h : s.Finds d l c) (hm : mine c = true) :
    takeOrder s mine any g
      = (if any || s.tab.ctl == .running then g (s.took d l) l.next (s.params d l)
          else (s.took d l).done l.next .state).looksOn d l := by
  obtain ⟨hd, hl, hc⟩ := h
  unfold takeOrder
  split
  · rename_i d' l' hd' hl'
    rw [hd] at hd'
    rw [hl] at hl'
    cases hd'
    cases hl'
    exact if_pos (hc.symm ▸ hm)
  · rename_i hno
    exact absurd hl (fun hl => hno d l hd hl)

/-- An order whose code is another row's stays POSTED. -/
theorem takeOrder_other {s : State} {d : Directory} {l : Look} {c : Byte} {mine : Byte → Bool} {any : Bool}
    {g : OrderEffect} (h : s.Finds d l c) (hm : mine c = false) : takeOrder s mine any g = s := by
  obtain ⟨hd, hl, hc⟩ := h
  simp [takeOrder, hd, hl, hc, hm]

/-- With no POSTED slot ahead of a look, no order is taken. -/
theorem takeOrder_noLook {s : State} {mine : Byte → Bool} {any : Bool} {g : OrderEffect} (h : s.flow.look = none) :
    takeOrder s mine any g = s := by
  simp only [takeOrder, h]
  split <;> simp_all

theorem codeIs_self (c : Byte) : codeIs c c = true := by simp [codeIs]

/-- An order of one code, carried out in RUNNING only. -/
theorem order_finds {s : State} {d : Directory} {l : Look} {c : Byte} {g : OrderEffect} (h : s.Finds d l c) :
    takeOrder s (codeIs c) false g
      = (if s.tab.ctl = .running then (g (s.took d l) l.next (s.params d l)).looksOn d l
          else (s.took d l).answers d l .state) := by
  rw [takeOrder_finds h (codeIs_self c)]
  by_cases hr : s.tab.ctl = .running <;> simp [hr, State.answers]

end Sys2Proof.Machine
end

