-- ==== Sys2Proof/Laws/Reads.lean ====
section
/-! SUPPORT. What the tests and readings that other rules rest on say: conflicts of addresses (R8, R9, R12, R18), drain
conditions (R197), codes, relay records (R203, R204), job steps (R161, R162), frame bodies (R140, R216), answers to a
closing (R132, R153), refusals in place of a response (R111) and NEXT frames that store nothing (R147). -/

namespace Sys2Proof.Machine

/-! ### Tables, codes, relay records, job steps and frames -/

/-- Whether a slot holds its vehicle-side address: attached, or with an outstanding entry left (R6). -/
theorem holdsAddr_iff (t : Tables) (f : Flow) (k : Slot) : holdsAddr t f k = true ↔
    (t.testers.get k).attached = true ∨ ∃ i x, f.entries.get i = some x ∧ x.slot = k := by
  have : f.hasEntry k = true ↔ ∃ i x, f.entries.get i = some x ∧ x.slot = k := by
    simp only [Flow.hasEntry, List.any_eq_true]
    constructor
    · rintro ⟨o, ho, h⟩
      obtain ⟨i, hi, rfl⟩ := List.getElem_of_mem ho
      rw [Vector.length_toList] at hi
      cases hx : f.entries.toList[i] with
      | none => rw [hx] at h; cases h
      | some x =>
        rw [hx] at h
        exact ⟨⟨i, hi⟩, x, by simpa [Vector.get] using hx, by simpa using h⟩
    · rintro ⟨i, x, h, rfl⟩
      refine ⟨some x, ?_, by simp⟩
      rw [← h]
      simp [Vector.get]
  simp [holdsAddr, this]

/-- The conflicts that bar an attachment (R9). -/
theorem testerConflict_iff (t : Tables) (f : Flow) (k : Slot) (x : Tester) :
    let vs := fun y : Tester => if y.kind = .bus then y.tbAddr else y.vehicle
    let held := fun j : Slot => (t.testers.get j).attached = true ∨ ∃ i y, f.entries.get i = some y ∧ y.slot = j
    testerConflict t f k x = true ↔
    (∃ j, j ≠ k ∧ held j ∧ vs (t.testers.get j) = vs x)
    ∨ (∃ v : VbIx, (t.port (.vb v)).node = vs x)
    ∨ (∃ e, (t.ecus.get e).valid = true ∧ (t.ecus.get e).node = vs x)
    ∨ (x.kind = .bus ∧ (t.port .tb).node = x.tbAddr)
    ∨ (∃ j, j ≠ k ∧ (t.testers.get j).attached = true ∧ (t.testers.get j).kind = x.kind
      ∧ (x.kind = .relay ∧ (t.testers.get j).relayId = x.relayId ∨ x.kind = .job ∧ (t.testers.get j).jobCtx = x.jobCtx)) := by
  intro vs held
  have hv : ∀ y : Tester, y.vsAddr = vs y := by
    intro y; simp only [Tester.vsAddr, vs]; cases y.kind <;> simp
  simp only [testerConflict, Bool.or_eq_true, List.any_eq_true, List.mem_finRange, true_and, Bool.and_eq_true, bne_iff_ne,
    beq_iff_eq, holdsAddr_iff, hv, or_assoc, and_assoc]
  cases hk : x.kind <;> simp [held, and_assoc]

/-- The parties that hold the address of a new valid entry (R18, step 4). -/
theorem ecuConflict_iff (t : Tables) (f : Flow) (e : EcuIx) (x : Ecu) : ecuConflict t f e x = true ↔
    x.valid = true
    ∧ ((∃ i, i ≠ e ∧ (t.ecus.get i).valid = true ∧ (t.ecus.get i).node = x.node) ∨ (t.port (.vb x.port)).node = x.node
      ∨ ∃ k, ((t.testers.get k).attached = true ∨ ∃ i y, f.entries.get i = some y ∧ y.slot = k)
        ∧ (if (t.testers.get k).kind = .bus then (t.testers.get k).tbAddr else (t.testers.get k).vehicle) = x.node) := by
  have hv : ∀ y : Tester, y.vsAddr = if y.kind = .bus then y.tbAddr else y.vehicle := by
    intro y; simp only [Tester.vsAddr]; cases y.kind <;> simp
  simp only [ecuConflict, Bool.or_eq_true, List.any_eq_true, List.mem_finRange, true_and, Bool.and_eq_true, bne_iff_ne,
    beq_iff_eq, holdsAddr_iff, hv, or_assoc, and_assoc]

/-- The identity an attached slot keeps (R8, step 2). -/
theorem sameIdentity_iff (x y : Tester) : sameIdentity x y = true ↔ x.kind = y.kind
    ∧ (y.kind = .bus → x.tbAddr = y.tbAddr) ∧ (y.kind = .relay → x.relayId = y.relayId ∧ x.vehicle = y.vehicle)
    ∧ (y.kind = .job → x.jobCtx = y.jobCtx ∧ x.vehicle = y.vehicle) := by
  simp only [sameIdentity, Bool.and_eq_true, beq_iff_eq]
  cases hk : y.kind <;> simp

/-- The running job that bars a detachment (R12). -/
theorem jobBusy_iff (s : State) (x : Tester) : jobBusy s x = true ↔
    x.kind = .job ∧ ∃ j : JobIx, j.val = x.jobCtx.toNat ∧ (s.flow.jobs.get j).state ≠ .idle := by
  simp only [jobBusy, Bool.and_eq_true, beq_iff_eq]
  cases h : asIx 4 x.jobCtx.toNat with
  | none =>
    simp only [Bool.false_eq_true, and_false, false_iff, not_and, not_exists]
    intro _ j hj
    have := (asIx_some 4 x.jobCtx.toNat j).2 hj
    rw [h] at this; cases this
  | some j =>
    have hj := (asIx_some 4 _ _).1 h
    simp only [Job.active, bne_iff_ne]
    constructor
    · rintro ⟨a, b⟩; exact ⟨a, j, hj, b⟩
    · rintro ⟨a, i, hi, b⟩
      have : i = j := Fin.ext (hi.trans hj.symm)
      exact ⟨a, this ▸ b⟩

/-- The drain conditions (R197, R154). -/
theorem drained_iff (f : Flow) : drained f = true ↔ (∀ i, f.entries.get i = none) ∧ (∀ e, (f.claims.get e).state = .free)
    ∧ (f.port .tb).tx = none ∧ ∀ v, (f.port (.vb v)).tx = none ∧ ∀ c, f.ctx (.vb v) c = none := by
  have h1 : f.entries.toList.all Option.isNone = true ↔ ∀ i, f.entries.get i = none := by
    simp only [List.all_eq_true]
    constructor
    · intro h i
      have := h (f.entries.get i) (by simp [Vector.get])
      simpa using this
    · intro h o ho
      obtain ⟨i, hi, rfl⟩ := List.getElem_of_mem ho
      rw [Vector.length_toList] at hi
      have := h ⟨i, hi⟩
      simp [Vector.get] at this
      simpa using this
  have h2 : f.claims.toList.all (fun c => c.state == .free) = true ↔ ∀ e, (f.claims.get e).state = .free := by
    simp only [List.all_eq_true]
    constructor
    · intro h i
      have := h (f.claims.get i) (by simp [Vector.get])
      simpa using this
    · intro h o ho
      obtain ⟨i, hi, rfl⟩ := List.getElem_of_mem ho
      rw [Vector.length_toList] at hi
      have := h ⟨i, hi⟩
      simp [Vector.get] at this
      simpa using this
  have h3 : ∀ p, (f.port p).ctxs.toList.all Option.isNone = true ↔ ∀ c, f.ctx p c = none := by
    intro p
    simp only [List.all_eq_true]
    constructor
    · intro h i
      have := h ((f.port p).ctxs.get i) (by simp [Vector.get])
      simpa [Flow.ctx] using this
    · intro h o ho
      obtain ⟨i, hi, rfl⟩ := List.getElem_of_mem ho
      rw [Vector.length_toList] at hi
      have := h ⟨i, hi⟩
      simp [Flow.ctx, Vector.get] at this
      simpa using this
  simp only [drained, portsDrained, Flow.txIdle, Bool.and_eq_true, h1, h2, h3, List.all_eq_true, List.mem_finRange, true_implies,
    Option.isNone_iff_eq_none, and_assoc]

/-- The codes of refusal reasons, release causes, close outcomes and claim events (R2, R121, R136, R210, R211). -/
theorem code_bytes : ([Reason.noEcu, .noGrant, .suspended, .condition, .claimed, .closing, .heldTooLong, .timeout, .overflow, .stopping,
      .malformed, .barred, .noRoom, .undelivered].map Reason.byte = [1, 2, 3, 4, 5, 6, 7, 8, 9, 10, 11, 12, 13, 14])
    ∧ [ReleaseCause.holdOff, .order, .detach, .jobEnd, .support, .stopping].map ReleaseCause.byte = [0, 1, 2, 3, 4, 5]
    ∧ [CloseOutcome.noOutcome, .empty, .answered, .noAnswer, .undelivered].map CloseOutcome.byte = [0, 1, 2, 3, 4]
    ∧ [ClaimEvent.taken, .raised, .halted, .resumed, .released, .freed].map ClaimEvent.byte = [0, 1, 2, 3, 4, 5] := by decide

/-- An outbound record (R204, R211). -/
theorem relayOutBytes_eq (t : Tables) (k : Slot) (it : Item) :
    let kind : Byte := match it.body with
      | .response _ => 0
      | .refusal _ => 1
      | .interim _ => 2
    let size := it.body.content.1
    let pay := it.body.content.2
    relayOutBytes t k it = [(t.testers.get k).relayId, it.source, kind, (it.ecu.map ixByte).getD 0xFF]
      ++ leBytes 2 size ++ [0, 0] ++ pay ++ List.replicate ((4 - pay.length % 4) % 4) 0 := by
  intro kind size pay
  simp only [relayOutBytes, pad4, zeros, List.append_assoc]
  congr 1
  · cases it.ecu <;> simp [orOnes] <;> cases hb : it.body <;> simp [ItemBody.kindByte, kind, hb]

/-- Where the relay channel goes after a record (R203). -/
theorem relayAdvance_eq (r : Ring) (f : Flow) (n len : Nat) (last : Bool) : f.relayIn.count = some n →
    (last = true ∨ n ≤ f.relayIn.record + 1 → relayAdvance r f len last = relayPages r (r.pages + 1) (relayPageDone r f))
    ∧ (last = false → f.relayIn.record + 1 < n → relayAdvance r f len last = { f with relayIn := { f.relayIn with
        record := f.relayIn.record + 1, offset := f.relayIn.offset + (4 + len + 3) / 4 * 4, stop := none } }) := by
  intro h
  simp only [relayAdvance, h, Option.getD_some, round4]
  constructor
  · intro h; rw [if_pos]; simpa using h
  · intro h1 h2; rw [if_neg]; simp [h1]; omega

/-- The inbound record at the position of the relay channel (R203, R211). -/
theorem relayRecordAt_eq (r : Ring) (f : Flow) :
    let o := f.relayIn.offset
    let a := r.leaf + 16 + f.relayIn.page * r.size + o
    let h := ramRead f.ram a 4
    let len := numAt h 2 2
    (r.size < o + 4 → relayRecordAt r f = none)
    ∧ (o + 4 ≤ r.size → ∃ x, relayRecordAt r f = some x ∧ x.ident = byteAt h 0 ∧ x.target = byteAt h 1 ∧ x.length = len
      ∧ (x.malformed = true ↔ len = 0 ∨ 2048 < len ∨ r.size < o + 4 + len)
      ∧ x.code = (if len = 0 ∨ r.size ≤ o + 4 then 0 else ramByte f.ram ((a + 4) % 2 ^ 32))
      ∧ x.payload = (if x.malformed then [] else ramRead f.ram (a + 4) len)) := by
  intro o a h len
  have ha : r.pageAddr f.relayIn.page + f.relayIn.offset = a := by
    simp [Ring.pageAddr, a, o]
  simp only [relayRecordAt, ha]
  constructor
  · intro h'; rw [if_pos h']
  · intro h'
    rw [if_neg (by omega)]
    exact ⟨_, rfl, rfl, rfl, rfl, by simp [badLength, or_assoc]; rfl, rfl, rfl⟩

/-- The step a job reads from the pool (R161, R163, R209, R212). -/
theorem readStep_eq (t : Tables) (f : Flow) (j : JobIx) (p : Pool) : t.dir.bind (·.pool) = some p →
    let b := f.jobs.get j
    let n := b.listStart + b.cur
    let bs := ramRead f.ram (p.leaf + 32 * n) 32
    let kind : Option StepKind := [none, some .send, some .rep, some .waitTime, some .waitCondition, some .sync,
      some .fin].getD (byteAt bs 0).toNat none
    let guard : Option Guard :=
      [some .always, some .ifPositive, some .ifNegative, some .ifNotPositive].getD (byteAt bs 1).toNat none
    let inSpan := ∃ r, b.rep = some r ∧ r.start ≤ b.cur ∧ b.cur < r.start + r.span
    (n = 0 ∨ kind = none ∨ guard = none ∨ inSpan ∧ (kind = some .rep ∨ kind = some .fin) → readStep t f j = .bad)
    ∧ (∀ k g, n ≠ 0 → kind = some k → guard = some g → ¬(inSpan ∧ (k = .rep ∨ k = .fin)) →
      readStep t f j = .step k g bs) := by
  intro hp b n bs kind guard inSpan
  have hk : getStepKind (byteAt bs 0) = kind := by
    simp only [kind, getStepKind]
    have := (byteAt bs 0).isLt
    generalize (byteAt bs 0).toNat = m at *
    match m with
    | 0 | 1 | 2 | 3 | 4 | 5 | 6 => rfl
    | m + 7 => simp
  have hg : getGuard (byteAt bs 1) = guard := by
    simp only [guard, getGuard]
    generalize (byteAt bs 1).toNat = m at *
    match m with
    | 0 | 1 | 2 | 3 => rfl
    | m + 4 => simp
  have hs : b.inSpan = true ↔ inSpan := by
    simp only [Job.inSpan, inSpan]
    cases b.rep <;> simp
  have hr : readStep t f j = judgeStep b bs := by simp [readStep, poolBytes, hp, bs, b, n]
  rw [hr]
  simp only [judgeStep, hk, hg]
  constructor
  · intro h
    by_cases h0 : b.listStart + b.cur = 0
    · rw [if_pos h0]
    rw [if_neg h0]
    rcases h with h | h | h | ⟨h1, h2⟩
    · exact absurd h h0
    · rw [h]
    · rw [h]; cases kind <;> rfl
    · cases hkk : kind with
      | none => rfl
      | some k => cases guard with
        | none => rfl
        | some g =>
          simp only
          rw [if_pos]
          rw [hkk] at h2
          simpa [hs.2 h1] using h2
  · intro k g h0 h1 h2 h3
    rw [if_neg h0, h1, h2]
    simp only
    rw [if_neg]
    simpa [hs] using h3

/-- When a guard holds (R162). -/
theorem guard_holds_iff (v : Verdict) : Guard.holds .always v = true ∧ (Guard.holds .ifPositive v = true ↔ v = .positive)
    ∧ (Guard.holds .ifNegative v = true ↔ v = .negative) ∧ (Guard.holds .ifNotPositive v = true ↔ v ≠ .positive) := by
  cases v <;> simp [Guard.holds]

/-- The data bytes of the frames the part sends (R216). -/
theorem sentData_eq : (∀ pay : List Byte, singleData pay = BitVec.ofNat 8 pay.length :: pay)
    ∧ (∀ pay : List Byte, 8 ≤ pay.length → pay.length ≤ 2048 → openData pay = BitVec.ofNat 8 (16 + (pay.length - 1) / 256)
      :: BitVec.ofNat 8 ((pay.length - 1) % 256) :: pay.take 6)
    ∧ (∀ (pay : List Byte) (k : Nat), nextData pay k = BitVec.ofNat 8 (32 + (k + 1) % 16) :: (pay.drop (6 + 7 * k)).take 7)
    ∧ (∀ n, grantData n = [0x30, BitVec.ofNat 8 n]) ∧ stallData = [0x31] ∧ doneData = [0x32]
    ∧ [AbortReason.noRoom, .notExpected, .sequence, .timeout, .busy].map abortData
      = [[0x40, 1], [0x40, 2], [0x40, 3], [0x40, 4], [0x40, 5]] := by
  refine ⟨fun _ => rfl, fun pay h h' => ?_, fun _ _ => rfl, fun _ => rfl, rfl, rfl, by decide⟩
  simp only [openData]
  have : BitVec.ofNat 8 (pay.length - 1) = BitVec.ofNat 8 ((pay.length - 1) % 256) := by
    apply BitVec.eq_of_toNat_eq; simp
  rw [this]

/-- The body of a frame with data, by its first nibble (R140, R216). -/
theorem frBody_eq (id : BitVec 29) (b : Byte) (rest : List Byte) :
    let lo := b.toNat % 16
    let hi := b.toNat / 16
    let body := frBody { id := id, data := b :: rest }
    let openLen := b.toNat % 8 * 256 + (rest.headD 0).toNat + 1
    (hi = 0 → body = if 8 ≤ lo ∨ rest.length < lo then none else some (.single lo (rest.take lo)))
    ∧ (hi = 1 → body = if rest.length < 1 + min 6 openLen then none
        else some (.openMsg openLen ((rest.drop 1).take (min 6 openLen))))
    ∧ (hi = 2 → body = if rest = [] then none else some (.next (BitVec.ofNat 4 lo) rest))
    ∧ (hi = 3 → body = if lo = 0 then (if rest = [] ∨ (rest.headD 0).toNat = 0 ∨ 63 < (rest.headD 0).toNat then none
          else some (.grant (rest.headD 0).toNat))
        else if lo = 1 then some .stall else if lo = 2 then some .done else none)
    ∧ (hi = 4 → body = if rest = [] then none else some .abort)
    ∧ (5 ≤ hi → body = none) := by
  intro lo hi body openLen
  have hlo : (b.extractLsb' 0 4).toNat = lo := by simp [BitVec.extractLsb'_toNat, lo]
  have hl3 : (b.extractLsb' 0 3).toNat = b.toNat % 8 := by simp [BitVec.extractLsb'_toNat]
  have hhi : (b.extractLsb' 4 4).toNat = hi := by
    have := b.isLt
    simp [BitVec.extractLsb'_toNat, hi, Nat.shiftRight_eq_div_pow]; omega
  have hlv : b.extractLsb' 0 4 = BitVec.ofNat 4 lo := by
    apply BitVec.eq_of_toNat_eq; rw [hlo]; simp [lo]
  simp only [body, frBody, hl3, hhi, hlv]
  refine ⟨?_, ?_, ?_, ?_, ?_, ?_⟩
  · intro h
    rw [h]; simp only
    have : (BitVec.ofNat 4 lo).toNat = lo := by simp [lo]
    simp only [this]
    by_cases hc : 8 ≤ lo ∨ rest.length < lo
    · rw [if_pos hc, if_pos (by omega)]
    · rw [if_neg hc, if_neg (by omega)]
  · intro h
    rw [h]; simp only
    cases rest with
    | nil => simp
    | cons c pay =>
      simp only [openLen, List.headD_cons, List.length_cons, List.drop_succ_cons, List.drop_zero]
      by_cases hc : pay.length < min 6 (b.toNat % 8 * 256 + c.toNat + 1)
      · rw [if_pos hc, if_pos (by omega)]
      · rw [if_neg hc, if_neg (by omega)]
  · intro h; rw [h]; rfl
  · intro h; rw [h]; simp only
    have : (BitVec.ofNat 4 lo).toNat = lo := by simp [lo]
    simp only [this]
    have hlt : lo < 16 := Nat.mod_lt _ (by decide)
    generalize lo = m at *
    match m with
    | 0 => cases rest <;> simp
    | 1 => simp
    | 2 => simp
    | m + 3 => simp
  · intro h; rw [h]; rfl
  · intro h
    have : hi < 16 := by have := b.isLt; simp only [hi]; omega
    generalize hi = m at *
    match m with
    | m + 5 => rfl

/-- A frame without data is dropped (R140). -/
theorem frBody_nil (id : BitVec 29) : frBody { id := id, data := [] } = none := rfl

/-- A SINGLE of length 0 on a VB port is dropped (R153). -/
theorem single_zero_vb (v : VbIx) (f : Frame) (s : State) (pay : List Byte) : frBody f = some (.single 0 pay) →
    exec (.singleFrame (.vb v) f) s = .next s := by
  intro h
  simp only [exec, execSingleFrame, received]
  split
  · next heq =>
    split at heq
    · rw [h] at heq; cases heq
      rfl
    · cases heq
  · rfl

/-- Without a step pool every step is bad (R160, R161). -/
theorem readStep_noPool (t : Tables) (f : Flow) (j : JobIx) : t.dir.bind (·.pool) = none → readStep t f j = .bad := by
  intro h
  simp only [readStep, poolBytes, h, judgeStep]
  split <;> rfl

/-! ### The answer that ends a closing -/

/-- Capture reaches no port. -/
theorem captureRoom_ports (t : Tables) (f : Flow) (n : Nat) : (captureRoom t f n).2.ports = f.ports := by
  simp only [captureRoom]; split <;> rfl

/-- A written record reaches no port. -/
theorem captureWrite_ports (t : Tables) (f : Flow) (c : CaptureRecord) : (captureWrite t f c).ports = f.ports := by
  simp only [captureWrite]; split
  · rfl
  · split <;> rfl

/-- A lost record reaches no port. -/
theorem captureLost_ports (f : Flow) : (captureLost f).ports = f.ports := rfl

/-- An event record reaches no port. -/
theorem event_ports (t : Tables) (n : Nat) (f : Flow) (c : CaptureRecord) : (event t n f c).ports = f.ports := by
  simp only [event, captureOffer]
  split
  · split
    · split
      · rw [captureWrite_ports, captureRoom_ports]
      · rw [captureLost_ports, captureRoom_ports]
    · split
      · rw [captureLost_ports, captureRoom_ports]
      · split
        · rw [captureWrite_ports, captureRoom_ports]
        · rfl
  · rfl

/-- The end of an order reaches no port. -/
theorem orderDone_ports (t : Tables) (f : Flow) (n : Nat) (r : OrderResult) (d : List Byte) :
    (orderDone t f n r d).ports = f.ports := by
  simp only [orderDone]; split <;> rfl

/-- Passing a close buffer on reaches no port. -/
theorem passBuffer_ports (t : Tables) (f : Flow) (e : EcuIx) : (passBuffer t f e).ports = f.ports := by
  unfold passBuffer; simp only; split
  · rfl
  · split
    · split <;> rfl
    · rfl

/-- The end of a closing reaches no port. -/
theorem closeEnd_ports (t : Tables) (n : Nat) (f : Flow) (e : EcuIx) (o : CloseOutcome) (a : Option Byte) :
    (closeEnd t n f e o a).ports = f.ports := by
  have h : ∀ (l : List ReleaseWait) (d : List Byte) (g : Flow),
      (l.foldl (fun g w => orderDone t g w.orderSlot .ok d) g).ports = g.ports := by
    intro l d
    induction l with
    | nil => intro g; rfl
    | cons w l ih => intro g; rw [List.foldl_cons, ih, orderDone_ports]
  rw [closeEnd_eq]
  simp only [claimChanged, claimReport, event_ports, Flow.setNews_ports, Flow.markHeads_ports, h, passBuffer_ports]
  rfl

/-- What is read of contexts rests on the ports alone. -/
theorem findCtx_of_ports {f g : Flow} (h : f.ports = g.ports) (p : PortId) (a b : Byte) :
    f.findCtx p a b = g.findCtx p a b ∧ f.freeCtx p = g.freeCtx p ∧ ∀ c, f.ctx p c = g.ctx p c := by
  have : ∀ p, f.port p = g.port p := by intro p; simp [Flow.port, h]
  simp [Flow.findCtx, Flow.freeCtx, Flow.ctx, this]

/-- The rest of an answer to a closing (R132, R153). -/
theorem act_seek_close (t : Tables) (f : Flow) (v : VbIx) (i : Option CtxIx) (fr : FirstFrame) (e : EcuIx) :
    fr.owner = .close e →
    let next := act t (.seek (.vb v) i fr) f
    let answer := fun (g : Flow) (o : FrameOwner) (d : List Byte) => pushControl t g (.vb v) o fr.source fr.target d
    let free := match i with
      | none => f.freeCtx (.vb v)
      | some c => if f.ctx (.vb v) c = none then some c else none
    (fr.single = true → next = (f, []))
    ∧ (fr.single = false → fr.length ≤ 6 → next = (answer f .nobody [0x32], []))
    ∧ (fr.single = false → 6 < fr.length →
      (free = none → next = (answer f .nobody [0x40, 5], []))
      ∧ ∀ c, free = some c →
        let granted := min (t.port (.vb v)).window ((fr.length - 6 + 6) / 7)
        next = (answer (f.putCtx (.vb v) c (some { fr.ctx with
          granted, timer := .gap (after t.now (t.port (.vb v)).gap) })) (.context c) [0x30, BitVec.ofNat 8 granted], [])) := by
  intro ho next answer free
  have hn : next = seekClose t f (.vb v) i fr := by simp [next, act, seekRoom, ho]
  have hf : waitCtx f (.vb v) i = free := by
    simp only [waitCtx, free]; cases i <;> simp
  rw [hn]
  simp only [seekClose, hf]
  refine ⟨fun h => by rw [if_pos h], fun h h' => ?_, fun h h' => ⟨fun hn => ?_, fun c hc => ?_⟩⟩
  · rw [if_neg (by simp [h]), if_pos (by unfold segmentsFor; omega)]; rfl
  · rw [if_neg (by simp [h]), if_neg (by unfold segmentsFor; omega), hn]; rfl
  · rw [if_neg (by simp [h]), if_neg (by unfold segmentsFor; omega), hc]
    simp [sendGrant, FirstFrame.ctx, h, answer, segmentsFor, grantData]

/-- The frame that answers a closing (R132, R153). -/
theorem closeAnswer_eq (v : VbIx) (f : Frame) (s : State) (n : Nat) (pay : List Byte) (single : Bool) (e : EcuIx) :
    accepts s.tab s.flow (.vb v) f = true → 0 < n →
    frBody f = some (if single then .single n pay else .openMsg n pay) →
    frTarget f = (s.tab.port (.vb v)).node → portEcu s.tab v (frSource f) = some e →
    (s.flow.claims.get e).state = .closing → (s.flow.claims.get e).phase = some .awaiting →
    let cmd : Instr := if single then .singleFrame (.vb v) f else .openFrame (.vb v) f
    let ended := closeEnd s.tab 0 s.flow e .answered (some (firstByte pay))
    let free := s.flow.freeCtx (.vb v)
    let fr : FirstFrame :=
      { source := frSource f, target := frTarget f, owner := .close e, hold := true, single, length := n
        malformed := false, code := firstByte pay, bytes := pay, place := false }
    (s.flow.findCtx (.vb v) (frSource f) (frTarget f) = none →
      (single = true → exec cmd s = .next (s.withFlow ended))
      ∧ (single = false → free = none → exec cmd s = .next (s.withFlow
        (pushControl s.tab ended (.vb v) .nobody (frSource f) (frTarget f) [0x40, 5])))
      ∧ (single = false → free ≠ none → exec cmd s = .next ((s.withFlow ended).run [.seek (.vb v) free fr])))
    ∧ (∀ c x, s.flow.findCtx (.vb v) (frSource f) (frTarget f) = some c → s.flow.ctx (.vb v) c = some x →
      let freed : List Act := match x.charge with
        | none => []
        | some h => [.release h]
      exec cmd s = .next ((s.withFlow (dropContext ended (.vb v) c)).run
        (freed ++ [.seek (.vb v) (some c) { fr with place := x.place }]))) := by
  intro ha hn hb ht hp hs hph cmd ended free fr
  have hpay : pay ≠ [] := by
    rintro rfl
    unfold frBody at hb
    cases hd : f.data with
    | nil => rw [hd] at hb; cases single <;> simp at hb
    | cons b rest =>
      rw [hd] at hb
      simp only at hb
      split at hb
      · split at hb
        · cases single <;> simp at hb
        · next h =>
          cases single <;> simp at hb
          have h1 := hb.1
          rcases hb.2 with h2 | h2
          · omega
          · subst h2; simp at h; omega
      · cases rest with
        | nil => cases single <;> simp at hb
        | cons c p =>
          simp only at hb
          split at hb
          · cases single <;> simp at hb
          · next h =>
            cases single with
            | true => cases hb
            | false =>
              simp only [Bool.false_eq_true, if_false, Option.some.injEq, FrameBody.openMsg.injEq] at hb
              have h2 := congrArg List.length hb.2
              rw [List.length_take, List.length_nil] at h2
              omega
      · split at hb <;> cases single <;> simp at hb
      · split at hb
        · split at hb <;> cases single <;> simp at hb
        · cases single <;> simp at hb
        · cases single <;> simp at hb
        · cases single <;> simp at hb
      · split at hb <;> cases single <;> simp at hb
      · cases single <;> simp at hb
  have hh : pay.head? = some (firstByte pay) := by
    cases pay with
    | nil => exact absurd rfl hpay
    | cons b r => rfl
  have hx : exec cmd s = .next (s.withFlow (settled s.tab (takeFirst s.tab ended (.vb v) fr id))) := by
    have h1 : firstFrame s.tab s.flow (.vb v) f single n pay = takeFirst s.tab ended (.vb v) fr id := by
      simp only [firstFrame, vbAnswer, hp, ht, if_neg (Nat.pos_iff_ne_zero.1 hn)]
      simp [Claim.awaitsAnswer, hs, hph, hh, ended, fr, ht]
    cases single with
    | true => simp only [cmd, if_true, exec, execSingleFrame, received, ha, hb, h1]
    | false => simp only [cmd, exec, execOpenFrame, received, ha, hb, h1, Bool.false_eq_true, if_false, if_true]
  have hc := findCtx_of_ports (closeEnd_ports s.tab 0 s.flow e .answered (some (firstByte pay))) (.vb v) (frSource f) (frTarget f)
  rw [hx]
  constructor
  · intro hnone
    have h1 : ended.findCtx (.vb v) fr.source fr.target = none := hc.1.trans hnone
    have h2 : ended.freeCtx (.vb v) = free := hc.2.1
    refine ⟨fun h => ?_, fun h hf => ?_, fun h hf => ?_⟩
    · subst h
      simp only [takeFirst, restart, id, h1, fr]
      rfl
    · subst h
      simp only [takeFirst, h1, h2, hf, fr]; rfl
    · subst h
      cases hfr : free with
      | none => exact absurd hfr hf
      | some c =>
        simp only [takeFirst, restart, id, h1, h2, hfr, fr]; rfl
  · intro c x h1 h2 freed
    have h1' : ended.findCtx (.vb v) fr.source fr.target = some c := hc.1.trans h1
    have h2' : ended.ctx (.vb v) c = some x := (hc.2.2 c).trans h2
    simp only [takeFirst, restart, id, h1', h2']
    cases single <;> simp [fr, freed, State.run, settled, State.withFlow] <;> cases x.charge <;> rfl

/-- A refusal in place of a response under a probe that is not binding (R111). -/
theorem entryRefused_nonbinding (t : Tables) (f : Flow) (i : EntryIx) (x : Entry) (r : Reason) (p : ProbeIx) : f.entries.get i = some x →
    x.state = .sending ∨ x.state = .awaiting ∨ x.state = .receiving →
    governing t .refusal x.slot (some x.ecu) (some x.cls) = some p → (t.probes.get p).binding = false →
    act t (.refuseEntry i r) f = (entryEnd t (captureOffer t f
      (refusalRecord t x.slot (some x.ecu) (some x.cls) x.code (some x.grant) r none (probeTerms t p))) i,
      [Act.placeItem x.slot (.refusal [t.marker, x.code, r.byte]) (t.ecus.get x.ecu).node (some x.ecu) (.entry x.ecu)]) := by
  intro h hs hg hb
  rcases hs with hs | hs | hs <;> simp [act, entryRefused, h, hs, captureRefusal, hg, hb, entryItem, refusalBytes]

/-! ### NEXT frames that store nothing -/

/-- Whether a NEXT is the one a context expects (R147). -/
theorem Ctx.expects_iff (x : Ctx) (index : BitVec 4) :
    x.expects index = true ↔ x.wait = .noWait ∧ 0 < x.granted ∧ x.index = index := by
  simp [Ctx.expects, Nat.pos_iff_ne_zero, and_assoc]

/-- A short NEXT is dropped, and one out of order or not granted abandons its context (R140, R147, R216). -/
theorem nextFrame_stores_nothing (p : PortId) (f : Frame) (s : State) (index : BitVec 4) (bytes : List Byte) (c : CtxIx)
    (x : Ctx) : accepts s.tab s.flow p f = true → frBody f = some (.next index bytes) →
    (p = .tb → (busSlot s.tab (frSource f)).isSome) → s.flow.findCtx p (frSource f) (frTarget f) = some c →
    s.flow.ctx p c = some x →
    let size := min 7 (x.length - 6 - 7 * x.received)
    let inOrder := x.wait = .noWait ∧ 0 < x.granted ∧ x.index = index
    let called := if x.segments = 0 then 0
      else if index = BitVec.ofNat 4 x.segments then x.length - 6 - 7 * (x.segments - 1) else 7
    (inOrder → bytes.length < size → exec (.nextFrame p f) s = .next s)
    ∧ (¬inOrder → bytes.length < called → exec (.nextFrame p f) s = .next s)
    ∧ (¬inOrder → called ≤ bytes.length →
      let a := abandonCtx (pushControl s.tab s.flow p .nobody x.source x.target [0x40, 3]) p c false
      exec (.nextFrame p f) s = .next ((s.withFlow a.1).run a.2)) := by
  intro ha hb hbus hc hx size inOrder called
  have hin : x.expects index = true ↔ inOrder := x.expects_iff index
  have hex : exec (.nextFrame p f) s = .next (s.withFlow (settled s.tab
      (if bytes.length < x.calledFor index then (s.flow, []) else nextSegment s.tab s.flow p c x index bytes))) := by
    have hfrom : nextFrom s.tab s.flow p f index bytes = nextTaken s.tab s.flow p f index bytes := by
      cases p with
      | vb v => rfl
      | tb =>
        obtain ⟨k, hk⟩ := Option.isSome_iff_exists.1 (hbus rfl)
        simp only [nextFrom, hk]
    simp only [exec, execNextFrame, received, ha, hb, if_true, hfrom, nextTaken, hc, hx]
  have hstay : s.withFlow (settled s.tab (s.flow, [])) = s := rfl
  rw [hex]
  refine ⟨fun h hl => ?_, fun h hl => ?_, fun h hl => ?_⟩
  · have : x.calledFor index = size := by rw [Ctx.calledFor, if_pos (hin.2 h)]; rfl
    rw [if_pos (by omega), hstay]
  · have : x.calledFor index = called := by rw [Ctx.calledFor, if_neg (fun e => h (hin.1 e))]
    rw [if_pos (by omega), hstay]
  · have : x.calledFor index = called := by rw [Ctx.calledFor, if_neg (fun e => h (hin.1 e))]
    rw [if_neg (by omega), nextSegment, if_neg (fun e => h (hin.1 e))]
    rfl

end Sys2Proof.Machine
end

