-- ==== Sys2Proof/Laws/Snapshot.lean ====
section
/-! SUPPORT. What stands at each offset of the counter block and of the table snapshot (R205, R206, R214, R215). -/

namespace Sys2Proof.Machine

/-! ### Slices -/

/-- `n` bytes from an offset on. -/
theorem slice_mid {α : Type} {pre mid post : List α} {o n m : Nat} (h : pre.length = m) (hn : o + n ≤ mid.length) :
    ((pre ++ (mid ++ post)).drop (m + o)).take n = (mid.drop o).take n := by
  subst h
  rw [List.drop_append, List.drop_eq_nil_of_le (by omega), List.nil_append, Nat.add_sub_cancel_left, List.drop_append,
    List.take_append_of_le_length (by rw [List.length_drop]; omega)]

/-- A padded record has its size. -/
@[simp] theorem length_sized (n : Nat) (l : List Byte) : (sized n l).length = n := by simp [sized, zeros]

/-- The size of a section of records. -/
@[simp] theorem length_rows {α : Type} (n : Nat) (f : α → List Byte) : ∀ xs : List α, (rows n f xs).length = n * xs.length
  | [] => rfl
  | x :: xs => by
    have := length_rows n f xs
    simp only [rows, List.flatMap_cons, List.length_append, length_sized, List.length_cons, Nat.mul_succ] at *
    omega

/-- A record that fits its size is padded with zeros. -/
theorem sized_eq {n : Nat} {l : List Byte} (h : l.length ≤ n) : sized n l = l ++ List.replicate (n - l.length) 0 := by
  rw [sized, zeros, List.take_append, List.take_of_length_le h, List.take_replicate]
  congr 2; omega

/-- The record of a row. -/
theorem rows_slice {α : Type} (n : Nat) (f : α → List Byte) : ∀ (xs : List α) (i : Nat) (h : i < xs.length),
    ((rows n f xs).drop (n * i)).take n = sized n (f xs[i])
  | x :: xs, 0, _ => by
    simp only [rows, List.flatMap_cons, Nat.mul_zero, List.drop_zero]
    rw [List.take_append_of_le_length (by simp), List.take_of_length_le (by simp)]; rfl
  | x :: xs, i + 1, h => by
    simp only [rows, List.flatMap_cons]
    rw [List.drop_append, List.drop_eq_nil_of_le (by simp [Nat.mul_succ]), List.nil_append, length_sized, Nat.mul_succ,
      Nat.add_sub_cancel]
    exact rows_slice n f xs i (Nat.lt_of_succ_lt_succ h)

/-- A row in the middle. -/
theorem slice_row {α : Type} {pre post : List Byte} {n m : Nat} {f : α → List Byte} {xs : List α} (i : Nat) (h : pre.length = m)
    (hi : i < xs.length) : ((pre ++ (rows n f xs ++ post)).drop (m + n * i)).take n = sized n (f xs[i]) := by
  rw [slice_mid h (by rw [length_rows, ← Nat.mul_succ]; exact Nat.mul_le_mul_left _ hi), rows_slice _ _ _ _ hi]

/-- A whole block in the middle. -/
theorem slice_block {α : Type} {pre mid post : List α} {m n : Nat} (h : pre.length = m) (hn : mid.length = n) :
    ((pre ++ (mid ++ post)).drop m).take n = mid := by
  have := slice_mid (pre := pre) (mid := mid) (post := post) (o := 0) (n := n) h (by omega)
  rw [Nat.add_zero, List.drop_zero] at this
  rw [this, ← hn, List.take_length]

/-- A 32-bit figure takes 4 bytes. -/
@[simp] theorem length_wordBytes (w : Word) : (wordBytes w).length = 4 := by simp [wordBytes]

/-- The counter block, field by field (R205, R214). -/
theorem counterBytes_eq (t : Tables) (f : Flow) :
    let bs := counterBytes t f
    let at_ := fun n o : Nat => (bs.drop o).take n
    let words := fun l : List Word => l.flatMap fun w => leBytes 4 w.toNat
    bs.length = 908 ∧ at_ 4 0 = leBytes 4 t.now.toNat
    ∧ (∀ k : Slot, let x := f.slots.get k
      at_ 16 (4 + 16 * k.val) = words [x.admitted, x.refused, x.heldTooLong, x.deliveryFails])
    ∧ (∀ e : EcuIx, let x := f.ecuCounts.get e
      at_ 20 (260 + 20 * e.val) = words [x.forwarded, x.responses, x.timeouts, x.strays, x.sendFailures])
    ∧ at_ 4 900 = leBytes 4 f.tbUnknown.toNat ∧ at_ 4 904 = leBytes 4 f.relayUnknown.toNat := by
  intro bs at_ words
  have hb : bs = wordBytes t.now ++ (rows 16 slotCounters f.slots.toList ++ (rows 20 ecuCounters f.ecuCounts.toList
    ++ (wordBytes f.tbUnknown ++ wordBytes f.relayUnknown))) := by
    simp only [bs, counterBytes, List.append_assoc]
  have l1 : (rows 16 slotCounters f.slots.toList).length = 256 := by simp
  have l2 : (rows 20 ecuCounters f.ecuCounts.toList).length = 640 := by simp
  refine ⟨by rw [hb]; simp only [List.length_append, l1, l2, length_wordBytes], ?_, ?_, ?_, ?_, ?_⟩
  · simp only [at_, hb]
    exact slice_block (pre := []) rfl (length_wordBytes _)
  · intro k x
    simp only [at_, hb]
    rw [slice_row k.val (length_wordBytes _) (by simp), sized_eq (by simp [slotCounters])]
    simp [slotCounters, words, x, Vector.get, wordBytes]
  · intro e x
    simp only [at_, hb]
    rw [← List.append_assoc, slice_row (m := 260) e.val (by rw [List.length_append, l1, length_wordBytes]) (by simp),
      sized_eq (by simp [ecuCounters])]
    simp [ecuCounters, words, x, Vector.get, wordBytes]
  · simp only [at_, hb]
    rw [← List.append_assoc, ← List.append_assoc]
    exact slice_block (by simp only [List.length_append, l1, l2, length_wordBytes]) (length_wordBytes _)
  · simp only [at_, hb]
    rw [← List.append_assoc, ← List.append_assoc, ← List.append_assoc, ← List.append_nil (wordBytes f.relayUnknown)]
    exact slice_block (by simp only [List.length_append, l1, l2, length_wordBytes]) (length_wordBytes _)

/-- A section of a block made of sections of known lengths. -/
theorem slice_section {l : List (List Byte)} {lens : List Nat} (h : l.map List.length = lens) (k : Nat) {x : List Byte}
    (hx : l[k]? = some x) {m o n : Nat} (hm : (lens.take k).sum = m) (hn : o + n ≤ x.length) :
    (l.flatten.drop (m + o)).take n = (x.drop o).take n := by
  obtain ⟨hk, rfl⟩ := List.getElem?_eq_some_iff.mp hx
  have hsplit : l.flatten = (l.take k).flatten ++ (l[k] ++ (l.drop (k + 1)).flatten) := by
    rw [← List.flatten_cons, ← List.drop_eq_getElem_cons hk, ← List.flatten_append, List.take_append_drop]
  rw [hsplit]
  exact slice_mid (by rw [List.length_flatten, List.map_take, h, hm]) hn

/-- A whole section of such a block. -/
theorem slice_whole {l : List (List Byte)} {lens : List Nat} (h : l.map List.length = lens) (k : Nat) {x : List Byte}
    (hx : l[k]? = some x) {m n : Nat} (hm : (lens.take k).sum = m) (hn : x.length = n) : (l.flatten.drop m).take n = x := by
  have := slice_section h k hx (o := 0) (n := n) hm (by omega)
  rw [Nat.add_zero, List.drop_zero] at this
  rw [this, ← hn, List.take_length]

/-- A row of a section of such a block. -/
theorem slice_rows {α : Type} {l : List (List Byte)} {lens : List Nat} (h : l.map List.length = lens) (k : Nat) {n : Nat}
    {f : α → List Byte} {xs : List α} (hx : l[k]? = some (rows n f xs)) {m : Nat} (hm : (lens.take k).sum = m) (i : Nat)
    (hi : i < xs.length) : (l.flatten.drop (m + n * i)).take n = sized n (f xs[i]) := by
  rw [slice_section h k hx hm (by rw [length_rows, ← Nat.mul_succ]; exact Nat.mul_le_mul_left _ hi), rows_slice _ _ _ _ hi]

/-- A slice within the record of a row. -/
theorem rows_slice_within {α : Type} (n : Nat) (f : α → List Byte) (xs : List α) (i : Nat) (h : i < xs.length) {o k : Nat}
    (hk : o + k ≤ n) : ((rows n f xs).drop (n * i + o)).take k = ((sized n (f xs[i])).drop o).take k := by
  rw [← rows_slice n f xs i h, List.drop_take, List.take_take, List.drop_drop, Nat.min_eq_left (by omega)]

/-- The record of a port takes 108 bytes (R215). -/
@[simp] theorem length_portRecord (f : Flow) (p : PortId) : (portRecord f p).length = 108 := by simp [portRecord]

/-- The three parts of a port's record. -/
theorem portRecord_slices (f : Flow) (p : PortId) :
    (portRecord f p).take 8 = sized 8 (txRecord (f.port p).tx)
    ∧ (∀ c : CtxIx, ((portRecord f p).drop (8 + 12 * c.val)).take 12 = sized 12 (ctxRecord (f.ctx p c)))
    ∧ (portRecord f p).drop 104 = sized 4 [outboundByte f p] := by
  refine ⟨?_, fun c => ?_, ?_⟩
  · rw [portRecord, List.append_assoc, List.take_append_of_le_length (by simp), List.take_of_length_le (by simp)]
  · rw [portRecord, List.append_assoc, slice_row c.val (by simp) (by simp)]
    simp [Flow.ctx, Vector.get]
  · rw [portRecord, List.drop_append, List.drop_eq_nil_of_le (by simp)]
    simp

/-- The snapshot, section by section (R206, R215; logs 18, 30, 32, 33). -/
theorem snapshot_eq (s : State) :
    let t := s.tab
    let f := s.flow
    let bs := snapshot s
    let at_ := fun n o : Nat => (bs.drop o).take n
    let padded := fun (n : Nat) (l : List Byte) => l ++ List.replicate (n - l.length) (0 : Byte)
    let num := fun n : Nat => BitVec.ofNat 8 n
    let flag := fun b : Bool => if b then (1 : Byte) else 0
    let orOnes := fun b : Option Byte => b.getD 0xFF
    let time := fun d : Duration => leBytes 2 (d.count.toNat + 4096 * d.code.toNat)
    let left := fun d : Option Word => leBytes 4 (match d with
      | none => 0
      | some d => if (t.now - d).toNat < 2 ^ 31 then 0 else (d - t.now).toNat)
    bs.length = 4244 ∧ at_ 4 0 = leBytes 4 t.now.toNat ∧ at_ 4 0x1090 = leBytes 4 t.now.toNat
    ∧ (∀ i : GrantIx, let g := s.grants.get i
      at_ 24 (4 + 24 * i.val) = padded 24
        ([match g.state with | .free => 0 | .active => 1 | .suspended => 2 | .spent => 3 | .expired => 4, num g.slot.val]
        ++ leBytes 4 g.ecus.toNat ++ [num g.classes.toNat, num g.conds.toNat
        , match g.level with | .noClaim => 0 | .adjust => 1 | .program => 2]
        ++ time g.lifetime ++ leBytes 2 g.budget
        ++ (match g.life with
          | .unlimited => [0xFF, 0xFF, 0xFF, 0xFF]
          | .running d => left (some d)
          | .held n => leBytes 4 n)
        ++ leBytes 2 (g.left.getD 0)))
    ∧ (∀ e : EcuIx, let c := f.claims.get e
      at_ 20 (0x604 + 20 * e.val) = padded 20
        ([match c.state with | .free => 0 | .held => 1 | .halted => 2 | .closing => 3, num c.holder.val
        , match c.level with | .adjust => 0 | .program => 1, num c.guard.toNat]
        ++ left c.holdOff
        ++ [orOnes (c.cause.map ReleaseCause.byte)
        , match c.phase with
          | none => 0xFF
          | some .waitEntry => 0
          | some .waitBuffer => 1
          | some .sending => 2
          | some .awaiting => 3]
        ++ left c.closeDeadline ++ [c.outcome.byte, flag c.answer.isSome, orOnes c.answer]))
    ∧ (∀ v : VbIx, let x := f.vbs.get v
      at_ 36 (0x884 + 36 * v.val) = padded 36
        ([flag x.closeBuf.isSome, orOnes (x.closeBuf.map fun b => num b.ecu.val)]
        ++ ((x.closeList.map fun e : EcuIx => num e.val) ++ List.replicate 32 0xFF).take 32))
    ∧ (∀ i : EntryIx, at_ 16 (0x8F0 + 16 * i.val) = match f.entries.get i with
      | none => [0] ++ List.replicate 9 0xFF ++ List.replicate 5 0 ++ [0xFF]
      | some x => padded 16 ([1, num x.slot.val, num x.ecu.val, x.code, num x.cls.num
        , match x.cls with | .adjust | .program => 1 | _ => 0, num x.grant.val, flag x.binding]
        ++ (match x.state with
          | .sending => [0, 0xFF] | .awaiting => [1, 0xFF] | .receiving => [2, 0xFF] | .delivering => [3, 0xFF]
          | .orphaned .sending => [4, 0] | .orphaned .awaiting => [4, 1] | .orphaned .receiving => [4, 2])
        ++ left x.deadline ++ [num x.interims
        , match x.held with | none => 0xFF | some (.response _) => 0 | some (.refusal _ _) => 1]))
    ∧ (∀ k : Slot, at_ 3 (0xB70 + 3 * k.val) =
      [num (f.slots.get k).items.length
      , num (f.entries.toList.countP fun x => match x with
        | none => false
        | some x => x.slot == k && !x.state.isOrphan)
      , flag (f.slots.get k).held.isSome])
    ∧ (∀ i : CondIx, let c := t.conds.get i
      at_ 12 (0xBA0 + 12 * i.val) = padded 12
        ([flag c.raw, match c.qual with | .isFalse => 0 | .rising => 1 | .isTrue => 2 | .falling => 3
        , match c.qual with | .isTrue | .falling => 1 | _ => 0] ++ time c.rise ++ time c.fall ++ left c.deadline))
    ∧ at_ 8 0xBE8 = padded 8 (leBytes 2 s.rot.last ++ [flag s.rot.completed] ++ time s.rot.window
      ++ leBytes 2 s.rot.threshold)
    ∧ at_ 8 0xBF0 = padded 8 (leBytes 2 f.free ++ leBytes 2 (unusedReservation t f) ++ [num f.waiting.length])
    ∧ (∀ a : AccountIx, at_ 4 (0xBF8 + 4 * a.val) = leBytes 2 (f.usage.get a) ++ leBytes 2 (t.thresholds.get a))
    ∧ (∀ i < 37, at_ 12 (0xCC4 + 12 * i) = match f.waiting[i]? with
      | none => List.replicate 12 0
      | some w => padded 12
        ((match w.who with
          | .tbCtx c => [0, num c.val] | .vbCtx v c => [1, num (8 * v.val + c.val)] | .relay => [2, 0]
          | .job j => [3, num j.val])
        ++ [num w.slot.val, match w.grade with | .routine => 0 | .heavy => 1, num w.cells]
        ++ leBytes 4 (t.now - w.since).toNat))
    ∧ (∀ p : PortId, let o := 0xE80 + 108 * (match p with | .tb => 0 | .vb v => 1 + v.val)
      at_ 8 o = (match (f.port p).tx with
        | none => [1] ++ List.replicate 7 0xFF
        | some x => [0, match x.phase with | .first => 0 | .waitCredit => 1 | .run => 2 | .waitDone => 3, x.source, x.target]
          ++ leBytes 2 x.segments ++ leBytes 2 x.sent)
      ∧ (∀ c : CtxIx, at_ 12 (o + 8 + 12 * c.val) = padded 12 (match f.ctx p c with
        | none => [0] ++ List.replicate 8 0xFF
        | some x => [1, x.source, x.target] ++ leBytes 2 x.length ++ leBytes 2 x.received
          ++ [num x.stalls, match x.wait with | .noWait => 0 | _ => 1]))
      ∧ at_ 4 (o + 104) = [match p with | .tb => 0xFF | .vb v => num (f.vbs.get v).outbound.length, 0, 0, 0])
    ∧ at_ 96 0x1030 = padded 96
      ([num f.writer.pos, flag f.writer.page.isSome]
      ++ (match f.writer.page with
        | none => List.replicate 8 0xFF
        | some p => leBytes 2 p.used ++ leBytes 2 p.count ++ (match p.deadline with
          | none => [0xFF, 0xFF, 0xFF, 0xFF]
          | some d => leBytes 4 d.toNat))
      ++ leBytes 2 f.writer.seq.toNat ++ leBytes 2 f.writer.gap ++ [flag f.writer.blocked]
      ++ ((List.finRange 4).flatMap fun i =>
        let p := t.probes.get i
        [flag p.enabled, num p.dirs.toNat] ++ leBytes 2 p.slots.toNat ++ leBytes 4 p.ecus.toNat
          ++ [num p.classes.toNat, flag p.binding] ++ leBytes 2 p.limit)
      ++ [flag t.sampler.enabled] ++ leBytes 2 t.sampler.rate ++ [num t.sampler.classes.toNat]
      ++ leBytes 4 f.candidates.toNat ++ leBytes 4 f.samples.toNat ++ [flag t.eventCapture] ++ time t.captureFlush) := by
  intro t f bs at_ padded num flag orOnes time left
  have hw : ∀ w : Word, (wordBytes w).length = 4 := length_wordBytes
  let secs : List (List Byte) := [wordBytes t.now, rows 24 (grantRecord t.now) s.grants.toList,
    rows 20 (claimRecord t.now) f.claims.toList, rows 36 closeRecord f.vbs.toList, rows 16 (entryRecord t.now) f.entries.toList,
    rows 3 (placesRecord f) (List.finRange 16), rows 12 (conditionRecord t.now) t.conds.toList, sized 8 (rotationRecord s.rot),
    sized 8 (storeRecord t f), rows 4 (accountRecord t f) (List.finRange 51),
    sized (37 * 12) (rows 12 (waiterRecord t.now) f.waiting), rows 108 (portRecord f) allPorts,
    sized 96 (captureSection t f), wordBytes t.now]
  have hl : secs.map List.length = [4, 1536, 640, 108, 640, 48, 72, 8, 8, 204, 444, 432, 96, 4] := by
    simp [secs, allPorts]
  have hb : bs = secs.flatten := by
    simp only [bs, snapshot, secs, List.flatten_cons, List.flatten_nil, List.append_nil, List.append_assoc, t, f]
  have hpad : ∀ (n : Nat) (l : List Byte), l.length ≤ n → sized n l = padded n l := fun n l h => sized_eq h
  have hleft : ∀ d, leBytes 4 (msLeft t.now d) = left d := by
    intro d; cases d with
    | none => rfl
    | some d => simp only [left, msLeft, reached, decide_eq_true_eq]
  have hones : ∀ b : Option Byte, Machine.orOnes b = orOnes b := by intro b; cases b <;> rfl
  rw [show at_ = fun n o => (secs.flatten.drop o).take n by simp only [at_, hb]]
  have hg : ∀ {α : Type} {n : Nat} (v : Vector α n) (i : Fin n), v.toList[i.val]'(by simp) = v.get i := by
    intro α n v i; simp [Vector.get]
  refine ⟨by rw [hb, List.length_flatten, hl]; rfl, slice_whole hl 0 rfl rfl (hw _), slice_whole hl 13 rfl rfl (hw _),
    ?_, ?_, ?_, ?_, ?_, ?_, ?_, ?_, ?_, ?_, ?_, ?_⟩
  · intro i g
    show (secs.flatten.drop (4 + 24 * i.val)).take 24 = _
    rw [slice_rows hl 1 rfl (m := 4) rfl i.val (by simp), hg, hpad _ _ (by simp [grantRecord, Duration.bytes, lifeBytes]; cases (s.grants.get i).life <;> simp [ones])]
    congr 1
    simp only [grantRecord, Duration.bytes, num, time, g, ixByte, numByte]
    have hlife : lifeBytes t.now (s.grants.get i).life = (match (s.grants.get i).life with
        | .unlimited => [0xFF, 0xFF, 0xFF, 0xFF] | .running d => left (some d) | .held n => leBytes 4 n) := by
      cases (s.grants.get i).life <;> first | rfl | exact hleft _
    rw [hlife]
    cases (s.grants.get i).state <;> cases (s.grants.get i).level <;> rfl
  · intro e c
    show (secs.flatten.drop (0x604 + 20 * e.val)).take 20 = _
    rw [slice_rows hl 2 rfl (m := 0x604) rfl e.val (by simp), hg, hpad _ _ (by simp [claimRecord]; cases (f.claims.get e).answer <;> simp [optByteBytes])]
    congr 1
    simp only [claimRecord, hleft, hones, num, c, ixByte, numByte]
    have hans : optByteBytes (f.claims.get e).answer = [flag (f.claims.get e).answer.isSome, orOnes (f.claims.get e).answer] := by
      cases (f.claims.get e).answer <;> rfl
    rw [hans]
    cases (f.claims.get e).state <;> cases (f.claims.get e).level <;> rcases (f.claims.get e).phase with _ | (_ | _ | _ | _)
      <;> simp [ClaimState.num, ClaimLevel.num, ClosingPhase.byte, orOnes]
  · intro v x
    show (secs.flatten.drop (0x884 + 36 * v.val)).take 36 = _
    rw [slice_rows hl 3 rfl (m := 0x884) rfl v.val (by simp), hg, hpad _ _ (by simp [closeRecord]; omega)]
    congr 1
    simp only [closeRecord, hones, x, ones]; rfl
  · intro i
    show (secs.flatten.drop (0x8F0 + 16 * i.val)).take 16 = _
    rw [slice_rows hl 4 rfl (m := 0x8F0) rfl i.val (by simp), hg]
    rcases f.entries.get i with _ | x
    · rfl
    · have hst : x.state.bytes = (match x.state with
          | .sending => [0, 0xFF] | .awaiting => [1, 0xFF] | .receiving => [2, 0xFF] | .delivering => [3, 0xFF]
          | .orphaned .sending => [4, 0] | .orphaned .awaiting => [4, 1] | .orphaned .receiving => [4, 2]) := by
        rcases x.state with _ | _ | _ | _ | (_ | _ | _) <;> rfl
      have hgr : numByte x.cls.grade.num = (match x.cls with | .adjust | .program => 1 | _ => 0) := by cases x.cls <;> rfl
      have hh : Machine.orOnes (x.held.map HeldItem.byte)
          = (match x.held with | none => 0xFF | some (.response _) => 0 | some (.refusal _ _) => 1) := by
        rcases x.held with _ | (_ | _) <;> rfl
      have hs2 : x.state.bytes.length = 2 := by rcases x.state with _ | _ | _ | _ | (_ | _ | _) <;> rfl
      rw [hpad _ _ (by simp [entryRecord, hs2])]
      simp only [entryRecord, hst, hgr, hh, hleft]; rfl
  · intro k
    show (secs.flatten.drop (0xB70 + 3 * k.val)).take 3 = _
    rw [slice_rows hl 5 rfl (m := 0xB70) rfl k.val (by simp), List.getElem_finRange, Fin.cast_mk, Fin.eta]
    rw [hpad _ _ (by simp [placesRecord])]
    simp only [placesRecord, padded, SlotFlow.kept, num, flag, numByte, List.length_cons, List.length_nil, Nat.sub_self,
      List.replicate_zero, List.append_nil]
    cases (f.slots.get k).held <;> rfl
  · intro i c
    show (secs.flatten.drop (0xBA0 + 12 * i.val)).take 12 = _
    rw [slice_rows hl 6 rfl (m := 0xBA0) rfl i.val (by simp), hg, hpad _ _ (by simp [conditionRecord, Duration.bytes])]
    congr 1
    simp only [conditionRecord, hleft, Duration.bytes, c, time, Condition.qualified]
    cases (t.conds.get i).qual <;> rfl
  · show (secs.flatten.drop 0xBE8).take 8 = _
    rw [slice_whole hl 7 rfl (m := 0xBE8) (n := 8) rfl (by simp), hpad _ _ (by simp [rotationRecord, Duration.bytes])]
    rfl
  · show (secs.flatten.drop 0xBF0).take 8 = _
    rw [slice_whole hl 8 rfl (m := 0xBF0) (n := 8) rfl (by simp), hpad _ _ (by simp [storeRecord])]
    rfl
  · intro a
    show (secs.flatten.drop (0xBF8 + 4 * a.val)).take 4 = _
    rw [slice_rows hl 9 rfl (m := 0xBF8) rfl a.val (by simp), List.getElem_finRange, hpad _ _ (by simp [accountRecord])]
    simp [accountRecord, padded]
  · intro i hi
    show (secs.flatten.drop (0xCC4 + 12 * i)).take 12 = _
    rw [slice_section hl 10 rfl (m := 0xCC4) (o := 12 * i) (n := 12) rfl (by simp; omega)]
    rw [sized, List.drop_take, List.take_take, Nat.min_eq_left (by omega)]
    rcases hw' : f.waiting[i]? with _ | w
    · have hle := List.getElem?_eq_none_iff.mp hw'
      rw [List.drop_append, List.drop_eq_nil_of_le (by rw [length_rows]; omega), List.nil_append, zeros, List.drop_replicate,
        List.take_replicate]
      congr 1
      rw [length_rows]; omega
    · obtain ⟨hlt, rfl⟩ := List.getElem?_eq_some_iff.mp hw'
      have h2 : f.waiting[i].who.bytes.length = 2 := by cases f.waiting[i].who <;> rfl
      rw [List.drop_append_of_le_length (by rw [length_rows]; omega),
        List.take_append_of_le_length (by rw [List.length_drop, length_rows]; omega), rows_slice _ _ _ _ hlt,
        hpad _ _ (by simp [waiterRecord, h2])]
      congr 1
      simp only [waiterRecord]
      cases f.waiting[i].who <;> cases f.waiting[i].grade <;> rfl
  · intro p o
    obtain ⟨j, hj, hjp, ho⟩ : ∃ j, ∃ h : j < allPorts.length, allPorts[j] = p ∧ o = 0xE80 + 108 * j := by
      rcases p with _ | v
      · exact ⟨0, by decide, rfl, rfl⟩
      · refine ⟨1 + v.val, by simp [allPorts]; omega, ?_, rfl⟩
        revert v; decide
    have inside : ∀ o' n : Nat, o' + n ≤ 108 → (secs.flatten.drop (o + o')).take n = ((portRecord f p).drop o').take n := by
      intro o' n hn
      rw [ho, Nat.add_assoc, slice_section hl 11 rfl (m := 0xE80) (o := 108 * j + o') (n := n) rfl
        (by simp [allPorts] at hj ⊢; omega), rows_slice_within _ _ _ j hj hn, hjp, sized_eq (by simp)]
      simp
    obtain ⟨h1, h2, h3⟩ := portRecord_slices f p
    refine ⟨?_, fun c => ?_, ?_⟩
    · show (secs.flatten.drop (o + 0)).take 8 = _
      rw [inside 0 8 (by omega), List.drop_zero, h1]
      rcases (f.port p).tx with _ | x
      · rfl
      · rw [sized_eq (by simp [txRecord])]
        simp only [txRecord]
        cases x.phase <;> simp [TxPhase.byte]
    · show (secs.flatten.drop (o + 8 + 12 * c.val)).take 12 = _
      rw [Nat.add_assoc, inside (8 + 12 * c.val) 12 (by omega), h2]
      rcases f.ctx p c with _ | x
      · rfl
      · rw [hpad _ _ (by simp [ctxRecord])]
        congr 1
        simp only [ctxRecord, num, numByte]
        cases x.wait <;> rfl
    · show (secs.flatten.drop (o + 104)).take 4 = _
      rw [inside 104 4 (by omega), h3]
      cases p <;> rfl
  · show (secs.flatten.drop 0x1030).take 96 = _
    rw [slice_whole hl 12 rfl (m := 0x1030) (n := 96) rfl (by simp)]
    have hpr : rows 12 probeRecord t.probes.toList = (List.finRange 4).flatMap fun i =>
        let p := t.probes.get i
        [flag p.enabled, num p.dirs.toNat] ++ leBytes 2 p.slots.toNat ++ leBytes 4 p.ecus.toNat
          ++ [num p.classes.toNat, flag p.binding] ++ leBytes 2 p.limit := by
      have hv : t.probes.toList = (List.finRange 4).map t.probes.get := by
        apply List.ext_getElem (by simp)
        intro i h1 h2
        simp [Vector.get]
      rw [rows, hv, List.flatMap_map]
      congr 1
    rw [hpad _ _ (by
      simp [captureSection, writerRecord, Duration.bytes]
      rcases f.writer.page with _ | p
      · simp [ones]
      · rcases p with ⟨a, b, _ | d⟩ <;> simp [ones])]
    congr 1
    simp only [captureSection, writerRecord, hpr]
    rfl

end Sys2Proof.Machine
end

