-- ==== Sys2Proof/Laws/Starting.lean ====
section
/-! SUPPORT. Which fault code STARTING ends with: the checks of the directory, of its leaves and of the settings leaf
(R195, R196, R209, R213). -/

namespace Sys2Proof.Machine

/-! ### The directory (R195) -/

/-- The model's check of distinct keys is that of a list without duplicates. -/
theorem distinct_iff : ∀ l : List Nat, distinct l = true ↔ l.Nodup
  | [] => by simp [distinct]
  | x :: xs => by simp [distinct, distinct_iff xs]

/-- The model's check of extents is pairwise disjointness. -/
theorem disjoint_iff : ∀ l : List (Nat × Nat),
    disjoint l = true ↔ l.Pairwise fun x y => x.1 + x.2 ≤ y.1 ∨ y.1 + y.2 ≤ x.1
  | [] => by simp [disjoint]
  | x :: xs => by
    simp only [disjoint, Bool.and_eq_true, disjoint_iff xs, List.pairwise_cons, List.all_eq_true]
    refine and_congr_left fun _ => forall₂_congr fun y _ => ?_
    simp [overlap]; omega

/-- The entries found under a list of keys that holds each entry's key once are the entries. -/
theorem found_perm {es : List DirEntry} {ks : List Nat} (hes : (es.map (·.key)).Nodup) (hks : ks.Nodup)
    (h : ∀ e ∈ es, e.key ∈ ks) : (ks.filterMap fun k => es.find? fun e => e.key == k).Perm es := by
  have hfind : ∀ (k : Nat) (e : DirEntry), es.find? (fun e => e.key == k) = some e ↔ e ∈ es ∧ e.key = k := by
    intro k e
    constructor
    · intro hh
      exact ⟨List.mem_of_find?_eq_some hh, by simpa using List.find?_some hh⟩
    · rintro ⟨he, rfl⟩
      cases hf : es.find? (fun x => x.key == e.key) with
      | none => exact absurd (by simp : (e.key == e.key) = true) (by simpa using List.find?_eq_none.1 hf e he)
      | some x =>
        have h1 := List.mem_of_find?_eq_some hf
        have h2 : x.key = e.key := by simpa using List.find?_some hf
        rw [List.inj_on_of_nodup_map hes h1 he h2]
  rw [List.perm_ext_iff_of_nodup ?_ hes.of_map]
  · intro e
    simp only [List.mem_filterMap, hfind]
    exact ⟨fun ⟨k, _, h1, _⟩ => h1, fun he => ⟨e.key, h e he, he, rfl⟩⟩
  · refine hks.filterMap ?_
    intro k k' e h1 h2
    have h1' := (hfind k e).1 h1
    have h2' := (hfind k' e).1 h2
    exact h1'.2.symm.trans h2'.2

/-- What the geometry check makes of the entries (R195, steps 3 to 5). -/
theorem leaves_eq (ram : List Host.Cell) (base : Nat) (es : List DirEntry) :
    let half := fun a o : Nat => numAt (ramRead ram a 16) o 2
    let steps := fun a : Nat => numAt (ramRead ram a 32) 4 2
    let ringOk := fun a : Nat => 2 ≤ half a 0 ∧ half a 0 ≤ 256 ∧ 256 ≤ half a 2 ∧ half a 2 ≤ 4096 ∧ half a 2 % 64 = 0
    let leafOk := fun e : DirEntry =>
      (e.key = 0x20 → 8 ≤ half e.leaf 0 ∧ half e.leaf 0 ≤ 64)
      ∧ (e.key = 0x30 ∨ e.key = 0x31 ∨ e.key = 0x40 → ringOk e.leaf) ∧ (e.key = 0x31 → 2112 ≤ half e.leaf 2)
      ∧ (e.key = 0x50 → 1 ≤ steps e.leaf)
    let size := fun e : DirEntry =>
      if e.key = 0x10 then 1816 else if e.key = 0x20 then 16 + 64 * half e.leaf 0
      else if e.key = 0x50 then 32 * steps e.leaf else if e.key = 0x60 then 908 else 16 + half e.leaf 0 * half e.leaf 2
    let extents := (base, 8 + 4 * es.length) :: es.map fun e => (e.leaf, size e)
    let keysOk := (∀ e ∈ es, e.key ∈ [0x10, 0x20, 0x30, 0x31, 0x40, 0x50, 0x60]) ∧ (es.map (·.key)).Nodup
    let has := fun k : Nat => ∃ e ∈ es, e.key = k
    let placed := (∀ x ∈ extents, x.1 + x.2 ≤ 2 ^ 32) ∧ extents.Pairwise fun x y => x.1 + x.2 ≤ y.1 ∨ y.1 + y.2 ≤ x.1
    let read : Except FaultCode Directory := match leafOf es 0x10, leafOf es 0x20 with
      | some s, some b =>
        match getLeaves ram base es s b with
        | none => .error .badLeaf
        | some d => if d.placed then .ok d else .error .badLeaf
      | _, _ => .error .missingLeaf
    keysOk →
    (¬(has 0x10 ∧ has 0x20) → read = .error .missingLeaf)
    ∧ (has 0x10 ∧ has 0x20 → ¬((∀ e ∈ es, leafOk e) ∧ placed) → read = .error .badLeaf)
    ∧ (has 0x10 ∧ has 0x20 → (∀ e ∈ es, leafOk e) ∧ placed →
      ∃ d, read = .ok d ∧ d.base = base ∧ d.entries = es.length
        ∧ (∀ e ∈ es, (e.key = 0x10 → d.settings = e.leaf) ∧ (e.key = 0x20 → d.board = e.leaf ∧ d.slots = half e.leaf 0)
          ∧ (let r : Ring := { leaf := e.leaf, pages := half e.leaf 0, size := half e.leaf 2 }
            (e.key = 0x30 → d.relayIn = some r) ∧ (e.key = 0x31 → d.relayOut = some r) ∧ (e.key = 0x40 → d.capture = some r))
          ∧ (e.key = 0x50 → d.pool = some { leaf := e.leaf, steps := steps e.leaf })
          ∧ (e.key = 0x60 → d.counters = some e.leaf))
        ∧ (¬has 0x30 → d.relayIn = none) ∧ (¬has 0x31 → d.relayOut = none) ∧ (¬has 0x40 → d.capture = none)
        ∧ (¬has 0x50 → d.pool = none) ∧ (¬has 0x60 → d.counters = none)) := by
  intro half steps ringOk leafOk size extents keysOk has placed read hk
  obtain ⟨opt, hopt⟩ : ∃ opt : Nat → Option DirEntry, ∀ k, es.find? (fun e => e.key == k) = opt k := ⟨_, fun _ => rfl⟩
  have hleaf : ∀ k, leafOf es k = (opt k).map (·.leaf) := fun k => by rw [← hopt]; rfl
  have hmem : ∀ (k : Nat) (e : DirEntry), opt k = some e ↔ e ∈ es ∧ e.key = k := by
    intro k e
    rw [← hopt]
    constructor
    · intro h
      exact ⟨List.mem_of_find?_eq_some h, by simpa using List.find?_some h⟩
    · rintro ⟨he, rfl⟩
      cases hf : es.find? (fun x => x.key == e.key) with
      | none => exact absurd (by simp : (e.key == e.key) = true) (by simpa using List.find?_eq_none.1 hf e he)
      | some x =>
        rw [List.inj_on_of_nodup_map hk.2 (List.mem_of_find?_eq_some hf) he (by simpa using List.find?_some hf)]
  have hhas : ∀ k, has k ↔ ∃ e, opt k = some e := by
    intro k; simp only [has, hmem]
  have hring : ∀ k least : Nat, k = 0x30 ∨ k = 0x31 ∨ k = 0x40 →
      (∃ o : Option Ring, getLeaf es k (fun a => getRing ram a least) = some o
        ∧ (∀ e ∈ es, e.key = k → ringOk e.leaf ∧ least ≤ half e.leaf 2)
        ∧ o.toList.map (fun r => (r.leaf, 16 + r.pages * r.size)) = (opt k).toList.map (fun e => (e.leaf, size e))
        ∧ (∀ e ∈ es, e.key = k → o = some { leaf := e.leaf, pages := half e.leaf 0, size := half e.leaf 2 })
        ∧ (¬has k → o = none))
      ∨ (getLeaf es k (fun a => getRing ram a least) = none ∧ ∃ e ∈ es, e.key = k ∧ ¬(ringOk e.leaf ∧ least ≤ half e.leaf 2)) := by
    intro k least hkk
    cases ho : opt k with
    | none =>
      refine .inl ⟨none, by simp [getLeaf, hleaf, ho], ?_, rfl, ?_, fun _ => rfl⟩
      · intro e he hek; rw [(hmem k e).2 ⟨he, hek⟩] at ho; cases ho
      · intro e he hek; rw [(hmem k e).2 ⟨he, hek⟩] at ho; cases ho
    | some x =>
      obtain ⟨hx, hxk⟩ := (hmem k x).1 ho
      have hx1 : ∀ e ∈ es, e.key = k → e = x := fun e he hek => by
        have := (hmem k e).2 ⟨he, hek⟩; rw [ho] at this; exact (Option.some.inj this).symm
      by_cases hc : ringOk x.leaf ∧ least ≤ half x.leaf 2
      · refine .inl ⟨some { leaf := x.leaf, pages := half x.leaf 0, size := half x.leaf 2 }, ?_, ?_, ?_, ?_, ?_⟩
        · obtain ⟨⟨c1, c2, c3, c4, c5⟩, c6⟩ := hc
          simp only [getLeaf, hleaf, ho, Option.map_some]
          rw [show getRing ram x.leaf least = some { leaf := x.leaf, pages := half x.leaf 0, size := half x.leaf 2 } from
            if_pos ⟨c1, c2, c3, c4, c5, c6⟩]
          rfl
        · intro e he hek; rw [hx1 e he hek]; exact hc
        · simp only [Option.toList_some, List.map_cons, List.map_nil]
          congr 2
          simp only [size, hxk]
          rcases hkk with rfl | rfl | rfl <;> rfl
        · intro e he hek; rw [hx1 e he hek]
        · intro h; exact absurd ⟨x, hx, hxk⟩ h
      · refine .inr ⟨?_, x, hx, hxk, hc⟩
        simp only [getLeaf, hleaf, ho, Option.map_some]
        rw [show getRing ram x.leaf least = none from if_neg (fun ⟨c1, c2, c3, c4, c5, c6⟩ => hc ⟨⟨c1, c2, c3, c4, c5⟩, c6⟩)]
        rfl
  have hpool : (∃ o : Option Pool, getLeaf es 0x50 (getPool ram) = some o ∧ (∀ e ∈ es, e.key = 0x50 → 1 ≤ steps e.leaf)
        ∧ o.toList.map (fun r => (r.leaf, 32 * r.steps)) = (opt 0x50).toList.map (fun e => (e.leaf, size e))
        ∧ (∀ e ∈ es, e.key = 0x50 → o = some { leaf := e.leaf, steps := steps e.leaf }) ∧ (¬has 0x50 → o = none))
      ∨ (getLeaf es 0x50 (getPool ram) = none ∧ ∃ e ∈ es, e.key = 0x50 ∧ ¬1 ≤ steps e.leaf) := by
    cases ho : opt 0x50 with
    | none =>
      refine .inl ⟨none, by simp [getLeaf, hleaf, ho], ?_, rfl, ?_, fun _ => rfl⟩
      · intro e he hek; rw [(hmem _ e).2 ⟨he, hek⟩] at ho; cases ho
      · intro e he hek; rw [(hmem _ e).2 ⟨he, hek⟩] at ho; cases ho
    | some x =>
      obtain ⟨hx, hxk⟩ := (hmem _ x).1 ho
      have hx1 : ∀ e ∈ es, e.key = 0x50 → e = x := fun e he hek => by
        have := (hmem _ e).2 ⟨he, hek⟩; rw [ho] at this; exact (Option.some.inj this).symm
      by_cases hc : 1 ≤ steps x.leaf
      · refine .inl ⟨some { leaf := x.leaf, steps := steps x.leaf }, ?_, ?_, ?_, ?_, ?_⟩
        · simp only [getLeaf, hleaf, ho, Option.map_some]
          rw [show getPool ram x.leaf = some { leaf := x.leaf, steps := steps x.leaf } from if_pos hc]
          rfl
        · intro e he hek; rw [hx1 e he hek]; exact hc
        · simp only [Option.toList_some, List.map_cons, List.map_nil]
          congr 2
          simp only [size, hxk]; rfl
        · intro e he hek; rw [hx1 e he hek]
        · intro h; exact absurd ⟨x, hx, hxk⟩ h
      · refine .inr ⟨?_, x, hx, hxk, hc⟩
        simp only [getLeaf, hleaf, ho, Option.map_some]
        rw [show getPool ram x.leaf = none from if_neg hc]
        rfl
  have hperm := found_perm hk.2 (ks := [0x10, 0x20, 0x30, 0x31, 0x40, 0x50, 0x60]) (by decide) hk.1
  simp only [hopt] at hperm
  refine ⟨fun h => ?_, ?_⟩
  · simp only [read, hleaf]
    cases h1 : opt 0x10 with
    | none => rfl
    | some s =>
      cases h2 : opt 0x20 with
      | none => rfl
      | some b => exact absurd ⟨(hhas _).2 ⟨s, h1⟩, (hhas _).2 ⟨b, h2⟩⟩ h
  suffices main : has 0x10 ∧ has 0x20 → (¬((∀ e ∈ es, leafOk e) ∧ placed) ∧ read = .error .badLeaf)
      ∨ (((∀ e ∈ es, leafOk e) ∧ placed) ∧ ∃ d, read = .ok d ∧ d.base = base ∧ d.entries = es.length
        ∧ (∀ e ∈ es, (e.key = 0x10 → d.settings = e.leaf) ∧ (e.key = 0x20 → d.board = e.leaf ∧ d.slots = half e.leaf 0)
          ∧ (let r : Ring := { leaf := e.leaf, pages := half e.leaf 0, size := half e.leaf 2 }
            (e.key = 0x30 → d.relayIn = some r) ∧ (e.key = 0x31 → d.relayOut = some r) ∧ (e.key = 0x40 → d.capture = some r))
          ∧ (e.key = 0x50 → d.pool = some { leaf := e.leaf, steps := steps e.leaf })
          ∧ (e.key = 0x60 → d.counters = some e.leaf))
        ∧ (¬has 0x30 → d.relayIn = none) ∧ (¬has 0x31 → d.relayOut = none) ∧ (¬has 0x40 → d.capture = none)
        ∧ (¬has 0x50 → d.pool = none) ∧ (¬has 0x60 → d.counters = none)) by
    constructor
    · intro h1 h2
      rcases main h1 with h | h
      · exact h.2
      · exact absurd h.1 h2
    · intro h1 h2
      rcases main h1 with h | h
      · exact absurd h2 h.1
      · exact h.2
  rintro ⟨h1, h2⟩
  obtain ⟨e1, h1⟩ := (hhas _).1 h1
  obtain ⟨e2, h2⟩ := (hhas _).1 h2
  obtain ⟨hm1, hk1⟩ := (hmem _ _).1 h1
  obtain ⟨hm2, hk2⟩ := (hmem _ _).1 h2
  have hread : read = match getLeaves ram base es e1.leaf e2.leaf with
        | none => .error .badLeaf
        | some d => if d.placed then .ok d else .error .badLeaf := by
    simp only [read, hleaf, h1, h2, Option.map_some]
  have fails : (¬∀ e ∈ es, leafOk e) → getLeaves ram base es e1.leaf e2.leaf = none →
      (¬((∀ e ∈ es, leafOk e) ∧ placed) ∧ read = .error .badLeaf) := fun a b => ⟨fun c => a c.1, by rw [hread, b]⟩
  by_cases hb : 8 ≤ half e2.leaf 0 ∧ half e2.leaf 0 ≤ 64
  swap
  · refine .inl (fails (fun h => hb ((h e2 hm2).1 hk2)) ?_)
    simp only [getLeaves]
    rw [show getBoard ram e2.leaf = none from if_neg hb]; rfl
  have hb' : getBoard ram e2.leaf = some (half e2.leaf 0) := if_pos hb
  rcases hring 0x30 256 (.inl rfl) with ⟨o1, g1, p1, q1, r1, n1⟩ | ⟨g1, e, he, hek, hbad⟩
  swap
  · refine .inl (fails (fun h => hbad ⟨(h e he).2.1 (.inl hek), ((h e he).2.1 (.inl hek)).2.2.1⟩) ?_)
    simp [getLeaves, hb', g1]
  rcases hring 0x31 2112 (.inr (.inl rfl)) with ⟨o2, g2, p2, q2, r2, n2⟩ | ⟨g2, e, he, hek, hbad⟩
  swap
  · refine .inl (fails (fun h => hbad ⟨(h e he).2.1 (.inr (.inl hek)), (h e he).2.2.1 hek⟩) ?_)
    simp [getLeaves, hb', g1, g2]
  rcases hring 0x40 256 (.inr (.inr rfl)) with ⟨o3, g3, p3, q3, r3, n3⟩ | ⟨g3, e, he, hek, hbad⟩
  swap
  · refine .inl (fails (fun h => hbad ⟨(h e he).2.1 (.inr (.inr hek)), ((h e he).2.1 (.inr (.inr hek))).2.2.1⟩) ?_)
    simp [getLeaves, hb', g1, g2, g3]
  rcases hpool with ⟨o4, g4, p4, q4, r4, n4⟩ | ⟨g4, e, he, hek, hbad⟩
  swap
  · refine .inl (fails (fun h => hbad ((h e he).2.2.2 hek)) ?_)
    simp [getLeaves, hb', g1, g2, g3, g4]
  have hall : ∀ e ∈ es, leafOk e := by
    intro e he
    refine ⟨fun hek => ?_, fun hek => ?_, fun hek => (p2 e he hek).2, p4 e he⟩
    · have := (hmem _ e).2 ⟨he, hek⟩
      rw [h2] at this; cases this; exact hb
    · rcases hek with hek | hek | hek
      · exact (p1 e he hek).1
      · exact (p2 e he hek).1
      · exact (p3 e he hek).1
  let d : Directory :=
    { base, entries := es.length, settings := e1.leaf, board := e2.leaf, slots := half e2.leaf 0, relayIn := o1, relayOut := o2
      capture := o3, pool := o4, counters := (opt 0x60).map (·.leaf) }
  have hd : getLeaves ram base es e1.leaf e2.leaf = some d := by
    simp [getLeaves, hb', g1, g2, g3, g4, hleaf, d]
  have hext : d.extents.Perm extents := by
    have he : d.extents = (base, 8 + 4 * es.length) ::
        ([0x10, 0x20, 0x30, 0x31, 0x40, 0x50, 0x60].filterMap opt).map (fun e => (e.leaf, size e)) := by
      have hcons : ∀ (k : Nat) (l : List Nat), (k :: l).filterMap opt = (opt k).toList ++ l.filterMap opt := by
        intro k l; rw [List.filterMap_cons]; cases opt k <;> rfl
      have h60 : (d.counters.toList.map fun a => (a, 908)) = (opt 0x60).toList.map (fun e => (e.leaf, size e)) := by
        cases h6 : opt 0x60 with
        | none => simp [d, h6]
        | some e => simp [d, h6, size, ((hmem _ _).1 h6).2]
      simp only [hcons, List.filterMap_nil, List.append_nil, List.map_append, ← q1, ← q2, ← q3, ← q4, ← h60, h1, h2]
      simp [Directory.extents, d, size, hk1, hk2]
    rw [he]
    exact (hperm.map _).cons _
  have hplaced : d.placed = true ↔ placed := by
    simp only [Directory.placed, Bool.and_eq_true, disjoint_iff, List.all_eq_true, decide_eq_true_eq, placed]
    refine and_congr ⟨fun h x hx => h x (hext.mem_iff.2 hx), fun h x hx => h x (hext.mem_iff.1 hx)⟩ ?_
    exact hext.pairwise_iff fun {x y} h => h.symm
  by_cases hp : placed
  · refine .inr ⟨⟨hall, hp⟩, d, by rw [hread, hd]; simp [hplaced.2 hp], rfl, rfl, ?_, n1, n2, n3, n4, ?_⟩
    · intro e he
      refine ⟨fun hek => ?_, fun hek => ?_, ⟨r1 e he, r2 e he, r3 e he⟩, r4 e he, fun hek => ?_⟩
      · have := (hmem _ e).2 ⟨he, hek⟩
        rw [h1] at this; cases this; rfl
      · have := (hmem _ e).2 ⟨he, hek⟩
        rw [h2] at this; cases this; exact ⟨rfl, rfl⟩
      · simp [d, (hmem _ e).2 ⟨he, hek⟩]
    · intro h
      have : opt 0x60 = none := by
        cases h6 : opt 0x60 with
        | none => rfl
        | some e => exact absurd ((hhas _).2 ⟨e, h6⟩) h
      simp [d, this]
  · refine .inl ⟨fun h => hp h.2, ?_⟩
    rw [hread, hd]
    simp only
    rw [if_neg (fun h => hp (hplaced.1 h))]

/-- What STARTING makes of the directory, check by check in their order (R195, R209). -/
theorem readDirectory_eq (ram : List Host.Cell) (base : Nat) :
    let head := ramRead ram base 8
    let n := (byteAt head 4).toNat
    let es : List DirEntry := (List.range n).map fun i =>
      let a := base + 8 + 4 * i
      { key := (byteAt (ramRead ram a 4) 3).toNat, leaf := a + 4 * numAt (ramRead ram a 4) 0 3 }
    let half := fun a o : Nat => numAt (ramRead ram a 16) o 2
    let steps := fun a : Nat => numAt (ramRead ram a 32) 4 2
    let ringOk := fun a : Nat => 2 ≤ half a 0 ∧ half a 0 ≤ 256 ∧ 256 ≤ half a 2 ∧ half a 2 ≤ 4096 ∧ half a 2 % 64 = 0
    let leafOk := fun e : DirEntry =>
      (e.key = 0x20 → 8 ≤ half e.leaf 0 ∧ half e.leaf 0 ≤ 64)
      ∧ (e.key = 0x30 ∨ e.key = 0x31 ∨ e.key = 0x40 → ringOk e.leaf) ∧ (e.key = 0x31 → 2112 ≤ half e.leaf 2)
      ∧ (e.key = 0x50 → 1 ≤ steps e.leaf)
    let size := fun e : DirEntry =>
      if e.key = 0x10 then 1816 else if e.key = 0x20 then 16 + 64 * half e.leaf 0
      else if e.key = 0x50 then 32 * steps e.leaf else if e.key = 0x60 then 908 else 16 + half e.leaf 0 * half e.leaf 2
    let extents := (base, 8 + 4 * n) :: es.map fun e => (e.leaf, size e)
    let signed := numAt head 0 4 = 0x5A3C24D6 ∧ 1 ≤ n ∧ n ≤ 16
    let keysOk := (∀ e ∈ es, e.key ∈ [0x10, 0x20, 0x30, 0x31, 0x40, 0x50, 0x60]) ∧ (es.map (·.key)).Nodup
    let has := fun k : Nat => ∃ e ∈ es, e.key = k
    let placed := (∀ x ∈ extents, x.1 + x.2 ≤ 2 ^ 32) ∧ extents.Pairwise fun x y => x.1 + x.2 ≤ y.1 ∨ y.1 + y.2 ≤ x.1
    (¬signed → readDirectory ram base = .error .badSignature)
    ∧ (signed → ¬keysOk → readDirectory ram base = .error .badLeaf)
    ∧ (signed → keysOk → ¬(has 0x10 ∧ has 0x20) → readDirectory ram base = .error .missingLeaf)
    ∧ (signed → keysOk → has 0x10 ∧ has 0x20 → ¬((∀ e ∈ es, leafOk e) ∧ placed) → readDirectory ram base = .error .badLeaf)
    ∧ (signed → keysOk → has 0x10 ∧ has 0x20 → (∀ e ∈ es, leafOk e) ∧ placed →
      ∃ d, readDirectory ram base = .ok d ∧ d.base = base ∧ d.entries = n
        ∧ (∀ e ∈ es, (e.key = 0x10 → d.settings = e.leaf) ∧ (e.key = 0x20 → d.board = e.leaf ∧ d.slots = half e.leaf 0)
          ∧ (let r : Ring := { leaf := e.leaf, pages := half e.leaf 0, size := half e.leaf 2 }
            (e.key = 0x30 → d.relayIn = some r) ∧ (e.key = 0x31 → d.relayOut = some r) ∧ (e.key = 0x40 → d.capture = some r))
          ∧ (e.key = 0x50 → d.pool = some { leaf := e.leaf, steps := steps e.leaf })
          ∧ (e.key = 0x60 → d.counters = some e.leaf))
        ∧ (¬has 0x30 → d.relayIn = none) ∧ (¬has 0x31 → d.relayOut = none) ∧ (¬has 0x40 → d.capture = none)
        ∧ (¬has 0x50 → d.pool = none) ∧ (¬has 0x60 → d.counters = none)) := by
  intro head n es half steps ringOk leafOk size extents signed keysOk has placed
  have hes : (List.range n).map (dirEntry ram base) = es := rfl
  have hsig : (numAt head 0 4 ≠ signature ∨ n = 0 ∨ 16 < n) ↔ ¬signed := by simp only [signed, signature]; omega
  have hkeys : ((!(es.all fun e => leafKeys.contains e.key) || !distinct (es.map (·.key))) = true) ↔ ¬keysOk := by
    rw [← Bool.not_and, Bool.not_eq_true', ← Bool.not_eq_true, Bool.and_eq_true, distinct_iff, List.all_eq_true]
    simp only [List.contains_iff_mem, leafKeys, keysOk]
  have hlen : es.length = n := by simp [es]
  have hleaves := leaves_eq ram base es
  simp only [hlen] at hleaves
  have hsigned : signed → ¬(numAt head 0 4 ≠ signature ∨ n = 0 ∨ 16 < n) := fun h => by rw [hsig]; exact not_not.2 h
  have hpass : keysOk → ¬((!(es.all fun e => leafKeys.contains e.key) || !distinct (es.map (·.key))) = true) :=
    fun h => by rw [hkeys]; exact not_not.2 h
  refine ⟨fun h => if_pos (hsig.2 h), fun h1 h2 => (if_neg (hsigned h1)).trans (if_pos (hkeys.2 h2)), fun h1 h2 h3 => ?_,
    fun h1 h2 h3 h4 => ?_, fun h1 h2 h3 h4 => ?_⟩
  · exact ((if_neg (hsigned h1)).trans (if_neg (hpass h2))).trans ((hleaves h2).1 h3)
  · exact ((if_neg (hsigned h1)).trans (if_neg (hpass h2))).trans ((hleaves h2).2.1 h3 h4)
  · obtain ⟨d, hd, hrest⟩ := (hleaves h2).2.2 h3 h4
    exact ⟨d, ((if_neg (hsigned h1)).trans (if_neg (hpass h2))).trans hd, hrest⟩

/-! ### The settings leaf (R196) -/

/-- A run of records parses when each of its records does. -/
theorem getAll_isSome {α : Type} {g : List Byte → Option α} : ∀ rs : List (List Byte),
    (getAll g rs).isSome = true ↔ ∀ r ∈ rs, (g r).isSome = true
  | [] => by simp [getAll]
  | r :: rs => by
    have ih := getAll_isSome (g := g) rs
    cases hg : g r with
    | none => simp [getAll, hg]
    | some x =>
      cases hr : getAll g rs with
      | none => rw [hr] at ih; simp [getAll, hg, hr]; simpa using ih
      | some xs => rw [hr] at ih; simp [getAll, hg, hr]; simpa using ih

/-- What a run of records read as comes from them. -/
theorem getAll_mem {α : Type} {g : List Byte → Option α} : ∀ {rs : List (List Byte)} {xs : List α}, getAll g rs = some xs →
    (∀ x ∈ xs, ∃ r ∈ rs, g r = some x) ∧ ∀ r ∈ rs, ∃ x ∈ xs, g r = some x
  | [], xs, h => by cases h; simp
  | r :: rs, xs, h => by
    simp only [getAll, Option.bind_eq_bind, Option.bind_eq_some_iff, Option.some.injEq] at h
    obtain ⟨x, hx, ys, hy, rfl⟩ := h
    obtain ⟨h1, h2⟩ := getAll_mem hy
    constructor
    · intro y hy'
      rcases List.mem_cons.1 hy' with rfl | hy'
      · exact ⟨r, by simp, hx⟩
      · obtain ⟨q, hq, hg⟩ := h1 y hy'
        exact ⟨q, by simp [hq], hg⟩
    · intro q hq
      rcases List.mem_cons.1 hq with rfl | hq
      · exact ⟨x, by simp, hx⟩
      · obtain ⟨y, hy', hg⟩ := h2 q hq
        exact ⟨y, by simp [hy'], hg⟩

/-- The records of a run. -/
theorem records_eq (size : Nat) : ∀ (n : Nat) (bs : List Byte),
    records size n bs = (List.finRange n).map fun i => (bs.drop (size * i.val)).take size
  | 0, _ => rfl
  | n + 1, bs => by
    rw [records, records_eq size n, List.finRange_succ, List.map_cons, List.map_map]
    congr 1
    refine List.map_congr_left fun i _ => ?_
    simp only [Function.comp, List.drop_drop, Fin.val_succ]
    congr 2; rw [Nat.mul_succ]; omega

/-- Every record of a run parses when each does. -/
theorem getAll_records {α : Type} {g : List Byte → Option α} (size n : Nat) (bs : List Byte) :
    (getAll g (records size n bs)).isSome = true ↔ ∀ i : Fin n, (g ((bs.drop (size * i.val)).take size)).isSome = true := by
  rw [getAll_isSome, records_eq]; simp

/-- A suffix of the numbers of a row. -/
theorem finRange_drop {n m : Nat} (h : m < n) : (List.finRange n).drop m = ⟨m, h⟩ :: (List.finRange n).drop (m + 1) := by
  rw [List.drop_eq_getElem_cons (by simpa using h)]; simp

/-- When the ECU entries load (R23, step 2). -/
theorem loadEcus_iff {f : Flow} {rec : EcuIx → List Byte} (hf : ∀ k, f.hasEntry k = false) :
    ∀ (d m : Nat) (t : Tables), m + d = 32 → (∀ k, (t.testers.get k).attached = false) →
    (∀ e : EcuIx, e.val < m → getEcu (rec e) = some (t.ecus.get e)) → (∀ e : EcuIx, m ≤ e.val → (t.ecus.get e).valid = false) →
    ((loadEcus f (((List.finRange 32).drop m).map fun e => (e, rec e)) t).isSome = true ↔
      ∀ e : EcuIx, m ≤ e.val → ∃ x, getEcu (rec e) = some x ∧ (x.valid = true → (t.port (.vb x.port)).node ≠ x.node
        ∧ ∀ i : EcuIx, i.val < e.val → ∀ y, getEcu (rec i) = some y → y.valid = true → y.node ≠ x.node)) := by
  intro d
  induction d with
  | zero =>
    intro m t hm _ _ _
    obtain rfl : m = 32 := by omega
    rw [List.drop_eq_nil_of_le (by simp)]
    simp only [List.map_nil, loadEcus, Option.isSome_some, true_iff]
    intro e he; have := e.isLt; omega
  | succ d ih =>
    intro m t hm hdet hlt hge
    obtain ⟨p, hp⟩ : ∃ p : EcuIx, p.val = m := ⟨⟨m, by omega⟩, rfl⟩
    rw [finRange_drop (by omega : m < 32), List.map_cons, show (⟨m, by omega⟩ : Fin 32) = p from Fin.ext hp.symm]
    simp only [loadEcus]
    have hconf : ∀ x : Ecu, ecuConflict t f p x = false ↔ (x.valid = true → (t.port (.vb x.port)).node ≠ x.node
        ∧ ∀ i : EcuIx, i.val < m → ∀ y, getEcu (rec i) = some y → y.valid = true → y.node ≠ x.node) := by
      intro x
      simp only [ecuConflict, Bool.and_eq_false_iff, Bool.or_eq_false_iff, List.any_eq_false, List.mem_finRange, forall_true_left,
        holdsAddr, hdet, hf, Bool.or_self, Bool.false_and, Bool.false_eq_true, not_false_eq_true, implies_true, and_true]
      cases x.valid with
      | false => simp
      | true =>
        simp only [Bool.true_eq_false, false_or, forall_true_left]
        constructor
        · rintro ⟨h1, h2⟩
          refine ⟨by simpa using h2, fun i hi y hy hv => ?_⟩
          rw [hlt i hi] at hy; cases hy
          have := h1 i
          simp only [Bool.and_eq_true, bne_iff_ne, ne_eq, hv, beq_iff_eq, and_true, not_and] at this
          exact this (fun h => by rw [h] at hi; omega)
        · rintro ⟨h1, h2⟩
          refine ⟨fun i => ?_, by simpa using h1⟩
          simp only [Bool.and_eq_true, bne_iff_ne, ne_eq, beq_iff_eq, not_and]
          rintro ⟨_, hv⟩
          have hi : i.val < m := by
            by_contra hc
            rw [hge i (by omega)] at hv; cases hv
          exact h2 i hi _ (hlt i hi) hv
    cases hx : getEcu (rec p) with
    | none =>
      simp only [Option.isSome_none, Bool.false_eq_true, false_iff]
      intro h
      obtain ⟨x, h1, _⟩ := h p (by omega)
      rw [hx] at h1; cases h1
    | some x =>
      simp only
      cases hc : ecuConflict t f p x with
      | true =>
        simp only [if_true, Option.isSome_none, Bool.false_eq_true, false_iff]
        intro h
        obtain ⟨x', h1, h2⟩ := h p (by omega)
        rw [hx] at h1; cases h1
        rw [hp] at h2; rw [(hconf x).2 h2] at hc; cases hc
      | false =>
        simp only [Bool.false_eq_true, if_false]
        rw [ih (m + 1) { t with ecus := Vector.putRow t.ecus p x } (by omega) hdet ?_ ?_]
        · constructor
          · intro h e he
            rcases Nat.lt_or_eq_of_le he with he | he
            · exact h e he
            · obtain rfl : e = p := Fin.ext (by omega)
              have := (hconf x).1 hc
              rw [← hp] at this
              exact ⟨x, hx, this⟩
          · intro h e he; exact h e (by omega)
        · intro e he
          by_cases h : e.val = m
          · obtain rfl : e = p := Fin.ext (by omega)
            simp [hx]
          · simp only
            rw [Vector.putRow_get_ne _ _ _ _ (fun hh => h (by rw [hh]; exact hp))]
            exact hlt e (by omega)
        · intro e he
          simp only
          rw [Vector.putRow_get_ne _ _ _ _ (fun hh => by rw [hh] at he; omega)]
          exact hge e (by omega)

/-- When the slot records without the attach flag load (R23, step 4). -/
theorem loadDetached_iff {f : Flow} : ∀ (l : List (Slot × List Byte)) (t : Tables),
    (loadTesters f false l t).isSome = true ↔ ∀ p ∈ l, byteAt p.2 0 = 1 ∨ byteAt p.2 0 = 0 ∧ (getTester p.2 false).isSome = true
  | [], t => by simp [loadTesters]
  | (k, bs) :: l, t => by
    have ih := loadDetached_iff (f := f) l
    simp only [loadTesters, List.forall_mem_cons]
    have hff := getFlag_some (byteAt bs 0) false
    have hft := getFlag_some (byteAt bs 0) true
    cases hg : getFlag (byteAt bs 0) with
    | none => rw [hg] at hff hft; simp at hff hft; simp [hff, hft]
    | some b =>
      cases b with
      | true =>
        have h1 : byteAt bs 0 = 1 := hft.1 hg
        simp only [Bool.true_eq_false, if_false]
        rw [ih t]
        exact ⟨fun h => ⟨.inl h1, h⟩, fun h => h.2⟩
      | false =>
        have h0 : byteAt bs 0 = 0 := hff.1 hg
        have hne : byteAt bs 0 ≠ 1 := by rw [h0]; decide
        simp only [if_true]
        cases hy : getTester bs false with
        | none =>
          simp only [Option.isSome_none, Bool.false_eq_true, false_iff]
          exact fun h => h.1.elim hne fun h => by cases h.2
        | some y =>
          simp only [Bool.false_and, Bool.false_eq_true, if_false]
          rw [ih]
          exact ⟨fun h => ⟨.inr ⟨h0, rfl⟩, h⟩, fun h => h.2⟩

/-- When the attached slot records load (R23, step 3). -/
theorem loadAttached_iff {f : Flow} {rec : Slot → List Byte} (hf : ∀ k, f.hasEntry k = false) :
    ∀ (d m : Nat) (t : Tables), m + d = 16 →
    (∀ k : Slot, (t.testers.get k).attached = true ↔ k.val < m ∧ byteAt (rec k) 0 = 1) →
    (∀ k : Slot, k.val < m → byteAt (rec k) 0 = 1 → getTester (rec k) true = some (t.testers.get k)) →
    ((loadTesters f true (((List.finRange 16).drop m).map fun k => (k, rec k)) t).isSome = true ↔
      ∀ k : Slot, m ≤ k.val → byteAt (rec k) 0 = 0 ∨ byteAt (rec k) 0 = 1 ∧ ∃ x, getTester (rec k) true = some x
        ∧ (∀ v : VbIx, (t.port (.vb v)).node ≠ x.vsAddr)
        ∧ (∀ e : EcuIx, (t.ecus.get e).valid = true → (t.ecus.get e).node ≠ x.vsAddr)
        ∧ (x.kind = .bus → (t.port .tb).node ≠ x.tbAddr)
        ∧ ∀ j : Slot, j.val < k.val → byteAt (rec j) 0 = 1 → ∀ y, getTester (rec j) true = some y →
          y.vsAddr ≠ x.vsAddr ∧ (x.kind = .relay → y.kind = .relay → y.relayId ≠ x.relayId)
          ∧ (x.kind = .job → y.kind = .job → y.jobCtx ≠ x.jobCtx)) := by
  intro d
  induction d with
  | zero =>
    intro m t hm _ _
    obtain rfl : m = 16 := by omega
    rw [List.drop_eq_nil_of_le (by simp)]
    simp only [List.map_nil, loadTesters, Option.isSome_some, true_iff]
    intro e he; have := e.isLt; omega
  | succ d ih =>
    intro m t hm hatt hlt
    obtain ⟨p, hp⟩ : ∃ p : Slot, p.val = m := ⟨⟨m, by omega⟩, rfl⟩
    rw [finRange_drop (by omega : m < 16), List.map_cons, show (⟨m, by omega⟩ : Fin 16) = p from Fin.ext hp.symm]
    simp only [loadTesters]
    have hholds : ∀ j, holdsAddr t f j = true ↔ j.val < m ∧ byteAt (rec j) 0 = 1 := by
      intro j; rw [holdsAddr, hf, Bool.or_false]; exact hatt j
    have hconf : ∀ x : Tester, testerConflict t f p x = false ↔ (∀ v : VbIx, (t.port (.vb v)).node ≠ x.vsAddr)
        ∧ (∀ e : EcuIx, (t.ecus.get e).valid = true → (t.ecus.get e).node ≠ x.vsAddr)
        ∧ (x.kind = .bus → (t.port .tb).node ≠ x.tbAddr)
        ∧ ∀ j : Slot, j.val < p.val → byteAt (rec j) 0 = 1 → ∀ y, getTester (rec j) true = some y →
          y.vsAddr ≠ x.vsAddr ∧ (x.kind = .relay → y.kind = .relay → y.relayId ≠ x.relayId)
          ∧ (x.kind = .job → y.kind = .job → y.jobCtx ≠ x.jobCtx) := by
      intro x
      have hne : ∀ j : Slot, j.val < m → j ≠ p := fun j hj h => by rw [h] at hj; omega
      simp only [testerConflict, Bool.or_eq_false_iff, List.any_eq_false, List.mem_finRange, forall_true_left, Bool.and_eq_true,
        beq_iff_eq, bne_iff_ne, ne_eq, hholds, not_and, and_imp]
      constructor
      · rintro ⟨⟨⟨c1, c2⟩, c3⟩, c4⟩
        refine ⟨c2, c3, ?_, ?_⟩
        · intro hk; rw [hk] at c4; simpa using c4
        · intro j hj hb y hy
          rw [hlt j (by omega) hb] at hy; cases hy
          refine ⟨c1 j (hne j (by omega)) (by omega) hb, ?_, ?_⟩
          · intro hk hk' hid
            rw [hk] at c4
            simp only [List.any_eq_false, List.mem_finRange, forall_true_left, Bool.and_eq_true, beq_iff_eq, bne_iff_ne, ne_eq,
              not_and, and_imp] at c4
            exact c4 j (hne j (by omega)) ((hatt j).2 ⟨by omega, hb⟩) hk' hid
          · intro hk hk' hid
            rw [hk] at c4
            simp only [List.any_eq_false, List.mem_finRange, forall_true_left, Bool.and_eq_true, beq_iff_eq, bne_iff_ne, ne_eq,
              not_and, and_imp] at c4
            exact c4 j (hne j (by omega)) ((hatt j).2 ⟨by omega, hb⟩) hk' hid
      · rintro ⟨c1, c2, c3, c4⟩
        refine ⟨⟨⟨fun j _ hj hb => (c4 j (by omega) hb _ (hlt j hj hb)).1, c1⟩, c2⟩, ?_⟩
        cases hk : x.kind with
        | bus => simpa using c3 hk
        | relay =>
          simp only [List.any_eq_false, List.mem_finRange, forall_true_left, Bool.and_eq_true, beq_iff_eq, bne_iff_ne, ne_eq,
            not_and, and_imp]
          intro j _ ha hkj
          obtain ⟨hj, hb⟩ := (hatt j).1 ha
          exact (c4 j (by omega) hb _ (hlt j hj hb)).2.1 hk hkj
        | job =>
          simp only [List.any_eq_false, List.mem_finRange, forall_true_left, Bool.and_eq_true, beq_iff_eq, bne_iff_ne, ne_eq,
            not_and, and_imp]
          intro j _ ha hkj
          obtain ⟨hj, hb⟩ := (hatt j).1 ha
          exact (c4 j (by omega) hb _ (hlt j hj hb)).2.2 hk hkj
    have hff := getFlag_some (byteAt (rec p) 0) false
    have hft := getFlag_some (byteAt (rec p) 0) true
    have hsplit : ∀ P : Slot → Prop, (∀ k : Slot, m ≤ k.val → P k) ↔ P p ∧ ∀ k : Slot, m + 1 ≤ k.val → P k := by
      intro P
      constructor
      · exact fun h => ⟨h p (by omega), fun k hk => h k (by omega)⟩
      · rintro ⟨h1, h2⟩ k hk
        rcases Nat.lt_or_eq_of_le hk with hk | hk
        · exact h2 k hk
        · obtain rfl : k = p := Fin.ext (by omega)
          exact h1
    rw [hsplit]
    cases hg : getFlag (byteAt (rec p) 0) with
    | none =>
      rw [hg] at hff hft
      simp only [reduceCtorEq, false_iff, Bool.false_eq_true, if_false, if_true] at hff hft
      simp only [Option.isSome_none, Bool.false_eq_true, false_iff]
      exact fun h => h.1.elim hff fun h => hft h.1
    | some b =>
      cases b with
      | false =>
        have h0 : byteAt (rec p) 0 = 0 := hff.1 hg
        simp only [Bool.false_eq_true, if_false]
        rw [ih (m + 1) t (by omega) ?_ ?_]
        · exact ⟨fun h => ⟨.inl h0, h⟩, fun h => h.2⟩
        · intro k
          rw [hatt k]
          constructor
          · rintro ⟨a, b⟩; exact ⟨by omega, b⟩
          · rintro ⟨a, b⟩
            refine ⟨?_, b⟩
            rcases Nat.lt_or_eq_of_le (Nat.le_of_lt_succ a) with a | a
            · exact a
            · obtain rfl : k = p := Fin.ext (by omega)
              rw [h0] at b; exact absurd b (by decide)
        · intro k a b
          rcases Nat.lt_or_eq_of_le (Nat.le_of_lt_succ a) with a | a
          · exact hlt k a b
          · obtain rfl : k = p := Fin.ext (by omega)
            rw [h0] at b; exact absurd b (by decide)
      | true =>
        have h1 : byteAt (rec p) 0 = 1 := hft.1 hg
        have hne : byteAt (rec p) 0 ≠ 0 := by rw [h1]; decide
        simp only [if_true]
        cases hy : getTester (rec p) true with
        | none =>
          simp only [Option.isSome_none, Bool.false_eq_true, false_iff]
          rintro ⟨h | ⟨_, x, hx, _⟩, _⟩
          · exact hne h
          · cases hx
        | some x =>
          simp only [Bool.true_and]
          cases hc : testerConflict t f p x with
          | true =>
            simp only [if_true, Option.isSome_none, Bool.false_eq_true, false_iff]
            rintro ⟨h | ⟨_, x', hx, h⟩, _⟩
            · exact hne h
            · cases hx
              rw [(hconf x).2 h] at hc; cases hc
          | false =>
            simp only [Bool.false_eq_true, if_false]
            have hxa : x.attached = true := ((getTester_some _ _ _).1 hy).2.2.2.2.2.2.2.2.2.1
            rw [ih (m + 1) { t with testers := Vector.putRow t.testers p x } (by omega) ?_ ?_]
            · exact ⟨fun h => ⟨.inr ⟨h1, x, rfl, (hconf x).1 hc⟩, h⟩, fun h => h.2⟩
            · intro k
              simp only
              by_cases hkp : k = p
              · subst hkp
                simp [hxa, h1]; omega
              · rw [Vector.putRow_get_ne _ _ _ _ hkp, hatt k]
                have : k.val ≠ m := fun h => hkp (Fin.ext (by omega))
                constructor
                · rintro ⟨a, b⟩; exact ⟨by omega, b⟩
                · rintro ⟨a, b⟩; exact ⟨by omega, b⟩
            · intro k a b
              simp only
              by_cases hkp : k = p
              · subst hkp; simp [hy]
              · rw [Vector.putRow_get_ne _ _ _ _ hkp]
                exact hlt k (by have : k.val ≠ m := fun h => hkp (Fin.ext (by omega))
                                omega) b

/-- When the tables of the settings leaf load (R23), after a reset with no entry. -/
theorem readTablesLeaf_iff {f : Flow} {bs : List Byte} {t : Tables} (hf : ∀ k, f.hasEntry k = false)
    (ht : ∀ k, (t.testers.get k).attached = false) (he : ∀ e, (t.ecus.get e).valid = false) :
    let record := fun o size i : Nat => (bs.drop (o + size * i)).take size
    let node := fun p : Nat => byteAt bs (16 * p)
    let ecu := fun e : EcuIx => getEcu (record 0x218 32 e.val)
    let attach := fun k : Slot => byteAt bs (0x118 + 16 * k.val)
    let tester := fun k : Slot => getTester (record 0x118 16 k.val) (attach k == 1)
    let addr := fun x : Tester => match x.kind with | .bus => x.tbAddr | .relay | .job => x.vehicle
    ((readTablesLeaf f bs t).isSome = true ↔
      (∀ i : Fin 4, (getPort (record 0 16 i.val)).isSome = true)
      ∧ (∀ c : Fin 256, (byteAt bs (0x618 + c.val)).toNat < 6)
      ∧ (∀ e, ∃ x, ecu e = some x ∧ (x.valid = true → node (1 + x.port.val) ≠ x.node
        ∧ ∀ i : EcuIx, i.val < e.val → ∀ y, ecu i = some y → y.valid = true → y.node ≠ x.node))
      ∧ (∀ k, attach k = 0 ∧ (tester k).isSome = true ∨ attach k = 1 ∧ ∃ x, tester k = some x
        ∧ (∀ v : VbIx, node (1 + v.val) ≠ addr x) ∧ (∀ e y, ecu e = some y → y.valid = true → y.node ≠ addr x)
        ∧ (x.kind = .bus → node 0 ≠ x.tbAddr)
        ∧ ∀ j : Slot, j.val < k.val → attach j = 1 → ∀ y, tester j = some y → addr y ≠ addr x
          ∧ (x.kind = .relay → y.kind = .relay → y.relayId ≠ x.relayId)
          ∧ (x.kind = .job → y.kind = .job → y.jobCtx ≠ x.jobCtx)))
    ∧ ∀ u, readTablesLeaf f bs t = some u → u.dir = t.dir := by
  intro record node ecu attach tester addr
  have hcls : ∀ b : Byte, (getClass b).isSome = true ↔ b.toNat < 6 := by decide
  have hb : ∀ k : Slot, byteAt (record 0x118 16 k.val) 0 = attach k := fun k => by
    simp only [record, attach]; rw [byteAt_take_drop _ _ 16 0 (by omega), Nat.add_zero]
  have ht1 : ∀ k, attach k = 1 → tester k = getTester (record 0x118 16 k.val) true := fun k h => by
    simp only [tester, h]; rfl
  have ht0 : ∀ k, attach k = 0 → tester k = getTester (record 0x118 16 k.val) false := fun k h => by
    simp only [tester, h]; rfl
  have hpr : (getAll getPort (records 16 4 bs)).isSome = true ↔ ∀ i : Fin 4, (getPort (record 0 16 i.val)).isSome = true := by
    rw [getAll_records]; simp only [record, Nat.zero_add]
  have hcr : (getAll (fun r => getClass (byteAt r 0)) (records 1 256 (bs.drop 0x618))).isSome = true
      ↔ ∀ c : Fin 256, (byteAt bs (0x618 + c.val)).toNat < 6 := by
    rw [getAll_records]
    refine forall_congr' fun c => ?_
    rw [List.drop_drop, byteAt_take_drop _ _ 1 0 (by omega), hcls, Nat.one_mul, Nat.add_zero]
  cases hp : getAll getPort (records 16 4 bs) with
  | none =>
    rw [hp] at hpr
    have : readTablesLeaf f bs t = none := by simp [readTablesLeaf, hp]
    rw [this]
    exact ⟨⟨fun h => by simp at h, fun h => absurd (hpr.2 h.1) (by simp)⟩, fun u h => by cases h⟩
  | some ports =>
  cases hm : getAll (fun r => getClass (byteAt r 0)) (records 1 256 (bs.drop 0x618)) with
  | none =>
    rw [hm] at hcr
    have : readTablesLeaf f bs t = none := by simp [readTablesLeaf, hp, hm]
    rw [this]
    exact ⟨⟨fun h => by simp at h, fun h => absurd (hcr.2 h.2.1) (by simp)⟩, fun u h => by cases h⟩
  | some map =>
  rw [hp] at hpr; rw [hm] at hcr
  have hpr' := hpr.1 rfl
  have hcr' := hcr.1 rfl
  let t0 : Tables := { t with ports := vectorOf ports .reset, classMap := vectorOf map .barred }
  have hnode : ∀ i : Fin 4, (t0.ports.get i).node = node i.val := by
    intro i
    have h := ((getPort_some _ _).1 (vectorOf_records PortSettings.reset hp i)).1
    rw [byteAt_take_drop _ _ 16 0 (by omega), Nat.add_zero] at h
    exact h
  have hvb : ∀ v : VbIx, (t0.port (.vb v)).node = node (1 + v.val) := fun v => by
    exact (hnode v.succ).trans (by simp [Nat.add_comm])
  have htb : (t0.port .tb).node = node 0 := hnode 0
  have hE := loadEcus_iff (rec := fun e => record 0x218 32 e.val) hf 32 0 t0 rfl ht (fun e h => absurd h (by omega))
    (fun e _ => he e)
  simp only [List.drop_zero, Nat.zero_le, forall_true_left, hvb] at hE
  have hread : readTablesLeaf f bs t = (loadEcus f (recordsAt 32 32 0x218 bs) t0).bind fun t =>
      (loadTesters f true (recordsAt 16 16 0x118 bs) t).bind fun t => loadTesters f false (recordsAt 16 16 0x118 bs) t := by
    simp [readTablesLeaf, hp, hm, t0]
  rw [hread]
  have hEr : recordsAt 32 32 0x218 bs = (List.finRange 32).map fun e => (e, record 0x218 32 e.val) := rfl
  have hTr : recordsAt 16 16 0x118 bs = (List.finRange 16).map fun k => (k, record 0x118 16 k.val) := rfl
  rw [hEr, hTr]
  cases hl : loadEcus f ((List.finRange 32).map fun e => (e, record 0x218 32 e.val)) t0 with
  | none =>
    rw [hl] at hE
    exact ⟨⟨fun h => by simp at h, fun h => absurd (hE.2 h.2.2.1) (by simp)⟩, fun u h => by cases h⟩
  | some t1 =>
  rw [hl] at hE
  have hE' := hE.1 rfl
  obtain ⟨⟨va, hva⟩, ha2, _⟩ := loadEcus_some (f := f) hl (by
    rw [List.map_map]; exact (List.map_id (List.finRange 32)).symm ▸ List.nodup_finRange _)
  have hecu : ∀ e, ecu e = some (t1.ecus.get e) := fun e => ha2 _ (List.mem_map.2 ⟨e, List.mem_finRange e, rfl⟩)
  have hatt : ∀ k, (t1.testers.get k).attached = false := by rw [hva]; exact ht
  have hA := loadAttached_iff (rec := fun k => record 0x118 16 k.val) hf 16 0 t1 rfl
    (fun k => by rw [hatt k]; simp) (fun k h => absurd h (by omega))
  simp only [List.drop_zero, Nat.zero_le, forall_true_left, hb] at hA
  have hvb1 : ∀ v : VbIx, (t1.port (.vb v)).node = node (1 + v.val) := by rw [hva]; exact hvb
  have htb1 : (t1.port .tb).node = node 0 := by rw [hva]; exact htb
  simp only [hvb1, htb1] at hA
  have haddr : ∀ x : Tester, x.vsAddr = addr x := fun x => rfl
  simp only [haddr] at hA
  have hecus : ∀ (a : Byte), (∀ e, (t1.ecus.get e).valid = true → (t1.ecus.get e).node ≠ a)
      ↔ ∀ e y, ecu e = some y → y.valid = true → y.node ≠ a := by
    intro a
    refine forall_congr' fun e => ?_
    rw [hecu]
    exact ⟨fun h y hy => by cases hy; exact h, fun h => h _ rfl⟩
  simp only [hecus] at hA
  have hT : (∀ k, attach k = 0 ∧ (tester k).isSome = true ∨ attach k = 1 ∧ ∃ x, tester k = some x
        ∧ (∀ v : VbIx, node (1 + v.val) ≠ addr x) ∧ (∀ e y, ecu e = some y → y.valid = true → y.node ≠ addr x)
        ∧ (x.kind = .bus → node 0 ≠ x.tbAddr)
        ∧ ∀ j : Slot, j.val < k.val → attach j = 1 → ∀ y, tester j = some y → addr y ≠ addr x
          ∧ (x.kind = .relay → y.kind = .relay → y.relayId ≠ x.relayId)
          ∧ (x.kind = .job → y.kind = .job → y.jobCtx ≠ x.jobCtx))
      ↔ (loadTesters f true ((List.finRange 16).map fun k => (k, record 0x118 16 k.val)) t1).isSome = true
        ∧ ∀ k, attach k = 1 ∨ attach k = 0 ∧ (getTester (record 0x118 16 k.val) false).isSome = true := by
    rw [hA]
    constructor
    · intro h
      refine ⟨fun k => ?_, fun k => ?_⟩
      · rcases h k with h | ⟨h1, x, h2, h3, h4, h5, h6⟩
        · exact .inl h.1
        · exact .inr ⟨h1, x, by rw [← ht1 k h1]; exact h2, h3, h4, h5,
            fun j hj hj1 y hy => h6 j hj hj1 y (by rw [ht1 j hj1]; exact hy)⟩
      · rcases h k with h | h
        · exact .inr ⟨h.1, by rw [← ht0 k h.1]; exact h.2⟩
        · exact .inl h.1
    · rintro ⟨h1, h2⟩ k
      rcases h2 k with h | ⟨h, hs⟩
      · rcases h1 k with h' | ⟨_, x, h2, h3, h4, h5, h6⟩
        · rw [h] at h'; exact absurd h' (by decide)
        · exact .inr ⟨h, x, by rw [ht1 k h]; exact h2, h3, h4, h5,
            fun j hj hj1 y hy => h6 j hj hj1 y (by rw [← ht1 j hj1]; exact hy)⟩
      · exact .inl ⟨h, by rw [ht0 k h]; exact hs⟩
  rw [hT]
  cases hl2 : loadTesters f true ((List.finRange 16).map fun k => (k, record 0x118 16 k.val)) t1 with
  | none =>
    refine ⟨⟨fun h => by simp [hl2] at h, fun h => absurd h.2.2.2.1 (by simp)⟩, fun u h => by simp [hl2] at h⟩
  | some t2 =>
  obtain ⟨⟨vb, hvb2⟩, _⟩ := loadTesters_some (f := f) hl2 (by
    rw [List.map_map]; exact (List.map_id (List.finRange 16)).symm ▸ List.nodup_finRange _)
  have hD := loadDetached_iff (f := f) ((List.finRange 16).map fun k => (k, record 0x118 16 k.val)) t2
  have hD' : (loadTesters f false ((List.finRange 16).map fun k => (k, record 0x118 16 k.val)) t2).isSome = true
      ↔ ∀ k, attach k = 1 ∨ attach k = 0 ∧ (getTester (record 0x118 16 k.val) false).isSome = true := by
    rw [hD]
    simp only [List.forall_mem_map, List.mem_finRange, forall_true_left, hb]
  simp only [Option.bind_some, hl2]
  constructor
  · rw [hD']
    exact ⟨fun h => ⟨hpr', hcr', hE', rfl, h⟩, fun h => h.2.2.2.2⟩
  · intro u hu
    obtain ⟨⟨vc, hvc⟩, _⟩ := loadTesters_some (f := f) hu (by
      rw [List.map_map]; exact (List.map_id (List.finRange 16)).symm ▸ List.nodup_finRange _)
    rw [hvc, hvb2, hva]

/-- When the settings leaf passes (R23, R38, R74, R139, R188, R196). -/
theorem readSettings_iff {f : Flow} {bs : List Byte} {t : Tables} (hf : ∀ k, f.hasEntry k = false)
    (ht : ∀ k, (t.testers.get k).attached = false) (he : ∀ e, (t.ecus.get e).valid = false) :
    let record := fun o size i : Nat => (bs.drop (o + size * i)).take size
    let node := fun p : Nat => byteAt bs (16 * p)
    let ecu := fun e : EcuIx => getEcu (record 0x218 32 e.val)
    let attach := fun k : Slot => byteAt bs (0x118 + 16 * k.val)
    let tester := fun k : Slot => getTester (record 0x118 16 k.val) (attach k == 1)
    let addr := fun x : Tester => match x.kind with | .bus => x.tbAddr | .relay | .job => x.vehicle
    let flag := fun b : Byte => b = 0 ∨ b = 1
    let threshold := fun a : Nat => numAt bs (0xB0 + 2 * a) 2
    (readSettings f bs t).isSome = true ↔
      (∀ c : Fin 256, (byteAt bs (0x618 + c.val)).toNat < 6)
      ∧ (∀ e, ∃ x, ecu e = some x ∧ (x.valid = true → node (1 + x.port.val) ≠ x.node
        ∧ ∀ i : EcuIx, i.val < e.val → ∀ y, ecu i = some y → y.valid = true → y.node ≠ x.node))
      ∧ (∀ k, attach k = 0 ∧ (tester k).isSome = true ∨ attach k = 1 ∧ ∃ x, tester k = some x
        ∧ (∀ v : VbIx, node (1 + v.val) ≠ addr x) ∧ (∀ e y, ecu e = some y → y.valid = true → y.node ≠ addr x)
        ∧ (x.kind = .bus → node 0 ≠ x.tbAddr)
        ∧ ∀ j : Slot, j.val < k.val → attach j = 1 → ∀ y, tester j = some y → addr y ≠ addr x
          ∧ (x.kind = .relay → y.kind = .relay → y.relayId ≠ x.relayId)
          ∧ (x.kind = .job → y.kind = .job → y.jobCtx ≠ x.jobCtx))
      ∧ (∀ i < 6, (getDuration bs (0x50 + 4 * i)).isSome = true ∧ (getDuration bs (0x52 + 4 * i)).isSome = true)
      ∧ (getTimeout bs 0x4A).isSome = true ∧ numAt bs 0x42 2 ≤ 255
      ∧ (∀ a < 51, threshold a ≤ 1024) ∧ ((List.range 48).map threshold).sum ≤ 1024
      ∧ (∀ i < 4, (getPort (record 0 16 i)).isSome = true)
      ∧ flag (byteAt bs 0x41) ∧ (getDuration bs 0x48).isSome = true ∧ (∀ i < 4, (getProbe (record 0x70 16 i)).isSome = true)
      ∧ flag (byteAt bs 0x68) ∧ (byteAt bs 0x69).toNat < 64 ∧ numAt bs 0x6A 2 ≤ 4096
      ∧ (t.captureRing = none → byteAt bs 0x41 = 0 ∧ byteAt bs 0x68 = 0 ∧ ∀ i < 4, byteAt bs (0x70 + 16 * i) = 0)
      ∧ (getDuration bs 0x44).isSome = true ∧ (getDuration bs 0x46).isSome = true
      ∧ (t.relayOutRing.isSome = true → (getTimeout bs 0x46).isSome = true) ∧ numAt bs 0x4C 4 < 2 ^ 11 := by
  intro record node ecu attach tester addr flag threshold
  obtain ⟨hT, hdir⟩ := readTablesLeaf_iff (bs := bs) hf ht he
  have hF : ∀ b : Byte, (getFlag b).isSome = true ↔ flag b := by decide
  have fin : ∀ (n : Nat) (P : Nat → Prop), (∀ i < n, P i) ↔ ∀ i : Fin n, P i.val :=
    fun n P => ⟨fun h i => h i.val i.isLt, fun h i hi => h ⟨i, hi⟩⟩
  have hC : (getAll getTimes (records 4 6 (bs.drop 0x50))).isSome = true
      ↔ ∀ i < 6, (getDuration bs (0x50 + 4 * i)).isSome = true ∧ (getDuration bs (0x52 + 4 * i)).isSome = true := by
    rw [getAll_records, fin]
    refine forall_congr' fun i => ?_
    have h1 : getDuration ((bs.drop (0x50 + 4 * i.val)).take 4) 0 = getDuration bs (0x50 + 4 * i.val) := by
      unfold getDuration; rw [numAt_take_drop _ _ _ _ _ (by omega)]; rfl
    have h2 : getDuration ((bs.drop (0x50 + 4 * i.val)).take 4) 2 = getDuration bs (0x52 + 4 * i.val) := by
      unfold getDuration
      rw [numAt_take_drop _ _ _ _ _ (by omega), show 0x50 + 4 * i.val + 2 = 0x52 + 4 * i.val by omega]
    rw [List.drop_drop, getTimes, h1, h2]
    cases getDuration bs (0x50 + 4 * i.val) <;> cases getDuration bs (0x52 + 4 * i.val) <;> simp
  have hA : (getAll getThreshold (records 2 51 (bs.drop 0xB0))).isSome = true ↔ ∀ a < 51, threshold a ≤ 1024 := by
    rw [getAll_records, fin]
    refine forall_congr' fun i => ?_
    rw [List.drop_drop, getThreshold, numAt_take_drop _ _ _ _ _ (by omega), Nat.add_zero, inRange]
    by_cases h : threshold i.val ≤ 1024
    · rw [if_pos ⟨by omega, h⟩]; simp [h]
    · rw [if_neg (fun c => h c.2)]; simp [h]
  have hP : (∀ i : Fin 4, (getPort (record 0 16 i.val)).isSome = true) ↔ ∀ i < 4, (getPort (record 0 16 i)).isSome = true :=
    (fin 4 fun i => (getPort (record 0 16 i)).isSome = true).symm
  have hB : (getAll getProbe (records 16 4 (bs.drop 0x70))).isSome = true
      ↔ ∀ i < 4, (getProbe (record 0x70 16 i)).isSome = true := by
    rw [getAll_records, fin]; simp only [List.drop_drop, record]
  rw [hP] at hT
  have hsum : ∀ conds, getAll getThreshold (records 2 51 (bs.drop 0xB0)) = some conds →
      (thresholdsFit (vectorOf conds 0) = true ↔ ((List.range 48).map threshold).sum ≤ 1024) := by
    intro th hth
    have hget : ∀ a : AccountIx, (vectorOf (n := 51) th 0).get a = threshold a.val := by
      intro a
      have := vectorOf_records 0 hth a
      rw [List.drop_drop] at this
      have := (inRange_some _ _ _ _).1 this
      rw [numAt_take_drop _ _ _ _ _ (by omega), Nat.add_zero] at this
      exact this.2.2.symm
    rw [thresholdsFit, decide_eq_true_eq, sumReserve]
    simp only [hget]
    rw [show ((List.finRange 48).map fun i => threshold i.val) = (List.range 48).map threshold by
      rw [← List.map_coe_finRange_eq_range, List.map_map]; rfl]
  have hprobe : ∀ ps, getAll getProbe (records 16 4 (bs.drop 0x70)) = some ps →
      (ps.any (·.enabled) = false ↔ ∀ i < 4, byteAt bs (0x70 + 16 * i) = 0) := by
    intro ps hps
    obtain ⟨h1, h2⟩ := getAll_mem hps
    rw [records_eq] at h1 h2
    simp only [List.mem_map, List.mem_finRange, true_and, List.drop_drop] at h1 h2
    have hbyte : ∀ (i : Nat) (x : Probe), getProbe ((bs.drop (0x70 + 16 * i)).take 16) = some x →
        (x.enabled = false ↔ byteAt bs (0x70 + 16 * i) = 0) := by
      intro i x hx
      have := ((getProbe_some _ _).1 hx).1
      rw [byteAt_take_drop _ _ 16 0 (by omega), Nat.add_zero] at this
      rw [this]; cases x.enabled <;> simp
    rw [List.any_eq_false]
    constructor
    · intro h i hi
      obtain ⟨x, hx, hg⟩ := h2 _ ⟨⟨i, hi⟩, rfl⟩
      exact (hbyte i x hg).1 (by simpa using h x hx)
    · intro h x hx
      obtain ⟨r, ⟨i, rfl⟩, hg⟩ := h1 x hx
      rw [(hbyte i.val x hg).2 (h i.val i.isLt)]; simp
  have hS : ∀ a b n, (getSampler a b n).isSome = true ↔ flag a ∧ b.toNat < 64 ∧ n ≤ 4096 := by
    intro a b n
    rw [← hF, getSampler]
    cases getFlag a with
    | none => simp
    | some x =>
      have h2 : getSet 6 b = if b.toNat < 64 then some (BitVec.ofNat 6 b.toNat) else none := rfl
      have h3 : inRange 0 4096 n = if n ≤ 4096 then some n else none := by simp [inRange]
      rw [h2, h3]
      by_cases hb' : b.toNat < 64 <;> by_cases hn' : n ≤ 4096 <;> simp [hb', hn']
  have hSe : ∀ a b n x, getSampler a b n = some x → (x.enabled = false ↔ a = 0) := by
    intro a b n x h
    simp only [getSampler, Option.bind_eq_bind, Option.bind_eq_some_iff, Option.some.injEq] at h
    obtain ⟨e, he, _, _, _, _, rfl⟩ := h
    have := (getFlag_some _ _).1 he
    rw [this]; cases e <;> simp
  have hM : (getMask (numAt bs 0x4C 4)).isSome = true ↔ numAt bs 0x4C 4 < 2 ^ 11 := by
    unfold getMask
    by_cases h : numAt bs 0x4C 4 < 2 ^ 11
    · rw [if_pos h]; simp only [Option.isSome_some, h]
    · rw [if_neg h]; simp only [Option.isSome_none, h, Bool.false_eq_true]
  have hSt : (inRange 0 255 (numAt bs 0x42 2)).isSome = true ↔ numAt bs 0x42 2 ≤ 255 := by
    unfold inRange
    by_cases h : numAt bs 0x42 2 ≤ 255
    · rw [if_pos ⟨Nat.zero_le _, h⟩]; simp only [Option.isSome_some, h]
    · rw [if_neg (fun c => h c.2)]; simp only [Option.isSome_none, h, Bool.false_eq_true]
  have hFl : ∀ x, getFlag (byteAt bs 0x41) = some x → (x = false ↔ byteAt bs 0x41 = 0) := by
    intro x h
    have := (getFlag_some _ _).1 h
    rw [this]; cases x <;> simp
  have hRf : ∀ x, getDuration bs 0x46 = some x → ((getTimeout bs 0x46).isSome = true ↔ x.isZero = false) := by
    intro x h
    rw [getTimeout, h]; cases hz : x.isZero <;> simp [hz]
  constructor
  · intro h
    obtain ⟨r, h⟩ := Option.isSome_iff_exists.1 h
    unfold readSettings at h
    simp only [Option.bind_eq_bind, Option.bind_eq_some_iff] at h
    obtain ⟨t1, ht1, conds, hc, window, hw, ths, hth, h⟩ := h
    split at h
    · cases h
    rename_i hfit
    simp only [Option.bind_eq_some_iff] at h
    obtain ⟨t2, ht2, scan, hsc, rf, hrf, mask, hma, still, hst, h⟩ := h
    split at h
    · cases h
    rename_i hflush
    unfold readCaptureLeaf at ht2
    simp only [Option.bind_eq_bind, Option.bind_eq_some_iff] at ht2
    obtain ⟨ec, hec, cf, hcf, probes, hpr, sa, hsa, ht2⟩ := ht2
    split at ht2
    · cases ht2
    rename_i hring
    cases ht2
    obtain ⟨h1, h2, h3, h4⟩ := hT.1 (by rw [ht1]; rfl)
    obtain ⟨h5, h6, h7⟩ := (hS _ _ _).1 (by rw [hsa]; rfl)
    refine ⟨h2, h3, h4, hC.1 (by rw [hc]; rfl), by rw [hw]; rfl, hSt.1 (by rw [hst]; rfl), hA.1 (by rw [hth]; rfl), ?_, h1,
      (hF _).1 (by rw [hec]; rfl), by rw [hcf]; rfl, hB.1 (by rw [hpr]; rfl), h5, h6, h7, ?_, by rw [hsc]; rfl,
      by rw [hrf]; rfl, ?_, hM.1 (by rw [hma]; rfl)⟩
    · rw [← hsum ths hth]
      simpa using hfit
    · intro hr
      have : t1.captureRing = none := by rw [Tables.captureRing, hdir t1 ht1]; exact hr
      simp only [Tables.captureRing] at this hring
      rw [this] at hring
      simp only [Option.isNone_none, Bool.and_true, Bool.not_eq_true, Bool.or_eq_false_iff] at hring
      exact ⟨(hFl _ hec).1 hring.1.1, (hSe _ _ _ _ hsa).1 hring.1.2, (hprobe _ hpr).1 hring.2⟩
    · intro hr
      rw [hRf _ hrf]
      have : t1.relayOutRing.isSome = true := by rw [Tables.relayOutRing, hdir t1 ht1]; exact hr
      simp only [Tables.relayOutRing] at this hflush
      rw [this] at hflush
      simpa using hflush
  · rintro ⟨h2, h3, h4, c1, c2, c3, c4, c5, h1, c6, c7, c8, c9, c10, c11, c12, c13, c14, c15, c16⟩
    obtain ⟨t1, ht1⟩ := Option.isSome_iff_exists.1 (hT.2 ⟨h1, h2, h3, h4⟩)
    obtain ⟨conds, hc⟩ := Option.isSome_iff_exists.1 (hC.2 c1)
    obtain ⟨window, hw⟩ := Option.isSome_iff_exists.1 c2
    obtain ⟨still, hst⟩ := Option.isSome_iff_exists.1 (hSt.2 c3)
    obtain ⟨ths, hth⟩ := Option.isSome_iff_exists.1 (hA.2 c4)
    obtain ⟨ec, hec⟩ := Option.isSome_iff_exists.1 ((hF _).2 c6)
    obtain ⟨cf, hcf⟩ := Option.isSome_iff_exists.1 c7
    obtain ⟨probes, hpr⟩ := Option.isSome_iff_exists.1 (hB.2 c8)
    obtain ⟨sa, hsa⟩ := Option.isSome_iff_exists.1 ((hS _ _ _).2 ⟨c9, c10, c11⟩)
    obtain ⟨scan, hsc⟩ := Option.isSome_iff_exists.1 c13
    obtain ⟨rf, hrf⟩ := Option.isSome_iff_exists.1 c14
    obtain ⟨mask, hma⟩ := Option.isSome_iff_exists.1 (hM.2 c16)
    have hfit := (hsum ths hth).2 c5
    have hring : ((ec || sa.enabled || probes.any (·.enabled)) && (t1.dir.bind (·.capture)).isNone) = false := by
      rw [hdir t1 ht1]
      cases hr : t.dir.bind (·.capture) with
      | some r => simp
      | none =>
        obtain ⟨d1, d2, d3⟩ := c12 hr
        rw [(hFl _ hec).2 d1, (hSe _ _ _ _ hsa).2 d2, (hprobe _ hpr).2 d3]; rfl
    have hflush : ((t1.dir.bind (·.relayOut)).isSome && rf.isZero) = false := by
      rw [hdir t1 ht1]
      cases hr : (t.dir.bind (·.relayOut)).isSome with
      | false => rfl
      | true => rw [Bool.true_and]; exact (hRf _ hrf).1 (c15 hr)
    simp only [readSettings, readCaptureLeaf, Option.bind_eq_bind, Option.bind_some, ht1, hc, hw, hst, hth, hec, hcf, hpr, hsa,
      hsc, hrf, hma, hfit, Tables.captureRing, Tables.relayOutRing, hring, hflush, Bool.not_true, Bool.false_eq_true, if_false,
      Option.isSome_some]
/-- STARTING reads the settings leaf against tables with no tester, no valid entry and no request (R23). -/
theorem readStarting_of_ok {s : State} {d : Directory} (hd : readDirectory s.flow.ram s.xbase.toNat = .ok d) :
    ∃ (f : Flow) (t : Tables), (∀ k, f.hasEntry k = false) ∧ (∀ k, (t.testers.get k).attached = false)
      ∧ (∀ e, (t.ecus.get e).valid = false) ∧ t.dir = some d
      ∧ (readSettings f (ramRead s.flow.ram d.settings 1816) t = none → readStarting s = .error .badSettings)
      ∧ ∀ x, readSettings f (ramRead s.flow.ram d.settings 1816) t = some x → readStarting s = .ok x := by
  refine ⟨{ Flow.reset with ram := s.flow.ram }, { Tables.reset with now := s.tab.now, ctl := .running, dir := some d },
    ?_, ?_, ?_, rfl, fun h => ?_, fun x h => ?_⟩
  rotate_left 3
  · unfold readStarting
    rw [hd]
    simp only at h ⊢
    rw [h]
  · unfold readStarting
    rw [hd]
    simp only at h ⊢
    rw [h]
  · intro k
    simp only [Flow.hasEntry, List.any_eq_false]
    intro x hx
    simp [Flow.reset] at hx
    subst hx; simp
  · intro k; simp [Tables.reset, Tester.reset, Vector.get]
  · intro k; simp [Tables.reset, Ecu.reset, Vector.get]

/-- What STARTING makes of the settings leaf (R196, R23, R38, R74, R139, R188). -/
theorem readStarting_eq (s : State) :
    (∀ c, readDirectory s.flow.ram s.xbase.toNat = .error c → readStarting s = .error c)
    ∧ ∀ d, readDirectory s.flow.ram s.xbase.toNat = .ok d →
    let bs := ramRead s.flow.ram d.settings 1816
    let record := fun o size i : Nat => (bs.drop (o + size * i)).take size
    let node := fun p : Nat => byteAt bs (16 * p)
    let ecu := fun e : EcuIx => getEcu (record 0x218 32 e.val)
    let attach := fun k : Slot => byteAt bs (0x118 + 16 * k.val)
    let tester := fun k : Slot => getTester (record 0x118 16 k.val) (attach k == 1)
    let addr := fun x : Tester => match x.kind with | .bus => x.tbAddr | .relay | .job => x.vehicle
    let flag := fun b : Byte => b = 0 ∨ b = 1
    let threshold := fun a : Nat => numAt bs (0xB0 + 2 * a) 2
    let good :=
      (∀ c : Fin 256, (byteAt bs (0x618 + c.val)).toNat < 6)
      ∧ (∀ e, ∃ x, ecu e = some x ∧ (x.valid = true → node (1 + x.port.val) ≠ x.node
        ∧ ∀ i : EcuIx, i.val < e.val → ∀ y, ecu i = some y → y.valid = true → y.node ≠ x.node))
      ∧ (∀ k, attach k = 0 ∧ (tester k).isSome = true ∨ attach k = 1 ∧ ∃ x, tester k = some x
        ∧ (∀ v : VbIx, node (1 + v.val) ≠ addr x) ∧ (∀ e y, ecu e = some y → y.valid = true → y.node ≠ addr x)
        ∧ (x.kind = .bus → node 0 ≠ x.tbAddr)
        ∧ ∀ j : Slot, j.val < k.val → attach j = 1 → ∀ y, tester j = some y → addr y ≠ addr x
          ∧ (x.kind = .relay → y.kind = .relay → y.relayId ≠ x.relayId)
          ∧ (x.kind = .job → y.kind = .job → y.jobCtx ≠ x.jobCtx))
      ∧ (∀ i < 6, (getDuration bs (0x50 + 4 * i)).isSome = true ∧ (getDuration bs (0x52 + 4 * i)).isSome = true)
      ∧ (getTimeout bs 0x4A).isSome = true ∧ numAt bs 0x42 2 ≤ 255
      ∧ (∀ a < 51, threshold a ≤ 1024) ∧ ((List.range 48).map threshold).sum ≤ 1024
      ∧ (∀ i < 4, (getPort (record 0 16 i)).isSome = true)
      ∧ flag (byteAt bs 0x41) ∧ (getDuration bs 0x48).isSome = true ∧ (∀ i < 4, (getProbe (record 0x70 16 i)).isSome = true)
      ∧ flag (byteAt bs 0x68) ∧ (byteAt bs 0x69).toNat < 64 ∧ numAt bs 0x6A 2 ≤ 4096
      ∧ (d.capture = none → byteAt bs 0x41 = 0 ∧ byteAt bs 0x68 = 0 ∧ ∀ i < 4, byteAt bs (0x70 + 16 * i) = 0)
      ∧ (getDuration bs 0x44).isSome = true ∧ (getDuration bs 0x46).isSome = true
      ∧ (d.relayOut.isSome = true → (getTimeout bs 0x46).isSome = true) ∧ numAt bs 0x4C 4 < 2 ^ 11
    (good → ∃ x, readStarting s = .ok x) ∧ (¬good → readStarting s = .error .badSettings) := by
  refine ⟨fun c h => by rw [readStarting, h], fun d hd => ?_⟩
  intro bs record node ecu attach tester addr flag threshold good
  obtain ⟨f, t, hf, ht, he, htd, hbad, hok⟩ := readStarting_of_ok hd
  have hiff : (readSettings f bs t).isSome = true ↔ good := by
    have := readSettings_iff (bs := bs) hf ht he
    simp only [Tables.captureRing, Tables.relayOutRing, htd, Option.bind_some] at this
    exact this
  rw [← hiff]
  refine ⟨fun h => ?_, fun h => hbad (by simpa using h)⟩
  obtain ⟨x, hx⟩ := Option.isSome_iff_exists.1 h
  exact ⟨x, hok x hx⟩

end Sys2Proof.Machine
end

