-- ==== Sys2Proof/Laws/Stopping.lean ====
section
/-! SUPPORT. What ends claims and jobs: a released claim is in force no longer, an ended job is idle, and what the entry
events of STOPPING (R197) leave behind. -/

namespace Sys2Proof.Machine

/-! ### Claims (R128) -/

/-- What keeps the traffic brings no claim into force. -/
theorem Flow.Keeps.notInForce {f g : Flow} (h : f.Keeps g) (e : EcuIx) (hf : (f.claims.get e).inForce = false) :
    (g.claims.get e).inForce = false := by
  by_contra hc
  have hc' : (g.claims.get e).inForce = true := by simpa using hc
  have := (h.claims e hc').inForce
  rw [hf, hc'] at this; cases this

/-- Offering an event record changes no claim. -/
theorem event_claims (t : Tables) (n : Nat) (f : Flow) (c : CaptureRecord) : (event t n f c).claims = f.claims := by
  have h1 : ∀ (f : Flow) n, (captureRoom t f n).2.claims = f.claims := by
    intro f n; unfold captureRoom; split <;> rfl
  have h2 : ∀ (f : Flow) c, (captureWrite t f c).claims = f.claims := by
    intro f n; unfold captureWrite; split
    · rfl
    · dsimp only; split <;> rfl
  have h3 : ∀ (f : Flow), (captureLost f).claims = f.claims := fun f => rfl
  have h4 : ∀ (f : Flow) c, (captureOffer t f c).claims = f.claims := by
    intro f n; unfold captureOffer; dsimp only; split <;> simp [h1, h2, h3]
  unfold event; dsimp only
  split_ifs <;> simp [h1, h2, h3, h4]

/-- The effects of a claim change change no claim record. -/
theorem claimChanged_claims (t : Tables) (n : Nat) (f : Flow) (e : EcuIx) (ev : ClaimEvent) (r : Option Byte)
    (c : List Byte) : (claimChanged t n f e ev r c).claims = f.claims := by
  simp only [claimChanged, claimReport, event_claims]; rfl

/-- A released claim is in force no longer. -/
theorem claimRelease_notInForce (t : Tables) (n : Nat) (b : Bool) (f : Flow) (e : EcuIx) (c : ReleaseCause) :
    ((claimRelease t n b f e c).claims.get e).inForce = false := by
  by_cases h : (f.claims.get e).inForce = true
  · simp only [claimRelease, h, if_true]
    set g := claimChanged t n (f.modClaim e fun c' =>
      { c' with state := .closing, cause := some c, holdOff := none, phase := some .waitEntry }) e .released
      (some c.byte) [] with hg
    have : (g.claims.get e).inForce = false := by
      rw [hg, claimChanged_claims]; simp [Flow.modClaim, Claim.inForce]
    split
    · exact this
    · exact (closingProceeds_keeps t n g e).notInForce e this
  · simp only [claimRelease, h]; simpa using h

/-- A fold that ends the claims it reaches leaves none of them in force. -/
theorem foldl_notInForce (u : Flow → EcuIx → Flow) (hk : ∀ (f : Flow) e, f.Keeps (u f e))
    (hu : ∀ f e, ((u f e).claims.get e).inForce = false) (xs : List EcuIx) (f : Flow) :
    ∀ e ∈ xs, ((xs.foldl u f).claims.get e).inForce = false := by
  induction xs generalizing f with
  | nil => simp
  | cons a as ih =>
    intro e he
    rcases List.mem_cons.mp he with rfl | h
    · exact (Flow.Keeps.foldl u hk as (u f e)).notInForce e (hu f e)
    · exact ih (u f a) e h

theorem releaseAll_notInForce (t : Tables) (p : EcuIx → Bool) (f : Flow) (e : EcuIx) (h : p e = true) :
    ((releaseAll t p f).claims.get e).inForce = false :=
  foldl_notInForce _ (fun f e => claimRelease_keeps t 0 false f e _)
    (fun f e => claimRelease_notInForce t 0 false f e _) _ f e (List.mem_filter.mpr ⟨List.mem_finRange e, h⟩)

theorem releaseAll_keeps (t : Tables) (p : EcuIx → Bool) (f : Flow) : f.Keeps (releaseAll t p f) :=
  Flow.Keeps.foldl _ (fun f e => claimRelease_keeps t 0 false f e _) _ f

/-! ### Jobs (R173, R174) -/

/-- Running one act is doing it and running what it causes. -/
theorem settle_one (t : Tables) (a : Act) (f : Flow) :
    settle t [a] f = settleFor t 99999 (act t a f).2 (act t a f).1 := by
  rw [settle, actLimit, settleFor]; simp

/-- What keeps the traffic leaves an idle job idle. -/
theorem Flow.Keeps.idle {f g : Flow} (k : f.Keeps g) (i : JobIx) (h : (f.jobs.get i).state = .idle) :
    (g.jobs.get i).state = .idle := by
  rcases k.jobs i with h' | ⟨h1, h2⟩
  · exact h'
  · exact absurd h h1

/-- What keeps the traffic leaves every job that goes on with a slot. -/
theorem Flow.Keeps.jobSlots {f g : Flow} (k : f.Keeps g)
    (h : ∀ i, (f.jobs.get i).active = true → (f.jobs.get i).slot.isSome) :
    ∀ i, (g.jobs.get i).active = true → (g.jobs.get i).slot.isSome := by
  intro i ha
  rcases k.jobs i with h' | ⟨h1, h2⟩
  · simp [Job.active, h'] at ha
  · rw [h2]; exact h i (by simpa [Job.active] using h1)

/-- An ended job is idle. -/
theorem jobEnds_idle (t : Tables) (f : Flow) (j : JobIx) (c : EndCode) (r : Byte) (l : Nat)
    (h : (f.jobs.get j).active = true → (f.jobs.get j).slot.isSome) :
    ((jobEnds t f j c r l).1.jobs.get j).state = .idle := by
  by_cases ha : (f.jobs.get j).active = true
  · obtain ⟨k, hs⟩ := Option.isSome_iff_exists.mp (h ha)
    simp only [jobEnds, hs, ha, Bool.not_true, Bool.false_eq_true, if_false]
    rcases (event_keeps t 0 _ _).jobs j with h | h
    · exact h
    · exfalso; revert h; simp [Flow.setNews, Flow.modJob, Job.reset]
  · have hi : (f.jobs.get j).state = .idle := by simpa [Job.active] using ha
    exact (jobEnds_keeps t f j c r l).idle j hi

/-- A fold that ends the jobs it reaches leaves each of them idle. -/
theorem foldl_idle (u : Flow → JobIx → Flow) (hk : ∀ (f : Flow) j, f.Keeps (u f j))
    (hu : ∀ (f : Flow) j, ((f.jobs.get j).active = true → (f.jobs.get j).slot.isSome) →
      ((u f j).jobs.get j).state = .idle)
    (xs : List JobIx) (f : Flow) (h : ∀ i, (f.jobs.get i).active = true → (f.jobs.get i).slot.isSome) :
    ∀ j ∈ xs, ((xs.foldl u f).jobs.get j).state = .idle := by
  induction xs generalizing f with
  | nil => simp
  | cons a as ih =>
    intro j hj
    rcases List.mem_cons.mp hj with rfl | h'
    · exact (Flow.Keeps.foldl u hk as (u f j)).idle j (hu f j (h j))
    · exact ih (u f a) ((hk f a).jobSlots h) j h'

theorem stopJobs_idle (t : Tables) (p : JobIx → Bool) (f : Flow)
    (h : ∀ i, (f.jobs.get i).active = true → (f.jobs.get i).slot.isSome) (j : JobIx) (hp : p j = true) :
    ((stopJobs t p f).jobs.get j).state = .idle := by
  refine foldl_idle _ (fun f j => settle_keeps t _ f) ?_ _ f h j (List.mem_filter.mpr ⟨List.mem_finRange j, hp⟩)
  intro f j h
  rw [settle_one]
  exact (settleFor_keeps _ _ _ _).idle j (jobEnds_idle t f j _ _ _ h)

theorem stopJobs_keeps (t : Tables) (p : JobIx → Bool) (f : Flow) : f.Keeps (stopJobs t p f) :=
  Flow.Keeps.foldl _ (fun f _ => settle_keeps t _ f) _ f

theorem refuseHeads_keeps (t : Tables) (f : Flow) : f.Keeps (refuseHeads t f) :=
  Flow.Keeps.foldl _ (fun f k => (refuseHeldHead_keeps t f k).trans (settled_keeps t _)) _ f

theorem controllerRecord_keeps (t : Tables) (f : Flow) (o : Byte) (r : Option Byte) :
    f.Keeps (controllerRecord t f o r) :=
  (event_keeps _ _ _ _).trans (captureCommit_keeps _ _)

/-! ### The relay channel (R202) -/

/-- With a relay inbound ring, the channel that stops reading is within no page and stopped at no record. -/
theorem relayStopReading_none (t : Tables) (f : Flow) (h : t.relayInRing.isSome) :
    (relayStopReading t f).relayIn.count = none ∧ (relayStopReading t f).relayIn.stop = none := by
  obtain ⟨r, hr⟩ := Option.isSome_iff_exists.mp h
  simp only [relayStopReading, hr]
  split
  · exact ⟨rfl, rfl⟩
  · rename_i h; exact ⟨by simpa using h, rfl⟩

theorem relayStopReading_jobs (t : Tables) (f : Flow) : (relayStopReading t f).jobs = f.jobs := by
  unfold relayStopReading; dsimp only; split
  · rfl
  · split <;> rfl

end Sys2Proof.Machine
end

