-- ==== Sys2Proof/Tests/Slice0.lean ====
section
/-! SUPPORT. Small tests: the checks of WellFormed, single commands on small states, and, for every statement with
hypotheses, a state that meets them. -/

namespace Sys2Proof.Machine

/-- A state with its traffic changed. -/
def State.flowed (s : State) (g : Flow → Flow) : State := { s with flow := g s.flow }
/-- A state in another controller state. -/
def State.inCtl (s : State) (c : CtlState) : State := { s with tab := { s.tab with ctl := c } }

end Sys2Proof.Machine

namespace Sys2Proof.Tests
open Sys2Proof Sys2Proof.Machine
set_option Elab.async false

/-! ### WellFormed refuses what cannot reach the part -/

/-- A SINGLE of one byte from 0x10 to 0x44. -/
def frame (data : List Byte) : Frame := { id := 0x3DA4410, data }

theorem test_wf_frame : (Instr.singleFrame .tb (frame [1, 0x3E])).wellFormed = true := by decide
theorem test_wf_no_data : (Instr.singleFrame .tb (frame [])).wellFormed = false := by decide
theorem test_wf_nine_bytes : (Instr.nextFrame .tb (frame [0x21, 1, 2, 3, 4, 5, 6, 7, 8])).wellFormed = false := by decide
theorem test_wf_other_frame : (Instr.openFrame .tb (frame [1, 0x3E])).wellFormed = false := by decide
theorem test_wf_other_credit : (Instr.doneFrame .tb (frame [0x31])).wellFormed = false := by decide
theorem test_wf_long_wait : (Instr.scan (2 ^ 31)).wellFormed = false := by decide
theorem test_wf_store_too_high : (Instr.newsRead [(2 ^ 32, 1)]).wellFormed = false := by decide
theorem test_wf_enable_no_reset : (Instr.enable 3 []).wellFormed = false := by decide
theorem test_wf_reset_bit : (Instr.softReset 1 []).wellFormed = false := by decide
theorem test_decode_none : decodeTableWord 16 0 = none := rfl

/-! ### States for the tests -/

def ms (n : Nat) : Duration := { code := 0, count := BitVec.ofNat 12 n }

def dir : Directory :=
  { base := 0x1000, entries := 7, settings := 0x2000, board := 0x3000, slots := 8
    relayIn := some { leaf := 0x4000, pages := 2, size := 256 }
    relayOut := some { leaf := 0x5000, pages := 2, size := 2112 }
    capture := some { leaf := 0x8000, pages := 2, size := 256 }, pool := some { leaf := 0xA000, steps := 64 }
    counters := some 0xC000 }

def tester (kind : TesterKind) (addr : Byte) (mode : TesterMode) : Tester :=
  { attached := true, kind, tbAddr := addr, relayId := addr, jobCtx := 0, vehicle := addr, mode, weight := 2, limit := 2
    holdLimit := ms 50 }

/-- ECU entry 6, at VB1: node 0x44, interim marker 0x7F, a close message of two bytes. -/
def ecu6 : Ecu :=
  { Ecu.reset with
    valid := true, port := 1, node := 0x44, respTimeout := ms 100, longTimeout := ms 200, interimMarker := some 0x7F
    interimLimit := 1, interimFwd := true, closeMsg := [0x10, 1], holdOff := ms 1000 }

def port : PortSettings :=
  { PortSettings.reset with
    node := 0xF1, kind := 0xDA, window := 2, creditWait := ms 200, gap := ms 100, doneWait := ms 300
    stallInterval := ms 50, stallLimit := 1 }

/-- Slot 0 a BUS tester in HOLD mode, 1 one in REFUSE mode, 2 and 4 RELAY testers in HOLD and REFUSE mode, 3 a JOB slot of
context 0. Service code 1 is READ and code 4 is PROGRAM. -/
def tables : Tables :=
  { Tables.reset with
    now := 1000, ctl := .running, dir := some dir
    testers := tableOf 16 fun k => match k.val with
      | 0 => tester .bus 0x10 .hold
      | 1 => tester .bus 0x11 .refuse
      | 2 => tester .relay 0x20 .hold
      | 3 => tester .job 0x33 .refuse
      | 4 => tester .relay 0x21 .refuse
      | _ => .reset
    ecus := Vector.putRow Tables.reset.ecus 6 ecu6
    classMap := tableOf 256 fun c => match c.val with
      | 1 => .read
      | 4 => .program
      | _ => .barred
    thresholds := tableOf 51 fun a => if a.val < 32 then 8 else if a.val < 48 then 4 else 100
    ports := Vector.replicate 4 port }

/-- Grant 0 lets slot 0 do everything on every ECU. -/
def grant0 : Grant := { Grant.reset with state := .active, ecus := 0xFFFFFFFF, classes := 0x1F, level := .program }

def base : State :=
  { State.reset with enable := true, tab := tables, grants := Vector.putRow State.reset.grants 0 grant0 }

/-- A SINGLE or OPEN or other frame from TB address 0x10 to 0x44. -/
def tbFrame (data : List Byte) : Frame := { id := 0xDA4410, data }
/-- From TB address 0x11. -/
def tbFrame1 (data : List Byte) : Frame := { id := 0xDA4411, data }
/-- From ECU 0x44 to the vehicle-side address 0x10. -/
def vbFrame (data : List Byte) : Frame := { id := 0xDA1044, data }
/-- From ECU 0x44 to the part's node address. -/
def vbNode (data : List Byte) : Frame := { id := 0xDAF144, data }

/-- The outcome of a command, tested. -/
def gives (o : Host.Outcome State Fault Refusal) (p : State → Bool) : Bool :=
  match o with
  | .next t => p t
  | .fault _ | .refused _ => false

/-- An order posted in slot 0, seen by the look. -/
def board (code : Byte) (ps : List Byte) (s : State) : State :=
  s.flowed fun f =>
    { f with look := some { next := 0, left := 8 }
             ram := ramWrite (ramWrite (ramWrite f.ram 0x3010 [1, 0, 0, 0]) 0x3014 [code]) 0x3024 ps }

def look : Look := { next := 0, left := 8 }

/-- A charge of one cell of slot 0. -/
def cell : Charge :=
  { slot := 0, grade := .routine, cells := 1, slotGrade := 1, slotReserve := 0, gradeShared := 0, common := 0 }

def msg (code : Byte) : Message := { charge := cell, length := 1, malformed := false, code, payload := [code] }

/-- Slot 0 has a request of this code to ECU 0x44 at its head, and an allowance. -/
def withHead (code : Byte) : State :=
  base.flowed fun f => f.modSlot 0 fun x => { x with allowance := 1, inbound := [{ target := 0x44, msg := msg code }] }

def entry (st : EntryState) : Entry :=
  { slot := 0, ecu := 6, code := 1, cls := .read, grant := 0, binding := false, state := st, deadline := some 1005
    interims := 0, held := none }

/-- Entry 0 is in use, with slot 0 and ECU 6. -/
def withEntry (st : EntryState) : State :=
  base.flowed fun f => { f with entries := Vector.putRow f.entries 0 (some (entry st)) }

def transfer (ph : TxPhase) : Transfer :=
  { source := 0x10, target := 0x44, payload := [1], segments := 3, sent := 1, granted := 2, stalls := 0
    deadline := some 1005, phase := ph, cargo := .request (msg 1) 0 }

/-- VB1's transmitter carries a request of slot 0. -/
def withTransfer (ph : TxPhase) : State :=
  (withEntry .sending).flowed fun f => f.modPort (.vb 1) fun x =>
    { x with tx := some (transfer ph)
             onBus := some { frame := vbFrame [1, 1], owner := .transmitter, due := 1000 } }

def context : Ctx :=
  { source := 0x10, target := 0x44, owner := .slot 0, hold := true, single := false, length := 20, malformed := false
    code := 1, segments := 2, received := 0, index := 1, granted := 2, charge := some cell, place := true
    bytes := [1, 2, 3, 4, 5, 6], stalls := 0, timer := .gap 1005, wait := .noWait }

/-- Context 0 of TB receives a message of slot 0. -/
def withCtx (x : Ctx) : State := base.flowed fun f => f.putCtx .tb 0 (some x)

def claim (st : ClaimState) : Claim :=
  { Claim.reset with state := st, holder := 0, level := .program, guard := 4, holdOff := some 1005
                     closeDeadline := some 1005, phase := some .awaiting }

def withClaim (st : ClaimState) : State := base.flowed fun f => f.modClaim 6 fun _ => claim st

/-- Condition 2 in a state, with its timer running to 1005. -/
def withCond (q : Qual) (raw : Bool) : State :=
  { base with tab := { base.tab with
      conds := Vector.putRow base.tab.conds 2
        { raw, qual := q, rise := ms 5, fall := ms 5, deadline := some 1005 } } }

def job (st : JobState) : Job :=
  { Job.reset with state := st, slot := some 3, listStart := 1, listLength := 3, deadline := some 1005 }

/-- Job 0 in a state, with a step at its place in the pool. -/
def withJob (st : JobState) (step : List Byte) : State :=
  base.flowed fun f => { f.modJob 0 (fun _ => job st) with ram := ramWrite f.ram (0xA000 + 32) step }

def item (order : Nat) : Item := { body := .refusal [0x6E, 1, 2], source := 0x44, ecu := some 6, order }

/-! ### Single commands -/

theorem test_hardware_reset : gives (exec .hardwareReset base) (fun t => t.tab.ctl == .off && t.xbase == 0) = true := by
  decide +kernel
theorem test_soft_reset : gives (exec (.softReset 6 []) { base with xbase := 0x1000 })
    (fun t => t.tab.ctl == .off && t.xbase == 0x1000 && t.irqEnable && t.tab.now == 1000) = true := by decide +kernel
theorem test_enable_off : gives (exec (.enable 1 []) State.reset) (fun t => t.tab.ctl == .starting) = true := by
  decide +kernel
theorem test_enable_faulted : gives (exec (.enable 0 []) (base.inCtl .faulted)) (fun t => t.tab.ctl == .off) = true := by
  decide +kernel
theorem test_irq_enable : gives (exec (.irqEnable 5 []) base) (fun t => t.irqEnable && t.enable) = true := by
  decide +kernel
theorem test_xbase_off : gives (exec (.registerWrite .xbase 0x1003 []) State.reset) (·.xbase == 0x1000) = true := by
  decide +kernel
theorem test_xbase_running : gives (exec (.registerWrite .xbase 0x1000 []) base) (·.xbase == 0) = true := by
  decide +kernel
theorem test_ident : identWord.toNat = 0x6F241975 := by decide
theorem test_news_read : gives (exec (.newsRead []) (base.flowed fun f => f.setNews .claim))
    (fun t => t.readData == 0x40 && t.flow.news == 0) = true := by decide +kernel
theorem test_attention_posted : gives (exec (.attention 0 [(0x3050, 1)]) base)
    (fun t => t.flow.look == some { next := 1, left := 7 }) = true := by decide +kernel
theorem test_empty_directory_fails : gives (exec .startingCheckFails (State.reset.inCtl .starting))
    (fun t => t.tab.ctl == .faulted && t.tab.fault == .badSignature && t.flow.news == 0x200) = true := by decide +kernel
theorem test_rot_edge_stays : gives (exec .rotEdge { base with rot := { base.rot with running := 65535 } })
    (·.rot.running == 65535) = true := by decide +kernel
theorem test_raw_change_rises : gives (exec (.rawChange .ign true) { base with tab := { base.tab with
      conds := Vector.putRow base.tab.conds 0 { Condition.reset with rise := ms 5 } } })
    (fun t => (t.tab.conds.get 0).qual == .rising && (t.tab.conds.get 0).deadline == some 1005) = true := by
  decide +kernel
theorem test_rise_early : gives (exec (.riseTimerExpiry 2 4) (withCond .rising true))
    (fun t => (t.tab.conds.get 2).qual == .rising) = true := by decide +kernel
theorem test_rise_done : gives (exec (.riseTimerExpiry 2 5) (withCond .rising true))
    (fun t => (t.tab.conds.get 2).qual == .isTrue && t.flow.hasNews .condition) = true := by decide +kernel
theorem test_fall_halts : gives (exec (.fallTimerExpiry 2 5)
      { withClaim .held with tab := (withCond .falling false).tab })
    (fun t => (t.flow.claims.get 6).state == .halted && t.flow.hasNews .claim) = true := by decide +kernel
theorem test_single_queued : gives (exec (.singleFrame .tb (tbFrame [1, 4])) base)
    (fun t => (t.flow.slots.get 0).inbound.length == 1 && t.flow.free == 1023) = true := by decide +kernel
theorem test_open_granted : gives (exec (.openFrame .tb (tbFrame [0x10, 19, 1, 2, 3, 4, 5, 6])) base)
    (fun t => (t.flow.port .tb).onBus.map (·.frame.data) == some [0x30, 2]) = true := by decide +kernel
theorem test_next_out_of_order : gives (exec (.nextFrame .tb (tbFrame [0x22, 1, 2, 3, 4, 5, 6, 7])) (withCtx context))
    (fun t => (t.flow.port .tb).onBus.map (·.frame.data) == some [0x40, 3] && t.flow.ctx .tb 0 == none) = true := by
  decide +kernel
theorem test_visit_admits : gives (exec .visit (withHead 1))
    (fun t => (t.flow.vbs.get 1).outbound.length == 1 && (t.flow.entries.get 0).isSome) = true := by decide +kernel
theorem test_visit_refuses_barred : gives (exec .visit (withHead 9))
    (fun t => (t.flow.slots.get 0).items.map (·.body) == [.refusal [0x6E, 9, 0x0C]]) = true := by decide +kernel
theorem test_response_deadline : gives (exec (.responseDeadline 0 5) (withEntry .awaiting))
    (fun t => t.flow.entries.get 0 == none && (t.flow.ecuCounts.get 6).timeouts == 1) = true := by decide +kernel
theorem test_hold_off : gives (exec (.holdOffExpiry 6 5) (withClaim .held))
    (fun t => (t.flow.claims.get 6).phase == some .sending) = true := by decide +kernel
theorem test_job_end : gives (exec (.jobEnd 0) (withJob .running [6, 0, 7]))
    (fun t => (t.flow.jobs.get 0).state == .idle && t.flow.hasNews .jobEnd) = true := by decide +kernel
theorem test_standstill : gives (exec .setStandstill (board 9 [1] base))
    (fun t => (t.tab.conds.get 5).qualified && ramNum t.flow.ram 0x3010 4 == 3) = true := by decide +kernel
theorem test_unknown_code : gives (exec .unknownOrderCode (board 0x14 [] base))
    (fun t => ramNum t.flow.ram 0x3015 1 == 1) = true := by decide +kernel
theorem test_orders_outside_running : gives (exec .setStandstill (board 9 [1] (base.inCtl .off)))
    (fun t => ramNum t.flow.ram 0x3015 1 == 6) = true := by decide +kernel

theorem test_attn_reads_zero : attnWord = 0 := rfl

/-- A RELEASE_CLAIM order whose board meets a memory error while it is read is left TAKEN. -/
theorem test_order_left_taken : gives (exec (.memoryError (.orderBoard .order) false) (board 11 [6] base))
    (fun t => t.tab.ctl == .faulted && ramNum t.flow.ram 0x3010 4 == 2) = true := by decide +kernel

/-- One whose result is being written is carried out, without its result. -/
theorem test_order_without_result : gives (exec (.memoryError (.orderBoard .result) false) (board 9 [2] base))
    (fun t => t.tab.ctl == .faulted && ramNum t.flow.ram 0x3010 4 == 2 && ramNum t.flow.ram 0x3015 1 == 0) = true := by
  decide +kernel

/-- A malformed message's refusal record carries the declared length and no content. -/
theorem test_malformed_refusal_record :
    (refusalRecord tables 0 none none 0 none .malformed (some 9) { number := 2, limit := 3 }).content = []
    ∧ (refusalRecord tables 0 none none 0 none .malformed (some 9) { number := 2, limit := 3 }).length = 9
    ∧ (refusalRecord tables 0 none none 1 none .condition none { number := 2, limit := 2 }).content = [0x6E, 1] := by
  decide

/-- An entry that became ORPHANED before its refusal just ends. -/
theorem test_orphan_gets_no_refusal :
    (let a := entryRefused tables (withEntry (.orphaned .sending)).flow 0 .undelivered;
      a.1.entries.get 0 = none ∧ a.2 = []) := by decide +kernel

/-- Three waiters: the oldest needs too much and stays, the next gets its cells, and the last, tried with what that one
left, no longer does. -/
theorem test_offer_in_order :
    (let w := fun (j : JobIx) (n : Nat) => ({ who := .job j, slot := 3, grade := .routine, cells := n, since := 0 } : Waiter);
      let f := { base.flow with free := 320, waiting := [w 0 200, w 1 8, w 2 8] };
      (offerCells tables f).2.map (·.1) = [.job 1]
      ∧ (offerCells tables f).1.waiting = [w 0 200, w 2 8]) := by decide +kernel

theorem test_writer_record_size : (writerRecord Writer.reset).length = 15 := by decide

/-! ### States that meet the hypotheses of the statements -/

/-- All eight TB contexts in use for other keys. -/
def fullTb : State :=
  base.flowed fun f => f.modPort .tb fun x => { x with ctxs := Vector.replicate 8 (some { context with target := 0x45 }) }

/-- No cell is free. -/
def noCells : State := base.flowed fun f => { f with free := 0, usage := tableOf 51 fun a => tables.thresholds.get a }

/-- Slot 0's inbound queue is full. -/
def noPlace (s : State) (k : Slot) : State :=
  s.flowed fun f => f.modSlot k fun x => { x with inbound := List.replicate 8 { target := 0x44, msg := msg 1 } }

theorem witness_EmptyQueuePassesOneMillisecond : State.reset.pending = [] := rfl

theorem witness_ResetsAndEnable :
    (2 : Word).getLsbD 1 = true
    ∧ ((1 : Word).getLsbD 1 = false ∧ State.reset.tab.ctl = .off ∧ State.reset.enable = false ∧ (1 : Word).getLsbD 0 = true)
    ∧ ((0 : Word).getLsbD 1 = false ∧ (base.inCtl .faulted).tab.ctl = .faulted ∧ (0 : Word).getLsbD 0 = false)
    ∧ (base.tab.ctl ≠ .off ∧ base.tab.ctl ≠ .faulted ∧ ¬(base.enable = true ∧ (1 : Word).getLsbD 0 = false)) := by
  decide +kernel

theorem witness_EnableClearedStops :
    (0 : Word).getLsbD 1 = false ∧ (0 : Word).getLsbD 0 = false ∧ base.tab.ctl = .running ∧ base.enable = true
    ∧ (∀ j, ((withJob .running []).flow.jobs.get j).active = true → ((withJob .running []).flow.jobs.get j).slot.isSome)
    ∧ base.tab.relayInRing.isSome ∧ base.flow.relayIn.count = none
    ∧ { base.flow.relayIn with count := some 1 }.count.isSome := by decide +kernel

theorem witness_RegistersAndIrqLine :
    ((5 : Word).getLsbD 1 = false ∧ (5 : Word).getLsbD 0 = base.enable ∧ base.tab.ctl ≠ .faulted)
    ∧ ({ base with irqEnable := true, mask := 0x7FF, flow := { base.flow with news := 0x40 } } : State).irq = true
    ∧ State.reset.tab.ctl = .off ∧ base.tab.ctl ≠ .off := by decide +kernel

/-- Relay inbound page 0 is FILLED with one record of 2 bytes from identity `id` to 0x44; the page's state word is
`st`. -/
def relayPage (st id : Byte) : State :=
  let page : List Byte := [st, 0, 0, 0, 1, 0, 0, 0, 0, 0, 0, 0, 0, 0, 0, 0] ++ [id, 0x44, 2, 0, 1, 5]
  base.flowed fun f => { f with ram := ramWrite f.ram 0x4010 page }

theorem witness_AttentionReaches :
    ((base.inCtl .starting).tab.ctl = .starting ∧ (base.inCtl .faulted).tab.ctl = .faulted
      ∧ State.reset.tab.ctl = .off ∧ base.tab.ctl = .running ∧ (base.inCtl .stopping).tab.ctl = .stopping
      ∧ reached (({ base with scanDl := some 1005 } : State).advance 5).tab.now 1005 = true
      ∧ expired (({ base with scanDl := some 1005 } : State).advance 4).tab.now (some 1005) = false)
    ∧ (base.tab.dir = some dir ∧ base.flow.boardPos < dir.slots ∧ base.flow.look = none
      ∧ ramNum (base.store [(0x3050, 1)]).flow.ram (dir.orderAddr 1) 4 = 1 ∧ (board 9 [] base).flow.look.isSome)
    ∧ (let r : Ring := { leaf := 0x4000, pages := 2, size := 256 };
      base.tab.relayInRing = some r ∧ base.flow.relayIn.count = none ∧ base.flow.relayIn.stop = none
      ∧ r.stateOf (relayPage 1 0x20).flow.ram 0 = 1
      ∧ ramNum (ramWrite (relayPage 1 0x20).flow.ram (r.pageAddr 0) [2, 0, 0, 0]) (r.pageAddr 0 + 4) 2 ≠ 0)
    ∧ (let r : Ring := { leaf := 0x8000, pages := 2, size := 256 };
      base.tab.captureRing = some r ∧ r.stateOf base.flow.ram ({ base.flow.writer with blocked := true }.nextPage r) = 0
      ∧ base.flow.writer.blocked = false)
    ∧ (let r : Ring := { leaf := 0x5000, pages := 2, size := 2112 };
      base.tab.relayOutRing = some r ∧ base.flow.relayOut.blocked = false
      ∧ r.stateOf base.flow.ram ({ base.flow.relayOut with blocked := true }.nextPage r) = 0
      ∧ r.stateOf (ramWrite base.flow.ram 0x5010 [3]) (base.flow.relayOut.nextPage r) ≠ 0) := by decide +kernel

/-- A directory at 0 with a settings leaf at 0x100 and an order board at 0x900, every field at its least value. -/
def image : List Host.Cell :=
  let put := fun (m : List Host.Cell) (a : Nat) (bs : List Byte) => ramWrite m a bs
  let m := put [] 0 [0xD6, 0x24, 0x3C, 0x5A, 2, 0, 0, 0, 0x3E, 0, 0, 0x10, 0x3D, 2, 0, 0x20]
  let m := put m 0x900 [8]
  let m := (List.range 4).foldl (fun m i => put m (0x103 + 16 * i) [1, 0, 0, 1, 0, 1, 0, 1, 0, 1]) m
  let m := put m 0x14A [1]
  let m := (List.range 16).foldl (fun m i => put m (0x218 + 16 * i + 7) [1, 1]) m
  (List.range 32).foldl
    (fun m i => put (put m (0x318 + 32 * i + 3) [1]) (0x318 + 32 * i + 18) [1, 0, 1, 0, 1]) m

def starting : State := { State.reset with
  enable := true, tab := { Tables.reset with ctl := .starting }, flow := { Flow.reset with ram := image } }

theorem witness_StartingCompletes : starting.tab.ctl = .starting
    ∧ (match readStarting starting with
      | .ok _ => true
      | .error _ => false) = true := by decide +kernel

/-- A still threshold above 255 is BAD_SETTINGS. -/
theorem test_still_threshold_two_bytes :
    gives (exec .startingCheckFails (starting.flowed fun f => { f with ram := ramWrite f.ram 0x143 [1] }))
      (fun t => t.tab.fault == .badSettings) = true := by decide +kernel

theorem witness_StartingFails : (State.reset.inCtl .starting).tab.ctl = .starting
    ∧ (match readStarting (State.reset.inCtl .starting) with
      | .ok _ => false
      | .error c => c == .badSignature) = true
    ∧ numAt (ramRead State.reset.flow.ram State.reset.xbase.toNat 8) 0 4 ≠ 0x5A3C24D6
    ∧ base.tab.ctl ≠ .starting := by decide +kernel

theorem witness_EnterOffWhenDrained : (base.inCtl .stopping).tab.ctl = .stopping
    ∧ drained (base.inCtl .stopping).flow = true ∧ drained (withEntry .awaiting).flow = false := by decide +kernel

/-- The counter block order of the tests, and the steps of job 0 that it can meet an error in. -/
def counterOrder : State := board 0x11 [0] base

/-- A SEND step of 7 data bytes at offset 0, one inline byte, to ECU 6. -/
def sendData : List Byte := [1, 0, 6, 1, 4, 0, 0, 0, 0, 0, 0, 0, 1, 0, 7, 0]

/-- The SEND steps of the tests, as the pool gives them. -/
def sendStep (bs : List Byte) : List Byte := bs ++ zeros (32 - bs.length)

theorem witness_MemoryErrors :
    (accessPossible (base.inCtl .starting) .starting = true ∧ accessPossible base (.orderBoard .stateWord) = true
      ∧ accessPossible base (.relayPage false) = true ∧ accessPossible base .capturePage = true)
    ∧ ((board 11 [6] base).tab.dir = some dir ∧ (board 11 [6] base).flow.look = some look
      ∧ accessPossible (board 11 [6] base) (.orderBoard .order) = true
      ∧ accessPossible (board 11 [6] base) (.orderBoard .result) = true)
    ∧ (accessPossible counterOrder (.counterBlock 0) = true ∧ counterOrder.tab.dir = some dir
      ∧ counterOrder.flow.look = some look ∧ dir.counters = some 0xC000)
    ∧ (accessPossible (relayPage 1 0x20) (.relayPage true) = true ∧ (relayPage 1 0x20).tab.relayInRing.isSome)
    ∧ (base.tab.active = true ∧ base.tab.eventCapture = false ∧ State.reset.tab.active = false)
    ∧ ((withJob .running []).flow.jobs.get 0).state = .running ∧ ((withJob .running []).flow.jobs.get 0).active = true
    ∧ (let s := withJob .running sendData;
      readStep s.tab s.flow 0 = .step .send .always (sendStep sendData)
      ∧ (match getSend (sendStep sendData) with
        | some x => (s.tab.ecus.get x.ecu).valid && x.readsData (s.flow.jobs.get 0)
        | none => false) = true
      ∧ accessPossible s (.jobData 0) = true)
    ∧ accessPossible base .starting = false ∧ accessPossible base (.orderBoard .order) = false := by decide +kernel

theorem test_send_data_error_counts_step :
    gives (exec (.memoryError (.jobData 0) false) ((withJob .running sendData).flowed fun f =>
        f.modJob 0 fun b => { b with orderSlot := some 2 }))
      (fun t => (t.flow.jobs.get 0).state == .idle && ramNum t.flow.ram (0x3010 + 128 + 8) 1 == 5
        && ramNum t.flow.ram (0x3010 + 128 + 12) 4 == 1) = true := by decide +kernel

theorem witness_RotationMonitor : base.tab.ctl = .running ∧ State.reset.tab.ctl ≠ .running
    ∧ State.reset.tab.ctl ≠ .stopping ∧ base.tab.active = true
    ∧ reached (({ base with rot := { base.rot with deadline := some 1005 } } : State).advance 5).tab.now 1005 = true
    ∧ expired (base.advance 5).tab.now base.rot.deadline = false := by decide +kernel

/-- Condition 0 in a state. -/
def cond0 (q : Qual) (raw : Bool) (d : Duration) : State :=
  { base with tab := { base.tab with
      conds := Vector.putRow base.tab.conds 0 { raw, qual := q, rise := d, fall := d, deadline := some 1005 } } }

theorem witness_RawChangesAndTimers : base.tab.active = true ∧ lineCond .ign = 0
    ∧ (∀ q ∈ [Qual.isFalse, .falling], ∀ d ∈ [ms 0, ms 5], ((cond0 q false d).tab.conds.get 0).raw = false
      ∧ ((cond0 q false d).tab.conds.get 0).qual = q ∧ ((cond0 q false d).tab.conds.get 0).rise = d)
    ∧ (∀ q ∈ [Qual.isTrue, .rising], ∀ d ∈ [ms 0, ms 5], ((cond0 q true d).tab.conds.get 0).raw = true
      ∧ ((cond0 q true d).tab.conds.get 0).qual = q ∧ ((cond0 q true d).tab.conds.get 0).fall = d)
    ∧ (ms 0).count = 0 ∧ (ms 5).count ≠ 0
    ∧ (∀ q ∈ [Qual.rising, .falling], ((withCond q true).tab.conds.get 2).qual = q ∧ (withCond q true).tab.active = true
      ∧ expired ((withCond q true).advance 5).tab.now ((withCond q true).tab.conds.get 2).deadline = true
      ∧ expired ((withCond q true).advance 4).tab.now ((withCond q true).tab.conds.get 2).deadline = false)
    ∧ (base.tab.conds.get 2).qual ≠ .rising ∧ (base.tab.conds.get 2).qual ≠ .falling := by
  refine ⟨?_, ?_, ?_, ?_, ?_, ?_, ?_, ?_, ?_⟩ <;> decide +kernel

theorem witness_ClaimsFollowConditions :
    (∀ q ∈ [Qual.rising, .falling], (withCond q true).tab.active = true ∧ ((withCond q true).tab.conds.get 2).qual = q
      ∧ expired ((withCond q true).advance 5).tab.now ((withCond q true).tab.conds.get 2).deadline = true
      ∧ ∀ j, ((withCond q true).flow.jobs.get j).state ≠ .waiting .condition)
    ∧ ((withClaim .halted).flow.claims.get 6).state = .halted ∧ ((withClaim .held).flow.claims.get 6).state = .held
    ∧ ((withClaim .held).flow.claims.get 6).guard.getLsbD 2 = true := by decide +kernel

theorem witness_GrantAndClaimChecks : (base.flow.claims.get 6).state = .free ∧ (claim .closing).state = .closing
    ∧ (claim .held).state = .held ∧ (claim .halted).state = .halted ∧ (claim .held).holder = 0
    ∧ (claim .held).holder ≠ 1 := by decide

/-- The decision on a head of slot 0 with this service code. -/
def decision (s : State) (code : Byte) : Decision := (evaluateHead s 0 { target := 0x44, msg := msg code }).1

/-- Grant 0 of `base` in another state, with a condition set. -/
def withGrant (st : GrantState) (conds : CondSet) : State :=
  { base with grants := Vector.putRow base.grants 0 { grant0 with state := st, conds := conds } }

/-- A binding probe of every request of slot 0. -/
def bindingProbe : Probe :=
  { Probe.reset with enabled := true, dirs := 7, slots := 0xFFFF, ecus := 0xFFFFFFFF, classes := 0x3F, binding := true
                     limit := 8 }

/-- Probe 0 binds everything and no capture page is EMPTY. -/
def noCaptureRoom : State :=
  { base with tab := { base.tab with probes := Vector.putRow base.tab.probes 0 bindingProbe }
              flow := { base.flow with ram := ramWrite base.flow.ram 0x8010 [3] } }

/-- Slot 0 has entries to ECUs 0 and 1, as many as its limit. -/
def twoEntries : State :=
  base.flowed fun f =>
    let one := some { entry .awaiting with ecu := 0 }
    let two := some { entry .awaiting with ecu := 1 }
    { f with entries := Vector.putRow (Vector.putRow f.entries 0 one) 1 two }

theorem witness_RefuseOrHold :
    (base.inCtl .stopping).tab.ctl ≠ .running ∧ ({ msg 1 with malformed := true } : Message).malformed = true
    ∧ classOf base.tab 9 = .barred ∧ findEcu base.tab 0x45 = none ∧ findEcu base.tab 0x44 = some 6
    ∧ (∀ st ∈ [GrantState.active, .suspended, .spent], chargedGrant base.tab (withGrant st 1).grants 0 6 .read = none)
    ∧ grantReason (withGrant .active 1).grants 0 6 .read = some .condition
    ∧ grantReason (withGrant .suspended 0).grants 0 6 .read = some .suspended
    ∧ grantReason (withGrant .spent 0).grants 0 6 .read = none
    ∧ chargedGrant base.tab base.grants 0 6 .program = some 0
    ∧ claimCheck { claim .held with holder := 1 } 0 .program = some .claimed
    ∧ claimCheck (claim .closing) 0 .read = some .closing ∧ claimCheck (claim .halted) 0 .program = some .condition
    ∧ claimCheck (claim .held) 0 .program = none
    ∧ (withEntry .awaiting).flow.entries.get 0 = some (entry .awaiting)
    ∧ (tester .bus 0x10 .hold).limit = 2
    ∧ (noCaptureRoom.flow.entries.get 0 = none ∧ decision noCaptureRoom 1 = .hold .capture 6)
    ∧ decision (base.flowed fun f => f.modVb 1 fun x =>
        { x with outbound := List.replicate 16 { msg := msg 1, source := 0x10, target := 0x44, entry := 0 } }) 1
      = .hold .portQueue 6
    ∧ decision (base.flowed fun f => f.modVb 1 fun x =>
        { x with outbound := List.replicate 15 { msg := msg 1, source := 0x10, target := 0x44, entry := 0 } }) 1
      = .admits 6 .read 0
    ∧ decision (withEntry .awaiting) 1 = .hold .pair 6
    ∧ decision twoEntries 1 = .hold .outstanding 6
    ∧ (base.tab.testers.get 0).mode = .hold ∧ (base.tab.testers.get 1).mode = .refuse := by
  refine ⟨?_, ?_, ?_, ?_, ?_, ?_, ?_, ?_, ?_, ?_, ?_, ?_, ?_, ?_, ?_, ?_, ?_, ?_, ?_, ?_, ?_, ?_, ?_⟩ <;> decide +kernel

theorem witness_ChargeDivides : (charge base.tab base.flow 0 .routine 32).isSome = true
    ∧ charge noCells.tab noCells.flow 0 .routine 1 = none := by decide +kernel

def waiter : Waiter := { who := .relay, slot := 2, grade := .routine, cells := 1, since := 1000 }

theorem witness_ReleasesAndOffers :
    ({ base.flow with waiting := [waiter] } : Flow).waiting = waiter :: []
    ∧ (charge base.tab { base.flow with waiting := [waiter] } 2 .routine 1).isSome = true
    ∧ charge noCells.tab { noCells.flow with waiting := [waiter] } 2 .routine 1 = none
    ∧ (noPlace base 0).flow.inboundFree 0 = false
    ∧ (∀ s ∈ [base, noCells],
      let f := (s.flow.putCtx .tb 0 (some { context with charge := none, place := false, wait := .place })).modSlot 0
        fun x => { x with placeWait := [0] }
      f.inboundFree 0 = true ∧ (f.slots.get 0).placeWait = 0 :: []
      ∧ f.ctx .tb 0 = some { context with charge := none, place := false, wait := .place }
      ∧ (charge s.tab (f.modSlot 0 fun y => { y with placeWait := [] }) 0 .routine 1).isSome = (s.flow.free != 0))
    ∧ (base.flow.slots.get 2).placeWait = []
    ∧ ({ base.flow.relayIn with stop := some { slot := 2, wait := .place } }.stop
        = some ({ slot := 2, wait := .place } : RelayStop)) ∧ base.flow.relayIn.stop ≠ some { slot := 3, wait := .place }
    ∧ (let f := (withJob (.waiting .place) []).flow;
      jobOf f 3 = some 0 ∧ (f.jobs.get 0).state = .waiting .place ∧ (f.slots.get 3).placeWait = []
      ∧ f.inboundFree 3 = true)
    ∧ jobOf base.flow 3 = none := by
  refine ⟨?_, ?_, ?_, ?_, ?_, ?_, ?_, ?_, ?_, ?_⟩ <;> decide +kernel

theorem witness_FramesIgnored :
    (State.reset.tab.ctl ≠ .running ∧ State.reset.tab.ctl ≠ .stopping)
    ∧ ({ id := 0x18DA4410, data := [1, 4] } : Frame).id.extractLsb' 27 2 ≠ 0
    ∧ ({ id := 0xDB4410, data := [1, 4] } : Frame).id.extractLsb' 16 8 ≠ (base.tab.port .tb).kind
    ∧ ((tbFrame [1, 4]).id.extractLsb' 8 8 ≠ (base.tab.port (.vb 1)).node
      ∧ ∀ k, holdsAddr base.tab base.flow k = true → (base.tab.testers.get k).vsAddr ≠ (tbFrame [1, 4]).id.extractLsb' 8 8)
    ∧ frBody (tbFrame []) = none
    ∧ (∀ d ∈ [[1, 4], [0x10, 7, 1, 2, 3, 4, 5, 6], [0x21, 1]], accepts base.tab base.flow .tb { id := 0xDA4499, data := d } = true
      ∧ (frBody { id := 0xDA4499, data := d }).isSome)
    ∧ (∀ k, ¬((base.tab.testers.get k).attached = true ∧ (base.tab.testers.get k).kind = .bus
      ∧ (base.tab.testers.get k).tbAddr = frSource { id := 0xDA4499, data := [] })) := by decide +kernel

theorem witness_FirstFrameTakenIn :
    (∀ d ∈ [[0], [1, 4], [0x10, 5, 1, 2, 3, 4, 5, 6], [0x10, 19, 1, 2, 3, 4, 5, 6]],
      accepts base.tab base.flow .tb (tbFrame d) = true ∧ busSlot base.tab (frSource (tbFrame d)) = some 0
      ∧ base.flow.findCtx .tb (frSource (tbFrame d)) (frTarget (tbFrame d)) = none)
    ∧ frBody (tbFrame [0]) = some (.single 0 []) ∧ frBody (tbFrame [1, 4]) = some (.single 1 [4])
    ∧ frBody (tbFrame [0x10, 5, 1, 2, 3, 4, 5, 6]) = some (.openMsg 6 [1, 2, 3, 4, 5, 6])
    ∧ frBody (tbFrame [0x10, 6, 1, 2, 3, 4, 5, 6]) = some (.openMsg 7 [1, 2, 3, 4, 5, 6])
    ∧ base.flow.freeCtx .tb = some 0 ∧ base.flow.inboundFree 0 = true
    ∧ (charge base.tab base.flow 0 .routine 1).isSome = true
    ∧ (∀ d ∈ [[1, 4], [0x10, 19, 1, 2, 3, 4, 5, 6]],
      (withCtx context).flow.findCtx .tb (frSource (tbFrame d)) (frTarget (tbFrame d)) = some 0
      ∧ (withCtx context).flow.ctx .tb 0 = some context ∧ context.charge = some cell) := by
  refine ⟨?_, ?_, ?_, ?_, ?_, ?_, ?_, ?_, ?_⟩ <;> decide +kernel

theorem witness_NoRoomOnTb :
    (∀ s ∈ [fullTb, noCells, noPlace base 0, noPlace fullTb 0], accepts s.tab s.flow .tb (tbFrame [1, 4]) = true
      ∧ busSlot s.tab 0x10 = some 0 ∧ s.flow.findCtx .tb 0x10 0x44 = none)
    ∧ fullTb.flow.freeCtx .tb = none ∧ (noPlace fullTb 0).flow.inboundFree 0 = false
    ∧ (noPlace base 0).flow.inboundFree 0 = false ∧ (noPlace base 0).flow.freeCtx .tb = some 0
    ∧ noCells.flow.inboundFree 0 = true ∧ charge noCells.tab noCells.flow 0 .routine 1 = none
    ∧ noCells.flow.freeCtx .tb = some 0 ∧ 0 < (base.tab.port .tb).stallLimit
    ∧ busSlot base.tab (frSource (tbFrame1 [1, 4])) = some 1 ∧ (base.tab.testers.get 1).mode = .refuse
    ∧ (noPlace base 1).flow.inboundFree 1 = false ∧ (base.tab.testers.get 0).mode = .hold
    ∧ ((PortSettings.reset).stallLimit = 0) := by
  refine ⟨?_, ?_, ?_, ?_, ?_, ?_, ?_, ?_, ?_, ?_, ?_, ?_, ?_, ?_⟩ <;> decide +kernel

theorem witness_StraysOnVb :
    (∀ f ∈ [vbFrame [1, 4], vbNode [1, 4]], accepts base.tab base.flow (.vb 1) f = true
      ∧ frBody f = some (.single 1 [4]) ∧ portEcu base.tab 1 (frSource f) = some 6)
    ∧ portEcu base.tab 1 0x45 = none ∧ frTarget (vbFrame [1, 4]) ≠ (base.tab.port (.vb 1)).node
    ∧ matchEntry base.tab base.flow 6 (frTarget (vbFrame [1, 4])) = none
    ∧ matchEntry (withEntry .sending).tab (withEntry .sending).flow 6 0x10 = some 0
    ∧ (entry .sending).state.takes = false ∧ frTarget (vbNode [1, 4]) = (base.tab.port (.vb 1)).node
    ∧ (base.flow.claims.get 6).state ≠ .closing := by decide +kernel

theorem witness_ResponseReachesTester :
    ∀ st ∈ [EntryState.awaiting, .receiving],
      let s := withEntry st
      accepts s.tab s.flow (.vb 1) (vbFrame [1, 4]) = true ∧ frBody (vbFrame [1, 4]) = some (.single 1 [4])
      ∧ frTarget (vbFrame [1, 4]) ≠ (s.tab.port (.vb 1)).node ∧ portEcu s.tab 1 (frSource (vbFrame [1, 4])) = some 6
      ∧ matchEntry s.tab s.flow 6 (frTarget (vbFrame [1, 4])) = some 0 ∧ s.flow.entries.get 0 = some (entry st)
      ∧ (s.tab.ecus.get 6).interimMarker ≠ some (firstByte [4])
      ∧ s.flow.findCtx (.vb 1) (frSource (vbFrame [1, 4])) (frTarget (vbFrame [1, 4])) = none
      ∧ governing s.tab .response 0 (some 6) (some .read) = none ∧ (s.tab.testers.get 0).kind ≠ .job
      ∧ (charge s.tab s.flow 0 .routine 1).isSome = true := by decide +kernel

theorem witness_InterimAndCloseAnswers :
    (let s := withEntry .awaiting;
      accepts s.tab s.flow (.vb 1) (vbFrame [1, 0x7F]) = true ∧ frBody (vbFrame [1, 0x7F]) = some (.single 1 [0x7F])
      ∧ matchEntry s.tab s.flow 6 (frTarget (vbFrame [1, 0x7F])) = some 0
      ∧ s.flow.entries.get 0 = some (entry .awaiting) ∧ (s.tab.ecus.get 6).interimMarker = some (firstByte [0x7F])
      ∧ (s.tab.ecus.get 6).interimLimit < 1 + 1 ∧ (entry .awaiting).interims + 1 ≤ (s.tab.ecus.get 6).interimLimit)
    ∧ (let s := withClaim .closing;
      accepts s.tab s.flow (.vb 1) (vbNode [1, 4]) = true ∧ frTarget (vbNode [1, 4]) = (s.tab.port (.vb 1)).node
      ∧ portEcu s.tab 1 (frSource (vbNode [1, 4])) = some 6 ∧ (s.flow.claims.get 6).state = .closing
      ∧ (s.flow.claims.get 6).phase = some .awaiting
      ∧ s.flow.findCtx (.vb 1) (frSource (vbNode [1, 4])) (frTarget (vbNode [1, 4])) = none) := by decide +kernel

theorem witness_NextTaken :
    (let f := tbFrame [0x21, 1, 2, 3, 4, 5, 6, 7];
      accepts base.tab base.flow .tb f = true ∧ frBody f = some (.next 1 [1, 2, 3, 4, 5, 6, 7])
      ∧ (busSlot base.tab (frSource f)).isSome ∧ base.flow.findCtx .tb (frSource f) (frTarget f) = none
      ∧ (withCtx context).flow.findCtx .tb (frSource f) (frTarget f) = some 0)
    ∧ (withCtx context).flow.ctx .tb 0 = some context
    ∧ (context.wait = .noWait ∧ context.index = 1 ∧ context.received + 1 < context.segments ∧ 1 < context.granted)
    ∧ ({ context with granted := 1 }.granted = 1)
    ∧ (let x := { context with received := 1, bytes := [] };
      x.segments ≤ x.received + 1 ∧ x.owner = .slot 0 ∧ x.charge = some cell ∧ min 7 (x.length - 6 - 7 * x.received) = 7)
    ∧ ({ context with owner := CtxOwner.entry 0 }.owner = .entry 0)
    ∧ (let x := { context with owner := CtxOwner.close 6, charge := none, received := 1 };
      x.owner = .close 6 ∧ x.charge = none ∧ x.segments ≤ x.received + 1) := by decide +kernel

/-- NEXT frames that are not in order: of 16 bytes (two segments, the last of 3 bytes) the last one early, with its remainder
and short of it, and another index with 7 bytes and with fewer. -/
theorem witness_NextTaken_outOfOrder :
    (let x := { context with length := 16 };
      x.expects 2 = false ∧ x.calledFor 1 = 7 ∧ x.calledFor 2 = 3 ∧ x.calledFor 5 = 7
      ∧ { x with segments := 0 }.calledFor 2 = 0 ∧ { x with wait := CtxWait.place, granted := 0 }.calledFor 2 = 3
      ∧ gives (exec (.nextFrame .tb (tbFrame [0x22, 1, 2, 3])) (withCtx x)) (fun t =>
        (t.flow.port .tb).onBus.map (·.frame.data) == some [0x40, 3] && t.flow.ctx .tb 0 == none) = true
      ∧ gives (exec (.nextFrame .tb (tbFrame [0x22, 1, 2])) (withCtx x)) (· == withCtx x) = true
      ∧ gives (exec (.nextFrame .tb (tbFrame [0x25, 1, 2, 3])) (withCtx x)) (· == withCtx x) = true) := by decide +kernel

theorem witness_CreditAndAbortFrames :
    ((∀ d ∈ [[0x30, 2], [0x31], [0x32]], accepts base.tab base.flow (.vb 1) (vbFrame d) = true
      ∧ (frBody (vbFrame d)).isSome ∧ creditFor base.flow (.vb 1) (vbFrame d) = none
      ∧ (∀ ph ∈ [TxPhase.first, .waitCredit, .waitDone], creditFor (withTransfer ph).flow (.vb 1) (vbFrame d) = some (transfer ph)))
    ∧ (transfer .waitCredit).stalls < (base.tab.port (.vb 1)).stallLimit
    ∧ (base.tab.port (.vb 1)).stallLimit ≤ { transfer .waitCredit with stalls := 1 }.stalls)
    ∧ accepts base.tab base.flow (.vb 1) (vbFrame [0x40, 1]) = true ∧ frBody (vbFrame [0x40, 1]) = some .abort
    ∧ creditFor base.flow (.vb 1) (vbFrame [0x40, 1]) = none
    ∧ base.flow.findCtx (.vb 1) (frSource (vbFrame [0x40, 1])) (frTarget (vbFrame [0x40, 1])) = none
    ∧ (withCtx context).flow.findCtx .tb (frSource (tbFrame [0x40, 1])) (frTarget (tbFrame [0x40, 1])) = some 0
    ∧ creditFor (withTransfer .run).flow (.vb 1) (vbFrame [0x40, 1]) = some (transfer .run)
    ∧ (let s := (withTransfer .run).flowed fun f =>
        f.putCtx (.vb 1) 0 (some { context with source := 0x44, target := 0x10 });
      (transferEnd s.tab s.flow (.vb 1) false).1.findCtx (.vb 1) 0x44 0x10 = some 0) := by
  refine ⟨?_, ?_, ?_, ?_, ?_, ?_, ?_, ?_⟩ <;> decide +kernel

theorem witness_FramesSentAreRead :
    ((List.replicate 1 (0 : Byte)).length = 1 ∧ (List.replicate 7 (0 : Byte)).length = 7)
    ∧ (List.replicate 8 (0 : Byte)).length = 8 ∧ (List.replicate 2048 (0 : Byte)).length ≤ 2048
    ∧ 6 + 7 * 291 < (List.replicate 2048 (0 : Byte)).length := by
  simp only [List.length_replicate]
  decide

theorem witness_FramesSentAndWithdrawn :
    (base.flow.port (.vb 1)).onBus = none
    ∧ (∀ ph ∈ [TxPhase.first, .run], ((withTransfer ph).flow.port (.vb 1)).tx = some (transfer ph)
      ∧ (((withTransfer ph).flow.port (.vb 1)).onBus.map (·.owner)) = some .transmitter)
    ∧ (transfer .first).payload.length ≤ 7
    ∧ ((transfer .run).sent + 1 < (transfer .run).segments ∧ 1 < (transfer .run).granted)
    ∧ ({ transfer .run with sent := 2 }.segments ≤ 2 + 1)
    ∧ pickFrame (base.flow.port (.vb 1)) .onBus = none
    ∧ (pickFrame (((withTransfer .run).advance 200).flow.port (.vb 1)) .onBus).isSome
    ∧ reached ((withTransfer .run).advance 200).tab.now (after 1000 (base.tab.port (.vb 1)).creditWait) = true
    ∧ reached ((withTransfer .run).advance 199).tab.now (after 1000 (base.tab.port (.vb 1)).creditWait) = false
    ∧ (transfer .run).cargo = .request (msg 1) 0 ∧ (withTransfer .run).flow.entries.get 0 = some (entry .sending)
    ∧ (let it : Item := { body := .response (msg 1), source := 0x44, ecu := some 6, order := 0 };
      let x := { transfer .first with cargo := .item 0 it };
      (base.flow.modPort .tb fun y => { y with tx := some x }).port .tb = { base.flow.port .tb with tx := some x }
      ∧ x.cargo = .item 0 it ∧ it.body = .response (msg 1)) := by
  refine ⟨?_, ?_, ?_, ?_, ?_, ?_, ?_, ?_, ?_, ?_, ?_, ?_⟩ <;> decide +kernel

/-- A port with a due frame of a context and one of the transmitter, and the last start at 990. -/
def duePort : PortFlow :=
  { PortFlow.reset with
    control := [{ frame := tbFrame [0x31], owner := .context 0, due := 995 }]
    txDue := [{ frame := tbFrame [1, 4], owner := .transmitter, due := 995 }], lastStart := some 990 }

/-- The tables with a minimum frame spacing of `n` milliseconds on TB. -/
def spaced (n : Nat) : Tables := { tables with ports := Vector.putRow tables.ports 0 { port with spacing := ms n } }

theorem witness_PortOperations :
    (duePort.onBus = none ∧ (∀ w, duePort.lastStart = some w → ((spaced 10).port .tb).spacing.ms ≤ ((spaced 10).now - w).toNat)
      ∧ duePort.control = { frame := tbFrame [0x31], owner := .context 0, due := 995 } :: []
      ∧ ({ duePort with control := [] } : PortFlow).txDue = { frame := tbFrame [1, 4], owner := .transmitter, due := 995 } :: [])
    ∧ ¬((spaced 11).port .tb).spacing.ms ≤ ((spaced 11).now - 990).toNat
    ∧ ((withTransfer .run).flow.port (.vb 1)).tx = some (transfer .run)
    ∧ (withCtx context).flow.ctx .tb 0 = some context ∧ context.owner = .slot 0 ∧ context.charge = some cell := by
  refine ⟨⟨rfl, ?_, rfl, rfl⟩, ?_, ?_, ?_, rfl, rfl⟩
  · intro w h
    cases h
    decide +kernel
  all_goals decide +kernel

/-- The context's frame goes first, and with the spacing not over none goes. -/
theorem test_control_frames_first :
    ((startFrame (spaced 10) .tb duePort).onBus.map (·.owner)) = some (.context 0)
    ∧ startFrame (spaced 11) .tb duePort = duePort := by decide +kernel

theorem witness_PortTimers :
    (∀ ph ∈ [TxPhase.waitCredit, .waitDone], ((withTransfer ph).flow.port (.vb 1)).tx = some (transfer ph)
      ∧ expired ((withTransfer ph).advance 5).tab.now (transfer ph).deadline = true
      ∧ expired ((withTransfer ph).advance 4).tab.now (transfer ph).deadline = false)
    ∧ (withCtx context).flow.ctx .tb 0 = some context ∧ context.timer = .gap 1005
    ∧ reached ((withCtx context).advance 5).tab.now 1005 = true ∧ reached ((withCtx context).advance 4).tab.now 1005 = false
    ∧ ({ context with timer := CtxTimer.stall 1005 }.stalls < (base.tab.port .tb).stallLimit)
    ∧ ((base.tab.port .tb).stallLimit ≤ { context with stalls := 1 }.stalls) := by decide +kernel

/-- VB1's close buffer holds ECU 6's close message. -/
def withCloseBuf (s : State) : State :=
  s.flowed fun f => f.modVb 1 fun v => { v with closeBuf := some { ecu := 6, bytes := [0x10, 1] } }

theorem witness_TransmitStarts :
    base.tab.active = true ∧ (base.flow.port (.vb 1)).tx = none
    ∧ (closingToSend (((withCloseBuf (withClaim .closing)).flow).modClaim 6
      fun c => { c with phase := some .sending }) 1).isSome
    ∧ closingToSend base.flow 1 = none ∧ (base.flow.vbs.get 1).outbound = []
    ∧ ((withTransfer .first).flow.port (.vb 1)).tx.isSome
    ∧ oldestItem base.tab (base.flow.modSlot 0 fun x => { x with items := [item 3] }) .bus = some (0, item 3)
    ∧ oldestItem base.tab base.flow .bus = none
    ∧ (let r : OutReq := { msg := msg 1, source := 0x10, target := 0x44, entry := 0 };
      ((base.flow.modVb 1 fun v => { v with outbound := [r] }).vbs.get 1).outbound = r :: []) := by decide +kernel

theorem witness_RelayWriteTakesItem :
    (let s := base.flowed fun f => f.modSlot 2 fun x => { x with items := [item 3] };
      s.tab.active = true ∧ oldestItem s.tab s.flow .relay = some (2, item 3) ∧ s.tab.relayOutRing.isSome
      ∧ (s.flow.relayOut.room { leaf := 0x5000, pages := 2, size := 2112 } s.flow.ram 12).1 = true
      ∧ (s.flow.relayOut.room { leaf := 0x5000, pages := 2, size := 2112 }
        (ramWrite s.flow.ram 0x5010 [3]) 12).1 = false)
    ∧ oldestItem base.tab base.flow .relay = none
    ∧ ({ base.tab with dir := none } : Tables).relayOutRing = none := by decide +kernel

def openPage : OpenPage := { used := 16, count := 0, deadline := some 1005 }

theorem witness_PagesFlushed :
    (let s := base.flowed fun f =>
        { f with writer := { f.writer with page := some openPage }, relayOut := { f.relayOut with page := some openPage } };
      s.tab.active = true ∧ s.tab.captureRing.isSome ∧ s.tab.relayOutRing.isSome ∧ s.flow.writer.page = some openPage
      ∧ s.flow.relayOut.page = some openPage ∧ expired (s.advance 5).tab.now openPage.deadline = true
      ∧ expired (s.advance 4).tab.now openPage.deadline = false) := by decide +kernel

/-- A sampler of a rate over the READ class. -/
def sampling (rate : Nat) : Tables := { tables with sampler := { enabled := true, rate := rate, classes := 1 } }

theorem witness_CaptureRecordsOffered :
    (governing noCaptureRoom.tab .request 0 (some 6) (some .read) = some 0
      ∧ governing noCaptureRoom.tab .refusal 0 none none = some 0 ∧ governing tables .request 0 none none = none)
    ∧ (let r : Ring := { leaf := 0x8000, pages := 2, size := 256 };
      let w := { Writer.reset with page := some openPage };
      tables.captureRing = some r
      ∧ openPage.used + 240 ≤ r.size ∧ ¬openPage.used + 241 ≤ r.size
      ∧ (w.room r [] 240).1 = true ∧ (w.room r [] 241).1 = true
      ∧ (w.room r (ramWrite [] 0x8110 [1]) 241) = (false, { w with blocked := true })
      ∧ (Writer.reset.room r (ramWrite [] 0x8010 [1]) 32).1 = false
      ∧ (Writer.reset.room r [] 32).1 = true)
    ∧ ({ tables with dir := none } : Tables).captureRing = none
    ∧ (sampling 0).sampler.classes.getLsbD ServiceClass.read.num = true
    ∧ (sampling 0).sampler.classes.getLsbD ServiceClass.maintain.num = false
    ∧ (sampling 0).sampler.rate = 0 ∧ (sampling 4096).sampler.rate = 4096 := by
  refine ⟨?_, ?_, ?_, ?_, ?_, ?_, ?_⟩ <;> decide +kernel

/-- The relay channel stands at the first record of page 0. -/
def withRecord (id : Byte) (s : State) : State :=
  s.flowed fun f => { f with ram := (relayPage 2 id).flow.ram, relayIn := { f.relayIn with count := some 1 } }

theorem witness_RelayRecordHandled :
    (let r : Ring := { leaf := 0x4000, pages := 2, size := 256 };
      base.flow.relayIn.count = none ∧ base.tab.relayInRing = some r
      ∧ (∀ id ∈ [(0x99 : Byte), 0x20, 0x21],
        (withRecord id base).flow.relayIn.count = some 1 ∧ (withRecord id base).flow.relayIn.stop = none
        ∧ ((relayRecordAt r (withRecord id base).flow).map (·.ident)) = some id)
      ∧ [0x99, 0x20, 0x21].map (relaySlot base.tab) = [none, some 2, some 4]
      ∧ relayRecordAt r { base.flow with relayIn := { base.flow.relayIn with offset := 253 } } = none)
    ∧ base.flow.inboundFree 2 = true ∧ (charge base.tab base.flow 2 .routine 1).isSome = true
    ∧ (noPlace base 2).flow.inboundFree 2 = false ∧ (base.tab.testers.get 2).mode = .hold
    ∧ charge noCells.tab noCells.flow 2 .routine 1 = none ∧ (base.tab.testers.get 4).mode = .refuse
    ∧ (noPlace base 4).flow.inboundFree 4 = false
    ∧ (let r : Ring := { leaf := 0x4000, pages := 2, size := 256 };
      r.stateOf base.flow.ram 0 ≠ 1 ∧ r.stateOf (relayPage 1 0x20).flow.ram 0 = 1
      ∧ ramNum (ramWrite (relayPage 1 0x20).flow.ram 0x4010 [2, 0, 0, 0]) 0x4014 2 = 1
      ∧ ramNum (ramWrite (ramWrite (relayPage 1 0x20).flow.ram 0x4014 [0]) 0x4010 [2, 0, 0, 0]) 0x4014 2 = 0) := by
  refine ⟨?_, ?_, ?_, ?_, ?_, ?_, ?_, ?_, ?_⟩ <;> decide +kernel

theorem witness_VisitChoosesSlot :
    (∀ k, headReady base.tab base.flow k = false) ∧ (withHead 1).tab.active = true
    ∧ nextVisit (withHead 1).tab (withHead 1).flow = some 0
    ∧ (let f := (withHead 1).flow.modSlot 0 fun x => { x with allowance := 0 };
      nextVisit base.tab f = none ∧ nextVisit base.tab (restore base.tab f) = some 0) := by decide +kernel

theorem witness_AdmissionForwards :
    (∀ p ∈ [((1 : Byte), ServiceClass.read), (4, .program)],
      let s := withHead p.1
      (evaluateHead (s.withFlow (visitSlot s.flow 0)) 0 { target := 0x44, msg := msg p.1 }).1 = .admits 6 p.2 0)
    ∧ (withHead 4).tab.active = true ∧ nextVisit (withHead 4).tab (withHead 4).flow = some 0
    ∧ ((withHead 4).flow.slots.get 0).inbound = { target := 0x44, msg := msg 4 } :: []
    ∧ ((withHead 4).grants.get 0).left = none ∧ ServiceClass.program.level = some .program
    ∧ ((withHead 4).flow.claims.get 6).state = .free ∧ ((withHead 4).flow.slots.get 0).placeWait = []
    ∧ (withHead 4).flow.relayIn.stop = none ∧ (∀ j, ((withHead 4).flow.jobs.get j).state = .idle) := by decide +kernel

def held (passed : Bool) : Held :=
  { reason := .claimed, ecu := some 6, firstHold := 900, deadline := some 1005, passed }

/-- Slot 0's head is held, and due for an evaluation again. -/
def withHeld (passed : Bool) : State :=
  (withHead 1).flowed fun f => { f.modSlot 0 (fun x => { x with held := some (held passed) }) with again := [0] }

theorem witness_HeadsRefusedAndHeld :
    (let s := (withHead 4).flowed fun f => f.modClaim 6 fun _ => { claim .held with holder := 1 };
      nextVisit s.tab s.flow = some 0
      ∧ (evaluateHead (s.withFlow (visitSlot s.flow 0)) 0 { target := 0x44, msg := msg 4 }).1 = .hold .claimed 6)
    ∧ (let s := withHead 9;
      nextVisit s.tab s.flow = some 0
      ∧ (evaluateHead (s.withFlow (visitSlot s.flow 0)) 0 { target := 0x44, msg := msg 9 }).1
        = .refuse .barred none (some .barred)
      ∧ governing s.tab .refusal 0 none (some .barred) = none)
    ∧ (∀ b, (withHeld b).flow.again = 0 :: [] ∧ ((withHeld b).flow.slots.get 0).held = some (held b)
      ∧ ((withHeld b).flow.slots.get 0).inbound = { target := 0x44, msg := msg 1 } :: [])
    ∧ expired ((withHeld false).advance 5).tab.now (held false).deadline = true
    ∧ expired ((withHeld false).advance 4).tab.now (held false).deadline = false
    ∧ ((withHead 1).flow.slots.get 0).held = none ∧ base.flow.again = []
    ∧ (let s := (withHeld false).flowed fun f => f.modClaim 6 fun _ => claim .closing;
      (evaluateHead s 0 { target := 0x44, msg := msg 1 }).1 = .hold .closing 6
      ∧ (s.flow.slots.get 0).held = some (held false))
    ∧ (governing noCaptureRoom.tab .refusal 0 none (some .barred) = some 0
      ∧ (noCaptureRoom.tab.probes.get 0).binding = true
      ∧ (let x := refusalRecord noCaptureRoom.tab 0 none (some .barred) 9 none .barred none (probeTerms noCaptureRoom.tab 0);
        (captureBinding noCaptureRoom.tab noCaptureRoom.flow x).1 = false
        ∧ (captureBinding noCaptureRoom.tab base.flow x).1 = true)) := by
  refine ⟨?_, ?_, ?_, ?_, ?_, ?_, ?_, ?_, ?_⟩ <;> decide +kernel

theorem witness_EntriesEnd :
    (∀ st ∈ [EntryState.awaiting, .orphaned .awaiting, .sending], (withEntry st).flow.entries.get 0 = some (entry st)
      ∧ expired ((withEntry st).advance 5).tab.now (entry st).deadline = true
      ∧ expired ((withEntry st).advance 4).tab.now (entry st).deadline = false)
    ∧ ({ base.flow with roomReport := true } : Flow).roomReport = true ∧ base.flow.roomReport = false
    ∧ governing base.tab .refusal 0 (some 6) (some .read) = none
    ∧ governing noCaptureRoom.tab .refusal 0 (some 6) (some .read) = some 0
    ∧ (noCaptureRoom.tab.probes.get 0).binding = true
    ∧ (let g := probeTerms noCaptureRoom.tab 0;
      let x := refusalRecord noCaptureRoom.tab 0 (some 6) (some .read) 1 (some 0) .timeout none g;
      (captureBinding noCaptureRoom.tab noCaptureRoom.flow x).1 = false
      ∧ (captureBinding noCaptureRoom.tab base.flow x).1 = true
      ∧ (toDelivering (withEntry .awaiting).flow 0 (.refusal .timeout g)).entries.get 0
        = some { entry .awaiting with state := .delivering, deadline := none, held := some (.refusal .timeout g) }) := by
  refine ⟨?_, ?_, ?_, ?_, ?_, ?_, ?_⟩ <;> decide +kernel

/-- A refusal that waits keeps the terms of its offer, whatever the probes become (R177). -/
theorem test_waiting_refusal_keeps_terms :
    (let f := toDelivering (withEntry .awaiting).flow 0 (.refusal .timeout { number := 3, limit := 1 });
      let r := (entryDeliver tables f 0).1.ram;
      ramRead r 0x8020 12 = [0, 2, 0, 6, 0, 1, 0, 8, 0xFF, 3, 0, 0] ∧ ramNum r 0x803A 2 = 1) := by decide +kernel

theorem witness_ClaimAndGrantTimers :
    (∀ st ∈ [ClaimState.held, .halted],
      let s := withClaim st
      s.tab.active = true ∧ (s.flow.claims.get 6).inForce = true
      ∧ expired (s.advance 5).tab.now (s.flow.claims.get 6).holdOff = true
      ∧ expired (s.advance 4).tab.now (s.flow.claims.get 6).holdOff = false
      ∧ (s.flow.vbs.get 1).closeBuf = none ∧ s.flow.entryOf 0 6 = none ∧ (s.tab.ecus.get 6).closeMsg ≠ [])
    ∧ ((withEntry .awaiting).flow.entryOf 0 6).isSome ∧ (Tables.reset.ecus.get 6).closeMsg = []
    ∧ (let s := withCloseBuf (withClaim .closing);
      (s.flow.claims.get 6).state = .closing ∧ (s.flow.claims.get 6).phase = some .awaiting
      ∧ expired (s.advance 5).tab.now (s.flow.claims.get 6).closeDeadline = true
      ∧ (s.flow.vbs.get (s.tab.ecus.get 6).port).closeBuf = some { ecu := 6, bytes := [0x10, 1] }
      ∧ (6 : EcuIx) ∉ (s.flow.vbs.get 1).closeList)
    ∧ ((withCloseBuf (withClaim .held)).flow.vbs.get 1).closeBuf.isSome
    ∧ (let s := (withCloseBuf (withClaim .closing)).flowed fun f => f.modVb 1 fun v => { v with closeList := [7] };
      (s.flow.vbs.get 1).closeList = 7 :: [] ∧ (6 : EcuIx) ∉ (s.flow.vbs.get 1).closeList)
    ∧ (let s := { withClaim .held with
        grants := Vector.putRow State.reset.grants 0 { grant0 with life := .running 1005 } };
      s.tab.active = true ∧ (s.grants.get 0).state = .active ∧ (s.grants.get 0).life = .running 1005
      ∧ reached (s.advance 5).tab.now 1005 = true ∧ (s.flow.claims.get 6).inForce = true
      ∧ (s.grants.get 0).ecus.getLsbD 6 = true ∧ (s.flow.claims.get 6).holder = (s.grants.get 0).slot
      ∧ supported (Vector.putRow s.grants 0 (s.grants.get 0).expire) 0 6 .program = false)
    ∧ (base.grants.get 1).state = .free := by
  refine ⟨?_, ?_, ?_, ?_, ?_, ?_, ?_, ?_⟩ <;> decide +kernel

theorem witness_JobStepsCarriedOut :
    (∀ p ∈ [((1 : Byte), StepKind.send), (2, .rep), (3, .waitTime), (4, .waitCondition), (5, .sync), (6, .fin)],
      let s := withJob .running [p.1, 0, 1, 0, 1]
      s.tab.ctl = .running ∧ (s.flow.jobs.get 0).state = .running
      ∧ (match readStep s.tab s.flow 0 with
        | .step k g _ => k == p.2 && g.holds .noVerdict
        | .bad => false) = true)
    ∧ readStep base.tab (withJob .running [7]).flow 0 = .bad
    ∧ (match readStep base.tab (withJob .running [6, 1]).flow 0 with
      | .step _ g _ => g.holds .noVerdict
      | .bad => true) = false
    ∧ ((withJob (.waiting .time) []).flow.jobs.get 0).state ≠ .running := by decide +kernel

theorem witness_JobSendIssues :
    (let bs : List Byte := [1, 0, 6, 1, 4];
      let s := withJob .running bs;
      (s.flow.jobs.get 0).slot = some 3 ∧ (getSend (bs ++ zeros 27)).isSome ∧ (s.tab.ecus.get 6).valid = true
      ∧ (((getSend (bs ++ zeros 27)).bind (buildSend s.tab s.flow 0)).isSome)
      ∧ readStep s.tab s.flow 0 = .step .send .always (bs ++ zeros 27)
      ∧ (charge s.tab s.flow 3 .heavy 1).isSome = true)
    ∧ charge noCells.tab noCells.flow 3 .heavy 1 = none ∧ getSend [1, 0, 32] = none
    ∧ (base.tab.ecus.get 7).valid = false
    ∧ (let m : Build := { target := 0x44, ecu := 6, length := 1, malformed := false, code := 4, payload := [4]
                          charge := some cell, result := none, wait := true, stop := false };
      let f := base.flow.modJob 0 fun _ => { job .running with build := some m };
      (f.jobs.get 0).slot = some 3 ∧ (f.jobs.get 0).state ≠ .idle ∧ (f.jobs.get 0).build = some m
      ∧ m.charge = some cell ∧ f.inboundFree 3 = true)
    ∧ (noPlace base 3).flow.inboundFree 3 = false := by decide +kernel

/-- A request of job 0 to ECU 6, forwarded, whose SEND step waits for it. -/
def forwarded : Req :=
  { step := 0, pass := 0, ecu := 6, result := some { offset := 0x8000, max := 2 }, stop := true, stage := .forwarded
    waited := true }

def withRequest (st : JobState) : State :=
  (withJob st []).flowed fun f => f.modJob 0 fun b => { b with requests := [forwarded] }

theorem witness_JobItemTaken :
    (base.tab.testers.get 3).kind = .job ∧ jobOf (withRequest (.waiting .request)).flow 3 = some 0
    ∧ ((withRequest (.waiting .request)).flow.jobs.get 0).requests.find? (ItemOrigin.entry 6).ofReq = some forwarded
    ∧ (∀ r ∈ [forwarded], (ItemOrigin.head).ofReq r = false)
    ∧ ((withRequest .running).flow.jobs.get 0).resultError = false ∧ base.tab.dir = some dir
    ∧ (itemVerdict base.tab 6 (.response (msg 1)) = .positive
      ∧ itemVerdict base.tab 6 (.refusal [0x6E, 1, 9]) = .overflow) := by
  refine ⟨?_, ?_, ?_, ?_, ?_, ?_, ?_⟩ <;> decide +kernel

/-- A positive response is copied into the result buffer and ends the wait of its SEND step; a refusal fails the job. -/
theorem test_job_takes_response :
    (let a := jobItem tables (withRequest (.waiting .request)).flow 3 (.response (msg 4)) (.entry 6);
      a.2 = [.stepDone 0] ∧ ramRead a.1.ram 0x9000 3 = [1, 0, 4] ∧ (a.1.jobs.get 0).requests = []
      ∧ (a.1.jobs.get 0).verdict = .positive)
    ∧ (jobItem tables (withRequest (.waiting .request)).flow 3 (.refusal [0x6E, 1, 9]) (.entry 6)).2 = [.endJob 0 .failed 0 0] := by
  decide +kernel

theorem witness_JobStepsAndJobsEnd :
    (job .running).state ≠ .idle ∧ (job .running).rep = none ∧ (job .running).slot = some 3
    ∧ (let b := { job .running with cur := 1, rep := some { start := 1, span := 1, count := 2, pass := 0 } };
      b.cur + 1 = 1 + 1 ∧ 0 + 1 < 2 ∧ 1 < b.listLength)
    ∧ (let b := { job .running with cur := 1, rep := some { start := 1, span := 2, count := 2, pass := 1 } };
      b.cur + 1 ≠ 1 + 2 ∧ b.build = none ∧ 2 ≤ 1 + 1)
    ∧ (∀ c ∈ [WaitCause.time, .condition], ((withJob (.waiting c) []).flow.jobs.get 0).state = .waiting c
      ∧ expired ((withJob (.waiting c) []).advance 5).tab.now ((withJob (.waiting c) []).flow.jobs.get 0).deadline = true
      ∧ expired ((withJob (.waiting c) []).advance 4).tab.now ((withJob (.waiting c) []).flow.jobs.get 0).deadline
        = false) := by decide +kernel

theorem witness_OrdersBeginAndEnd :
    (∀ p ∈ runningOrders, (board p.1 [] (base.inCtl .off)).Finds dir look p.1 ∧ (board 0 [] base).Finds dir look 0)
    ∧ (base.inCtl .off).tab.ctl ≠ .running ∧ base.flow.look = none ∧ base.tab.dir = some dir
    ∧ dir.orderAddr 63 + 64 ≤ 2 ^ 32 := by decide +kernel

/-- The parameters of SET_TESTER for slot `k`: a BUS tester of address `a`. -/
def testerPs (k a : Byte) : List Byte := [k, 0, 0, a, 0, 0, 0, 0, 1, 1, 0, 0, 0]

theorem witness_TesterAndEcuOrders :
    (∀ k ∈ [(0 : Byte), 5], ∀ a ∈ [(0x10 : Byte), 0x15],
      let s := board 1 (testerPs k a) base
      s.Finds dir look 1 ∧ s.tab.ctl = .running ∧ (asIx 16 (byteAt (s.params dir look) 0).toNat).isSome
      ∧ (getTester ((s.params dir look).drop 1) true).map (·.tbAddr) = some a)
    ∧ (base.tab.testers.get 0).attached = true ∧ (base.tab.testers.get 5).attached = false
    ∧ ((getTester (testerPs 5 0x15 |>.drop 1) true).map (testerConflict base.tab base.flow 5)) = some false
    ∧ ((getTester (testerPs 5 0x10 |>.drop 1) true).map (testerConflict base.tab base.flow 5)) = some true
    ∧ (∀ k ∈ [(0 : Byte), 5, 16], (board 2 [k] base).Finds dir look 2
      ∧ byteAt ((board 2 [k] base).params dir look) 0 = k)
    ∧ (let x := { tester .bus 0x10 .hold with holdLimit := ms 100 };
      let f := (withHeld false).flow.modSlot 0
        (SlotFlow.newTerms { tables with testers := Vector.putRow tables.testers 0 x } 0);
      holdDue 1000 (f.slots.get 0) = true ∧ sameIdentity x (tables.testers.get 0) = true
      ∧ ((f.slots.get 0).held.bind (·.deadline)) = some 1000
      ∧ (f.slots.get 0).inbound = { target := 0x44, msg := msg 1 } :: [])
    ∧ ({ base.flow with relayIn := { base.flow.relayIn with stop := some { slot := 0, wait := .place } } } : Flow).relayStoppedAt 0
      = true
    ∧ jobBusy (withJob .running []) (base.tab.testers.get 3) = true ∧ jobBusy base (base.tab.testers.get 0) = false
    ∧ (let ps : List Byte := [7, 1, 1, 0x50, 1, 0, 0, 0, 0, 0, 0, 0, 0, 0, 0, 0, 0, 0, 0, 1, 0, 1, 0, 1, 0];
      let s := board 3 ps base;
      s.Finds dir look 3 ∧ (getEcu ((s.params dir look).drop 1)).isSome
      ∧ ((getEcu (ps.drop 1)).map (ecuConflict s.tab s.flow 7)) = some false ∧ (s.flow.claims.get 7).state = .free
      ∧ ecuHasEntry s.flow 7 = false ∧ ecuHasEntry (withEntry .awaiting).flow 6 = true) := by
  refine ⟨?_, ?_, ?_, ?_, ?_, ?_, ?_, ?_, ?_, ?_, ?_⟩ <;> decide +kernel

theorem witness_GrantOrders :
    (let ps : List Byte := [1, 0, 0xFF, 0, 0, 0, 3, 0, 0, 0, 0, 5, 0];
      let s := board 4 ps base;
      s.Finds dir look 4 ∧ s.tab.ctl = .running ∧ (getGrant ((s.params dir look).drop 1)).isSome
      ∧ asIx 64 (byteAt (s.params dir look) 0).toNat = some 1 ∧ (s.grants.get 1).state = .free)
    ∧ (∀ c ∈ [(5 : Byte), 6, 7, 8], (board c [0] base).Finds dir look c
      ∧ asIx 64 (byteAt ((board c [0] base).params dir look) 0).toNat = some 0
      ∧ asIx 64 (byteAt ((board c [64] base).params dir look) 0).toNat = none)
    ∧ (base.grants.get 0).state = .active
    ∧ (∀ st ∈ [GrantState.suspended, .spent, .expired], { grant0 with state := st }.state = st) := by decide +kernel

theorem witness_ConditionOrders :
    (∀ b ∈ [(0 : Byte), 1, 2], (board 9 [b] base).Finds dir look 9 ∧ byteAt ((board 9 [b] base).params dir look) 0 = b)
    ∧ (base.tab.conds.get 5).raw = false
    ∧ (let s := board 10 [2, 5, 0, 6, 0] base;
      s.Finds dir look 10 ∧ asIx 6 (byteAt (s.params dir look) 0).toNat = some 2
      ∧ getDuration (s.params dir look) 1 = some (ms 5) ∧ getDuration (s.params dir look) 3 = some (ms 6))
    ∧ 6 ≤ (byteAt ((board 10 [6] base).params dir look) 0).toNat
    ∧ getDuration ((board 10 [2, 0, 0x80] base).params dir look) 1 = none := by decide +kernel

theorem witness_ClaimAndJobOrders :
    ((board 11 [6] base).Finds dir look 11 ∧ (board 15 [] base).Finds dir look 15 ∧ (board 16 [] base).Finds dir look 16)
    ∧ asIx 32 (byteAt ((board 11 [6] base).params dir look) 0).toNat = some 6
    ∧ asIx 32 (byteAt ((board 11 [32] base).params dir look) 0).toNat = none
    ∧ (base.flow.claims.get 6).state = .free ∧ ((withClaim .closing).flow.claims.get 6).state = .closing
    ∧ ((withClaim .halted).flow.claims.get 6).inForce = true
    ∧ (∀ n ∈ [(1 : Nat), 64, 256, 257, 0],
      let s := board 15 ([0, 0, 0] ++ leBytes 2 n) base
      numAt (s.params dir look) 1 2 = 0 ∧ numAt (s.params dir look) 3 2 = n
      ∧ asIx 4 (byteAt (s.params dir look) 0).toNat = some 0)
    ∧ jobSlot base.tab 0 = some 3 ∧ jobSlot base.tab 1 = none ∧ base.tab.poolSteps = 64
    ∧ (base.flow.jobs.get 0).state = .idle ∧ ((withJob .running []).flow.jobs.get 0).state ≠ .idle
    ∧ base.tab.eventCapture = false ∧ Memory.wf (board 15 [0, 0, 0, 1] base) ∧ dir.orderAddr look.next + 64 ≤ 2 ^ 32 := by
  refine ⟨?_, ?_, ?_, ?_, ?_, ?_, ?_, ?_, ?_, ?_, ?_, ?_, ?_, ?_, ?_⟩ <;> decide +kernel

theorem witness_SettingsOrders :
    (let s := board 12 [50, 1, 7, 0] base;
      s.Finds dir look 12 ∧ (byteAt (s.params dir look) 0).toNat = 50 ∧ (byteAt (s.params dir look) 1).toNat = 1
      ∧ getHalves 1 ((s.params dir look).drop 2) = [7]
      ∧ thresholdsFit (replaceRun s.tab.thresholds 50 [7]) = true
      ∧ usageWithin (replaceRun s.tab.thresholds 50 [7]) s.flow.usage = true
      ∧ reservation (replaceRun s.tab.thresholds 50 [7]) s.flow.usage ≤ s.flow.free)
    ∧ usageWithin (replaceRun noCells.tab.thresholds 50 [7]) noCells.flow.usage = false
    ∧ thresholdsFit (replaceRun base.tab.thresholds 0 [1024]) = false
    ∧ ((board 13 [0, 1, 7] base).Finds dir look 13
      ∧ ((getProbe (((board 13 [0, 1, 7] base).params dir look).drop 1)).map (·.enabled)) = some true
      ∧ base.tab.captureRing.isSome ∧ ({ base.tab with dir := none } : Tables).captureRing = none)
    ∧ getProbe [2] = none
    ∧ ((board 19 [0xFF, 7] base).Finds dir look 19 ∧ numAt ((board 19 [0xFF, 7] base).params dir look) 0 4 = 2 ^ 11 - 1
      ∧ 2 ^ 11 ≤ numAt ((board 19 [0, 8] base).params dir look) 0 4)
    ∧ (∀ c ∈ [(0 : Byte), 0x14, 0xFF], (board c [] base).Finds dir look c) := by decide +kernel

theorem witness_SetSamplerOrder :
    (let s := board 14 [1, 0, 16, 63] base;
      s.Finds dir look 14 ∧ s.tab.ctl = .running ∧ byteAt (s.params dir look) 0 = 1
      ∧ numAt (s.params dir look) 1 2 = 4096 ∧ (byteAt (s.params dir look) 3).toNat < 64 ∧ s.tab.captureRing.isSome)
    ∧ 4096 < numAt ((board 14 [1, 1, 16, 63] base).params dir look) 1 2
    ∧ 64 ≤ (byteAt ((board 14 [1, 0, 16, 64] base).params dir look) 3).toNat
    ∧ (base.inCtl .stopping).tab.ctl ≠ .running ∧ (board 13 [] base).Finds dir look 13 := by decide +kernel

theorem witness_SnapshotOrders :
    (∀ b ∈ [(0 : Byte), 1, 2], (board 17 [b] base).Finds dir look 17 ∧ byteAt ((board 17 [b] base).params dir look) 0 = b)
    ∧ dir.counters = some 0xC000 ∧ { dir with counters := none }.counters = none
    ∧ (let s := board 18 ([0, 0, 1, 0] ++ leBytes 2 4244) base;
      s.Finds dir look 18 ∧ (dir.base + numAt (s.params dir look) 0 4) % 2 ^ 32 = 0x11000
      ∧ numAt (s.params dir look) 4 2 = 4244)
    ∧ areaOk dir 0x11000 4244 = true ∧ areaOk dir 0x11000 4243 = false ∧ areaOk dir 0x3000 4244 = false := by
  decide +kernel

/-- Slot 0 has a request whose cell is charged, and an entry to ECU 6 under way. -/
def stored : State :=
  (withEntry .awaiting).flowed fun f =>
    { f.modSlot 0 fun x => { x with inbound := [{ target := 0x44, msg := msg 1 }] } with
      free := 1023, usage := Vector.putRow f.usage 0 1 }

theorem witness_StepKeepsControllerLaw : base.ControllerLaw ∧ ∃ t, step base = .next t := ⟨⟨rfl, rfl⟩, _, rfl⟩

theorem witness_StepKeepsConditionsAndClaims : base.ConditionLaw ∧ (withClaim .closing).ClaimLaw
    ∧ ∃ t, step base = .next t := by
  refine ⟨fun i => ?_, fun e => ?_, _, rfl⟩
  · simp [base, tables, Tables.reset, Condition.reset, Condition.Lawful, Condition.DeadlineLaw]
  · have h : ((withClaim .closing).flow.claims.get e).state = .closing ∨ ((withClaim .closing).flow.claims.get e).state = .free := by
      revert e; decide +kernel
    rcases h with h | h <;> simp [Claim.Lawful, h]

theorem stored_entries (i : EntryIx) :
    stored.flow.entries.get i = if i = 0 then some (entry .awaiting) else none := by
  revert i; decide +kernel

theorem witness_StepKeepsPairsAndPlaces : stored.PairLaw ∧ stored.PlaceLaw ∧ ∃ t, step stored = .next t := by
  refine ⟨fun i j x y hi hj _ _ => ?_, fun k => ?_, _, rfl⟩
  · rw [stored_entries] at hi hj
    split at hi <;> split at hj <;> simp_all
  · revert k; decide +kernel

theorem witness_StepKeepsStore : stored.StoreLaw ∧ ∃ t, step stored = .next t := by
  refine ⟨⟨⟨?_, ?_, ?_, ?_, ?_⟩, fun i x h => ?_, ?_⟩, _, rfl⟩
  case refine_6 =>
    rw [stored_entries] at h
    split at h
    · cases h
      decide
    · exact absurd h nofun
  all_goals decide +kernel

theorem witness_StepKeepsClaimSupport :
    ((withClaim .held).SupportLaw ∧ ((withClaim .held).flow.claims.get 6).inForce = true)
    ∧ ∃ t, step (withClaim .held) = .next t := by
  refine ⟨⟨⟨?_, ?_⟩, ?_⟩, _, rfl⟩ <;> decide +kernel

theorem witness_StepKeepsMemoryAndNews : Memory.wf base ∧ (∃ t, step base = .next t)
    ∧ ({ base with pending := [.rotEdge] } : State).pending = .rotEdge :: []
    ∧ (∃ t, step { base with pending := [.rotEdge] } = .next t) :=
  ⟨⟨List.Pairwise.nil, fun _ h => nomatch h⟩, ⟨_, rfl⟩, rfl, _, rfl⟩

/-! ### Witnesses of further clauses -/

/-- A context of VB1 that receives the answer to entry 0. -/
def vbContext : Ctx := { context with source := 0x44, target := 0x10, owner := .entry 0 }

/-- Entry 0 under way, its answer in reassembly in context 0 of VB1. -/
def withAnswer (st : EntryState) : State := (withEntry st).flowed fun f => f.putCtx (.vb 1) 0 (some vbContext)

/-- Entry 0 in DELIVERING with a response. -/
def delivering (binding : Bool) : Entry :=
  { entry .delivering with deadline := none, binding, held := some (.response (msg 1)) }

/-- The states of an entry that an answer may meet. -/
def answerable : List EntryState := [.awaiting, .receiving, .orphaned .awaiting, .orphaned .receiving]

/-- An OPEN of 20 bytes from ECU 6. -/
def vbOpen : Frame := vbFrame [0x10, 19, 1, 2, 3, 4, 5, 6]

theorem witness_ResponseReachesTester_firstFrame :
    (∀ st ∈ answerable, ∀ s ∈ [withEntry st, withAnswer st],
      accepts s.tab s.flow (.vb 1) vbOpen = true ∧ frBody vbOpen = some (.openMsg 20 [1, 2, 3, 4, 5, 6])
      ∧ frTarget vbOpen ≠ (s.tab.port (.vb 1)).node ∧ portEcu s.tab 1 (frSource vbOpen) = some 6
      ∧ matchEntry s.tab s.flow 6 (frTarget vbOpen) = some 0 ∧ s.flow.entries.get 0 = some (entry st)
      ∧ st.takes = true ∧ (s.tab.ecus.get 6).interimMarker ≠ some (firstByte [4]))
    ∧ (withEntry .awaiting).flow.findCtx (.vb 1) (frSource vbOpen) (frTarget vbOpen) = none
    ∧ (withEntry .awaiting).flow.freeCtx (.vb 1) = some 0
    ∧ (let f := (withEntry .awaiting).flow.modPort (.vb 1) fun x =>
        { x with ctxs := Vector.replicate 8 (some { vbContext with target := 0x11 }) };
      f.freeCtx (.vb 1) = none ∧ f.findCtx (.vb 1) (frSource vbOpen) (frTarget vbOpen) = none)
    ∧ (withAnswer .awaiting).flow.findCtx (.vb 1) (frSource vbOpen) (frTarget vbOpen) = some 0
    ∧ (withAnswer .awaiting).flow.ctx (.vb 1) 0 = some vbContext := by
  refine ⟨?_, ?_, ?_, ?_, ?_, ?_⟩ <;> decide +kernel

theorem witness_ResponseReachesTester_room :
    (let f := (withEntry .receiving).flow;
      f.entries.get 0 = some (entry .receiving) ∧ f.ctx (.vb 1) 0 = none
      ∧ (∀ n ∈ [cellsFor 1, cellsFor 6, cellsFor 20], (charge tables f 0 .routine n).isSome = true)
      ∧ charge tables { f with free := 0, usage := noCells.flow.usage } 0 .routine (cellsFor 20) = none)
    ∧ (0 < (tables.port (.vb 1)).stallLimit
      ∧ (({ tables with ports := Vector.replicate 4 { port with stallLimit := 0 } } : Tables).port (.vb 1)).stallLimit = 0)
    ∧ (withAnswer .awaiting).flow.ctx (.vb 1) 0 ≠ none := by
  refine ⟨?_, ?_, ?_⟩ <;> decide +kernel

theorem witness_ResponseReachesTester_delivered :
    ((entry .receiving).state = .receiving ∧ (entry (.orphaned .receiving)).state.isOrphan = true)
    ∧ (∀ b, let f : Flow := { base.flow with entries := Vector.putRow base.flow.entries 0 (some (delivering b)) };
      f.entries.get 0 = some (delivering b) ∧ (delivering b).state = .delivering
      ∧ (delivering b).held = some (.response (msg 1)) ∧ (delivering b).binding = b)
    ∧ governing tables .response 0 (some 6) (some .read) = none
    ∧ governing noCaptureRoom.tab .response 0 (some 6) (some .read) ≠ none
    ∧ (let x : CaptureRecord :=
        { event := false, source := 1, slot := 0, subject := some 6, cls := some 0, code := 1, grant := some 0
          outcome := none, reason := none, probe := some 0, stamp := none, length := 1, content := [1] };
      (captureBinding noCaptureRoom.tab base.flow x).1 = true
      ∧ (captureBinding noCaptureRoom.tab noCaptureRoom.flow x).1 = false)
    ∧ ((withClaim .held).flow.claims.get 6).state = .held ∧ ((withClaim .held).flow.claims.get 6).holder = 0
    ∧ (base.flow.claims.get 6).state = .free := by
  refine ⟨?_, ?_, ?_, ?_, ?_, ?_, ?_, ?_⟩ <;> decide +kernel

theorem witness_InterimAndCloseAnswers_allStates :
    ∀ st ∈ answerable, ∀ s ∈ [withEntry st, withAnswer st],
      accepts s.tab s.flow (.vb 1) (vbFrame [1, 0x7F]) = true
      ∧ matchEntry s.tab s.flow 6 (frTarget (vbFrame [1, 0x7F])) = some 0 ∧ s.flow.entries.get 0 = some (entry st)
      ∧ st.takes = true ∧ (entry st).ecu = 6 := by decide +kernel

theorem witness_FramesSentAndWithdrawn_closesAndOrphans :
    (let x := { transfer .waitDone with cargo := .close 6 };
      ((base.flow.modPort (.vb 1) fun y => { y with tx := some x }).port (.vb 1)).tx = some x ∧ x.cargo = .close 6)
    ∧ ((withEntry (.orphaned .sending)).flow.entries.get 0 = some (entry (.orphaned .sending)))
    ∧ (entry (.orphaned .sending)).state = .orphaned .sending := by decide +kernel

theorem witness_EntriesEnd_closingGoesOn :
    (let s := (withEntry .awaiting).flowed fun f =>
        f.modClaim 6 fun _ => { claim .closing with phase := some .waitEntry };
      s.flow.entries.get 0 = some (entry .awaiting)
      ∧ ((s.flow.claims.get 6).state = .closing ∧ (s.flow.claims.get 6).phase = some .waitEntry
        ∧ (s.flow.claims.get 6).holder = (entry .awaiting).slot)
      ∧ (s.tab.ecus.get 6).closeMsg ≠ [] ∧ (Tables.reset.ecus.get 6).closeMsg = [])
    ∧ (base.flow.claims.get 6).state ≠ .closing
    ∧ ((delivering true).state = .delivering ∧ (delivering true).held = some (.response (msg 1))) := by decide +kernel

theorem witness_HeadsRefusedAndHeld_probesAndJobs :
    (let t := { tables with probes := Vector.putRow tables.probes 0 { bindingProbe with binding := false } };
      governing t .refusal 0 none (some .barred) = some 0 ∧ (t.probes.get 0).binding = false)
    ∧ (tables.testers.get 3).kind = .job ∧ (tables.testers.get 0).kind ≠ .job
    ∧ ((withHead 1).flow.slots.get 0).inbound = { target := 0x44, msg := msg 1 } :: []
    ∧ (let f := (withHeld false).flow;
      ((f.markHeads fun _ h => h.reason == .claimed).again, (f.markHeads fun _ h => h.reason == .pair).again)
        = ([0, 0], [0])) := by
  refine ⟨?_, ?_, ?_, ?_, ?_⟩ <;> decide +kernel

theorem witness_AdmissionForwards_claims :
    (let x := { claim .held with level := .adjust };
      x.state = .held ∧ x.holder = 0 ∧ x.level = .adjust ∧ x.inForce = true ∧ x.holder ≠ 1)
    ∧ (claim .held).level ≠ .adjust ∧ (claim .closing).inForce = false ∧ (claim .closing).state ≠ .free
    ∧ (base.flow.claims.get 6).state = .free ∧ ServiceClass.adjust.level = some .adjust
    ∧ ServiceClass.read.level = none
    ∧ (({ grant0 with budget := 1, left := some 1 } : Grant).charged 1000).state = .spent
    ∧ (grant0.charged 1000).state = .active
    ∧ (let s := { withHead 4 with grants := Vector.putRow base.grants 0 { grant0 with budget := 1, left := some 1 } };
      nextVisit s.tab s.flow = some 0
      ∧ (evaluateHead (s.withFlow (visitSlot s.flow 0)) 0 { target := 0x44, msg := msg 4 }).1 = .admits 6 .program 0) := by
  refine ⟨?_, ?_, ?_, ?_, ?_, ?_, ?_, ?_, ?_, ?_⟩ <;> decide +kernel

theorem witness_ClaimAndGrantTimers_releases :
    (∀ st ∈ [ClaimState.held, .halted], ((withClaim st).flow.claims.get 6).inForce = true)
    ∧ ((withClaim .closing).flow.claims.get 6).inForce = false
    ∧ ((withEntry .awaiting).flow.entryOf (claim .held).holder 6).isSome
    ∧ (base.flow.entryOf (claim .held).holder 6) = none
    ∧ (tables.ecus.get 6).closeMsg ≠ [] ∧ (Tables.reset.ecus.get 6).closeMsg = [] := by decide +kernel

theorem witness_JobSendIssues_fields :
    (getSend [1, 0, 31, 8]).isSome ∧ getSend [1, 0, 31, 9] = none
    ∧ (let opts := fun (o : Byte) (bs : List Byte) => getSend ([1, 0, 6, 1, 4, 0, 0, 0, 0, 0, 0, 0, o, 0] ++ bs);
      (opts 1 [0, 8]).isSome ∧ opts 1 [1, 8] = none ∧ opts 1 [0, 0] = none
      ∧ (opts 3 [1, 0, 0, 0, 0, 0, 0, 8]).isSome ∧ opts 3 [1, 0, 0, 0, 0, 0, 1, 8] = none
      ∧ (opts 4 [0, 0, 0, 0, 0, 0, 0, 0, 0xFF, 7]).isSome ∧ opts 4 [0, 0, 0, 0, 0, 0, 0, 0, 0, 8] = none
      ∧ (opts 8 [0, 0, 0, 0, 0, 0, 0, 0, 0, 0, 0, 0, 0, 0, 0, 8]).isSome
      ∧ opts 8 [0, 0, 0, 0, 0, 0, 0, 0, 0, 0, 0, 0, 0, 0, 1, 8] = none)
    ∧ (let s := withJob .running [1, 0, 7, 1, 4];
      readStep s.tab s.flow 0 = .step .send .always (sendStep [1, 0, 7, 1, 4])
      ∧ ((getSend (sendStep [1, 0, 7, 1, 4])).map (·.ecu)) = some 7 ∧ (s.tab.ecus.get 7).valid = false) := by
  refine ⟨?_, ?_, ?_, ?_⟩ <;> decide +kernel

/-- A SEND to ECU 6 with no inline byte and `n` data bytes at 0x9000, with a pass counter at a position. -/
def sendOf (n : Nat) (counter : Option Nat) : SendStep :=
  { ecu := 6, inlined := [], data := some { offset := 0x8000, length := n, final := some 1 }
    counter := counter.map fun p => { position := p, start := 7 }, result := none, wait := true, stop := false }

theorem witness_JobSendIssues_lengths :
    (let f := base.flow.modJob 0 fun _ => job .running;
      let last := base.flow.modJob 0 fun _ => { job .running with rep := some { start := 1, span := 1, count := 3, pass := 2 } };
      let sent := fun (f : Flow) (x : SendStep) => (buildSend tables f 0 x).map fun m => (m.malformed, m.length, m.payload);
      sent f (sendOf 0 none) = some (true, 0, []) ∧ sent f (sendOf 2049 none) = some (true, 2049, [])
      ∧ sent f (sendOf 2 none) = some (false, 2, [0, 0]) ∧ sent f (sendOf 2 (some 1)) = some (false, 2, [0, 7])
      ∧ sent f (sendOf 2 (some 2)) = none ∧ sent last (sendOf 2 (some 0)) = some (false, 1, [9])) := by decide +kernel

theorem witness_ReleasesAndOffers_goOn :
    (context.charge.isSome ∧ { context with charge := none }.charge = none)
    ∧ ({ context with single := true }.single = true ∧ context.single = false ∧ context.segments ≠ 0
      ∧ { context with segments := 0 }.segments = 0)
    ∧ base.flow.ctx .tb 0 = none ∧ (withCtx { context with charge := none }).flow.ctx .tb 0 = some { context with charge := none }
    ∧ (let r : Ring := { leaf := 0x4000, pages := 2, size := 256 };
      tables.relayInRing = some r ∧ (relayRecordAt r (withRecord 0x20 base).flow).isSome ∧ base.flow.relayIn.stop = none
      ∧ ({ base.flow.relayIn with stop := some { slot := 2, wait := .cells } }.stop).isSome)
    ∧ (let m : Build := { target := 0x44, ecu := 6, length := 1, malformed := false, code := 4, payload := [4]
                          charge := none, result := none, wait := true, stop := false };
      ((base.flow.modJob 0 fun _ => { job .running with build := some m }).jobs.get 0).build = some m ∧ m.charge = none
      ∧ { m with charge := some cell }.charge.isSome) := by
  refine ⟨?_, ?_, ?_, ?_, ?_, ?_⟩ <;> decide +kernel

/-- The tables with event capture on. -/
def capturing : Tables := { tables with eventCapture := true }

theorem witness_MemoryErrors_lastAttempt : capturing.active = true ∧ capturing.eventCapture = true := by decide +kernel

theorem witness_CaptureRecordsOffered_events :
    tables.eventCapture = false ∧ capturing.eventCapture = true ∧ capturing.captureRing.isSome
    ∧ (captureRoom capturing base.flow 32).1 = true ∧ (captureRoom capturing noCaptureRoom.flow 32).1 = false
    ∧ (let x := eventRecord 7 0 0 none (some 0) none [];
      (captureRoom capturing (captureWrite capturing base.flow x) 208).1 = true
      ∧ (let full := ramWrite base.flow.ram 0x8110 [3];
        (captureRoom capturing (captureWrite capturing { base.flow with ram := full } x) 209).1 = false)) := by
  refine ⟨?_, ?_, ?_, ?_, ?_, ?_⟩ <;> decide +kernel

theorem witness_NoRoomOnTb_noStall :
    (let s := { base with tab := { tables with ports := Vector.replicate 4 { port with stallLimit := 0 } } };
      accepts s.tab s.flow .tb (tbFrame [1, 4]) = true ∧ (s.tab.port .tb).stallLimit = 0
      ∧ (noPlace s 0).flow.inboundFree 0 = false ∧ s.flow.freeCtx .tb = some 0) := by decide +kernel

theorem witness_PagesFlushed_commits :
    base.flow.writer.page = none ∧ base.flow.relayOut.page = none
    ∧ ({ tables with dir := none } : Tables).captureRing = none := by decide +kernel

/-! ### The orders of effects that the reviews asked for -/

/-- An event lists a concerned head again even when it is already due: the heads of one event keep their order (R94). -/
theorem test_due_head_listed_again :
    (let f := { (withHeld false).flow with again := [0] }.modSlot 1 fun x => { x with held := some (held false) };
      (f.markHeads fun _ _ => true).again = [0, 0, 1]) := by decide +kernel

/-- The response of an ORPHANED entry gives its cells back before the entry ends (R109, log 34). -/
theorem test_orphan_releases_first :
    (let a := responseComplete (withEntry (.orphaned .receiving)).flow 0 (msg 4);
      a.2 = [.release cell, .orphanEnds 0] ∧ (a.1.entries.get 0).isSome) := by decide +kernel

/-- An interim answer met in RECEIVING past the limit: the context's cells are released before the entry ends (R104). -/
theorem test_interim_releases_first :
    (let s := (withAnswer (.orphaned .receiving)).flowed fun f =>
        { f.modEntry 0 (fun x => { x with interims := 1 }) with free := 1023, usage := Vector.putRow f.usage 0 1 };
      gives (exec (.singleFrame (.vb 1) (vbFrame [1, 0x7F])) s) fun t =>
        t.flow.free == 1024 && (t.flow.entries.get 0).isNone && (t.flow.ctx (.vb 1) 0).isNone) = true := by decide +kernel

/-! ### The clauses that the fifth review asked for -/

/-- The fault code of STARTING with bytes changed in the image. -/
def startCode (pokes : List (Nat × List Byte)) : Option FaultCode :=
  match readStarting (starting.flowed fun f => { f with ram := pokes.foldl (fun m p => ramWrite m p.1 p.2) f.ram }) with
  | .ok _ => none
  | .error c => some c

/-- A third entry: a relay outbound ring at 0x2000, with this page size. -/
def withRing (size : List Byte) : List (Nat × List Byte) :=
  [(4, [3]), (16, [0xFC, 7, 0, 0x31]), (0x2000, [2, 0]), (0x2002, size)]

/-- The directory of the image alone, with bytes changed: its fault code. -/
def dirCode (pokes : List (Nat × List Byte)) : Option FaultCode :=
  let ram := ((0, [0xD6, 0x24, 0x3C, 0x5A, 2, 0, 0, 0, 0x3E, 0, 0, 0x10, 0x3D, 2, 0, 0x20]) :: (0x900, [8]) :: pokes).foldl
    (fun m p => ramWrite m p.1 p.2) []
  match readDirectory ram 0 with
  | .ok _ => none
  | .error c => some c

theorem witness_StartingFails_directory :
    dirCode [(4, [17])] = some .badSignature ∧ dirCode [(4, [0])] = some .badSignature
    ∧ dirCode [(11, [0x11])] = some .badLeaf ∧ dirCode [(15, [0x10])] = some .badLeaf
    ∧ dirCode [(4, [1])] = some .missingLeaf
    ∧ dirCode [(0x900, [7])] = some .badLeaf ∧ dirCode [(0x900, [65])] = some .badLeaf ∧ dirCode [(0x900, [64])] = none
    ∧ dirCode [(8, [0x3F, 2])] = some .badLeaf ∧ dirCode (withRing [0, 8]) = some .badLeaf
    ∧ dirCode (withRing [0x40, 8]) = none := by decide +kernel

/-- One failing check of the tables, of the thresholds and of the interface's own settings, and a leaf that passes with
fields at their bounds. -/
theorem witness_StartingFails_settings :
    startCode [(0x318, [1])] = some .badSettings ∧ startCode [(0x1B0, [0, 4, 1])] = some .badSettings
    ∧ startCode (withRing [0x40, 8]) = some .badSettings
    ∧ startCode ([(0x318, [1, 0, 5]), (0x218, [1, 0, 6]), (0x1B0, [0, 4]), (0x210, [0, 4]), (0x103, [63]), (0x14D, [7]),
      (0x146, [1])] ++ withRing [0x40, 8]) = none := by
  refine ⟨?_, ?_, ?_, ?_⟩ <;> decide +kernel

theorem witness_JobStepsCarriedOut_reads :
    tables.dir.bind (·.pool) = some { leaf := 0xA000, steps := 64 }
    ∧ ({ tables with dir := none } : Tables).dir.bind (·.pool) = none
    ∧ (let read := fun (start : Nat) (rep : Bool) (bs : List Byte) =>
        let s := (withJob .running bs).flowed fun f => f.modJob 0 fun x => { x with
          listStart := start, rep := if rep then some { start := 0, span := 1, count := 2, pass := 0 } else none };
        readStep s.tab s.flow 0;
      read 0 false [5] = .bad ∧ read 1 false [0] = .bad ∧ read 1 false [7] = .bad ∧ read 1 false [5, 4] = .bad
      ∧ read 1 true [2] = .bad ∧ read 1 true [6] = .bad ∧ read 1 true [5, 3] = .step .sync .ifNotPositive (sendStep [5, 3])
      ∧ read 1 false [6] = .step .fin .always (sendStep [6])) := by
  refine ⟨?_, ?_, ?_⟩ <;> decide +kernel

theorem witness_RelayRecordHandled_record :
    (let r : Ring := { leaf := 0x4000, pages := 2, size := 256 };
      let at_ := fun (o n : Nat) (len : List Byte) => (relayRecordAt r { base.flow with
        relayIn := { base.flow.relayIn with offset := o }, ram := ramWrite base.flow.ram (0x4010 + o + 2) (len ++ [7]) }).map
          fun x => (x.malformed, x.code, x.payload.length == n);
      at_ 253 0 [1, 0] = none ∧ at_ 252 0 [1, 0] = some (true, 0, true) ∧ at_ 251 1 [1, 0] = some (false, 7, true)
      ∧ at_ 16 0 [0, 0] = some (true, 0, true) ∧ at_ 16 236 [236, 0] = some (false, 7, true)
      ∧ at_ 16 0 [237, 0] = some (true, 7, true))
    ∧ (withRecord 0x20 base).flow.relayIn.count = some 1 ∧ (withRecord 0x20 base).flow.relayIn.record = 0 := by
  refine ⟨?_, ?_, ?_⟩ <;> decide +kernel

theorem witness_FramesIgnored_bodies :
    (let made := fun (bs : List Byte) => (frBody (vbFrame bs)).isSome;
      made [0] = true ∧ made [7, 1, 2, 3, 4, 5, 6, 7] = true ∧ made [8, 1, 2, 3, 4, 5, 6, 7] = false ∧ made [2, 1] = false
      ∧ made [0x10] = false ∧ made [0x10, 4, 1, 2, 3, 4] = false ∧ made [0x10, 4, 1, 2, 3, 4, 5] = true ∧ made [0x20] = false
      ∧ made [0x20, 1] = true ∧ made [0x30] = false ∧ made [0x30, 0] = false ∧ made [0x30, 63] = true ∧ made [0x30, 64] = false
      ∧ made [0x31] = true ∧ made [0x32] = true ∧ made [0x33] = false ∧ made [0x40] = false ∧ made [0x40, 9] = true
      ∧ made [0x50, 1] = false ∧ made [0xF0, 1] = false ∧ made [] = false)
    ∧ frBody (vbFrame [0]) = some (.single 0 []) := by decide +kernel

/-- An OPEN of 20 bytes from ECU 0x44 to the part's node address. -/
def closeOpen : Frame := vbNode [0x10, 19, 1, 2, 3, 4, 5, 6]

/-- All eight VB1 contexts in use for other keys. -/
def fullVb (s : State) : State :=
  s.flowed fun f => f.modPort (.vb 1) fun x => { x with ctxs := Vector.replicate 8 (some { context with target := 0x45 }) }

theorem witness_InterimAndCloseAnswers_open :
    (let s := withClaim .closing;
      accepts s.tab s.flow (.vb 1) closeOpen = true ∧ frBody closeOpen = some (.openMsg 20 [1, 2, 3, 4, 5, 6])
      ∧ frTarget closeOpen = (s.tab.port (.vb 1)).node ∧ portEcu s.tab 1 (frSource closeOpen) = some 6
      ∧ (s.flow.claims.get 6).state = .closing ∧ (s.flow.claims.get 6).phase = some .awaiting
      ∧ s.flow.findCtx (.vb 1) 0x44 0xF1 = none ∧ s.flow.freeCtx (.vb 1) = some 0
      ∧ (fullVb s).flow.findCtx (.vb 1) 0x44 0xF1 = none ∧ (fullVb s).flow.freeCtx (.vb 1) = none)
    ∧ (let s := (withClaim .closing).flowed fun f =>
        f.putCtx (.vb 1) 0 (some { context with source := 0x44, target := 0xF1, owner := .close 6, charge := none });
      s.flow.findCtx (.vb 1) 0x44 0xF1 = some 0 ∧ (s.flow.ctx (.vb 1) 0).isSome) := by decide +kernel

/-- Such an OPEN is granted, and answered BUSY without a context; the closing has ended in either case. -/
theorem test_close_answer_open :
    gives (exec (.openFrame (.vb 1) closeOpen) (withClaim .closing)) (fun t =>
      (t.flow.claims.get 6).outcome == .answered && (t.flow.claims.get 6).answer == some 1
      && (t.flow.port (.vb 1)).onBus.map (·.frame.data) == some [0x30, 2] && (t.flow.ctx (.vb 1) 0).isSome) = true
    ∧ gives (exec (.openFrame (.vb 1) closeOpen) (fullVb (withClaim .closing))) (fun t =>
      (t.flow.claims.get 6).outcome == .answered
      && (t.flow.port (.vb 1)).onBus.map (·.frame.data) == some [0x40, 5]) = true := by
  refine ⟨?_, ?_⟩ <;> decide +kernel

theorem witness_EntriesEnd_notBinding :
    (let t := { tables with probes := Vector.putRow tables.probes 0 { bindingProbe with binding := false } };
      governing t .refusal 0 (some 6) (some .read) = some 0 ∧ (t.probes.get 0).binding = false)
    ∧ (withEntry .awaiting).flow.entries.get 0 = some (entry .awaiting) := by decide +kernel

/-- The fields of the snapshot at the offsets of R215, on a state with a claim, a condition and an entry in use. -/
theorem test_snapshot_offsets :
    (let s := { withClaim .held with tab := (withCond .rising true).tab };
      let bs := snapshot (s.flowed fun f => { f with entries := Vector.putRow f.entries 1 (some (entry .awaiting)) });
      byteAt bs 4 = 1 ∧ byteAt bs (0x604 + 120) = 1 ∧ numAt bs (0x604 + 124) 4 = 5 ∧ byteAt bs (0x8F0 + 16) = 1
      ∧ numAt bs (0xBA0 + 24 + 7) 4 = 5 ∧ numAt bs 0xBF0 2 = 1024 ∧ byteAt bs 0xE80 = 1 ∧ numAt bs 0x1090 4 = 1000) := by
  decide +kernel

end Sys2Proof.Tests
end

section
/-! SUPPORT. The decision on a head (R84 to R89): what each check answers, one equation per check in the order of R84,
and the statement on refusing and holding. -/

namespace Sys2Proof.Machine

/-! ### The outstanding table as steps 7 and 8 look at it (R87) -/

theorem Flow.entryOf_isSome_iff (f : Flow) (k : Slot) (e : EcuIx) :
    (f.entryOf k e).isSome = true ↔ ∃ i x, f.entries.get i = some x ∧ x.slot = k ∧ x.ecu = e := by
  simp only [Flow.entryOf, List.find?_isSome, List.mem_finRange, true_and]
  refine exists_congr fun i => ?_
  cases f.entries.get i with
  | none => simp
  | some x => simp

theorem Flow.freeEntry_isNone_iff (f : Flow) :
    f.freeEntry.isNone = true ↔ ∀ i, (f.entries.get i).isSome = true := by
  simp [Flow.freeEntry, Option.isSome_iff_ne_none]

/-! ### Reasons by the slot's mode (R89) -/

section
variable {t : Tables} {k : Slot} {r : HoldReason}

theorem holdOr_of_refuse_mode {x : Reason} (hr : r.refusal = some x) (hm : (t.testers.get k).mode = .refuse)
    (e : EcuIx) (c : ServiceClass) : holdOr t k r e c = .refuse x (some e) (some c) := by
  simp only [holdOr, hr, hm]

theorem holdOr_of_hold_mode (hm : (t.testers.get k).mode = .hold) (e : EcuIx) (c : ServiceClass) :
    holdOr t k r e c = .hold r e := by
  cases hr : r.refusal <;> simp only [holdOr, hr, hm]

/-- A decision that `holdOr` makes, for a reason that can refuse, goes by the slot's mode. -/
theorem holdOr_by_mode {α : Type} {a : Decision × α} {y : α} {x : Reason} {e : EcuIx} {c : ServiceClass}
    (hr : r.refusal = some x) (ha : a = (holdOr t k r e c, y)) :
    ((t.testers.get k).mode = .refuse → a = (.refuse x (some e) (some c), y))
    ∧ ((t.testers.get k).mode = .hold → a = (.hold r e, y)) :=
  ⟨fun hm => by rw [ha, holdOr_of_refuse_mode hr hm], fun hm => by rw [ha, holdOr_of_hold_mode hm]⟩

end

/-! ### The resources that forwarding needs (R87, R88) -/

/-- Step 9: the look for room for the request's record, which only a binding probe calls for (R88). -/
def requestRoom (t : Tables) (f : Flow) (k : Slot) (e : EcuIx) (c : ServiceClass) (m : Message) (g : GrantIx) :
    Bool × Flow :=
  if requestBinding t k e c then captureRoom t f (recordSize (requestRecord t k e c m g none).content.length)
  else (true, f)

section
variable {t : Tables} {f : Flow} {k : Slot} {e : EcuIx} {c : ServiceClass} {m : Message} {g : GrantIx}

theorem resourceCheck_pair (hp : (f.entryOf k e).isSome = true) :
    resourceCheck t f k e c m g = (some .pair, f) := by
  rw [resourceCheck, if_pos hp]

theorem resourceCheck_outstanding (hp : ¬(f.entryOf k e).isSome = true)
    (hfull : f.freeEntry.isNone = true ∨ (t.testers.get k).limit ≤ f.liveEntries k) :
    resourceCheck t f k e c m g = (some .outstanding, f) := by
  rw [resourceCheck, if_neg hp, if_pos (by simpa using hfull)]

/-- Past steps 7 and 8 the room for the record and the port's queue decide, in this order. -/
theorem resourceCheck_after_table (hp : ¬(f.entryOf k e).isSome = true)
    (hfull : ¬(f.freeEntry.isNone = true ∨ (t.testers.get k).limit ≤ f.liveEntries k)) :
    resourceCheck t f k e c m g =
      (if (requestRoom t f k e c m g).1 = false then some .capture
        else if 16 ≤ (f.vbs.get (t.ecus.get e).port).outbound.length then some .portQueue else none,
      (requestRoom t f k e c m g).2) := by
  rw [resourceCheck, if_neg hp, if_neg (by simpa using hfull)]
  change (if !(requestRoom t f k e c m g).1 then _ else _) = _
  cases (requestRoom t f k e c m g).1 with
  | false => rfl
  | true => simp only [Bool.not_true, Bool.false_eq_true, if_false, Bool.true_eq_false]; split <;> rfl

end

/-! ### The checks in order (R84 to R86) -/

section
variable {s : State} {k : Slot} {m : InMsg}

theorem evaluateHead_of_not_running (hctl : s.tab.ctl ≠ .running) :
    evaluateHead s k m = (.refuse .stopping none none, s.flow) := by
  simp [evaluateHead, hctl]

variable (hctl : s.tab.ctl = .running)
include hctl

theorem evaluateHead_of_malformed (hm : m.msg.malformed = true) :
    evaluateHead s k m = (.refuse .malformed none none, s.flow) := by
  simp [evaluateHead, hctl, hm]

variable (hm : m.msg.malformed = false)
include hm

theorem evaluateHead_of_barred (hc : classOf s.tab m.msg.code = .barred) :
    evaluateHead s k m = (.refuse .barred none (some (classOf s.tab m.msg.code)), s.flow) := by
  simp [evaluateHead, hctl, hm, hc]

variable (hc : classOf s.tab m.msg.code ≠ .barred)
include hc

theorem evaluateHead_of_no_ecu (he : findEcu s.tab m.target = none) :
    evaluateHead s k m = (.refuse .noEcu none (some (classOf s.tab m.msg.code)), s.flow) := by
  simp [evaluateHead, hctl, hm, hc, he]

variable {e : EcuIx} (he : findEcu s.tab m.target = some e)
include he

theorem evaluateHead_of_no_grant (hg : chargedGrant s.tab s.grants k e (classOf s.tab m.msg.code) = none)
    (hr : grantReason s.grants k e (classOf s.tab m.msg.code) = none) :
    evaluateHead s k m = (.refuse .noGrant (some e) (some (classOf s.tab m.msg.code)), s.flow) := by
  simp [evaluateHead, hctl, hm, hc, he, hg, hr]

theorem evaluateHead_of_grant_reason {r : HoldReason}
    (hg : chargedGrant s.tab s.grants k e (classOf s.tab m.msg.code) = none)
    (hr : grantReason s.grants k e (classOf s.tab m.msg.code) = some r) :
    evaluateHead s k m = (holdOr s.tab k r e (classOf s.tab m.msg.code), s.flow) := by
  simp [evaluateHead, hctl, hm, hc, he, hg, hr]

variable {g : GrantIx} (hg : chargedGrant s.tab s.grants k e (classOf s.tab m.msg.code) = some g)
include hg

theorem evaluateHead_of_claim_reason {r : HoldReason}
    (hr : claimCheck (s.flow.claims.get e) k (classOf s.tab m.msg.code) = some r) :
    evaluateHead s k m = (holdOr s.tab k r e (classOf s.tab m.msg.code), s.flow) := by
  simp [evaluateHead, hctl, hm, hc, he, hg, hr]

variable (hclaim : claimCheck (s.flow.claims.get e) k (classOf s.tab m.msg.code) = none)
include hclaim

theorem evaluateHead_of_resource_reason {r : HoldReason} {f : Flow}
    (hr : resourceCheck s.tab s.flow k e (classOf s.tab m.msg.code) m.msg g = (some r, f)) :
    evaluateHead s k m = (.hold r e, f) := by
  simp [evaluateHead, hctl, hm, hc, he, hg, hclaim, hr]

theorem evaluateHead_of_resources {f : Flow}
    (hr : resourceCheck s.tab s.flow k e (classOf s.tab m.msg.code) m.msg g = (none, f)) :
    evaluateHead s k m = (.admits e (classOf s.tab m.msg.code) g, f) := by
  simp [evaluateHead, hctl, hm, hc, he, hg, hclaim, hr]

end

/-- Settles O18: the checks are taken in the order of R84; each has its equation above, and past the claim check the
resource check answers by the outstanding table, the room for the record and the port's queue. -/
theorem refuseOrHold : Obligations.RefuseOrHold := by
  intro s k m t f c decides byMode
  refine ⟨evaluateHead_of_not_running, evaluateHead_of_malformed, fun hctl hm =>
    ⟨evaluateHead_of_barred hctl hm, fun hc => ⟨evaluateHead_of_no_ecu hctl hm hc, fun e he => ⟨fun hg => ?_,
      fun g hg => ?_⟩⟩⟩⟩
  · have byGrants {r : HoldReason} {x : Reason} (hx : r.refusal = some x)
        (hr : grantReason s.grants k e c = some r) : byMode x r e :=
      holdOr_by_mode hx (evaluateHead_of_grant_reason hctl hm hc he hg hr)
    exact ⟨byGrants rfl, byGrants rfl, evaluateHead_of_no_grant hctl hm hc he hg⟩
  · have byClaim {r : HoldReason} {x : Reason} (hx : r.refusal = some x)
        (hr : claimCheck (f.claims.get e) k c = some r) : byMode x r e :=
      holdOr_by_mode hx (evaluateHead_of_claim_reason hctl hm hc he hg hr)
    refine ⟨byClaim rfl, byClaim rfl, byClaim rfl, fun hclaim => ?_⟩
    have holds {r : HoldReason} {f' : Flow} (hr : resourceCheck t f k e c m.msg g = (some r, f')) :
        evaluateHead s k m = (.hold r e, f') := evaluateHead_of_resource_reason hctl hm hc he hg hclaim hr
    intro pair full size room queue
    have pair_iff : (f.entryOf k e).isSome = true ↔ pair := f.entryOf_isSome_iff k e
    have full_iff : f.freeEntry.isNone = true ∨ (t.testers.get k).limit ≤ f.liveEntries k ↔ full :=
      or_congr_left f.freeEntry_isNone_iff
    have pastTable (hp : ¬pair) (hf : ¬full) : resourceCheck t f k e c m.msg g =
        (if room.1 = false then some .capture else if 16 ≤ queue.length then some .portQueue else none, room.2) :=
      resourceCheck_after_table (pair_iff.not.mpr hp) (full_iff.not.mpr hf)
    refine ⟨fun hp => holds (resourceCheck_pair (pair_iff.mpr hp)),
      fun hp hf => holds (resourceCheck_outstanding (pair_iff.not.mpr hp) (full_iff.mpr hf)),
      fun hp hf hroom => holds ?capture, fun hp hf hroom hq => holds ?portQueue,
      fun hp hf hroom hq => evaluateHead_of_resources hctl hm hc he hg hclaim ?admitted⟩
    case capture => rw [pastTable hp hf, if_pos hroom]
    case portQueue => rw [pastTable hp hf, if_neg (by simp [hroom]), if_pos hq]
    case admitted => rw [pastTable hp hf, if_neg (by simp [hroom]), if_neg (by omega)]

end Sys2Proof.Machine
end

section
/-! SUPPORT. SET_SAMPLER and SET_PROBE (R186, R187): which fields SET_SAMPLER accepts, what each of its checks ends the
order with, and the statement on both orders. -/

namespace Sys2Proof.Machine

/-! ### The sampler's fields (R178, R187) -/

theorem getSampler_some (en cl : Byte) (rate : Nat) (x : Sampler) :
    getSampler en cl rate = some x ↔
      en = (if x.enabled then 1 else 0) ∧ (cl.toNat < 64 ∧ x.classes = BitVec.ofNat 6 cl.toNat)
        ∧ rate ≤ 4096 ∧ x.rate = rate := by
  obtain ⟨b, n, c⟩ := x
  simp only [getSampler, Option.bind_eq_bind, Option.bind_eq_some_iff, getFlag_some, getSet_some, inRange_some,
    Option.some.injEq, Sampler.mk.injEq]
  constructor
  · rintro ⟨b, hb, c, hc, n, ⟨-, hle, hn⟩, rfl, rfl, rfl⟩
    exact ⟨hb, hc, hle, hn.symm⟩
  · rintro ⟨hb, hc, hle, hn⟩
    exact ⟨b, hb, c, hc, n, ⟨Nat.zero_le _, hle, hn.symm⟩, rfl, rfl, rfl⟩

/-- A rate above 4,096, a class set with a seventh class, or a flag that is neither 0 nor 1 is out of range. -/
theorem getSampler_none {en cl : Byte} {rate : Nat} (h : 4096 < rate ∨ 64 ≤ cl.toNat ∨ (en ≠ 0 ∧ en ≠ 1)) :
    getSampler en cl rate = none := by
  refine Option.eq_none_iff_forall_ne_some.mpr fun x hx => ?_
  obtain ⟨hflag, ⟨hclasses, -⟩, hrate, -⟩ := (getSampler_some en cl rate x).mp hx
  rcases h with h | h | ⟨h0, h1⟩
  · omega
  · omega
  · cases hb : x.enabled
    · exact h0 (by simpa [hb] using hflag)
    · exact h1 (by simpa [hb] using hflag)

/-! ### SET_SAMPLER's checks in order (R187) -/

section
variable {s : State} {n : Nat} {ps : List Byte}

theorem orderSetSampler_badParam (h : getSampler (byteAt ps 0) (byteAt ps 3) (numAt ps 1 2) = none) :
    orderSetSampler s n ps = s.done n .badParam := by
  simp only [orderSetSampler, h]

variable {x : Sampler} (hx : getSampler (byteAt ps 0) (byteAt ps 3) (numAt ps 1 2) = some x)
include hx

theorem orderSetSampler_noEntry (he : x.enabled = true) (hr : s.tab.captureRing = none) :
    orderSetSampler s n ps = s.done n .noEntry := by
  simp [orderSetSampler, hx, he, hr]

theorem orderSetSampler_ok (h : x.enabled = false ∨ s.tab.captureRing.isSome) :
    orderSetSampler s n ps = { s with tab := { s.tab with sampler := x } }.done n .ok := by
  have hpass : ¬(x.enabled && s.tab.captureRing.isNone) = true := by
    rcases h with h | h
    · simp [h]
    · simp [Option.isNone_eq_false_iff.mpr h]
  simp only [orderSetSampler, hx, if_neg hpass]

end

/-! ### The rows -/

section
variable {s : State} {d : Directory} {l : Look}

theorem exec_setSampler_running (h : s.Finds d l 0x0E) (hr : s.tab.ctl = .running) :
    exec .setSampler s = .next ((orderSetSampler (s.took d l) l.next (s.params d l)).looksOn d l) := by
  change execSetSampler s = _
  rw [execSetSampler, order_finds h, if_pos hr]

theorem exec_setSampler_not_running (h : s.Finds d l 0x0E) (hr : s.tab.ctl ≠ .running) :
    exec .setSampler s = .next ((s.took d l).answers d l .state) := by
  change execSetSampler s = _
  rw [execSetSampler, order_finds h, if_neg hr]

theorem exec_setProbe_not_running (h : s.Finds d l 0x0D) (hr : s.tab.ctl ≠ .running) :
    exec .setProbe s = .next ((s.took d l).answers d l .state) := by
  change execSetProbe s = _
  rw [execSetProbe, order_finds h, if_neg hr]

end

/-- Settles O53: in RUNNING the order takes its checks in the order of R187, each with its equation above; outside it
both orders end with STATE as any order does that RUNNING alone carries out. -/
theorem setSamplerOrder : Obligations.SetSamplerOrder := by
  intro s d l u ps ends rate classes
  refine ⟨fun hfind hrun => ?running, fun hctl => ⟨fun hfind => exec_setProbe_not_running hfind hctl,
    fun hfind => exec_setSampler_not_running hfind hctl⟩⟩
  rw [exec_setSampler_running hfind hrun]
  have looksOn {v : State} {r : OrderResult} (h : orderSetSampler u l.next ps = v.done l.next r) :
      Host.Outcome.next ((orderSetSampler u l.next ps).looksOn d l) = ends v r := by rw [h]
  refine ⟨fun hbad => looksOn (orderSetSampler_badParam (getSampler_none hbad)), fun b hb hrate hclasses => ?_⟩
  have hx : getSampler (byteAt ps 0) classes rate = some ⟨b, rate, BitVec.ofNat 6 classes.toNat⟩ :=
    (getSampler_some ..).mpr ⟨hb, ⟨hclasses, rfl⟩, hrate, rfl⟩
  exact ⟨fun hen hring => looksOn (orderSetSampler_noEntry hx hen hring),
    fun h => looksOn (orderSetSampler_ok hx h)⟩

end Sys2Proof.Machine
end

section
/-! SUPPORT. The store's accounts and START_JOB (R160): a job context that is idle while its build buffer holds a charged
message meets `StoreLaw`, whose law on build buffers speaks of RUNNING jobs only, and START_JOB then overwrites the buffer
and with it the only record of the charge. -/

namespace Sys2Proof.Machine

/-- A charge of one cell of slot 0, on its slot-grade reserve. -/
def strandedCharge : Charge :=
  { slot := 0, grade := .routine, cells := 1, slotGrade := 1, slotReserve := 0, gradeShared := 0, common := 0 }

/-- An idle job context whose build buffer still holds a charged message. -/
def strandedJob : Job :=
  { Job.reset with
    build := some { target := 0, ecu := 0, length := 1, malformed := false, code := 0, payload := [0]
                    charge := some strandedCharge, result := none, wait := false, stop := false } }

/-- A directory whose order board lies at address 0, with a pool of one step. -/
def strandedDir : Directory :=
  { base := 0, entries := 2, settings := 0, board := 0, slots := 8, relayIn := none, relayOut := none, capture := none
    pool := some { leaf := 0, steps := 1 }, counters := none }

/-- RUNNING, with slot 0 an ATTACHED JOB slot of context 0, and the look at an order START_JOB (code 15) of context 0 with
a list of one step from pool step 0 on. -/
def strandedState : State :=
  { State.reset with
    pending := [.startJob]
    tab := { Tables.reset with
      ctl := .running, dir := some strandedDir
      testers := Vector.putRow Tables.reset.testers 0 { Tester.reset with attached := true, kind := .job }
      thresholds := Vector.putRow Tables.reset.thresholds 0 1 }
    flow := { Flow.reset with
      ram := [(20, 0x0F), (39, 1)], look := some { next := 0, left := 8 }, free := 1023
      usage := Vector.putRow Flow.reset.usage 0 1
      jobs := Vector.putRow Flow.reset.jobs 0 strandedJob } }

theorem strandedState_entries (i : EntryIx) : strandedState.flow.entries.get i = none := by
  simp [strandedState, Flow.reset]

theorem strandedState_jobs (j : JobIx) : (strandedState.flow.jobs.get j).state = .idle := by
  revert j; decide +kernel

theorem strandedState_charges : strandedState.flow.charges = [strandedCharge] := by decide +kernel

theorem strandedState_storeLaw : strandedState.StoreLaw := by
  refine ⟨⟨?usage, ?cells, ?parts, ?within, ?reserved⟩, fun i x hx => ?_, fun j hj => ?_⟩
  case usage => rw [strandedState_charges]; decide +kernel
  case cells => rw [strandedState_charges]; decide +kernel
  case parts => rw [strandedState_charges]; decide +kernel
  case within => decide +kernel
  case reserved => decide +kernel
  · rw [strandedState_entries] at hx
    cases hx
  · rw [strandedState_jobs] at hj
    cases hj

/-- The machine after START_JOB: one cell is charged to no message. -/
theorem step_strandedState : ∃ t, step strandedState = .next t ∧ t.flow.charges = [] ∧ t.flow.free = 1023 :=
  ⟨_, rfl, by decide +kernel, by decide +kernel⟩

/-- Refutes O58: an idle job context with a charged message in its build buffer meets the law, and START_JOB drops that
charge without a release, so the charges and the free cells make 1,023. -/
theorem not_stepKeepsStore : ¬ Obligations.StepKeepsStore := by
  unfold Obligations.StepKeepsStore
  intro h
  obtain ⟨t, hstep, hcharges, hfree⟩ := step_strandedState
  obtain ⟨⟨_, hcells, _⟩, _⟩ := h strandedState t strandedState_storeLaw hstep
  rw [hcharges, hfree] at hcells
  exact absurd hcells (by decide)

end Sys2Proof.Machine
end

section
/-! SUPPORT. What becomes of the delivery places (R81, R114): most operations leave the slots and the outstanding entries
as they are, the others take no more places than there were before. -/

namespace Sys2Proof.Machine

/-! ### Operations that leave the slots and the entries alone -/

/-- The slots and the outstanding entries are as they were. -/
def Flow.SameQueues (f g : Flow) : Prop := g.slots = f.slots ∧ g.entries = f.entries

namespace Flow.SameQueues

theorem refl (f : Flow) : f.SameQueues f := ⟨rfl, rfl⟩

theorem trans {f g h : Flow} (a : f.SameQueues g) (b : g.SameQueues h) : f.SameQueues h :=
  ⟨b.1.trans a.1, b.2.trans a.2⟩

theorem foldl {α : Type} (u : Flow → α → Flow) (h : ∀ (f : Flow) x, f.SameQueues (u f x)) (xs : List α) (f : Flow) :
    f.SameQueues (xs.foldl u f) := by
  induction xs generalizing f with
  | nil => exact refl f
  | cons x xs ih => exact (h f x).trans (ih _)

theorem setNews (f : Flow) (n : News) : f.SameQueues (f.setNews n) := ⟨rfl, rfl⟩
theorem modClaim (f : Flow) (e : EcuIx) (u : Claim → Claim) : f.SameQueues (f.modClaim e u) := ⟨rfl, rfl⟩
theorem modPort (f : Flow) (p : PortId) (u : PortFlow → PortFlow) : f.SameQueues (f.modPort p u) := ⟨rfl, rfl⟩
theorem modVb (f : Flow) (v : VbIx) (u : VbFlow → VbFlow) : f.SameQueues (f.modVb v u) := ⟨rfl, rfl⟩
theorem modJob (f : Flow) (j : JobIx) (u : Job → Job) : f.SameQueues (f.modJob j u) := ⟨rfl, rfl⟩
theorem markHeads (f : Flow) (p : Slot → Held → Bool) : f.SameQueues (f.markHeads p) := ⟨rfl, rfl⟩
theorem countEcu (f : Flow) (e : EcuIx) (u : EcuCounts → EcuCounts) : f.SameQueues (f.countEcu e u) := ⟨rfl, rfl⟩

end Flow.SameQueues

section
open Flow.SameQueues

theorem captureRoom_sameQueues (t : Tables) (f : Flow) (n : Nat) : f.SameQueues (captureRoom t f n).2 := by
  unfold captureRoom
  split <;> exact ⟨rfl, rfl⟩

theorem captureWrite_sameQueues (t : Tables) (f : Flow) (c : CaptureRecord) : f.SameQueues (captureWrite t f c) := by
  unfold captureWrite
  split
  · exact refl f
  · simp only
    split <;> exact ⟨rfl, rfl⟩

theorem captureLost_sameQueues (f : Flow) : f.SameQueues (captureLost f) := ⟨rfl, rfl⟩

theorem captureOffer_sameQueues (t : Tables) (f : Flow) (c : CaptureRecord) : f.SameQueues (captureOffer t f c) := by
  unfold captureOffer
  simp only
  split
  · exact (captureRoom_sameQueues ..).trans (captureWrite_sameQueues ..)
  · exact (captureRoom_sameQueues ..).trans (captureLost_sameQueues _)

theorem captureBinding_sameQueues (t : Tables) (f : Flow) (c : CaptureRecord) :
    f.SameQueues (captureBinding t f c).2 := by
  unfold captureBinding
  simp only
  split
  · exact (captureRoom_sameQueues ..).trans (captureWrite_sameQueues ..)
  · exact captureRoom_sameQueues ..

theorem captureRefusal_sameQueues (t : Tables) (f : Flow) (k : Slot) (e : Option EcuIx) (c : Option ServiceClass)
    (code : Byte) (g : Option GrantIx) (r : Reason) (n : Option Nat) :
    f.SameQueues (captureRefusal t f k e c code g r n).2 := by
  unfold captureRefusal
  split
  · exact refl f
  · simp only
    split
    · exact captureBinding_sameQueues ..
    · exact captureOffer_sameQueues ..

theorem captureCommit_sameQueues (t : Tables) (f : Flow) : f.SameQueues (captureCommit t f) := by
  unfold captureCommit
  split <;> exact ⟨rfl, rfl⟩

theorem event_sameQueues (t : Tables) (n : Nat) (f : Flow) (c : CaptureRecord) : f.SameQueues (event t n f c) := by
  unfold event
  split
  · split
    · exact captureOffer_sameQueues ..
    · simp only
      split
      · exact (captureRoom_sameQueues ..).trans (captureLost_sameQueues _)
      · split
        · exact (captureRoom_sameQueues ..).trans (captureWrite_sameQueues ..)
        · exact captureLost_sameQueues _
  · exact refl f

theorem controllerRecord_sameQueues (t : Tables) (f : Flow) (o : Byte) (r : Option Byte) :
    f.SameQueues (controllerRecord t f o r) :=
  (event_sameQueues ..).trans (captureCommit_sameQueues ..)

theorem claimReport_sameQueues (t : Tables) (n : Nat) (f : Flow) (e : EcuIx) (ev : ClaimEvent) (r : Option Byte)
    (c : List Byte) : f.SameQueues (claimReport t n f e ev r c) :=
  (setNews ..).trans (event_sameQueues ..)

theorem claimChanged_sameQueues (t : Tables) (n : Nat) (f : Flow) (e : EcuIx) (ev : ClaimEvent) (r : Option Byte)
    (c : List Byte) : f.SameQueues (claimChanged t n f e ev r c) :=
  (markHeads ..).trans (claimReport_sameQueues ..)

theorem orderDone_sameQueues (t : Tables) (f : Flow) (n : Nat) (r : OrderResult) (d : List Byte) :
    f.SameQueues (orderDone t f n r d) := by
  unfold orderDone
  split <;> exact ⟨rfl, rfl⟩

theorem enterBuffer_sameQueues (t : Tables) (f : Flow) (e : EcuIx) : f.SameQueues (enterBuffer t f e) := by
  unfold enterBuffer
  simp only
  split <;> exact ⟨rfl, rfl⟩

theorem passBuffer_sameQueues (t : Tables) (f : Flow) (e : EcuIx) : f.SameQueues (passBuffer t f e) := by
  unfold passBuffer
  simp only
  split
  · exact refl f
  · split
    · split <;> exact ⟨rfl, rfl⟩
    · exact refl f

theorem endReleaseOrders_sameQueues (t : Tables) (f : Flow) (e : EcuIx) (c : Option ReleaseCause) (o : CloseOutcome)
    (a : Option Byte) : f.SameQueues (endReleaseOrders t f e c o a) :=
  Flow.SameQueues.trans (g := { f with releaseWaits := f.releaseWaits.filter fun w => w.ecu != e }) ⟨rfl, rfl⟩
    (foldl _ (fun _ _ => orderDone_sameQueues ..) _ _)

theorem closeEnd_sameQueues (t : Tables) (n : Nat) (f : Flow) (e : EcuIx) (o : CloseOutcome) (a : Option Byte) :
    f.SameQueues (closeEnd t n f e o a) :=
  (((modClaim ..).trans (passBuffer_sameQueues ..)).trans (endReleaseOrders_sameQueues ..)).trans
    (claimChanged_sameQueues ..)

theorem closingProceeds_sameQueues (t : Tables) (n : Nat) (f : Flow) (e : EcuIx) :
    f.SameQueues (closingProceeds t n f e) := by
  unfold closingProceeds
  split
  · exact closeEnd_sameQueues ..
  · exact enterBuffer_sameQueues ..

theorem claimRelease_sameQueues (t : Tables) (n : Nat) (b : Bool) (f : Flow) (e : EcuIx) (c : ReleaseCause) :
    f.SameQueues (claimRelease t n b f e c) := by
  unfold claimRelease
  simp only
  split
  · split
    · exact (modClaim ..).trans (claimChanged_sameQueues ..)
    · exact ((modClaim ..).trans (claimChanged_sameQueues ..)).trans (closingProceeds_sameQueues ..)
  · exact refl f

theorem releaseClaimsOf_sameQueues (t : Tables) (f : Flow) (k : Slot) (c : ReleaseCause) :
    f.SameQueues (releaseClaimsOf t f k c) :=
  foldl _ (fun f e => by
    split
    · exact claimRelease_sameQueues ..
    · exact refl f) _ _

theorem refreshClaim_sameQueues (t : Tables) (f : Flow) (k : Slot) (e : EcuIx) :
    f.SameQueues (refreshClaim t f k e) := by
  unfold refreshClaim
  simp only
  split
  · exact modClaim ..
  · exact refl f

theorem supportCheck_sameQueues (t : Tables) (gs : Vector Grant 64) (n : Nat) (en : Option EcuIx) (f : Flow) (o : Grant) :
    f.SameQueues (supportCheck t gs n en f o) :=
  foldl _ (fun f e => by
    simp only
    split
    · exact claimRelease_sameQueues ..
    · exact refl f) _ _

theorem grantStep_sameQueues (t : Tables) (n : Nat) (f : Flow) (i : GrantIx) (g : Grant) (o : Byte) :
    f.SameQueues (grantStep t n f i g o) :=
  (setNews ..).trans (event_sameQueues ..)

theorem pushControl_sameQueues (t : Tables) (f : Flow) (p : PortId) (o : FrameOwner) (a b : Byte) (d : List Byte) :
    f.SameQueues (pushControl t f p o a b d) := modPort ..

theorem pushTx_sameQueues (t : Tables) (f : Flow) (p : PortId) (o : FrameOwner) (a b : Byte) (d : List Byte) :
    f.SameQueues (pushTx t f p o a b d) := modPort ..

theorem startFrames_sameQueues (t : Tables) (f : Flow) : f.SameQueues (startFrames t f) :=
  foldl _ (fun f p => modPort f p _) _ _

theorem sendGrant_sameQueues (t : Tables) (f : Flow) (p : PortId) (c : CtxIx) (x : Ctx) :
    f.SameQueues (sendGrant t f p c x) := (modPort ..).trans (pushControl_sameQueues ..)

theorem charge_sameQueues {t : Tables} {f g : Flow} {k : Slot} {d : Grade} {n : Nat} {h : Charge}
    (e : charge t f k d n = some (g, h)) : f.SameQueues g := by
  unfold charge at e
  simp only at e
  split at e
  · cases e; exact ⟨rfl, rfl⟩
  · cases e

theorem tryWaiter_sameQueues (t : Tables) (a : Flow × List (Claimant × Charge)) (w : Waiter) :
    a.1.SameQueues (tryWaiter t a w).1 := by
  unfold tryWaiter
  split
  · exact refl _
  · rename_i g h e
    exact (charge_sameQueues e).trans ⟨rfl, rfl⟩

theorem offerCells_sameQueues (t : Tables) (f : Flow) : f.SameQueues (offerCells t f).1 := by
  have go : ∀ (ws : List Waiter) (a : Flow × List (Claimant × Charge)),
      a.1.SameQueues (ws.foldl (tryWaiter t) a).1 := by
    intro ws
    induction ws with
    | nil => exact fun a => refl _
    | cons w ws ih => exact fun a => (tryWaiter_sameQueues t a w).trans (ih _)
  exact go _ _

theorem offered_sameQueues (t : Tables) (f : Flow) : f.SameQueues (offered t f).1 := offerCells_sameQueues t f

theorem released_sameQueues (t : Tables) (f : Flow) (c : Charge) : f.SameQueues (released t f c).1 :=
  Flow.SameQueues.trans (g := releaseCharge f c) ⟨rfl, rfl⟩ (offered_sameQueues ..)

theorem releaseBody_sameQueues (t : Tables) (f : Flow) (b : ItemBody) : f.SameQueues (releaseBody t f b).1 := by
  unfold releaseBody
  split
  · exact released_sameQueues ..
  · exact refl f
  · exact refl f

theorem writeResult_sameQueues (t : Tables) (f : Flow) (j : JobIx) (b : Option ResultBuf) (n : Nat) (p : List Byte) :
    f.SameQueues (writeResult t f j b n p).2 := by
  unfold writeResult
  split
  · exact refl f
  · split
    · exact modJob ..
    · split
      · exact refl f
      · exact ⟨rfl, rfl⟩

theorem jobItem_sameQueues (t : Tables) (f : Flow) (k : Slot) (b : ItemBody) (o : ItemOrigin) :
    f.SameQueues (jobItem t f k b o).1 := by
  unfold jobItem
  split
  · exact refl f
  · exact refl f
  · split
    · exact refl f
    · exact (((modJob ..).trans (writeResult_sameQueues ..)).trans (releaseBody_sameQueues ..)).trans (modJob ..)

theorem jobStepDone_sameQueues (f : Flow) (j : JobIx) : f.SameQueues (jobStepDone f j).1 := by
  unfold jobStepDone
  simp only
  split
  · exact modJob ..
  · exact refl f

theorem relayPages_sameQueues (r : Ring) (n : Nat) (f : Flow) : f.SameQueues (relayPages r n f) := by
  induction n generalizing f with
  | zero => exact refl f
  | succ n ih =>
    simp only [relayPages]
    split
    · split
      · exact Flow.SameQueues.trans ⟨rfl, rfl⟩ (ih _)
      · exact ⟨rfl, rfl⟩
    · exact refl f

theorem relayAdvance_sameQueues (r : Ring) (f : Flow) (n : Nat) (b : Bool) : f.SameQueues (relayAdvance r f n b) := by
  unfold relayAdvance
  simp only
  split
  · exact Flow.SameQueues.trans (g := relayPageDone r f) ⟨rfl, rfl⟩ (relayPages_sameQueues ..)
  · exact ⟨rfl, rfl⟩

end

end Sys2Proof.Machine
end

section
/-! SUPPORT. The used and reserved delivery places of a slot (R114): which operations leave their number as
it is or lower it, and how an entry that ends hands its place to the item it places. -/

namespace Sys2Proof.Machine

/-! ### Counting the entries of a slot -/

/-- An outstanding entry reserves a delivery place of the slot (R114). -/
def Entry.reserves (k : Slot) : Option Entry → Bool
  | none => false
  | some x => x.slot == k && !x.state.isOrphan

theorem Flow.liveEntries_eq (f : Flow) (k : Slot) : f.liveEntries k = f.entries.toList.countP (Entry.reserves k) := by
  unfold Flow.liveEntries
  exact List.countP_congr fun x _ => by cases x <;> rfl

theorem Vector.toList_eq_map_get {α : Type} {n : Nat} (v : Vector α n) : v.toList = (List.finRange n).map v.get := by
  apply List.ext_getElem
  · simp
  · intro i h1 h2
    simp [Vector.get]

theorem Flow.liveEntries_le {f g : Flow} {k : Slot}
    (h : ∀ i, Entry.reserves k (g.entries.get i) = true → Entry.reserves k (f.entries.get i) = true) :
    g.liveEntries k ≤ f.liveEntries k := by
  rw [Flow.liveEntries_eq, Flow.liveEntries_eq, Vector.toList_eq_map_get, Vector.toList_eq_map_get, List.countP_map,
    List.countP_map]
  exact List.countP_mono_left fun i _ => h i

theorem Flow.liveEntries_congr {f g : Flow} (h : g.entries = f.entries) (k : Slot) :
    g.liveEntries k = f.liveEntries k := by
  unfold Flow.liveEntries
  rw [h]

/-- Replacing one entry changes the count by what the old and the new one reserve. -/
theorem countP_putRow {α : Type} {n : Nat} (p : α → Bool) (v : Vector α n) (i : Fin n) (x : α) :
    (Vector.putRow v i x).toList.countP p + (if p (v.get i) then 1 else 0)
      = v.toList.countP p + (if p x then 1 else 0) := by
  have hi : i.val < v.toList.length := by simp
  have hget : v.toList[i.val] = v.get i := by simp [Vector.get]
  have hpos : p (v.get i) = true → 0 < v.toList.countP p := fun h =>
    List.countP_pos_iff.mpr ⟨_, List.getElem_mem hi, by rw [hget]; exact h⟩
  rw [show (Vector.putRow v i x).toList = v.toList.set i.val x by simp [Vector.putRow, Vector.toList, Vector.set], List.countP_set hi, hget]
  split
  · rename_i h
    have := hpos h
    omega
  · omega

/-! ### The places of a slot -/

/-- The used and reserved delivery places of a slot (R114). -/
def Flow.load (f : Flow) (k : Slot) : Nat := (f.slots.get k).items.length + f.liveEntries k

theorem Flow.deliveryFree_iff (f : Flow) (k : Slot) :
    f.deliveryFree k = true ↔ f.load k + (f.slots.get k).kept < 8 := by
  simp [Flow.deliveryFree, Flow.load]

/-- No slot has more places used or reserved than before. -/
structure Flow.NoMore (f g : Flow) : Prop where
  load : ∀ k, g.load k ≤ f.load k

namespace Flow.NoMore

theorem refl (f : Flow) : f.NoMore f := ⟨fun _ => Nat.le_refl _⟩

theorem trans {f g h : Flow} (a : f.NoMore g) (b : g.NoMore h) : f.NoMore h := ⟨fun k => (b.load k).trans (a.load k)⟩

theorem modSlot (f : Flow) (k : Slot) (u : SlotFlow → SlotFlow) (hi : ∀ x, (u x).items.length ≤ x.items.length) :
    f.NoMore (f.modSlot k u) := ⟨fun j => by
  unfold Flow.load
  rw [Flow.liveEntries_congr (Flow.modSlot_entries f k u)]
  by_cases e : j = k
  · subst e
    have := hi (f.slots.get j)
    rw [Flow.modSlot_get_self]
    omega
  · simp only [Flow.modSlot, Vector.modifyRow_get_ne _ _ _ _ e, Nat.le_refl]⟩

theorem modEntry (f : Flow) (i : EntryIx) (u : Entry → Entry)
    (h : ∀ k x, Entry.reserves k (some (u x)) = true → Entry.reserves k (some x) = true) :
    f.NoMore (f.modEntry i u) := ⟨fun k => by
  have : (f.modEntry i u).liveEntries k ≤ f.liveEntries k := Flow.liveEntries_le fun j => by
    by_cases e : j = i
    · subst e
      simp only [Flow.modEntry, Vector.modifyRow_get_self]
      cases f.entries.get j with
      | none => exact id
      | some x => exact h k x
    · simp [Flow.modEntry, Vector.modifyRow_get_ne _ _ _ _ e]
  unfold Flow.load
  simp only [Flow.modEntry_slots]
  omega⟩

theorem foldlActs {α β : Type} (u : Flow × β → α → Flow × β) (h : ∀ (a : Flow × β) x, a.1.NoMore (u a x).1) (xs : List α)
    (a : Flow × β) : a.1.NoMore (xs.foldl u a).1 := by
  induction xs generalizing a with
  | nil => exact refl _
  | cons x xs ih => exact (h a x).trans (ih _)

end Flow.NoMore

theorem Flow.SameQueues.load {f g : Flow} (h : f.SameQueues g) (k : Slot) : g.load k = f.load k := by
  unfold Flow.load
  rw [h.1, Flow.liveEntries_congr h.2]

theorem Flow.SameQueues.noMore {f g : Flow} (h : f.SameQueues g) : f.NoMore g := ⟨fun k => (h.load k).le⟩

/-- A change that leaves the queues alone, before one that takes no more places. -/
theorem Flow.NoMore.after {f g h : Flow} (b : g.NoMore h) (a : f.SameQueues g) : f.NoMore h := a.noMore.trans b

/-! ### Contexts and messages that are taken in -/

section
open Flow.NoMore

theorem putCtx_noMore (f : Flow) (p : PortId) (c : CtxIx) (x : Option Ctx) : f.NoMore (f.putCtx p c x) :=
  (Flow.SameQueues.modPort ..).noMore

theorem leavePlace_noMore (f : Flow) (k : Slot) (c : CtxIx) : f.NoMore (f.leavePlace k c) :=
  modSlot _ _ _ fun _ => Nat.le_refl _

theorem freeContext_noMore (f : Flow) (p : PortId) (c : CtxIx) : f.NoMore (freeContext f p c) := by
  unfold freeContext
  split
  · exact refl f
  · refine Flow.NoMore.trans (g := (f.putCtx p c none).leaveWait (ctxClaimant p c)) (Flow.SameQueues.noMore ⟨rfl, rfl⟩) ?_
    refine Flow.NoMore.trans ?_ (Flow.SameQueues.modPort ..).noMore
    split
    · exact leavePlace_noMore ..
    · exact refl _
    · exact refl _

theorem appendInbound_noMore (f : Flow) (k : Slot) (a : Byte) (m : Message) : f.NoMore (appendInbound f k a m) :=
  modSlot _ _ _ fun _ => Nat.le_refl _

theorem handOver_noMore (f : Flow) (o : CtxOwner) (a : Byte) (m : Message) : f.NoMore (handOver f o a m).1 := by
  unfold handOver
  split
  · exact appendInbound_noMore ..
  · exact refl f
  · exact refl f

theorem abandonCtx_noMore (f : Flow) (p : PortId) (c : CtxIx) (b : Bool) : f.NoMore (abandonCtx f p c b).1 := by
  unfold abandonCtx
  split
  · exact refl f
  · exact freeContext_noMore ..

theorem abortTo_noMore (t : Tables) (f : Flow) (p : PortId) (a b : Byte) (r : AbortReason) :
    f.NoMore (abortTo t f p a b r) := (pushControl_sameQueues ..).noMore

theorem stallTick_noMore (t : Tables) (f : Flow) (p : PortId) (c : CtxIx) : f.NoMore (stallTick t f p c).1 := by
  unfold stallTick
  split
  · exact refl f
  · split
    · exact (putCtx_noMore ..).trans (pushControl_sameQueues ..).noMore
    · exact (abortTo_noMore ..).trans (abandonCtx_noMore ..)

theorem ctxCharged_noMore (t : Tables) (f : Flow) (p : PortId) (c : CtxIx) (h : Charge) :
    f.NoMore (ctxCharged t f p c h).1 := by
  unfold ctxCharged
  split
  · exact refl f
  · simp only
    split
    · exact refl f
    · split
      · exact (freeContext_noMore ..).trans (handOver_noMore ..)
      · split
        · exact ((freeContext_noMore ..).trans (pushControl_sameQueues ..).noMore).trans (handOver_noMore ..)
        · exact (sendGrant_sameQueues ..).noMore

theorem seekTb_noMore (t : Tables) (f : Flow) (i : Option CtxIx) (fr : FirstFrame) (k : Slot) :
    f.NoMore (seekTb t f i fr k).1 := by
  unfold seekTb
  simp only
  split
  · rename_i g h e
    have hg : f.NoMore g := by
      split at e
      · exact (charge_sameQueues e).noMore
      · cases e
    split
    · exact hg.trans (appendInbound_noMore ..)
    · split
      · exact (hg.trans (pushControl_sameQueues ..).noMore).trans (appendInbound_noMore ..)
      · split
        · exact hg
        · exact hg.trans (sendGrant_sameQueues ..).noMore
  · split
    · split
      · exact abortTo_noMore ..
      · split
        · exact (stallTick_noMore ..).after ⟨rfl, rfl⟩
        · refine Flow.NoMore.trans ?_ (stallTick_noMore ..)
          exact Flow.NoMore.after (modSlot _ _ _ fun _ => Nat.le_refl _) (Flow.SameQueues.modPort ..)
    · exact abortTo_noMore ..

theorem seekVb_noMore (t : Tables) (f : Flow) (v : VbIx) (i : Option CtxIx) (fr : FirstFrame) (e : EntryIx) :
    f.NoMore (seekVb t f v i fr e).1 := by
  unfold seekVb
  split
  · exact refl f
  · simp only
    split
    · rename_i g h hc
      have hg := (charge_sameQueues hc).noMore
      split
      · exact hg
      · split
        · exact hg.trans (pushControl_sameQueues ..).noMore
        · split
          · exact hg
          · exact hg.trans (sendGrant_sameQueues ..).noMore
    · split
      · exact abortTo_noMore ..
      · exact (stallTick_noMore ..).after ⟨rfl, rfl⟩

theorem seekClose_noMore (t : Tables) (f : Flow) (p : PortId) (i : Option CtxIx) (fr : FirstFrame) :
    f.NoMore (seekClose t f p i fr).1 := by
  unfold seekClose
  split
  · exact refl f
  · split
    · exact (pushControl_sameQueues ..).noMore
    · split
      · exact abortTo_noMore ..
      · exact (sendGrant_sameQueues ..).noMore

theorem seekRoom_noMore (t : Tables) (f : Flow) (p : PortId) (i : Option CtxIx) (fr : FirstFrame) :
    f.NoMore (seekRoom t f p i fr).1 := by
  unfold seekRoom
  split
  · exact seekTb_noMore ..
  · exact seekVb_noMore ..
  · exact refl f
  · exact seekClose_noMore ..

theorem placeToCtx_noMore (t : Tables) (f : Flow) (k : Slot) (c : CtxIx) : f.NoMore (placeToCtx t f k c).1 := by
  unfold placeToCtx
  simp only
  split
  · exact leavePlace_noMore ..
  · split
    · rename_i g h hc
      exact (((leavePlace_noMore ..).trans (charge_sameQueues hc).noMore).trans (putCtx_noMore ..)).trans
        (ctxCharged_noMore ..)
    · exact (leavePlace_noMore ..).trans (Flow.SameQueues.noMore ⟨rfl, rfl⟩)

theorem offerPlace_noMore (t : Tables) (f : Flow) (k : Slot) : f.NoMore (offerPlace t f k).1 := by
  unfold offerPlace
  split
  · split
    · exact placeToCtx_noMore ..
    · split
      · exact refl f
      · split <;> exact refl f
  · exact refl f

/-! ### Entries and jobs -/

theorem entryEnd_noMore (t : Tables) (f : Flow) (i : EntryIx) : f.NoMore (entryEnd t f i) := by
  unfold entryEnd
  split
  · exact refl f
  · have hfree : f.NoMore { f with
        entries := Vector.putRow f.entries i none, delivering := f.delivering.filter (· != i) } := ⟨fun k => by
      have : Flow.liveEntries { f with
          entries := Vector.putRow f.entries i none, delivering := f.delivering.filter (· != i) } k
            ≤ f.liveEntries k := Flow.liveEntries_le fun j => by
        by_cases e : j = i
        · subst e; simp [Entry.reserves]
        · simp [Vector.putRow_get_ne _ _ _ _ e]
      unfold Flow.load
      simp only
      omega⟩
    simp only
    split
    · exact (hfree.trans (Flow.SameQueues.markHeads ..).noMore).trans (closingProceeds_sameQueues ..).noMore
    · exact hfree.trans (Flow.SameQueues.markHeads ..).noMore

/-- An entry that is not ORPHANED gives its reserved place back when it ends. -/
theorem entryEnd_frees (t : Tables) (f : Flow) (i : EntryIx) (x : Entry) (hx : f.entries.get i = some x)
    (hl : x.state.isOrphan = false) (k : Slot) :
    (entryEnd t f i).load k + (if x.slot = k then 1 else 0) = f.load k := by
  have hq : ∀ g : Flow, (entryEnd t f i).SameQueues g → g.load k = (entryEnd t f i).load k := fun g h => h.load k
  have hmark : Flow.SameQueues { f with
      entries := Vector.putRow f.entries i none, delivering := f.delivering.filter (· != i) } (entryEnd t f i) := by
    unfold entryEnd
    rw [hx]
    simp only
    split
    · exact (Flow.SameQueues.markHeads ..).trans (closingProceeds_sameQueues ..)
    · exact Flow.SameQueues.markHeads ..
  have hcount := countP_putRow (Entry.reserves k) f.entries i none
  rw [hmark.load]
  unfold Flow.load
  simp only [Flow.liveEntries_eq]
  simp only [hx, Entry.reserves, hl, Bool.not_false, Bool.and_true, beq_iff_eq, Bool.false_eq_true, if_false] at hcount
  omega

theorem toDelivering_noMore {f : Flow} {e : EntryIx} {x : Entry} (hx : f.entries.get e = some x)
    (hl : x.state.isOrphan = false) (h : HeldItem) : f.NoMore (toDelivering f e h) := ⟨fun k => by
  have : (toDelivering f e h).liveEntries k ≤ f.liveEntries k := Flow.liveEntries_le fun j => by
    by_cases hj : j = e
    · subst hj
      simp only [toDelivering, Flow.modEntry, Vector.modifyRow_get_self, hx, Option.map_some, Entry.reserves, hl]
      simp only [Bool.and_eq_true]
      exact fun h => ⟨h.1, rfl⟩
    · simp [toDelivering, Flow.modEntry, Vector.modifyRow_get_ne _ _ _ _ hj]
  unfold Flow.load
  simp only [toDelivering, Flow.modEntry_slots] at this ⊢
  omega⟩

theorem orphanEnds_noMore (t : Tables) (f : Flow) (e : EntryIx) : f.NoMore (orphanEnds t f e) := by
  unfold orphanEnds
  split
  · exact refl f
  · split
    · exact entryEnd_noMore ..
    · exact refl f

theorem responseComplete_noMore (f : Flow) (e : EntryIx) (m : Message) : f.NoMore (responseComplete f e m).1 := by
  unfold responseComplete
  split
  · exact refl f
  · rename_i x hx
    split
    · exact refl f
    · simp only
      split
      · exact (Flow.SameQueues.countEcu ..).noMore
      · rename_i hl
        refine Flow.NoMore.after (toDelivering_noMore (x := x) ?_ (by simpa using hl) _) (Flow.SameQueues.countEcu ..)
        exact hx

theorem responseAbandoned_noMore (f : Flow) (t : Tables) (e : EntryIx) (b : Bool) :
    f.NoMore (responseAbandoned f t e b).1 := by
  unfold responseAbandoned
  split
  · exact refl f
  · split
    · split
      · exact entryEnd_noMore ..
      · exact (Flow.SameQueues.countEcu ..).noMore.trans (entryEnd_noMore ..)
    · split <;> exact (Flow.SameQueues.countEcu ..).noMore

theorem orphanEntry_noMore (t : Tables) (f : Flow) (e : EntryIx) : f.NoMore (orphanEntry t f e).1 := by
  have orphaned (p : OrphanPhase) : f.NoMore (f.modEntry e fun x => { x with state := .orphaned p }) :=
    modEntry _ _ _ fun k x => by simp [Entry.reserves, EntryState.isOrphan]
  unfold orphanEntry
  split
  · exact refl f
  · split
    · exact orphaned _
    · exact orphaned _
    · exact orphaned _
    · exact refl f
    · exact entryEnd_noMore ..

theorem orphanSlot_noMore (t : Tables) (f : Flow) (k : Slot) : f.NoMore (orphanSlot t f k).1 :=
  foldlActs _ (fun a e => by
    simp only
    split
    · exact refl _
    · split
      · exact orphanEntry_noMore ..
      · exact refl _) _ (f, [])

theorem flushInbound_noMore (f : Flow) (k : Slot) : f.NoMore (flushInbound f k).1 :=
  modSlot _ _ _ fun _ => Nat.le_refl _

theorem jobEnds_noMore (t : Tables) (f : Flow) (j : JobIx) (c : EndCode) (r : Byte) (l : Nat) :
    f.NoMore (jobEnds t f j c r l).1 := by
  unfold jobEnds
  simp only
  split
  · exact refl f
  · split
    · exact refl f
    · rename_i k _ _
      refine Flow.NoMore.trans ?_ (event_sameQueues ..).noMore
      refine Flow.NoMore.trans ?_ (Flow.SameQueues.setNews ..).noMore
      refine Flow.NoMore.trans ?_ (Flow.SameQueues.modJob ..).noMore
      have hreleased : f.NoMore (releaseClaimsOf t (orphanSlot t (flushInbound (f.leaveWait (.job j)) k).1 k).1 k
          .jobEnd) :=
        (((flushInbound_noMore ..).trans (orphanSlot_noMore ..)).trans (releaseClaimsOf_sameQueues ..).noMore).after ⟨rfl, rfl⟩
      split
      · exact hreleased
      · exact hreleased.trans (orderDone_sameQueues ..).noMore

theorem jobAppend_noMore (f : Flow) (j : JobIx) : f.NoMore (jobAppend f j).1 := by
  unfold jobAppend
  simp only
  split
  · split
    · exact refl f
    · split
      · exact (appendInbound_noMore ..).trans (Flow.SameQueues.modJob ..).noMore
      · exact (Flow.SameQueues.modJob ..).noMore
  · exact refl f

/-! ### The relay channel -/

theorem relayRefuse_noMore (t : Tables) (f : Flow) (k : Slot) (x : RelayRecord) : f.NoMore (relayRefuse t f k x).1 :=
  (captureRefusal_sameQueues ..).noMore.trans (modSlot _ _ _ fun _ => Nat.le_refl _)

theorem relayNoRoom_noMore (t : Tables) (r : Ring) (f : Flow) (k : Slot) (x : RelayRecord) (w : RelayWait) :
    f.NoMore (relayNoRoom t r f k x w).1 := by
  unfold relayNoRoom
  split
  · exact (relayRefuse_noMore ..).trans (relayAdvance_sameQueues ..).noMore
  · split <;> exact Flow.SameQueues.noMore ⟨rfl, rfl⟩

theorem relayTakeRecord_noMore (t : Tables) (f : Flow) : f.NoMore (relayTakeRecord t f).1 := by
  unfold relayTakeRecord
  split
  · simp only
    split
    · exact (relayPages_sameQueues ..).noMore.after ⟨rfl, rfl⟩
    · split
      · exact (relayAdvance_sameQueues ..).noMore.after ⟨rfl, rfl⟩
      · split
        · split
          · rename_i h
            have hcharged := (charge_sameQueues h).noMore
            exact ((hcharged.trans (appendInbound_noMore ..)).trans (relayAdvance_sameQueues ..).noMore).after ⟨rfl, rfl⟩
          · exact (relayNoRoom_noMore ..).after ⟨rfl, rfl⟩
        · exact (relayNoRoom_noMore ..).after ⟨rfl, rfl⟩
  · exact refl f

theorem relayCharged_noMore (t : Tables) (f : Flow) (h : Charge) : f.NoMore (relayCharged t f h).1 := by
  unfold relayCharged
  split
  · split
    · exact refl f
    · exact (appendInbound_noMore ..).trans (relayAdvance_sameQueues ..).noMore
  · exact refl f

theorem jobCharged_noMore (f : Flow) (j : JobIx) (h : Charge) : f.NoMore (jobCharged f j h).1 := by
  unfold jobCharged
  split
  · exact refl f
  · split
    · exact refl f
    · exact (Flow.SameQueues.modJob ..).noMore.trans (jobAppend_noMore ..)

theorem claimantCharged_noMore (t : Tables) (f : Flow) (w : Claimant) (h : Charge) :
    f.NoMore (claimantCharged t f w h).1 := by
  unfold claimantCharged
  split
  · exact ctxCharged_noMore ..
  · exact ctxCharged_noMore ..
  · exact relayCharged_noMore ..
  · exact jobCharged_noMore ..

end

end Sys2Proof.Machine
end

section
/-! SUPPORT. The delivery places along a run of acts (R81, R114; log 12): an item that is yet to be placed counts with the
places, and no act that looks for a free place stands before one that has yet to place an item. -/

namespace Sys2Proof.Machine

/-! ### Acts by what they place -/

/-- The act places an item in the slot's delivery queue. -/
def Act.placing (k : Slot) : Act → Bool
  | .placeItem j _ _ _ _ => j == k
  | _ => false

/-- The act places the refusal item of the slot's head, and clears its held-head record. -/
def Act.refusing (k : Slot) : Act → Bool
  | .refused j _ _ _ _ => j == k
  | _ => false

/-- The act has an item to place. -/
def Act.due : Act → Bool
  | .placeItem _ _ _ _ _ | .refused _ _ _ _ _ => true
  | _ => false

/-- Neither the act nor what it causes places an item because a place is free. -/
def Act.quiet : Act → Bool
  | .placeFreed _ | .seek _ _ _ | .abandoned _ _ | .interim _ _ | .relayTake | .refused _ _ _ _ _ => false
  | _ => true

theorem Act.placing_le_due (k : Slot) (a : Act) : a.placing k = true → a.due = true := by
  cases a <;> simp [placing, due]

theorem Act.refusing_le_due (k : Slot) (a : Act) : a.refusing k = true → a.due = true := by
  cases a <;> simp [refusing, due]

/-- No act that is not quiet stands before one that has an item to place. -/
def Orderly (as : List Act) : Prop := as.Pairwise fun x y => x.quiet = false → y.due = false

/-- No act of the list has an item to place. -/
structure NoDue (as : List Act) : Prop where
  due : ∀ a ∈ as, a.due = false

/-- Every act of the list is quiet. -/
def AllQuiet (as : List Act) : Prop := ∀ a ∈ as, a.quiet = true

theorem NoDue.nil : NoDue [] := ⟨fun _ h => by cases h⟩

theorem NoDue.cons {a : Act} {as : List Act} (h : a.due = false) (hs : NoDue as) : NoDue (a :: as) :=
  ⟨fun b hb => (List.mem_cons.mp hb).elim (fun e => e ▸ h) (hs.due b)⟩

theorem NoDue.append {as bs : List Act} (ha : NoDue as) (hb : NoDue bs) : NoDue (as ++ bs) :=
  ⟨fun x hx => (List.mem_append.mp hx).elim (ha.due x) (hb.due x)⟩

theorem NoDue.placing {as : List Act} (h : NoDue as) (k : Slot) : as.countP (Act.placing k) = 0 :=
  List.countP_eq_zero.mpr fun a ha hp => by simpa [h.due a ha] using a.placing_le_due k hp

theorem NoDue.refusing {as : List Act} (h : NoDue as) (k : Slot) : as.countP (Act.refusing k) = 0 :=
  List.countP_eq_zero.mpr fun a ha hp => by simpa [h.due a ha] using a.refusing_le_due k hp

theorem NoDue.orderly {as : List Act} (h : NoDue as) : Orderly as :=
  List.pairwise_of_forall_mem_list fun _ _ y hy _ => h.due y hy

theorem Orderly.quiet_append {as bs : List Act} (ha : AllQuiet as) (hb : Orderly bs) : Orderly (as ++ bs) :=
  List.pairwise_append.mpr ⟨List.pairwise_of_forall_mem_list fun x hx _ _ h => by simp [ha x hx] at h, hb,
    fun x hx _ _ h => by simp [ha x hx] at h⟩

/-! ### What quiet acts cause -/

/-- The acts of a list all are quiet and none has an item to place. -/
structure Calm (as : List Act) : Prop where
  quiet : AllQuiet as
  noDue : NoDue as

theorem Calm.nil : Calm [] := ⟨fun _ h => (List.not_mem_nil h).elim, NoDue.nil⟩

theorem Calm.cons {a : Act} {as : List Act} (h : a.quiet = true ∧ a.due = false) (hs : Calm as) : Calm (a :: as) :=
  ⟨fun b hb => (List.mem_cons.mp hb).elim (fun e => e ▸ h.1) (hs.quiet b), NoDue.cons h.2 hs.noDue⟩

theorem Calm.one {a : Act} (h : a.quiet = true ∧ a.due = false) : Calm [a] := Calm.cons h Calm.nil

theorem Calm.ite {c : Prop} [Decidable c] {as bs : List Act} (ha : Calm as) (hb : Calm bs) :
    Calm (if c then as else bs) := by
  split
  · exact ha
  · exact hb

theorem Calm.append {as bs : List Act} (ha : Calm as) (hb : Calm bs) : Calm (as ++ bs) :=
  ⟨fun x hx => (List.mem_append.mp hx).elim (ha.quiet x) (hb.quiet x), ha.noDue.append hb.noDue⟩

theorem Calm.map {α : Type} (xs : List α) (g : α → Act) (h : ∀ x, (g x).quiet = true ∧ (g x).due = false) :
    Calm (xs.map g) := by
  induction xs with
  | nil => exact Calm.nil
  | cons x xs ih => exact Calm.cons (h x) ih

theorem Calm.foldl {α β : Type} (u : β × List Act → α → β × List Act)
    (h : ∀ a x, Calm a.2 → Calm (u a x).2) (xs : List α) (a : β × List Act) (ha : Calm a.2) : Calm (xs.foldl u a).2 := by
  induction xs generalizing a with
  | nil => exact ha
  | cons x xs ih => exact ih _ (h a x ha)

theorem offered_calm (t : Tables) (f : Flow) : Calm (offered t f).2 := Calm.map _ _ fun _ => ⟨rfl, rfl⟩

theorem releases_calm (b : ItemBody) : Calm b.releases := by
  cases b with
  | response m => exact Calm.one ⟨rfl, rfl⟩
  | refusal bs => exact Calm.nil
  | interim bs => exact Calm.nil

theorem releaseBody_calm (t : Tables) (f : Flow) (b : ItemBody) : Calm (releaseBody t f b).2 := by
  cases b with
  | response m => exact offered_calm ..
  | refusal bs => exact Calm.nil
  | interim bs => exact Calm.nil

theorem handOver_calm (f : Flow) (o : CtxOwner) (a : Byte) (m : Message) : Calm (handOver f o a m).2 := by
  cases o with
  | slot k => exact Calm.nil
  | entry e => exact Calm.one ⟨rfl, rfl⟩
  | close e => exact Calm.one ⟨rfl, rfl⟩

theorem ctxCharged_calm (t : Tables) (f : Flow) (p : PortId) (c : CtxIx) (h : Charge) :
    Calm (ctxCharged t f p c h).2 := by
  unfold ctxCharged
  split
  · exact Calm.one ⟨rfl, rfl⟩
  · simp only
    split
    · exact Calm.one ⟨rfl, rfl⟩
    · split
      · exact handOver_calm ..
      · split
        · exact handOver_calm ..
        · exact Calm.nil

theorem relayCharged_calm (t : Tables) (f : Flow) (h : Charge) : Calm (relayCharged t f h).2 := by
  unfold relayCharged
  split
  · split
    · exact Calm.one ⟨rfl, rfl⟩
    · exact Calm.nil
  · exact Calm.one ⟨rfl, rfl⟩

theorem jobAppend_calm (f : Flow) (j : JobIx) : Calm (jobAppend f j).2 := by
  unfold jobAppend
  simp only
  split
  · split
    · exact Calm.nil
    · split
      · exact Calm.ite Calm.nil (Calm.one ⟨rfl, rfl⟩)
      · exact Calm.nil
  · exact Calm.nil

theorem jobCharged_calm (f : Flow) (j : JobIx) (h : Charge) : Calm (jobCharged f j h).2 := by
  unfold jobCharged
  split
  · exact Calm.one ⟨rfl, rfl⟩
  · split
    · exact Calm.one ⟨rfl, rfl⟩
    · exact jobAppend_calm ..

theorem claimantCharged_calm (t : Tables) (f : Flow) (w : Claimant) (h : Charge) :
    Calm (claimantCharged t f w h).2 := by
  cases w with
  | tbCtx c => exact ctxCharged_calm ..
  | vbCtx v c => exact ctxCharged_calm ..
  | relay => exact relayCharged_calm ..
  | job j => exact jobCharged_calm ..

theorem responseComplete_calm (f : Flow) (e : EntryIx) (m : Message) : Calm (responseComplete f e m).2 := by
  unfold responseComplete
  split
  · exact Calm.one ⟨rfl, rfl⟩
  · split
    · exact Calm.one ⟨rfl, rfl⟩
    · simp only
      split
      · exact Calm.cons ⟨rfl, rfl⟩ (Calm.one ⟨rfl, rfl⟩)
      · exact Calm.one ⟨rfl, rfl⟩

theorem afterItem_calm (b : Job) (j : JobIx) (r : Req) (v : Verdict) (m : Bool) : Calm (afterItem b j r v m) := by
  unfold afterItem
  exact Calm.ite (Calm.one ⟨rfl, rfl⟩) (Calm.ite (Calm.one ⟨rfl, rfl⟩) (Calm.ite (Calm.one ⟨rfl, rfl⟩)
    (Calm.ite (Calm.one ⟨rfl, rfl⟩) Calm.nil)))

theorem jobItem_calm (t : Tables) (f : Flow) (k : Slot) (b : ItemBody) (o : ItemOrigin) :
    Calm (jobItem t f k b o).2 := by
  unfold jobItem
  split
  · exact Calm.nil
  · exact releases_calm _
  · split
    · exact releases_calm _
    · exact (afterItem_calm ..).append (releaseBody_calm ..)

theorem placeItem_calm (t : Tables) (f : Flow) (k : Slot) (b : ItemBody) (s : Byte) (e : Option EcuIx) (o : ItemOrigin) :
    Calm (placeItem t f k b s e o).2 := by
  unfold placeItem
  split
  · exact jobItem_calm ..
  · exact Calm.nil
  · exact Calm.nil

theorem jobStepDone_calm (f : Flow) (j : JobIx) : Calm (jobStepDone f j).2 := by
  unfold jobStepDone
  simp only
  split
  · exact Calm.ite Calm.nil (Calm.one ⟨rfl, rfl⟩)
  · exact Calm.nil

theorem orphanEntry_calm (t : Tables) (f : Flow) (e : EntryIx) : Calm (orphanEntry t f e).2 := by
  unfold orphanEntry
  split
  · exact Calm.nil
  · split
    · exact Calm.nil
    · exact Calm.nil
    · exact Calm.nil
    · exact Calm.nil
    · simp only
      split
      · exact Calm.one ⟨rfl, rfl⟩
      · exact Calm.nil
      · exact Calm.nil

theorem orphanSlot_calm (t : Tables) (f : Flow) (k : Slot) : Calm (orphanSlot t f k).2 :=
  Calm.foldl _ (fun a e ha => by
    simp only
    split
    · exact ha
    · split
      · exact ha.append (orphanEntry_calm ..)
      · exact ha) _ _ Calm.nil

theorem flushInbound_calm (f : Flow) (k : Slot) : Calm (flushInbound f k).2 := Calm.map _ _ fun _ => ⟨rfl, rfl⟩

theorem jobEnds_calm (t : Tables) (f : Flow) (j : JobIx) (c : EndCode) (r : Byte) (l : Nat) :
    Calm (jobEnds t f j c r l).2 := by
  unfold jobEnds
  simp only
  split
  · exact Calm.nil
  · split
    · exact Calm.nil
    · refine (Calm.append ?_ (flushInbound_calm ..)).append (orphanSlot_calm ..)
      split
      · exact Calm.nil
      · exact Calm.map _ _ fun _ => ⟨rfl, rfl⟩

/-! ### What the other acts cause -/

theorem abandonCtx_noDue (f : Flow) (p : PortId) (c : CtxIx) (b : Bool) : NoDue (abandonCtx f p c b).2 := by
  unfold abandonCtx
  split
  · exact NoDue.nil
  · refine NoDue.append ?_ ?_
    · split
      · exact NoDue.nil
      · exact NoDue.cons rfl NoDue.nil
    · split
      · split
        · exact NoDue.cons rfl NoDue.nil
        · exact NoDue.nil
      · exact NoDue.cons rfl NoDue.nil
      · exact NoDue.nil

theorem noRoomFor_noDue (t : Tables) (f : Flow) (p : PortId) (fr : FirstFrame) : NoDue (noRoomFor t f p fr).2 := by
  unfold noRoomFor
  simp only
  split
  · split
    · exact NoDue.cons rfl NoDue.nil
    · exact NoDue.nil
  · exact NoDue.cons rfl NoDue.nil
  · exact NoDue.nil

theorem stallTick_noDue (t : Tables) (f : Flow) (p : PortId) (c : CtxIx) : NoDue (stallTick t f p c).2 := by
  unfold stallTick
  split
  · exact NoDue.nil
  · split
    · exact NoDue.nil
    · exact abandonCtx_noDue ..

theorem seekRoom_noDue (t : Tables) (f : Flow) (p : PortId) (i : Option CtxIx) (fr : FirstFrame) :
    NoDue (seekRoom t f p i fr).2 := by
  unfold seekRoom
  split
  · unfold seekTb
    simp only
    split
    · split
      · exact NoDue.nil
      · split
        · exact NoDue.nil
        · split
          · exact NoDue.cons rfl NoDue.nil
          · exact NoDue.nil
    · split
      · split
        · exact noRoomFor_noDue ..
        · split
          · exact stallTick_noDue ..
          · exact stallTick_noDue ..
      · exact noRoomFor_noDue ..
  · unfold seekVb
    split
    · exact NoDue.nil
    · split
      · simp only
        split
        · exact NoDue.cons rfl NoDue.nil
        · split
          · exact NoDue.cons rfl NoDue.nil
          · split
            · exact NoDue.cons rfl NoDue.nil
            · exact NoDue.nil
      · split
        · exact noRoomFor_noDue ..
        · exact stallTick_noDue ..
  · exact NoDue.nil
  · unfold seekClose
    split
    · exact NoDue.nil
    · split
      · exact NoDue.nil
      · split <;> exact NoDue.nil

theorem placeToCtx_noDue (t : Tables) (f : Flow) (k : Slot) (c : CtxIx) : NoDue (placeToCtx t f k c).2 := by
  unfold placeToCtx
  simp only
  split
  · exact NoDue.cons rfl NoDue.nil
  · split
    · exact (ctxCharged_calm ..).noDue
    · exact NoDue.nil

theorem offerPlace_noDue (t : Tables) (f : Flow) (k : Slot) : NoDue (offerPlace t f k).2 := by
  unfold offerPlace
  split
  · split
    · exact placeToCtx_noDue ..
    · split
      · exact NoDue.cons rfl NoDue.nil
      · split
        · exact NoDue.nil
        · simp only
          split
          · exact NoDue.cons rfl NoDue.nil
          · exact NoDue.nil
  · exact NoDue.nil

theorem responseAbandoned_noDue (f : Flow) (t : Tables) (e : EntryIx) (b : Bool) :
    NoDue (responseAbandoned f t e b).2 := by
  unfold responseAbandoned
  split
  · exact NoDue.nil
  · split
    · exact NoDue.nil
    · split <;> exact NoDue.cons rfl NoDue.nil

/-! ### The places with the items that are yet to be placed -/

/-- The places of a slot with the items that a list of acts has yet to place. The item of a refused head takes the place
that is kept for the head while it is held. -/
def dueLoad (f : Flow) (as : List Act) (k : Slot) : Nat :=
  f.load k + as.countP (Act.placing k) + max (f.slots.get k).kept (as.countP (Act.refusing k))

/-- No slot has more than its 8 delivery places used, reserved and kept (R81, R114). -/
def Flow.Fits (f : Flow) : Prop := ∀ k, f.load k + (f.slots.get k).kept ≤ 8

theorem Flow.Keeps.kept {f g : Flow} (h : f.Keeps g) (k : Slot) : (g.slots.get k).kept ≤ (f.slots.get k).kept := by
  unfold SlotFlow.kept
  split
  · rename_i hg; simp [h.held k hg]
  · exact Nat.zero_le _

theorem Flow.Keeps.fits {f g : Flow} (h : f.Keeps g) (hn : f.NoMore g) (hf : f.Fits) : g.Fits := fun k =>
  (Nat.add_le_add (hn.load k) (h.kept k)).trans (hf k)

theorem dueLoad_noDue {f : Flow} {as : List Act} (h : NoDue as) (k : Slot) :
    dueLoad f as k = f.load k + (f.slots.get k).kept := by
  simp [dueLoad, h.placing k, h.refusing k]

/-- An act that itself has no item to place and causes none that has. -/
theorem dueLoad_calm {f g : Flow} {a : Act} {bs rest : List Act} (hk : f.Keeps g) (hn : f.NoMore g) (hb : NoDue bs)
    (k : Slot) : dueLoad g (bs ++ rest) k ≤ dueLoad f (a :: rest) k := by
  have h1 := hn.load k
  have h2 := hk.kept k
  simp only [dueLoad, List.countP_append, List.countP_cons, hb.placing k, hb.refusing k]
  omega

/-- An entry ends and its item is yet to be placed. -/
theorem dueLoad_entryEnd {t : Tables} {f g h : Flow} {i : EntryIx} {x : Entry} {b : ItemBody} {a : Act}
    (hq : f.SameQueues g) (hg : h = entryEnd t g i) (hx : f.entries.get i = some x) (hl : x.state.isOrphan = false)
    (rest : List Act) (k : Slot) : dueLoad h (entryItem t x b :: rest) k ≤ dueLoad f (a :: rest) k := by
  have hfrees := entryEnd_frees t g i x (by rw [hq.2]; exact hx) hl k
  have hload := hq.load k
  have hkept : (h.slots.get k).kept ≤ (f.slots.get k).kept := by
    have := (entryEnd_keeps t g i).kept k
    rw [hq.1] at this
    rw [hg]
    exact this
  subst hg
  simp only [dueLoad, List.countP_cons, entryItem, Act.placing, Act.refusing, beq_iff_eq]
  simp only [Bool.false_eq_true, if_false]
  omega

/-! ### One act, and all of them -/

/-- What an act makes of the places: with the items still to be placed they stay within 8, and acts that look for a free
place still stand behind those with an item to place. -/
structure ActFits (t : Tables) (a : Act) (rest : List Act) (f : Flow) : Prop where
  orderly : Orderly ((act t a f).2 ++ rest)
  fits : (∀ k, dueLoad f (a :: rest) k ≤ 8) → ∀ k, dueLoad (act t a f).1 ((act t a f).2 ++ rest) k ≤ 8

variable {t : Tables} {f : Flow} {rest : List Act}

/-- An act that causes no item to be placed and takes no place itself, before orderly acts. -/
theorem ActFits.of_calm {a : Act} (hn : f.NoMore (act t a f).1) (hc : Calm (act t a f).2) (ho : Orderly rest) :
    ActFits t a rest f :=
  ⟨Orderly.quiet_append hc.quiet ho, fun h k => (dueLoad_calm (act_keeps t a f) hn hc.noDue k).trans (h k)⟩

/-- An act that is not quiet, and causes no item to be placed, with no item to be placed behind it. -/
theorem ActFits.of_noDue {a : Act} (hn : f.NoMore (act t a f).1) (hc : NoDue (act t a f).2) (hr : NoDue rest) :
    ActFits t a rest f :=
  ⟨(hc.append hr).orderly, fun h k => (dueLoad_calm (act_keeps t a f) hn hc k).trans (h k)⟩

/-- An act that places an item because the slot has a free place, with no item to be placed behind it. -/
theorem ActFits.of_free {a : Act} {k : Slot} {b : ItemBody} {s : Byte} {e : Option EcuIx} {o : ItemOrigin}
    (hn : f.NoMore (act t a f).1) (hc : (act t a f).2 = [.placeItem k b s e o]) (hr : NoDue rest)
    (hfree : (act t a f).1.load k + ((act t a f).1.slots.get k).kept < 8) : ActFits t a rest f := by
  have hk := act_keeps t a f
  refine ⟨?_, fun h j => ?_⟩
  · rw [hc]
    exact Orderly.quiet_append (as := [.placeItem k b s e o]) (fun a ha => by rw [List.mem_singleton.mp ha]; rfl) hr.orderly
  · have hj : f.load j + (f.slots.get j).kept ≤ 8 := by
      have := h j
      simp only [dueLoad] at this
      omega
    have hload := hn.load j
    have hkept := hk.kept j
    simp only [hc, dueLoad, List.cons_append, List.nil_append, List.countP_cons, Act.placing, Act.refusing,
      hr.placing j, hr.refusing j, beq_iff_eq, Bool.false_eq_true, if_false]
    by_cases e : k = j
    · subst e
      simp only [if_true]
      omega
    · simp only [if_neg e]
      omega

/-- An item more in the slot's delivery queue. -/
theorem addItem_load_le (f : Flow) (k j : Slot) (x : Item) (n : Nat) :
    Flow.load { (f.modSlot k fun y => { y with items := y.items ++ [x] }) with placed := n } j
      ≤ f.load j + if k = j then 1 else 0 := by
  have hsame : Flow.SameQueues (f.modSlot k fun y => { y with items := y.items ++ [x] })
      { (f.modSlot k fun y => { y with items := y.items ++ [x] }) with placed := n } := ⟨rfl, rfl⟩
  rw [hsame.load]
  unfold Flow.load
  rw [Flow.liveEntries_congr (Flow.modSlot_entries f k _), Flow.modSlot_get]
  by_cases e : j = k
  · subst e; simp; omega
  · simp [e]

theorem placeItem_load_le (t : Tables) (f : Flow) (k : Slot) (b : ItemBody) (s : Byte) (e : Option EcuIx)
    (o : ItemOrigin) (j : Slot) : (placeItem t f k b s e o).1.load j ≤ f.load j + if k = j then 1 else 0 := by
  unfold placeItem
  split
  · exact ((jobItem_sameQueues t f k b o).load j).le.trans (Nat.le_add_right _ _)
  · exact addItem_load_le ..
  · exact addItem_load_le ..

theorem placeItem_fits (k : Slot) (b : ItemBody) (s : Byte) (e : Option EcuIx) (o : ItemOrigin) (ho : Orderly rest) :
    ActFits t (.placeItem k b s e o) rest f := by
  refine ⟨Orderly.quiet_append (placeItem_calm t f k b s e o).quiet ho, fun h j => ?_⟩
  have hcalm := (placeItem_calm t f k b s e o).noDue
  have hkept := (act_keeps t (.placeItem k b s e o) f).kept j
  have hload := placeItem_load_le t f k b s e o j
  refine (Nat.le_trans ?_ (h j))
  simp only [act] at hkept ⊢
  simp only [dueLoad, List.countP_append, List.countP_cons, hcalm.placing j, hcalm.refusing j, Act.placing, Act.refusing,
    beq_iff_eq, Bool.false_eq_true, if_false]
  omega

/-- What becomes of an entry that offers its item or ends in a refusal: no item is placed, or the entry, which is not
ORPHANED, ends and its item is placed next. -/
def EndsInPlace (t : Tables) (f : Flow) (e : EntryIx) (r : Flow × List Act) : Prop :=
  (r.2 = [] ∧ f.NoMore r.1)
  ∨ ∃ x g b, f.SameQueues g ∧ f.entries.get e = some x ∧ x.state.isOrphan = false
    ∧ r = (entryEnd t g e, [entryItem t x b])

theorem ActFits.of_endsInPlace {a : Act} {e : EntryIx} (h : EndsInPlace t f e (act t a f)) (ho : Orderly rest) :
    ActFits t a rest f := by
  obtain ⟨hnil, hn⟩ | ⟨x, g, b, hsame, hx, hl, hr⟩ := h
  · exact ActFits.of_calm hn (by rw [hnil]; exact Calm.nil) ho
  · refine ⟨?_, fun h k => ?_⟩
    · rw [hr]
      exact Orderly.quiet_append (as := [_]) (fun a ha => by rw [List.mem_singleton.mp ha]; rfl) ho
    · rw [hr]
      exact (dueLoad_entryEnd hsame rfl hx hl rest k).trans (h k)

theorem entryRefused_endsInPlace (t : Tables) (f : Flow) (e : EntryIx) (r : Reason) :
    EndsInPlace t f e (entryRefused t f e r) := by
  unfold entryRefused
  split
  · exact .inl ⟨rfl, Flow.NoMore.refl f⟩
  · rename_i x hx
    have offered (hl : x.state.isOrphan = false) : EndsInPlace t f e
        (match (captureRefusal t f x.slot (some x.ecu) (some x.cls) x.code (some x.grant) r none).1 with
        | none => (entryEnd t (captureRefusal t f x.slot (some x.ecu) (some x.cls) x.code (some x.grant) r none).2 e,
            [entryItem t x (.refusal (refusalBytes t x.code r))])
        | some g => (toDelivering (captureRefusal t f x.slot (some x.ecu) (some x.cls) x.code (some x.grant) r none).2 e
            (.refusal r g), [])) := by
      have hsame := captureRefusal_sameQueues t f x.slot (some x.ecu) (some x.cls) x.code (some x.grant) r none
      split
      · exact .inr ⟨x, _, _, hsame, hx, hl, rfl⟩
      · exact .inl ⟨rfl, Flow.NoMore.after (toDelivering_noMore (x := x) (by rw [hsame.2]; exact hx) hl _) hsame⟩
    split
    · exact .inl ⟨rfl, entryEnd_noMore ..⟩
    · exact .inl ⟨rfl, Flow.NoMore.refl f⟩
    · rename_i hs; exact offered (by rw [hs]; rfl)
    · rename_i hs; exact offered (by rw [hs]; rfl)
    · rename_i hs; exact offered (by rw [hs]; rfl)

theorem entryDeliver_endsInPlace (t : Tables) (f : Flow) (e : EntryIx) :
    EndsInPlace t f e (entryDeliver t f e) := by
  unfold entryDeliver
  split
  · exact .inl ⟨rfl, Flow.NoMore.refl f⟩
  · rename_i x hx
    have ended {a : Bool × Flow} {g : Flow} {b : ItemBody} (hl : x.state.isOrphan = false) (ha : f.SameQueues a.2)
        (hg : a.2.SameQueues g) :
        EndsInPlace t f e (if a.1 then (entryEnd t g e, [entryItem t x b]) else (a.2, [])) := by
      split
      · exact .inr ⟨x, g, b, ha.trans hg, hx, hl, rfl⟩
      · exact .inl ⟨rfl, ha.noMore⟩
    split
    · rename_i hs _
      refine ended (by rw [hs]; rfl) ?_ (refreshClaim_sameQueues ..)
      split
      · exact captureBinding_sameQueues ..
      · split
        · exact captureOffer_sameQueues ..
        · exact Flow.SameQueues.refl f
    · rename_i hs _
      exact ended (by rw [hs]; rfl) (captureBinding_sameQueues ..) (Flow.SameQueues.refl _)
    · exact .inl ⟨rfl, Flow.NoMore.refl f⟩

theorem interimCopy_cases (t : Tables) (f : Flow) (e : EntryIx) (pay : List Byte) :
    interimCopy t f e pay = []
    ∨ ∃ x, interimCopy t f e pay = [entryItem t x (.interim pay)] ∧ f.deliveryFree x.slot = true := by
  unfold interimCopy
  split
  · exact .inl rfl
  · rename_i x _
    split
    · rename_i h
      exact .inr ⟨x, rfl, by simp only [Bool.and_eq_true] at h; exact h.2⟩
    · exact .inl rfl

theorem relayRefuse_cases (t : Tables) (f : Flow) (k : Slot) (x : RelayRecord) :
    (relayRefuse t f k x).2 = []
    ∨ ∃ b s e o, (relayRefuse t f k x).2 = [.placeItem k b s e o] ∧ (relayRefuse t f k x).1.deliveryFree k = true := by
  have hcase {c : Bool × Bool} {as : List Act} :
      (if (c.1 && c.2) = true then as else []) = [] ∨ (if (c.1 && c.2) = true then as else []) = as ∧ c.2 = true := by
    rcases c with ⟨_ | _, _ | _⟩ <;> simp
  exact (hcase (c := (_, _))).imp id fun h => ⟨_, _, _, _, h⟩

theorem relayNoRoom_cases (t : Tables) (r : Ring) (f : Flow) (k : Slot) (x : RelayRecord) (w : RelayWait) :
    (relayNoRoom t r f k x w).2 = []
    ∨ ∃ b s e o, (relayNoRoom t r f k x w).2 = [.placeItem k b s e o]
      ∧ (relayNoRoom t r f k x w).1.load k + ((relayNoRoom t r f k x w).1.slots.get k).kept < 8 := by
  unfold relayNoRoom
  split
  · simp only
    obtain h | ⟨b, s, e, o, h, hfree⟩ := relayRefuse_cases t f k x
    · exact .inl h
    · refine .inr ⟨b, s, e, o, h, ?_⟩
      have hsame := relayAdvance_sameQueues r (relayRefuse t f k x).1 x.length x.malformed
      rw [hsame.load, hsame.1]
      exact (Flow.deliveryFree_iff _ _).mp hfree
  · exact .inl (by cases w <;> rfl)

theorem relayTakeRecord_cases (t : Tables) (f : Flow) :
    (relayTakeRecord t f).2 = []
    ∨ ∃ k b s e o, (relayTakeRecord t f).2 = [.placeItem k b s e o]
      ∧ (relayTakeRecord t f).1.load k + ((relayTakeRecord t f).1.slots.get k).kept < 8 := by
  unfold relayTakeRecord
  split
  · simp only
    split
    · exact .inl rfl
    · split
      · exact .inl rfl
      · rename_i k _
        split
        · split
          · exact .inl rfl
          · exact (relayNoRoom_cases ..).imp id fun h => ⟨k, h⟩
        · exact (relayNoRoom_cases ..).imp id fun h => ⟨k, h⟩
  · exact .inl rfl

/-- The item of a refused head takes the place kept for the head, or the place that is still free for it. -/
theorem refused_fits (k : Slot) (r : Reason) (code target : Byte) (e : Option EcuIx) (hr : NoDue rest) :
    ActFits t (.refused k r code target e) rest f := by
  have hcalm := (placeItem_calm t f k (.refusal (refusalBytes t code r)) target e .head).noDue
  have hnoDue : NoDue (act t (.refused k r code target e) f).2 := hcalm.append (NoDue.cons rfl NoDue.nil)
  refine ⟨(hnoDue.append hr).orderly, fun h j => ?_⟩
  have hload : (act t (.refused k r code target e) f).1.load j ≤ f.load j + if k = j then 1 else 0 := by
    have hplace := placeItem_load_le t f k (.refusal (refusalBytes t code r)) target e .head j
    refine Nat.le_trans (Flow.NoMore.load ?_ j) hplace
    exact Flow.NoMore.modSlot _ _ _ fun _ => Nat.le_refl _
  have hkept := (act_keeps t (.refused k r code target e) f).kept j
  have hclear : k = j → ((act t (.refused k r code target e) f).1.slots.get j).kept = 0 := by
    rintro rfl
    simp [act, headRefused, SlotFlow.kept]
  have hj := h j
  simp only [dueLoad, List.countP_append, List.countP_cons, hnoDue.placing j, hnoDue.refusing j, hr.placing j,
    hr.refusing j, Act.placing, Act.refusing, beq_iff_eq, Bool.false_eq_true, if_false] at hj ⊢
  by_cases hkj : k = j
  · have := hclear hkj
    simp only [if_pos hkj] at hload hj
    simp only [this]
    omega
  · simp only [if_neg hkj] at hload hj
    omega

/-- Every act keeps the places within bounds, with the items that are still to be placed. -/
theorem act_fits (a : Act) (hall : Orderly (a :: rest)) : ActFits t a rest f := by
  obtain ⟨hdue, ho⟩ := List.pairwise_cons.mp hall
  have loud (h : a.quiet = false) : NoDue rest := ⟨fun b hb => hdue b hb h⟩
  cases a with
  | release c => exact .of_calm (released_sameQueues ..).noMore (offered_calm ..) ho
  | offer => exact .of_calm (offered_sameQueues ..).noMore (offered_calm ..) ho
  | charged w c => exact .of_calm (claimantCharged_noMore ..) (claimantCharged_calm ..) ho
  | placeFreed k => exact .of_noDue (offerPlace_noMore ..) (offerPlace_noDue ..) (loud rfl)
  | seek p i fr => exact .of_noDue (seekRoom_noMore ..) (seekRoom_noDue ..) (loud rfl)
  | response e m => exact .of_calm (responseComplete_noMore ..) (responseComplete_calm ..) ho
  | abandoned e b => exact .of_noDue (responseAbandoned_noMore ..) (responseAbandoned_noDue ..) (loud rfl)
  | refuseEntry e r => exact .of_endsInPlace (entryRefused_endsInPlace ..) ho
  | orphanEnds e => exact .of_calm (orphanEnds_noMore ..) Calm.nil ho
  | deliver e => exact .of_endsInPlace (entryDeliver_endsInPlace ..) ho
  | interim e pay =>
    obtain h | ⟨x, h, hfree⟩ := interimCopy_cases t f e pay
    · exact .of_noDue (Flow.NoMore.refl f) (show NoDue (interimCopy t f e pay) by rw [h]; exact NoDue.nil) (loud rfl)
    · exact .of_free (Flow.NoMore.refl f) h (loud rfl) ((Flow.deliveryFree_iff _ _).mp hfree)
  | placeItem k b s e o => exact placeItem_fits k b s e o ho
  | relayTake =>
    obtain h | ⟨k, b, s, e, o, h, hfree⟩ := relayTakeRecord_cases t f
    · exact .of_noDue (relayTakeRecord_noMore ..) (show NoDue (relayTakeRecord t f).2 by rw [h]; exact NoDue.nil)
        (loud rfl)
    · exact .of_free (relayTakeRecord_noMore ..) h (loud rfl) hfree
  | jobAppend j => exact .of_calm (jobAppend_noMore ..) (jobAppend_calm ..) ho
  | stepDone j => exact .of_calm (jobStepDone_sameQueues ..).noMore (jobStepDone_calm ..) ho
  | endJob j c r l => exact .of_calm (jobEnds_noMore ..) (jobEnds_calm ..) ho
  | refused k r a b e => exact refused_fits k r a b e (loud rfl)

theorem releaseCharge_sameQueues (f : Flow) (c : Charge) : f.SameQueues (releaseCharge f c) := ⟨rfl, rfl⟩

theorem settleFor_fits (n : Nat) (as : List Act) (f : Flow) (ho : Orderly as) (h : ∀ k, dueLoad f as k ≤ 8) :
    (settleFor t n as f).Fits := by
  induction n generalizing as f with
  | zero =>
    intro k
    have hsame : f.SameQueues (settleFor t 0 as f) := Flow.SameQueues.foldl _ (fun f c => releaseCharge_sameQueues f c) _ f
    have hk := h k
    rw [hsame.load, hsame.1]
    simp only [dueLoad] at hk
    omega
  | succ n ih =>
    cases as with
    | nil => exact fun k => by simpa [dueLoad, settleFor] using h k
    | cons a as =>
      have hfits := act_fits (t := t) (f := f) a ho
      exact ih _ _ hfits.orderly (hfits.fits h)

/-- Acts of which none has an item to place keep every slot within its 8 places. -/
theorem settle_fits {as : List Act} (hd : NoDue as) (h : f.Fits) : (settle t as f).Fits :=
  settleFor_fits _ _ _ hd.orderly fun k => by rw [dueLoad_noDue hd]; exact h k

theorem settled_fits {r : Flow × List Act} (hd : NoDue r.2) (h : r.1.Fits) : (settled t r).Fits := settle_fits hd h

end Sys2Proof.Machine
end

section
/-! SUPPORT. What a command may do, as far as the laws of the machine go (Sys2Proof/Safety.lean): `Flow.Sound` for the
traffic, `State.Preserves` for the six laws together and `State.Moves` for these and the news flags, each with the changes
that it allows. A command is a chain of such changes. -/

namespace Sys2Proof.Machine

/-! ### The traffic -/

/-- What the laws ask of a change of the traffic: canonical RAM stays canonical, news flags stay set, no outstanding entry
begins, no head comes to be held, no claim comes into force or changes while in force, and no slot comes to have more than
8 delivery places taken. -/
structure Flow.Sound (f g : Flow) : Prop where
  ram : ramWf f.ram → ramWf g.ram
  news : f.news &&& g.news = f.news
  entries : ∀ i, Entry.Stays (f.entries.get i) (g.entries.get i)
  held : ∀ k, (g.slots.get k).held.isSome → (f.slots.get k).held.isSome
  claims : ∀ e, (g.claims.get e).inForce = true → (g.claims.get e).Same (f.claims.get e)
  fits : f.Fits → g.Fits

namespace Flow.Sound

theorem of_keeps {f g : Flow} (h : f.Keeps g) (hn : f.NoMore g) : f.Sound g :=
  ⟨h.ram, h.news, h.entries, h.held, h.claims, h.fits hn⟩

theorem of_keeps_same {f g : Flow} (h : f.Keeps g) (hq : f.SameQueues g) : f.Sound g := of_keeps h hq.noMore

theorem refl (f : Flow) : f.Sound f := of_keeps (.refl f) (.refl f)

theorem trans {f g h : Flow} (a : f.Sound g) (b : g.Sound h) : f.Sound h where
  ram := b.ram ∘ a.ram
  news := by
    have ha := a.news
    calc f.news &&& h.news = (f.news &&& g.news) &&& h.news := by rw [ha]
      _ = f.news &&& (g.news &&& h.news) := BitVec.and_assoc ..
      _ = f.news := by rw [b.news, ha]
  entries := fun i => (a.entries i).trans (b.entries i)
  held := fun k h => a.held k (b.held k h)
  claims := fun e h => by
    have hb := b.claims e h
    exact hb.trans (a.claims e (by rw [hb.inForce]; exact h))
  fits := b.fits ∘ a.fits

theorem after {f g h : Flow} (b : g.Sound h) (a : f.Sound g) : f.Sound h := a.trans b

/-- A change that leaves alone all that the relation speaks of. -/
theorem same {f g : Flow} (ram : g.ram = f.ram := by rfl) (news : g.news = f.news := by rfl)
    (entries : g.entries = f.entries := by rfl) (slots : g.slots = f.slots := by rfl)
    (claims : g.claims = f.claims := by rfl) : f.Sound g where
  ram := fun h => by rw [ram]; exact h
  news := by rw [news, BitVec.and_self]
  entries := fun i => by rw [entries]; exact Entry.Stays.refl _
  held := fun k h => by rw [slots] at h; exact h
  claims := fun e _ => by rw [claims]; exact Claim.Same.refl _
  fits := fun h k => by
    have hsame : f.SameQueues g := ⟨slots, entries⟩
    rw [hsame.load, slots]
    exact h k

/-- A change of shared RAM that keeps its form. -/
theorem ram_write (f : Flow) (a : Nat) (bs : List Byte) : f.Sound { f with ram := ramWrite f.ram a bs } :=
  { refl f with ram := fun h => ramWrite_wf h a bs }

theorem modSlot (f : Flow) (k : Slot) (u : SlotFlow → SlotFlow) (hi : ∀ x, (u x).items.length ≤ x.items.length)
    (hh : ∀ x, (u x).held.isSome → x.held.isSome) : f.Sound (f.modSlot k u) :=
  { refl f with
    held := fun j h => by
      rw [Flow.modSlot_get] at h
      split at h
      · rename_i e; subst e; exact hh _ h
      · exact h
    fits := fun hf j => by
      have hload := (Flow.NoMore.modSlot f k u hi).load j
      have hkept : ((f.modSlot k u).slots.get j).kept ≤ (f.slots.get j).kept := by
        rw [Flow.modSlot_get]
        split
        · rename_i e
          subst e
          unfold SlotFlow.kept
          split
          · rename_i h; simp [hh _ h]
          · exact Nat.zero_le _
        · exact Nat.le_refl _
      have := hf j
      omega }

theorem modEntry (f : Flow) (i : EntryIx) (u : Entry → Entry)
    (h : ∀ x, (u x).slot = x.slot ∧ (u x).ecu = x.ecu ∧ (x.state.isOrphan = true → (u x).state.isOrphan = true)) :
    f.Sound (f.modEntry i u) :=
  of_keeps (.modEntry f i u fun x => ⟨(h x).1, (h x).2.1⟩) (.modEntry f i u fun k x => by
    obtain ⟨hslot, -, ho⟩ := h x
    simp only [Entry.reserves, hslot, Bool.and_eq_true, Bool.not_eq_true']
    refine And.imp id fun hl => ?_
    cases hx : x.state.isOrphan with
    | false => rfl
    | true => rw [ho hx] at hl; exact absurd hl (by decide))

theorem modPort (f : Flow) (p : PortId) (u : PortFlow → PortFlow) : f.Sound (f.modPort p u) := same
theorem modVb (f : Flow) (v : VbIx) (u : VbFlow → VbFlow) : f.Sound (f.modVb v u) := same
theorem modJob (f : Flow) (j : JobIx) (u : Job → Job) : f.Sound (f.modJob j u) := same
theorem countEcu (f : Flow) (e : EcuIx) (u : EcuCounts → EcuCounts) : f.Sound (f.countEcu e u) := same
theorem markHeads (f : Flow) (p : Slot → Held → Bool) : f.Sound (f.markHeads p) := same

theorem setNews (f : Flow) (n : News) : f.Sound (f.setNews n) := of_keeps_same (.setNews f n) (.setNews f n)

theorem modClaim (f : Flow) (e : EcuIx) (u : Claim → Claim) (h : ∀ c, (u c).Same c) : f.Sound (f.modClaim e u) :=
  of_keeps_same (.modClaim f e u fun _ => h _) (.modClaim f e u)

theorem foldl {α : Type} (u : Flow → α → Flow) (h : ∀ (f : Flow) x, f.Sound (u f x)) (xs : List α) (f : Flow) :
    f.Sound (xs.foldl u f) := by
  induction xs generalizing f with
  | nil => exact refl f
  | cons x xs ih => exact (h f x).trans (ih _)

/-- Acts of which none has an item to place. -/
theorem settle {f : Flow} {as : List Act} (t : Tables) (hd : NoDue as) : f.Sound (Machine.settle t as f) :=
  have hk := settle_keeps t as f
  ⟨hk.ram, hk.news, hk.entries, hk.held, hk.claims, settle_fits hd⟩

theorem settled {f : Flow} {r : Flow × List Act} (t : Tables) (h : f.Sound r.1) (hd : NoDue r.2) :
    f.Sound (Machine.settled t r) := h.trans (settle t hd)

end Flow.Sound

/-! ### The machine -/

/-- The laws that every step keeps, from one state to another. -/
structure State.Preserves (s t : State) : Prop where
  controller : s.ControllerLaw → t.ControllerLaw
  conditions : s.ConditionLaw → t.ConditionLaw
  claims : s.ConditionLaw → s.ClaimLaw → t.ClaimLaw
  pairs : s.PairLaw → t.PairLaw
  places : s.PlaceLaw → t.PlaceLaw
  support : s.SupportLaw → t.SupportLaw
  memory : Memory.wf s → Memory.wf t

/-- The laws, and news flags stay set and the waiting commands stay as they are. -/
structure State.Moves (s t : State) : Prop extends State.Preserves s t where
  news : s.flow.news &&& t.flow.news = s.flow.news
  pending : t.pending = s.pending

theorem State.Preserves.refl (s : State) : s.Preserves s := ⟨id, id, fun _ => id, id, id, id, id⟩

theorem State.Preserves.trans {s t u : State} (a : s.Preserves t) (b : t.Preserves u) : s.Preserves u :=
  ⟨b.controller ∘ a.controller, b.conditions ∘ a.conditions, fun h1 h2 => b.claims (a.conditions h1) (a.claims h1 h2),
    b.pairs ∘ a.pairs, b.places ∘ a.places, b.support ∘ a.support, b.memory ∘ a.memory⟩

namespace State.Moves

theorem refl (s : State) : s.Moves s := ⟨.refl s, BitVec.and_self, rfl⟩

theorem trans {s t u : State} (a : s.Moves t) (b : t.Moves u) : s.Moves u :=
  ⟨a.toPreserves.trans b.toPreserves, by
    have ha := a.news
    calc s.flow.news &&& u.flow.news = (s.flow.news &&& t.flow.news) &&& u.flow.news := by rw [ha]
      _ = s.flow.news &&& (t.flow.news &&& u.flow.news) := BitVec.and_assoc ..
      _ = s.flow.news := by rw [b.news, ha], b.pending.trans a.pending⟩

theorem after {s t u : State} (b : t.Moves u) (a : s.Moves t) : s.Moves u := a.trans b

theorem foldl {α : Type} (u : State → α → State) (h : ∀ (s : State) x, s.Moves (u s x)) (xs : List α) (s : State) :
    s.Moves (xs.foldl u s) := by
  induction xs generalizing s with
  | nil => exact refl s
  | cons x xs ih => exact (h s x).trans (ih _)

end State.Moves

/-! ### Changes that the laws allow -/

theorem satisfied_congr {t u : Tables} (h : ∀ i, (u.conds.get i).qual = (t.conds.get i).qual) (cs : CondSet) :
    satisfied u cs = satisfied t cs := by
  simp only [satisfied, Condition.qualified, h]

theorem Claim.Lawful.congr {t u : Tables} {c d : Claim} (h : ∀ i, (u.conds.get i).qual = (t.conds.get i).qual)
    (hs : c.inForce = true → c.Same d) (hl : d.Lawful t) : c.Lawful u := by
  unfold Claim.Lawful at hl ⊢
  by_cases hf : c.inForce = true
  · obtain ⟨hstate, -, -, hguard⟩ := hs hf
    rw [hstate, hguard, satisfied_congr h]
    exact hl
  · cases hc : c.state <;> simp_all [Claim.inForce]

/-- Entries that at most end keep the pairs apart. -/
theorem State.PairLaw.stays {s t : State} (h : s.PairLaw)
    (hs : ∀ i, Entry.Stays (s.flow.entries.get i) (t.flow.entries.get i)) : t.PairLaw := by
  have back (i : EntryIx) (x : Entry) (hx : t.flow.entries.get i = some x) :
      ∃ y, s.flow.entries.get i = some y ∧ x.slot = y.slot ∧ x.ecu = y.ecu := by
    have := hs i
    rw [hx] at this
    cases hy : s.flow.entries.get i with
    | none => rw [hy] at this; exact this.elim
    | some y => rw [hy] at this; exact ⟨y, rfl, this⟩
  intro i j x y hx hy hslot hecu
  obtain ⟨x', hx', hxs, hxe⟩ := back i x hx
  obtain ⟨y', hy', hys, hye⟩ := back j y hy
  exact h i j x' y' hx' hy' (by rw [← hxs, ← hys, hslot]) (by rw [← hxe, ← hye, hecu])

/-- The fields that the laws speak of, beside the traffic, are as they were; of the conditions, raw values and states are,
and deadlines are or are cleared; no slot is detached and no grant ceases to support. -/
structure State.SameTables (s t : State) : Prop where
  pending : t.pending = s.pending := by rfl
  ctl : t.tab.ctl = s.tab.ctl := by rfl
  fault : t.tab.fault = s.tab.fault := by rfl
  dir : t.tab.dir = s.tab.dir := by rfl
  attached : ∀ k, (s.tab.testers.get k).attached = true → (t.tab.testers.get k).attached = true := by exact fun _ => id
  raw : ∀ i, (t.tab.conds.get i).raw = (s.tab.conds.get i).raw := by exact fun _ => rfl
  qual : ∀ i, (t.tab.conds.get i).qual = (s.tab.conds.get i).qual := by exact fun _ => rfl
  deadline : ∀ i, (t.tab.conds.get i).deadline = (s.tab.conds.get i).deadline ∨ (t.tab.conds.get i).deadline = none :=
    by exact fun _ => .inl rfl
  grants : ∀ k e l, supported s.grants k e l = true → supported t.grants k e l = true := by exact fun _ _ _ => id

theorem State.SameTables.conditions {s t : State} (h : s.SameTables t) (hc : s.ConditionLaw) : t.ConditionLaw := fun i => by
  obtain ⟨hl, hd⟩ := hc i
  constructor
  · simpa only [Condition.Lawful, h.qual i, h.raw i] using hl
  · unfold Condition.DeadlineLaw at hd ⊢
    rw [h.qual i]
    split at hd
    · exact (h.deadline i).elim (fun e => e.trans hd) id
    · exact (h.deadline i).elim (fun e => e.trans hd) id
    · exact True.intro
    · exact True.intro

/-- The traffic changes as the laws allow, and nothing else that they speak of. -/
theorem State.Moves.of_flow {s t : State} (h : s.SameTables t) (hf : s.flow.Sound t.flow) : s.Moves t where
  controller := by simp only [State.ControllerLaw, h.ctl, h.fault, h.dir]; exact id
  conditions := h.conditions
  claims := fun _ hl e => (hl e).congr h.qual (hf.claims e)
  pairs := fun hp => hp.stays hf.entries
  places := hf.fits
  support := fun ⟨hc, hh⟩ => ⟨fun e he => by
    have hsame := hf.claims e he
    obtain ⟨ha, hs⟩ := hc e (hsame.inForce ▸ he)
    obtain ⟨-, hholder, hlevel, -⟩ := hsame
    rw [hholder, hlevel]
    exact ⟨h.attached _ ha, h.grants _ _ _ hs⟩, fun k hk => h.attached k (hh k (hf.held k hk))⟩
  memory := hf.ram
  news := hf.news
  pending := h.pending

/-- Only the traffic changes. -/
theorem State.moves_withFlow (s : State) {g : Flow} (h : s.flow.Sound g) : s.Moves (s.withFlow g) :=
  .of_flow {} h

/-- Nothing changes that the laws speak of. -/
theorem State.Moves.of_same {s t : State} (h : s.SameTables t) (hf : t.flow = s.flow) : s.Moves t :=
  .of_flow h (by rw [hf]; exact .refl _)

theorem State.moves_run (s : State) {as : List Act} (hd : NoDue as) : s.Moves (s.run as) :=
  s.moves_withFlow (.settle _ hd)

/-- So many milliseconds pass. -/
theorem State.moves_advance (s : State) (dt : Nat) : s.Moves (s.advance dt) :=
  .of_flow {} (.of_keeps_same (startFrames_keeps ..) (startFrames_sameQueues ..))

/-- Grants change so that every claim in force keeps a grant that supports it. -/
theorem State.moves_grants (s : State) (gs : Vector Grant 64)
    (h : ∀ e, (s.flow.claims.get e).inForce = true →
      supported s.grants (s.flow.claims.get e).holder e (s.flow.claims.get e).level = true →
      supported gs (s.flow.claims.get e).holder e (s.flow.claims.get e).level = true) :
    s.Moves { s with grants := gs } where
  controller := id
  conditions := id
  claims := fun _ => id
  pairs := id
  places := id
  support := fun ⟨hc, hh⟩ => ⟨fun e he => ⟨(hc e he).1, h e he (hc e he).2⟩, hh⟩
  memory := id
  news := BitVec.and_self
  pending := rfl

end Sys2Proof.Machine
end

section
/-! SUPPORT. The traffic of the ports, the writers and the jobs keeps `Flow.Sound`: frames received and sent, timers,
transfers, entries' deadlines and job steps, each with acts that have no item to place. -/

namespace Sys2Proof.Machine

/-- A change of the traffic that the laws allow, followed by acts of which none has an item to place. -/
structure Flow.Leads (f : Flow) (r : Flow × List Act) : Prop where
  sound : f.Sound r.1
  noDue : NoDue r.2

namespace Flow.Leads

theorem nil {f g : Flow} (h : f.Sound g) : f.Leads (g, []) := ⟨h, NoDue.nil⟩

theorem one {f g : Flow} {a : Act} (h : f.Sound g) (ha : a.due = false) : f.Leads (g, [a]) := ⟨h, NoDue.cons ha NoDue.nil⟩

theorem stays (f : Flow) : f.Leads (f, []) := nil (Flow.Sound.refl f)

theorem of_sound {f g : Flow} {r : Flow × List Act} (hr : g.Leads r) (h : f.Sound g) : f.Leads r :=
  ⟨h.trans hr.sound, hr.noDue⟩

theorem settled {f : Flow} {r : Flow × List Act} (h : f.Leads r) (t : Tables) : f.Sound (Machine.settled t r) :=
  .settled t h.sound h.noDue

end Flow.Leads


/-! ### Contexts and control frames -/

theorem pushControl_sound (t : Tables) (f : Flow) (p : PortId) (o : FrameOwner) (a b : Byte) (d : List Byte) :
    f.Sound (pushControl t f p o a b d) := .of_keeps_same (pushControl_keeps ..) (pushControl_sameQueues ..)

theorem pushTx_sound (t : Tables) (f : Flow) (p : PortId) (o : FrameOwner) (a b : Byte) (d : List Byte) :
    f.Sound (pushTx t f p o a b d) := .of_keeps_same (pushTx_keeps ..) (pushTx_sameQueues ..)

theorem abortTo_sound (t : Tables) (f : Flow) (p : PortId) (a b : Byte) (r : AbortReason) :
    f.Sound (abortTo t f p a b r) := pushControl_sound ..

theorem putCtx_sound (f : Flow) (p : PortId) (c : CtxIx) (x : Option Ctx) : f.Sound (f.putCtx p c x) :=
  .of_keeps (putCtx_keeps ..) (putCtx_noMore ..)

theorem freeContext_sound (f : Flow) (p : PortId) (c : CtxIx) : f.Sound (freeContext f p c) :=
  .of_keeps (freeContext_keeps ..) (freeContext_noMore ..)

theorem dropContext_sound (f : Flow) (p : PortId) (c : CtxIx) : f.Sound (dropContext f p c) :=
  (freeContext_sound _ p c).after (.modPort ..)

theorem sendGrant_sound (t : Tables) (f : Flow) (p : PortId) (c : CtxIx) (x : Ctx) : f.Sound (sendGrant t f p c x) :=
  .of_keeps_same (sendGrant_keeps ..) (sendGrant_sameQueues ..)

theorem abandonCtx_leads (f : Flow) (p : PortId) (c : CtxIx) (b : Bool) : f.Leads (abandonCtx f p c b) :=
  ⟨.of_keeps (abandonCtx_keeps ..) (abandonCtx_noMore ..), abandonCtx_noDue ..⟩

theorem stallTick_leads (t : Tables) (f : Flow) (p : PortId) (c : CtxIx) : f.Leads (stallTick t f p c) :=
  ⟨.of_keeps (stallTick_keeps ..) (stallTick_noMore ..), stallTick_noDue ..⟩

theorem handOver_leads (f : Flow) (o : CtxOwner) (a : Byte) (m : Message) : f.Leads (handOver f o a m) :=
  ⟨.of_keeps (handOver_keeps ..) (handOver_noMore ..), (handOver_calm ..).noDue⟩

theorem closeEnd_sound (t : Tables) (n : Nat) (f : Flow) (e : EcuIx) (o : CloseOutcome) (a : Option Byte) :
    f.Sound (closeEnd t n f e o a) := .of_keeps_same (closeEnd_keeps ..) (closeEnd_sameQueues ..)

/-! ### Frames received (R104 to R107, R132, R143 to R148) -/

theorem restart_leads (f : Flow) (p : PortId) (a b : Byte) :
    f.Sound (restart f p a b).1 ∧ NoDue (restart f p a b).2.2.1 := by
  unfold restart
  split
  · exact ⟨.refl f, NoDue.nil⟩
  · split
    · exact ⟨.refl f, NoDue.nil⟩
    · refine ⟨dropContext_sound .., ?_⟩
      simp only
      split
      · exact NoDue.nil
      · exact NoDue.cons rfl NoDue.nil

theorem takeFirst_leads (t : Tables) (f : Flow) (p : PortId) (fr : FirstFrame) {taken : Flow → Flow}
    (h : f.Sound (taken f)) : f.Leads (takeFirst t f p fr taken) := by
  unfold takeFirst
  split
  · exact .nil (abortTo_sound ..)
  · obtain ⟨hs, hd⟩ := restart_leads (taken f) p fr.source fr.target
    exact ⟨h.trans hs, hd.append (NoDue.cons rfl NoDue.nil)⟩

theorem stray_sound (t : Tables) (f : Flow) (p : PortId) (fr : Frame) (single : Bool) (e : Option EcuIx) :
    f.Sound (stray t f p fr single e) := by
  have hcount (g : Flow) (h : f.Sound g) : f.Sound (if single then g else abortTo t g p (frSource fr) (frTarget fr) .notExpected) := by
    split
    · exact h
    · exact h.trans (abortTo_sound ..)
  unfold stray
  cases e with
  | none => exact hcount f (.refl f)
  | some e => exact hcount _ (.countEcu ..)

theorem EntryState.toPhase_isOrphan (x : EntryState) (p : OrphanPhase) (h : x.isOrphan = true) :
    (x.toPhase p).isOrphan = true := by
  cases x <;> simp_all [EntryState.isOrphan, EntryState.toPhase]

theorem interimAnswer_leads (t : Tables) (f : Flow) (v : VbIx) (fr : Frame) (i : EntryIx) (x : Entry) (pay : List Byte) :
    f.Leads (interimAnswer t f v fr i x pay) := by
  unfold interimAnswer
  simp only
  generalize (f.findCtx (.vb v) (frSource fr) (frTarget fr)).bind _ = old
  have hfree : f.Sound (match old with | none => f | some o => freeContext f (.vb v) o.1) := by
    split
    · exact .refl f
    · exact freeContext_sound ..
  have hfreed : NoDue (match old.bind (·.2.charge) with | none => [] | some h => [.release h]) := by
    split
    · exact NoDue.nil
    · exact NoDue.cons rfl NoDue.nil
  have hcount := hfree.trans (.modEntry _ i (fun y => { y with interims := x.interims + 1 }) fun _ => ⟨rfl, rfl, id⟩)
  split
  · exact ⟨hcount.trans (.countEcu ..), hfreed.append (NoDue.cons rfl NoDue.nil)⟩
  · exact ⟨hcount.trans (.modEntry _ _ _ fun y => ⟨rfl, rfl, y.state.toPhase_isOrphan _⟩),
      hfreed.append (NoDue.cons rfl NoDue.nil)⟩

theorem tbFirst_leads (t : Tables) (f : Flow) (fr : Frame) (single : Bool) (len : Nat) (pay : List Byte) :
    f.Leads (tbFirst t f fr single len pay) := by
  unfold tbFirst
  split
  · exact .nil .same
  · exact takeFirst_leads _ _ _ _ (.refl f)

theorem vbResponse_leads (t : Tables) (f : Flow) (v : VbIx) (fr : Frame) (single : Bool) (len : Nat) (pay : List Byte) :
    f.Leads (vbResponse t f v fr single len pay) := by
  have hstray (e : Option EcuIx) := Flow.Leads.nil (stray_sound t f (.vb v) fr single e)
  unfold vbResponse
  split
  · exact hstray _
  · split
    · exact hstray _
    · split
      · exact hstray _
      · split
        · exact hstray _
        · split
          · exact interimAnswer_leads ..
          · exact takeFirst_leads _ _ _ _ (.modEntry _ _ _ fun y => ⟨rfl, rfl, y.state.toPhase_isOrphan _⟩)

theorem vbAnswer_leads (t : Tables) (f : Flow) (v : VbIx) (fr : Frame) (single : Bool) (len : Nat) (pay : List Byte) :
    f.Leads (vbAnswer t f v fr single len pay) := by
  unfold vbAnswer
  split
  · exact .nil (stray_sound ..)
  · split
    · exact (takeFirst_leads _ _ _ _ (.refl _)).of_sound (closeEnd_sound ..)
    · exact .nil (stray_sound ..)

theorem firstFrame_leads (t : Tables) (f : Flow) (p : PortId) (fr : Frame) (single : Bool) (len : Nat) (pay : List Byte) :
    f.Leads (firstFrame t f p fr single len pay) := by
  unfold firstFrame
  cases p with
  | tb => exact tbFirst_leads ..
  | vb v =>
    simp only
    split
    · exact .stays f
    · split
      · exact vbAnswer_leads ..
      · exact vbResponse_leads ..

theorem ctxComplete_leads (t : Tables) (f : Flow) (p : PortId) (c : CtxIx) (x : Ctx) : f.Leads (ctxComplete t f p c x) := by
  have hdone := (freeContext_sound f p c).trans (pushControl_sound t _ p .nobody x.source x.target doneData)
  unfold ctxComplete
  simp only
  split
  · exact .nil hdone
  · exact (handOver_leads ..).of_sound hdone

theorem nextSegment_leads (t : Tables) (f : Flow) (p : PortId) (c : CtxIx) (x : Ctx) (i : BitVec 4) (bs : List Byte) :
    f.Leads (nextSegment t f p c x i bs) := by
  unfold nextSegment
  split
  · simp only
    split
    · exact ctxComplete_leads ..
    · split
      · exact .nil (sendGrant_sound ..)
      · exact .nil (putCtx_sound ..)
  · exact (abandonCtx_leads ..).of_sound (abortTo_sound ..)

theorem nextTaken_leads (t : Tables) (f : Flow) (p : PortId) (fr : Frame) (i : BitVec 4) (bs : List Byte) :
    f.Leads (nextTaken t f p fr i bs) := by
  unfold nextTaken
  split
  · exact .stays f
  · split
    · exact .stays f
    · split
      · exact .stays f
      · exact nextSegment_leads ..

theorem nextFrom_leads (t : Tables) (f : Flow) (p : PortId) (fr : Frame) (i : BitVec 4) (bs : List Byte) :
    f.Leads (nextFrom t f p fr i bs) := by
  unfold nextFrom
  split
  · exact .nil .same
  · exact nextTaken_leads ..

/-! ### Transfers (R115, R131, R142 to R144, R151, R152) -/

theorem modTx_sound (f : Flow) (p : PortId) (g : Transfer → Transfer) : f.Sound (modTx f p g) := .modPort ..

theorem pushNext_sound (t : Tables) (f : Flow) (p : PortId) : f.Sound (pushNext t f p) := by
  unfold pushNext
  split
  · exact .refl f
  · exact pushTx_sound ..

theorem startTransfer_sound (t : Tables) (f : Flow) (p : PortId) (a b : Byte) (pay : List Byte) (c : Cargo) :
    f.Sound (startTransfer t f p a b pay c) := (pushTx_sound ..).after (.modPort ..)

theorem closeSent_sound (t : Tables) (f : Flow) (e : EcuIx) (ok : Bool) : f.Sound (closeSent t f e ok) := by
  unfold closeSent
  split
  · exact .modClaim _ _ _ fun _ => ⟨rfl, rfl, rfl, rfl⟩
  · exact closeEnd_sound ..

theorem requestSent_leads (t : Tables) (f : Flow) (e : EntryIx) (ok : Bool) : f.Leads (requestSent t f e ok) := by
  unfold requestSent
  split
  · exact .stays f
  · split
    · exact .stays f
    · split
      · exact .nil (.modEntry _ _ _ fun y => ⟨rfl, rfl, y.state.toPhase_isOrphan _⟩)
      · exact .one (.countEcu ..) rfl

theorem transferEnd_leads (t : Tables) (f : Flow) (p : PortId) (ok : Bool) : f.Leads (transferEnd t f p ok) := by
  have hidle : f.Sound (idleTx f p) := .modPort ..
  unfold transferEnd
  split
  · exact .stays f
  · simp only
    split
    · obtain ⟨hs, hd⟩ := requestSent_leads t (idleTx f p) ‹_› ok
      exact ⟨hidle.trans hs, NoDue.cons rfl hd⟩
    · exact .nil (hidle.trans (closeSent_sound ..))
    · refine ⟨hidle.trans ?_, (releases_calm _).noDue⟩
      simp only
      split
      · exact .refl _
      · exact .modSlot _ _ _ (fun _ => Nat.le_refl _) fun _ => id

theorem transferTimeout_leads (t : Tables) (f : Flow) (p : PortId) : f.Leads (transferTimeout t f p) := by
  unfold transferTimeout
  split
  · exact .stays f
  · obtain ⟨hs, hd⟩ := transferEnd_leads t f p false
    exact ⟨hs.trans (pushTx_sound ..), hd⟩

theorem grantTaken_sound (t : Tables) (f : Flow) (p : PortId) (fr : Frame) (n : Nat) : f.Sound (grantTaken t f p fr n) := by
  unfold grantTaken
  split
  · exact .refl f
  · split
    · exact (modTx_sound ..).trans (pushNext_sound ..)
    · exact .refl f

theorem stallTaken_leads (t : Tables) (f : Flow) (p : PortId) (fr : Frame) : f.Leads (stallTaken t f p fr) := by
  unfold stallTaken
  split
  · exact .stays f
  · split
    · split
      · exact transferTimeout_leads ..
      · exact .nil (modTx_sound ..)
    · exact .stays f

theorem doneTaken_leads (t : Tables) (f : Flow) (p : PortId) (fr : Frame) : f.Leads (doneTaken t f p fr) := by
  unfold doneTaken
  split
  · exact .stays f
  · split
    · exact transferEnd_leads ..
    · exact .stays f

theorem abortTaken_leads (t : Tables) (f : Flow) (p : PortId) (fr : Frame) : f.Leads (abortTaken t f p fr) := by
  have hfirst : f.Leads (if (creditFor f p fr).isSome then transferEnd t f p false else (f, [])) := by
    split
    · exact transferEnd_leads ..
    · exact .stays f
  unfold abortTaken
  simp only
  split
  · exact hfirst
  · obtain ⟨hs, hd⟩ := abandonCtx_leads (if (creditFor f p fr).isSome then transferEnd t f p false else (f, [])).1 p ‹_› false
    exact ⟨hfirst.sound.trans hs, hfirst.noDue.append hd⟩

theorem runSent_sound (t : Tables) (f : Flow) (p : PortId) (x : Transfer) : f.Sound (runSent t f p x) := by
  unfold runSent
  simp only
  split
  · exact (modTx_sound ..).trans (pushNext_sound ..)
  · split <;> exact modTx_sound ..

theorem transmitterSent_leads (t : Tables) (f : Flow) (p : PortId) : f.Leads (transmitterSent t f p) := by
  unfold transmitterSent
  split
  · exact .stays f
  · split
    · split
      · exact transferEnd_leads ..
      · exact .nil (modTx_sound ..)
    · exact .nil (runSent_sound ..)
    · exact .stays f
    · exact .stays f

theorem frameSent_sound (t : Tables) (f : Flow) (p : PortId) : f.Sound (frameSent t f p) := by
  unfold frameSent
  split
  · exact .refl f
  · refine .after (.modPort ..) ?_
    split
    · exact .after ((transmitterSent_leads ..).settled t) (.modPort ..)
    · exact .modPort ..
    · exact .modPort ..

theorem withdrawn_leads (t : Tables) (f : Flow) (p : PortId) (d : DueFrame) : f.Leads (withdrawn t f p d) := by
  unfold withdrawn
  split
  · exact transferEnd_leads ..
  · exact abandonCtx_leads ..
  · exact .stays f

theorem vbStart_sound (t : Tables) (f : Flow) (v : VbIx) : f.Sound (vbStart t f v) := by
  unfold vbStart
  split
  · exact startTransfer_sound ..
  · split
    · exact .refl f
    · exact .after (startTransfer_sound ..) (.after (.markHeads ..) (.modVb ..))

theorem takeItem_sound (f : Flow) (k : Slot) : f.Sound (takeItem f k) :=
  .modSlot _ _ _ (fun x => by simp) fun _ => id

theorem tbStart_sound (t : Tables) (f : Flow) : f.Sound (tbStart t f) := by
  unfold tbStart
  split
  · exact .refl f
  · exact (startTransfer_sound ..).after (takeItem_sound ..)

/-! ### Relay and capture rings (R116, R183, R184, R202 to R204) -/

theorem relayWriteItem_leads (t : Tables) (f : Flow) : f.Leads (relayWriteItem t f) := by
  unfold relayWriteItem
  split
  · exact .stays f
  · split
    · exact ⟨(takeItem_sound ..).trans (.modSlot _ _ _ (fun _ => Nat.le_refl _) fun _ => id), (releases_calm _).noDue⟩
    · simp only
      split
      · refine ⟨?_, (releases_calm _).noDue⟩
        have hwritten (w : Writer) (ram : List Host.Cell) (h : ramWf f.ram → ramWf ram) (k : Slot) :
            f.Sound (takeItem { f with relayOut := w, ram } k) :=
          (takeItem_sound { f with relayOut := w, ram } k).after { Flow.Sound.refl f with ram := h }
        simp only
        split
        · exact .after (.setNews ..) (hwritten _ _ (Writer.write_wf _ _ _ _ _ _) _)
        · exact hwritten _ _ (Writer.write_wf _ _ _ _ _ _) _
      · exact .nil .same

theorem relayCommit_sound (t : Tables) (f : Flow) : f.Sound (relayCommit t f) := by
  unfold relayCommit
  split
  · exact .after (.setNews ..) { Flow.Sound.refl f with ram := Writer.commit_wf _ _ _ _ }
  · exact .refl f

theorem captureCommit_sound (t : Tables) (f : Flow) : f.Sound (captureCommit t f) :=
  .of_keeps_same (captureCommit_keeps ..) (captureCommit_sameQueues ..)

theorem event_sound (t : Tables) (n : Nat) (f : Flow) (c : CaptureRecord) : f.Sound (event t n f c) :=
  .of_keeps_same (event_keeps ..) (event_sameQueues ..)

theorem controllerRecord_sound (t : Tables) (f : Flow) (o : Byte) (r : Option Byte) :
    f.Sound (controllerRecord t f o r) := .of_keeps_same (controllerRecord_keeps ..) (controllerRecord_sameQueues ..)

/-- The channel takes a record; it places a refusal item only where a place is free (R203, R114). -/
theorem relayTakeRecord_settled (t : Tables) (f : Flow) : f.Sound (settled t (relayTakeRecord t f)) := by
  have hk := (relayTakeRecord_keeps t f).trans (settled_keeps t _)
  refine ⟨hk.ram, hk.news, hk.entries, hk.held, hk.claims, fun hf => ?_⟩
  have hg : (relayTakeRecord t f).1.Fits := (relayTakeRecord_keeps t f).fits (relayTakeRecord_noMore t f) hf
  obtain hnil | ⟨k, b, s, e, o, hone, hfree⟩ := relayTakeRecord_cases t f
  · exact settled_fits (by rw [hnil]; exact NoDue.nil) hg
  · refine settleFor_fits _ _ _ (by rw [hone]; exact List.pairwise_singleton ..) fun j => ?_
    have hj := hg j
    rw [hone]
    by_cases hkj : k = j
    · subst hkj
      simp [dueLoad, Act.placing, Act.refusing]
      omega
    · simp [dueLoad, Act.placing, Act.refusing, hkj]
      exact hj

/-- A move of the relay channel. -/
theorem Flow.Sound.relay {f g : Flow} (h : f.KeepsButRelay g) (hq : f.SameQueues g) : f.Sound g :=
  ⟨h.ram, h.news, h.entries, h.held, h.claims,
    Flow.Keeps.fits (g := { g with relayIn := f.relayIn }) h ⟨fun k => hq.noMore.load k⟩⟩

theorem relayBegin_sound (t : Tables) (f : Flow) : f.Sound (relayBegin t f) := by
  unfold relayBegin
  split
  · exact .refl f
  · split
    · exact .relay (relayPages_keeps ..) (relayPages_sameQueues ..)
    · exact .refl f

theorem relayPageDone_sound (r : Ring) (f : Flow) : f.Sound (relayPageDone r f) :=
  .after (.setNews ..) (.after .same (.ram_write ..))

theorem relayStopReading_sound (t : Tables) (f : Flow) : f.Sound (relayStopReading t f) := by
  have hstop : f.Sound { f.leaveWait .relay with relayIn := { (f.leaveWait .relay).relayIn with stop := none } } := .same
  unfold relayStopReading
  simp only
  split
  · exact hstop
  · split
    · exact hstop.trans (relayPageDone_sound ..)
    · exact hstop

theorem captureReread_sound (t : Tables) (f : Flow) : f.Sound (captureReread t f) := by
  unfold captureReread
  split
  · exact .refl f
  · simp only
    split
    · exact .after (.markHeads ..) .same
    · exact .refl f

theorem relayReread_sound (t : Tables) (f : Flow) : f.Sound (relayReread t f) := by
  unfold relayReread
  split
  · exact .refl f
  · exact .same

theorem beginLook_sound (d : Directory) (f : Flow) : f.Sound (beginLook d f) := .same

theorem lookAt_sound (t : Tables) (f : Flow) : f.Sound (lookAt t f) := by
  unfold lookAt
  split
  · exact .refl f
  · split
    · exact .same
    · exact beginLook_sound ..

theorem lookOn_sound (d : Directory) (l : Look) (f : Flow) : f.Sound (lookOn d l f) := by
  unfold lookOn
  split
  · exact .same
  · split
    · exact beginLook_sound ..
    · exact .same

theorem attend_sound (t : Tables) (f : Flow) : f.Sound (attend t f) := by
  have hlook : f.Sound (match t.ctl with
      | .off | .running | .stopping => lookAt t f
      | .starting | .faulted => f) := by
    split
    · exact lookAt_sound ..
    · exact lookAt_sound ..
    · exact lookAt_sound ..
    · exact .refl f
    · exact .refl f
  unfold attend
  simp only
  split
  · exact hlook.trans ((relayBegin_sound ..).trans ((captureReread_sound ..).trans (relayReread_sound ..)))
  · exact hlook

/-! ### Entries, claims and orders' results -/

theorem entryEnd_sound (t : Tables) (f : Flow) (i : EntryIx) : f.Sound (entryEnd t f i) :=
  .of_keeps (entryEnd_keeps ..) (entryEnd_noMore ..)

theorem entryTimeout_leads (t : Tables) (f : Flow) (i : EntryIx) (x : Entry) : f.Leads (entryTimeout t f i x) := by
  unfold entryTimeout
  simp only
  split
  · exact .nil (.after (entryEnd_sound ..) (.countEcu ..))
  · exact .one (.countEcu ..) rfl

theorem claimRelease_sound (t : Tables) (n : Nat) (b : Bool) (f : Flow) (e : EcuIx) (c : ReleaseCause) :
    f.Sound (claimRelease t n b f e c) := .of_keeps_same (claimRelease_keeps ..) (claimRelease_sameQueues ..)

theorem orderDone_sound (t : Tables) (f : Flow) (n : Nat) (r : OrderResult) (d : List Byte) :
    f.Sound (orderDone t f n r d) := .of_keeps_same (orderDone_keeps ..) (orderDone_sameQueues ..)

/-! ### Job steps (R161 to R171) -/

theorem badStepAct_noDue (f : Flow) (j : JobIx) : NoDue (badStepAct f j) := NoDue.cons rfl NoDue.nil

theorem jobStep_leads (t : Tables) (f : Flow) (j : JobIx) (kind : StepKind) {run : Flow → List Byte → Flow × List Act}
    (h : ∀ (f : Flow) bs, f.Leads (run f bs)) : f.Leads (jobStep t f j kind run) := by
  unfold jobStep
  simp only
  split
  · split
    · exact .stays f
    · split
      · split
        · exact (h _ _).of_sound (.modJob ..)
        · exact .one (.refl f) rfl
      · exact .stays f
  · exact .stays f

theorem writeResult_sound (t : Tables) (f : Flow) (j : JobIx) (b : Option ResultBuf) (n : Nat) (p : List Byte) :
    f.Sound (writeResult t f j b n p).2 := .of_keeps_same (writeResult_keeps ..) (writeResult_sameQueues ..)

theorem sendToNobody_leads (t : Tables) (f : Flow) (j : JobIx) (x : SendStep) : f.Leads (sendToNobody t f j x) := by
  unfold sendToNobody
  refine ⟨.after (writeResult_sound ..) (.modJob ..), ?_⟩
  simp only
  split
  · exact NoDue.cons rfl NoDue.nil
  · split <;> exact NoDue.cons rfl NoDue.nil

theorem jobAppend_leads (f : Flow) (j : JobIx) : f.Leads (jobAppend f j) :=
  ⟨.of_keeps (jobAppend_keeps ..) (jobAppend_noMore ..), (jobAppend_calm ..).noDue⟩

theorem charge_sound {t : Tables} {f g : Flow} {k : Slot} {d : Grade} {n : Nat} {h : Charge}
    (he : charge t f k d n = some (g, h)) : f.Sound g := .of_keeps_same (charge_keeps he) (charge_sameQueues he)

theorem chargeBuild_leads (t : Tables) (f : Flow) (j : JobIx) (k : Slot) (m : Build) : f.Leads (chargeBuild t f j k m) := by
  unfold chargeBuild
  simp only
  split
  · rename_i hc
    exact (jobAppend_leads ..).of_sound ((charge_sound hc).trans (.modJob ..))
  · exact .nil (.after .same (.modJob f j fun b => { b with build := some m, state := .waiting .cells }))

theorem runSend_leads (t : Tables) (j : JobIx) (f : Flow) (bs : List Byte) : f.Leads (runSend t j f bs) := by
  unfold runSend
  split
  · split
    · split
      · exact ⟨.refl f, badStepAct_noDue ..⟩
      · exact chargeBuild_leads ..
    · exact sendToNobody_leads ..
  · exact ⟨.refl f, badStepAct_noDue ..⟩
  · exact .stays f

theorem runRepeat_leads (j : JobIx) (f : Flow) (bs : List Byte) : f.Leads (runRepeat j f bs) := by
  unfold runRepeat
  simp only
  split
  · exact ⟨.refl f, badStepAct_noDue ..⟩
  · exact .nil (.modJob ..)

theorem runWaitTime_leads (t : Tables) (j : JobIx) (f : Flow) (bs : List Byte) : f.Leads (runWaitTime t j f bs) := by
  unfold runWaitTime
  split
  · exact ⟨.refl f, badStepAct_noDue ..⟩
  · split
    · exact .one (.refl f) rfl
    · exact .nil (.modJob ..)

theorem runWaitCondition_leads (t : Tables) (j : JobIx) (f : Flow) (bs : List Byte) :
    f.Leads (runWaitCondition t j f bs) := by
  unfold runWaitCondition
  split
  · split
    · exact .one (.modJob ..) rfl
    · exact .nil (.modJob ..)
  · exact ⟨.refl f, badStepAct_noDue ..⟩

theorem runSync_leads (j : JobIx) (f : Flow) : f.Leads (runSync j f) := by
  unfold runSync
  split
  · exact .one (.refl f) rfl
  · exact .nil (.modJob ..)

end Sys2Proof.Machine
end

section
/-! SUPPORT. The condition monitor keeps the laws: a raw change or a timer steps a condition into a lawful one, and its
qualified change halts and resumes the claims to match (R26, R33, R126). -/

namespace Sys2Proof.Machine

/-! ### Changes of claims in force -/

/-- What the laws ask of a change of the traffic, the claims apart. -/
structure Flow.ButClaims (f g : Flow) : Prop where
  ram : ramWf f.ram → ramWf g.ram
  news : f.news &&& g.news = f.news
  entries : ∀ i, Entry.Stays (f.entries.get i) (g.entries.get i)
  held : ∀ k, (g.slots.get k).held.isSome → (f.slots.get k).held.isSome
  fits : f.Fits → g.Fits

namespace Flow.ButClaims

theorem of_sound {f g : Flow} (h : f.Sound g) : f.ButClaims g := ⟨h.ram, h.news, h.entries, h.held, h.fits⟩

theorem refl (f : Flow) : f.ButClaims f := of_sound (.refl f)

theorem trans {f g h : Flow} (a : f.ButClaims g) (b : g.ButClaims h) : f.ButClaims h where
  ram := b.ram ∘ a.ram
  news := by
    have ha := a.news
    calc f.news &&& h.news = (f.news &&& g.news) &&& h.news := by rw [ha]
      _ = f.news &&& (g.news &&& h.news) := BitVec.and_assoc ..
      _ = f.news := by rw [b.news, ha]
  entries := fun i => (a.entries i).trans (b.entries i)
  held := fun k h => a.held k (b.held k h)
  fits := b.fits ∘ a.fits

theorem modClaim (f : Flow) (e : EcuIx) (u : Claim → Claim) : f.ButClaims (f.modClaim e u) where
  ram := id
  news := BitVec.and_self
  entries := fun _ => Entry.Stays.refl _
  held := fun _ => id
  fits := id

theorem foldl {α : Type} (u : Flow → α → Flow) (h : ∀ (f : Flow) x, f.ButClaims (u f x)) (xs : List α) (f : Flow) :
    f.ButClaims (xs.foldl u f) := by
  induction xs generalizing f with
  | nil => exact refl f
  | cons x xs ih => exact (h f x).trans (ih _)

end Flow.ButClaims

/-- The claims change while the controller, the testers and the grants stay: what is left to say is what becomes of the
conditions and of the claims. -/
theorem State.Moves.of_claims {s t : State} (hb : s.flow.ButClaims t.flow)
    (hcond : s.ConditionLaw → t.ConditionLaw) (hclaim : s.ConditionLaw → s.ClaimLaw → t.ClaimLaw)
    (hsupport : s.SupportLaw → ∀ e, (t.flow.claims.get e).inForce = true →
      (t.tab.testers.get (t.flow.claims.get e).holder).attached = true
      ∧ supported t.grants (t.flow.claims.get e).holder e (t.flow.claims.get e).level = true)
    (ctl : t.tab.ctl = s.tab.ctl := by rfl) (fault : t.tab.fault = s.tab.fault := by rfl)
    (dir : t.tab.dir = s.tab.dir := by rfl) (testers : t.tab.testers = s.tab.testers := by rfl)
    (pending : t.pending = s.pending := by rfl) : s.Moves t where
  controller := by simp only [State.ControllerLaw, ctl, fault, dir]; exact id
  conditions := hcond
  claims := hclaim
  pairs := fun hp => hp.stays hb.entries
  places := hb.fits
  support := fun hs => ⟨hsupport hs, fun k hk => by rw [testers]; exact hs.2 k (hb.held k hk)⟩
  memory := hb.ram
  news := hb.news
  pending := pending

/-! ### Halting and resuming claims (R126) -/

/-- A claim after a qualified change of condition `i`. -/
def Claim.onChange (t : Tables) (i : CondIx) (value : Bool) (c : Claim) : Claim :=
  match value, c.state with
  | false, .held => if c.guard.getLsbD i.val then { c with state := .halted } else c
  | true, .halted => if satisfied t c.guard then { c with state := .held } else c
  | _, _ => c

theorem Claim.onChange_rest (t : Tables) (i : CondIx) (value : Bool) (c : Claim) :
    (c.onChange t i value).holder = c.holder ∧ (c.onChange t i value).level = c.level
    ∧ (c.onChange t i value).inForce = c.inForce := by
  unfold Claim.onChange
  split
  · split
    · rename_i h _; simp [Claim.inForce, h]
    · exact ⟨rfl, rfl, rfl⟩
  · split
    · rename_i h _; simp [Claim.inForce, h]
    · exact ⟨rfl, rfl, rfl⟩
  · exact ⟨rfl, rfl, rfl⟩

theorem claimReport_claims (t : Tables) (n : Nat) (f : Flow) (e : EcuIx) (ev : ClaimEvent) (r : Option Byte)
    (c : List Byte) : (claimReport t n f e ev r c).claims = f.claims := by
  simp [claimReport, event_claims]

theorem claimReport_sound (t : Tables) (n : Nat) (f : Flow) (e : EcuIx) (ev : ClaimEvent) (r : Option Byte)
    (c : List Byte) : f.Sound (claimReport t n f e ev r c) :=
  .of_keeps_same (claimReport_keeps ..) (claimReport_sameQueues ..)

theorem haltOrResume_butClaims (t : Tables) (i : CondIx) (value : Bool) (f : Flow) (e : EcuIx) :
    f.ButClaims (haltOrResume t i value f e) := by
  have hreport (u : Claim → Claim) (ev : ClaimEvent) :
      f.ButClaims (claimReport t 0 (f.modClaim e u) e ev none []) :=
    (Flow.ButClaims.modClaim ..).trans (.of_sound (claimReport_sound ..))
  unfold haltOrResume
  simp only
  split
  · split
    · exact hreport ..
    · exact .refl f
  · split
    · exact hreport ..
    · exact .refl f
  · exact .refl f

theorem haltOrResume_claims (t : Tables) (i : CondIx) (value : Bool) (f : Flow) (e j : EcuIx) :
    (haltOrResume t i value f e).claims.get j
      = if j = e then (f.claims.get e).onChange t i value else f.claims.get j := by
  by_cases hj : j = e
  · subst hj
    rw [if_pos rfl]
    cases value with
    | false =>
      cases hs : (f.claims.get j).state with
      | held =>
        cases hg : (f.claims.get j).guard.getLsbD i.val with
        | true => simp only [haltOrResume, Claim.onChange, hs, hg]; simp [claimReport_claims, Flow.modClaim]
        | false => simp only [haltOrResume, Claim.onChange, hs, hg]; rfl
      | free => simp [haltOrResume, Claim.onChange, hs]
      | halted => simp [haltOrResume, Claim.onChange, hs]
      | closing => simp [haltOrResume, Claim.onChange, hs]
    | true =>
      cases hs : (f.claims.get j).state with
      | halted =>
        by_cases hg : satisfied t (f.claims.get j).guard = true
        · simp [haltOrResume, Claim.onChange, hs, hg, claimReport_claims, Flow.modClaim]
        · simp [haltOrResume, Claim.onChange, hs, hg]
      | free => simp [haltOrResume, Claim.onChange, hs]
      | held => simp [haltOrResume, Claim.onChange, hs]
      | closing => simp [haltOrResume, Claim.onChange, hs]
  · rw [if_neg hj]
    unfold haltOrResume
    simp only
    split
    · split
      · simp [claimReport_claims, Flow.modClaim, Vector.modifyRow_get_ne _ _ _ _ hj]
      · rfl
    · split
      · simp [claimReport_claims, Flow.modClaim, Vector.modifyRow_get_ne _ _ _ _ hj]
      · rfl
    · rfl

theorem foldl_haltOrResume_claims (t : Tables) (i : CondIx) (value : Bool) (xs : List EcuIx) (hn : xs.Nodup) (f : Flow)
    (j : EcuIx) : (xs.foldl (haltOrResume t i value) f).claims.get j
      = if j ∈ xs then (f.claims.get j).onChange t i value else f.claims.get j := by
  induction xs generalizing f with
  | nil => rfl
  | cons x xs ih =>
    obtain ⟨hx, hxs⟩ := List.nodup_cons.mp hn
    rw [List.foldl_cons, ih hxs, haltOrResume_claims]
    by_cases hj : j = x
    · subst hj; simp [hx]
    · simp [hj]

/-- All claims after the halts and resumptions of a qualified change. -/
theorem haltAll_claims (t : Tables) (i : CondIx) (value : Bool) (f : Flow) (j : EcuIx) :
    (((List.finRange 32).foldl (haltOrResume t i value) f).claims.get j) = (f.claims.get j).onChange t i value := by
  rw [foldl_haltOrResume_claims _ _ _ _ (List.nodup_finRange 32), if_pos (List.mem_finRange j)]

/-! ### A condition is replaced (R25, R33) -/

theorem satisfied_iff (t : Tables) (cs : CondSet) :
    satisfied t cs = true ↔ ∀ i : CondIx, cs.getLsbD i.val = true → (t.conds.get i).qualified = true := by
  simp only [satisfied, List.all_eq_true, List.mem_finRange, true_implies, Bool.or_eq_true, Bool.not_eq_true']
  refine forall_congr' fun i => ?_
  cases cs.getLsbD i.val <;> simp

/-- The tables with condition `i` replaced. -/
def Tables.putCond (t : Tables) (i : CondIx) (c : Condition) : Tables := { t with conds := Vector.putRow t.conds i c }

theorem Tables.putCond_get (t : Tables) (i j : CondIx) (c : Condition) :
    ((t.putCond i c).conds.get j) = if j = i then c else t.conds.get j := by
  simp [Tables.putCond, Vector.putRow_get]

/-- A claim that agreed with the qualified values agrees with them after a qualified change. -/
theorem Claim.Lawful.onChange {t : Tables} {c : Claim} (h : c.Lawful t) (i : CondIx) (x : Condition)
    (hq : (t.conds.get i).qualified ≠ x.qualified) :
    (c.onChange (t.putCond i x) i x.qualified).Lawful (t.putCond i x) := by
  have other (j : CondIx) (hj : j ≠ i) : ((t.putCond i x).conds.get j).qualified = (t.conds.get j).qualified := by
    rw [t.putCond_get, if_neg hj]
  have self : ((t.putCond i x).conds.get i).qualified = x.qualified := by rw [t.putCond_get, if_pos rfl]
  unfold Claim.Lawful at h
  cases hs : c.state with
  | free => simp [Claim.onChange, Claim.Lawful, hs]
  | closing => simp [Claim.onChange, Claim.Lawful, hs]
  | held =>
    rw [hs] at h
    have hsat := (satisfied_iff _ _).mp h
    cases hv : x.qualified with
    | true =>
      simp only [Claim.onChange, Claim.Lawful, hs]
      refine (satisfied_iff _ _).mpr fun j hj => ?_
      by_cases e : j = i
      · rw [e, self, hv]
      · rw [other j e]; exact hsat j hj
    | false =>
      cases hb : c.guard.getLsbD i.val with
      | true =>
        simp only [Claim.onChange, Claim.Lawful, hs, hb, if_true]
        refine Bool.eq_false_iff.mpr fun ht => ?_
        have := (satisfied_iff _ _).mp ht i hb
        rw [self, hv] at this
        cases this
      | false =>
        simp only [Claim.onChange, Claim.Lawful, hs, hb, Bool.false_eq_true, if_false]
        refine (satisfied_iff _ _).mpr fun j hj => ?_
        have e : j ≠ i := fun e => by rw [e, hb] at hj; cases hj
        rw [other j e]; exact hsat j hj
  | halted =>
    rw [hs] at h
    cases hv : x.qualified with
    | true =>
      by_cases hb : satisfied (t.putCond i x) c.guard = true
      · simp [Claim.onChange, Claim.Lawful, hs, hb]
      · simp [Claim.onChange, Claim.Lawful, hs, hb]
    | false =>
      simp only [Claim.onChange, Claim.Lawful, hs]
      refine Bool.eq_false_iff.mpr fun ht => Bool.eq_false_iff.mp h ((satisfied_iff _ _).mpr fun j hj => ?_)
      have hj' := (satisfied_iff _ _).mp ht j hj
      by_cases e : j = i
      · subst e; rw [self, hv] at hj'; cases hj'
      · rw [← other j e]; exact hj'

/-- A claim that agreed with the qualified values agrees with them after a change that is not a qualified one. -/
theorem Claim.Lawful.putCond {t : Tables} {c : Claim} (h : c.Lawful t) (i : CondIx) (x : Condition)
    (hq : (t.conds.get i).qualified = x.qualified) : c.Lawful (t.putCond i x) := by
  have hsame (j : CondIx) : ((t.putCond i x).conds.get j).qualified = (t.conds.get j).qualified := by
    rw [t.putCond_get]
    split
    · rename_i e; rw [e, hq]
    · rfl
  have hsat (cs : CondSet) : satisfied (t.putCond i x) cs = satisfied t cs := by simp only [satisfied, hsame]
  unfold Claim.Lawful
  rw [hsat]
  exact h

theorem jobsOnCondition_leads (t : Tables) (f : Flow) : f.Leads (jobsOnCondition t f) := by
  have hfold (xs : List JobIx) (a : Flow × List Act) (ha : f.Leads a) : f.Leads (xs.foldl (fun a j =>
      if (a.1.jobs.get j).conditionMet t then
        (a.1.modJob j fun b => { b with verdict := .positive }, a.2 ++ [.stepDone j])
      else a) a) := by
    induction xs generalizing a with
    | nil => exact ha
    | cons j xs ih =>
      refine ih _ ?_
      simp only
      split
      · exact ⟨ha.sound.trans (.modJob ..), ha.noDue.append (NoDue.cons rfl NoDue.nil)⟩
      · exact ha
  exact hfold _ _ (.stays f)

theorem State.ConditionLaw.put {s : State} (h : s.ConditionLaw) {g : Flow} (i : CondIx) {c : Condition}
    (hc : c.Lawful ∧ c.DeadlineLaw) : State.ConditionLaw { s with tab := s.tab.putCond i c, flow := g } := fun j => by
  rw [s.tab.putCond_get]
  split
  · exact hc
  · exact h j

/-- A condition replaced by a lawful one, with the qualified change that this makes (R25, R33). -/
theorem State.moves_putCondition (s : State) (i : CondIx) (c : Condition)
    (hc : s.ConditionLaw → c.Lawful ∧ c.DeadlineLaw) : s.Moves (putCondition s i c) := by
  unfold putCondition
  simp only
  split
  · rename_i hq
    exact .of_claims (.refl _) (fun h => h.put (g := s.flow) i (hc h)) (fun _ h e => (h e).putCond i c hq) fun h => h.1
  · rename_i hq
    have halted (e : EcuIx) := haltAll_claims (s.tab.putCond i c) i c.qualified s.flow e
    have hfirst : s.Moves { s with
        tab := s.tab.putCond i c
        flow := (List.finRange 32).foldl (haltOrResume (s.tab.putCond i c) i c.qualified) s.flow } := by
      refine .of_claims (.foldl _ (fun _ _ => haltOrResume_butClaims ..) _ _) (fun h => h.put i (hc h))
        (fun _ h e => ?_) fun h e he => ?_
      · rw [halted]; exact (h e).onChange i c hq
      · obtain ⟨hholder, hlevel, hforce⟩ := (s.flow.claims.get e).onChange_rest (s.tab.putCond i c) i c.qualified
        rw [halted, hholder, hlevel]
        rw [halted, hforce] at he
        exact h.1 e he
    refine hfirst.trans (.of_flow {} ?_)
    have hjobs (g : Flow) := (jobsOnCondition_leads (s.tab.putCond i c) g).settled (s.tab.putCond i c)
    exact (hjobs _).after ((event_sound ..).after ((Flow.Sound.setNews ..).after (.markHeads ..)))

/-! ### Raw changes and timers (R26) -/

theorem Condition.rawTo_lawful {c : Condition} (h : c.Lawful) (now : Word) (b : Bool) (hb : c.raw ≠ b) :
    (c.rawTo now b).Lawful := by
  cases hq : c.qual with
  | isFalse =>
    cases b with
    | true => by_cases hz : c.rise.isZero = true <;> simp [Condition.rawTo, Condition.Lawful, hq, hz]
    | false => simp [Condition.Lawful, hq] at h; exact absurd h hb
  | rising =>
    cases b with
    | true => simp [Condition.Lawful, hq] at h; exact absurd h hb
    | false => simp [Condition.rawTo, Condition.Lawful, hq]
  | isTrue =>
    cases b with
    | true => simp [Condition.Lawful, hq] at h; exact absurd h hb
    | false => by_cases hz : c.fall.isZero = true <;> simp [Condition.rawTo, Condition.Lawful, hq, hz]
  | falling =>
    cases b with
    | true => simp [Condition.rawTo, Condition.Lawful, hq]
    | false => simp [Condition.Lawful, hq] at h; exact absurd h hb

theorem Condition.rawTo_deadlineLaw {c : Condition} (h : c.DeadlineLaw) (now : Word) (b : Bool) :
    (c.rawTo now b).DeadlineLaw := by
  cases hq : c.qual with
  | isFalse =>
    rw [Condition.DeadlineLaw, hq] at h
    cases b with
    | true => by_cases hz : c.rise.isZero = true <;> simp [Condition.rawTo, Condition.DeadlineLaw, hq, hz]
    | false => simpa [Condition.rawTo, Condition.DeadlineLaw, hq] using h
  | rising => cases b <;> simp [Condition.rawTo, Condition.DeadlineLaw, hq]
  | isTrue =>
    rw [Condition.DeadlineLaw, hq] at h
    cases b with
    | true => simpa [Condition.rawTo, Condition.DeadlineLaw, hq] using h
    | false => by_cases hz : c.fall.isZero = true <;> simp [Condition.rawTo, Condition.DeadlineLaw, hq, hz]
  | falling => cases b <;> simp [Condition.rawTo, Condition.DeadlineLaw, hq]

theorem Condition.timerDone_laws {c : Condition} (h : c.Lawful ∧ c.DeadlineLaw) :
    c.timerDone.Lawful ∧ c.timerDone.DeadlineLaw := by
  obtain ⟨hl, hd⟩ := h
  cases hq : c.qual with
  | isFalse => simp only [Condition.timerDone, hq]; exact ⟨hl, hd⟩
  | isTrue => simp only [Condition.timerDone, hq]; exact ⟨hl, hd⟩
  | rising =>
    rw [Condition.Lawful, hq] at hl
    simp [Condition.timerDone, hq, Condition.Lawful, Condition.DeadlineLaw, hl]
  | falling =>
    rw [Condition.Lawful, hq] at hl
    simp [Condition.timerDone, hq, Condition.Lawful, Condition.DeadlineLaw, hl]

theorem State.moves_reportRaw (s : State) (i : CondIx) (b : Bool) : s.Moves (reportRaw s i b) := by
  unfold reportRaw
  simp only
  split
  · exact .refl s
  · rename_i hb
    exact s.moves_putCondition i _ fun h => ⟨Condition.rawTo_lawful (h i).1 _ _ hb, Condition.rawTo_deadlineLaw (h i).2 _ _⟩

theorem State.moves_timerDone (s : State) (i : CondIx) : s.Moves (putCondition s i (s.tab.conds.get i).timerDone) :=
  s.moves_putCondition i _ fun h => Condition.timerDone_laws (h i)

end Sys2Proof.Machine
end

section
/-! SUPPORT. Heads and grants keep the laws: a head that is held, refused or admitted, and a grant that is charged, replaced
or expires with the claims it no longer supports (R54, R81, R90, R92, R97). -/

namespace Sys2Proof.Machine

/-! ### The place for a head's item (R81, R90) -/

/-- A place of the slot's delivery queue is kept for its head or free for it. -/
def Flow.RoomFor (f : Flow) (k : Slot) : Prop := (f.slots.get k).held.isSome ∨ f.deliveryFree k = true

theorem Flow.RoomFor.load_lt {f : Flow} {k : Slot} (h : f.RoomFor k) (hf : f.Fits) : f.load k < 8 := by
  have hk := hf k
  obtain hheld | hfree := h
  · simp only [SlotFlow.kept, hheld, if_true] at hk
    omega
  · have := (f.deliveryFree_iff k).mp hfree
    omega

theorem Flow.SameQueues.roomFor {f g : Flow} (h : f.SameQueues g) {k : Slot} (hr : f.RoomFor k) : g.RoomFor k := by
  have hfree : g.deliveryFree k = f.deliveryFree k := by
    rw [Bool.eq_iff_iff, Flow.deliveryFree_iff, Flow.deliveryFree_iff, h.load, h.1]
  unfold Flow.RoomFor
  rw [h.1, hfree]
  exact hr

/-- What the laws ask of a change of the traffic at the head of a slot: this head may come to be held, and uses the place
it has. -/
structure Flow.HeadMoves (k : Slot) (f g : Flow) : Prop where
  ram : ramWf f.ram → ramWf g.ram
  news : f.news &&& g.news = f.news
  entries : ∀ i, Entry.Stays (f.entries.get i) (g.entries.get i)
  held : ∀ j, (g.slots.get j).held.isSome → j = k ∨ (f.slots.get j).held.isSome
  claims : ∀ e, (g.claims.get e).inForce = true → (g.claims.get e).Same (f.claims.get e)
  fits : f.RoomFor k → f.Fits → g.Fits

theorem Flow.HeadMoves.of_sound {f g : Flow} (k : Slot) (h : f.Sound g) : Flow.HeadMoves k f g :=
  ⟨h.ram, h.news, h.entries, fun j hj => .inr (h.held j hj), h.claims, fun _ => h.fits⟩

/-- A change that leaves the queues alone, then one at the head. -/
theorem Flow.HeadMoves.after {f g h : Flow} {k : Slot} (b : Flow.HeadMoves k g h) (a : f.Sound g) (q : f.SameQueues g) :
    Flow.HeadMoves k f h where
  ram := b.ram ∘ a.ram
  news := by
    have ha := a.news
    calc f.news &&& h.news = (f.news &&& g.news) &&& h.news := by rw [ha]
      _ = f.news &&& (g.news &&& h.news) := BitVec.and_assoc ..
      _ = f.news := by rw [b.news, ha]
  entries := fun i => (a.entries i).trans (b.entries i)
  held := fun j hj => (b.held j hj).imp id (a.held j)
  claims := fun e h => by
    have hb := b.claims e h
    exact hb.trans (a.claims e (by rw [hb.inForce]; exact h))
  fits := fun hr hf => b.fits (q.roomFor hr) (a.fits hf)

/-- At a head that is held, nothing comes to be held. -/
theorem Flow.HeadMoves.sound {f g : Flow} {k : Slot} (h : Flow.HeadMoves k f g) (hk : (f.slots.get k).held.isSome) :
    f.Sound g :=
  ⟨h.ram, h.news, h.entries, fun j hj => (h.held j hj).elim (fun e => e ▸ hk) id, h.claims, h.fits (.inl hk)⟩

theorem State.Moves.of_head {s t : State} {k : Slot} (h : s.SameTables t) (hf : Flow.HeadMoves k s.flow t.flow)
    (hroom : s.flow.RoomFor k) (hatt : s.SupportLaw → (s.tab.testers.get k).attached = true) : s.Moves t where
  controller := by simp only [State.ControllerLaw, h.ctl, h.fault, h.dir]; exact id
  conditions := h.conditions
  claims := fun _ hl e => (hl e).congr h.qual (hf.claims e)
  pairs := fun hp => hp.stays hf.entries
  places := hf.fits hroom
  support := fun hs => ⟨fun e he => by
    have hsame := hf.claims e he
    obtain ⟨ha, hsup⟩ := hs.1 e (hsame.inForce ▸ he)
    obtain ⟨-, hholder, hlevel, -⟩ := hsame
    rw [hholder, hlevel]
    exact ⟨h.attached _ ha, h.grants _ _ _ hsup⟩, fun j hj => h.attached j <| by
    obtain rfl | hheld := hf.held j hj
    · exact hatt hs
    · exact hs.2 j hheld⟩
  memory := hf.ram
  news := hf.news
  pending := h.pending

/-! ### Heads held and refused (R90, R92) -/

theorem setHeld_headMoves (t : Tables) (f : Flow) (k : Slot) (r : HoldReason) (e : Option EcuIx) (b : Bool) :
    Flow.HeadMoves k f (setHeld t f k r e b) where
  ram := id
  news := BitVec.and_self
  entries := fun _ => Entry.Stays.refl _
  held := fun j hj => by
    by_cases e : j = k
    · exact .inl e
    · rw [setHeld, Flow.modSlot_get, if_neg e] at hj
      exact .inr hj
  claims := fun _ _ => Claim.Same.refl _
  fits := fun hr hf j => by
    have hload := (Flow.NoMore.modSlot f k (fun x => { x with held := match x.held with
      | none => some { reason := r, ecu := e, firstHold := t.now, deadline := holdDeadlineOf t k t.now, passed := b }
      | some h => some { h with reason := r, ecu := e, passed := h.passed || b } }) fun _ => Nat.le_refl _).load j
    have hkept : ((setHeld t f k r e b).slots.get j).kept ≤ 1 := by
      unfold SlotFlow.kept
      split <;> omega
    by_cases hj : j = k
    · subst hj
      exact (Nat.add_le_add hload hkept).trans (hr.load_lt hf)
    · have hsame : (setHeld t f k r e b).slots.get j = f.slots.get j := by rw [setHeld, Flow.modSlot_get, if_neg hj]
      have := hf j
      rw [hsame]
      exact (Nat.add_le_add_right hload _).trans this

theorem captureRefusal_sound (t : Tables) (f : Flow) (k : Slot) (e : Option EcuIx) (c : Option ServiceClass)
    (code : Byte) (g : Option GrantIx) (r : Reason) (n : Option Nat) :
    f.Sound (captureRefusal t f k e c code g r n).2 :=
  .of_keeps_same (captureRefusal_keeps ..) (captureRefusal_sameQueues ..)

/-- The head is taken off and its refusal item placed. -/
theorem refusal_headMoves (t : Tables) (f : Flow) (k : Slot) (m : InMsg) (rest : List InMsg) (r : Reason)
    (e : Option EcuIx) : Flow.HeadMoves k f (settle t [.release m.msg.charge, .refused k r m.msg.code m.target e]
      (f.modSlot k fun x => { x with inbound := rest })) := by
  have hpop : f.Keeps (f.modSlot k fun x => { x with inbound := rest }) := .modSlot _ _ _ fun _ => ⟨rfl, rfl, rfl⟩
  have hload := (Flow.NoMore.modSlot f k (fun x => { x with inbound := rest }) fun _ => Nat.le_refl _).load
  have hk := hpop.trans (settle_keeps t [.release m.msg.charge, .refused k r m.msg.code m.target e] _)
  refine ⟨hk.ram, hk.news, hk.entries, fun j hj => .inr (hk.held j hj), hk.claims, fun hr hf => ?_⟩
  refine settleFor_fits _ _ _ ?_ fun j => ?_
  · exact Orderly.quiet_append (as := [.release m.msg.charge]) (fun a ha => by rw [List.mem_singleton.mp ha]; rfl)
      (List.pairwise_singleton ..)
  · have hj := hf j
    have hkept := hpop.kept j
    have hlj := hload j
    by_cases hkj : k = j
    · subst hkj
      have hlt := hr.load_lt hf
      simp only [dueLoad, List.countP_cons, List.countP_nil, Act.placing, Act.refusing, BEq.rfl, if_true,
        Bool.false_eq_true, if_false]
      omega
    · simp only [dueLoad, List.countP_cons, List.countP_nil, Act.placing, Act.refusing, beq_iff_eq, if_neg hkj,
        Bool.false_eq_true, if_false]
      omega

theorem headRefuse_headMoves (t : Tables) (f : Flow) (k : Slot) (r : Reason) (e : Option EcuIx)
    (c : Option ServiceClass) : Flow.HeadMoves k f (settled t (headRefuse t f k r e c)) := by
  unfold headRefuse
  split
  · exact .of_sound k (.refl f)
  · simp only
    split
    · exact (refusal_headMoves ..).after (captureRefusal_sound ..) (captureRefusal_sameQueues ..)
    · exact (setHeld_headMoves ..).after (captureRefusal_sound ..) (captureRefusal_sameQueues ..)

theorem tooLong_sound (t : Tables) (f : Flow) (k : Slot) : f.Sound (settled t (tooLong t f k)) := by
  unfold tooLong
  split
  · rename_i h _
    exact (headRefuse_headMoves ..).sound (by rw [h]; rfl)
  · exact .refl f

theorem refuseHeldHead_sound (t : Tables) (f : Flow) (k : Slot) : f.Sound (settled t (refuseHeldHead t f k)) := by
  unfold refuseHeldHead
  split
  · exact .refl f
  · rename_i h
    split
    · exact tooLong_sound ..
    · exact (headRefuse_headMoves ..).sound (by rw [h]; rfl)

/-! ### The entry events of STOPPING and OFF (R197) -/

theorem releaseAll_sound (t : Tables) (p : EcuIx → Bool) (f : Flow) : f.Sound (releaseAll t p f) :=
  .foldl _ (fun _ _ => claimRelease_sound ..) _ _

theorem stopJobs_sound (t : Tables) (p : JobIx → Bool) (f : Flow) : f.Sound (stopJobs t p f) :=
  .foldl _ (fun _ _ => .settle _ (NoDue.cons rfl NoDue.nil)) _ _

theorem refuseHeads_sound (t : Tables) (f : Flow) : f.Sound (refuseHeads t f) :=
  .foldl _ (fun _ _ => refuseHeldHead_sound ..) _ _

theorem stoppingEvents_sound (t : Tables) (n : Nat) (f : Flow) : f.Sound (stoppingEvents t n f) :=
  (releaseAll_sound ..).after ((stopJobs_sound ..).after ((refuseHeads_sound ..).after ((stopJobs_sound ..).after
    ((releaseAll_sound ..).after ((relayStopReading_sound ..).after (controllerRecord_sound ..))))))

/-! ### Grants and the claims they support (R54) -/

theorem supported_iff (gs : Vector Grant 64) (k : Slot) (e : EcuIx) (l : ClaimLevel) :
    supported gs k e l = true ↔ ∃ i : GrantIx, (gs.get i).supports k e l = true := by
  simp [supported]

/-- A claim keeps a grant when the one replaced did not support it, or supports it still. -/
theorem supported_putRow {gs : Vector Grant 64} {i : GrantIx} {new : Grant} {k : Slot} {e : EcuIx} {l : ClaimLevel}
    (h : supported gs k e l = true) (hn : (gs.get i).supports k e l = true → new.supports k e l = true) :
    supported (Vector.putRow gs i new) k e l = true := by
  obtain ⟨j, hj⟩ := (supported_iff ..).mp h
  refine (supported_iff ..).mpr ⟨j, ?_⟩
  rw [Vector.putRow_get]
  split
  · rename_i e
    exact hn (e ▸ hj)
  · exact hj

/-- A grant replaced by one that supports what it supported, and the held head of a slot marked (R54). -/
theorem State.moves_putGrant (s : State) (i : GrantIx) (g : Grant) (k : Slot)
    (h : ∀ k e l, (s.grants.get i).supports k e l = true → g.supports k e l = true) : s.Moves (putGrant s i g k) :=
  .of_flow { grants := fun k e l hs => supported_putRow hs (h k e l) } (.markHeads ..)

/-- A fold of changes reaches every element of its list, and what it brings about there stays. -/
theorem foldl_establishes {α β : Type} {P : α → β → Prop} (u : β → α → β) (hu : ∀ f x, P x (u f x))
    (hk : ∀ f x y, P x f → P x (u f y)) (xs : List α) (f : β) : ∀ x ∈ xs, P x (xs.foldl u f) := by
  have stays (ys : List α) (x : α) (g : β) (h : P x g) : P x (ys.foldl u g) := by
    induction ys generalizing g with
    | nil => exact h
    | cons y ys ih => exact ih _ (hk g x y h)
  induction xs generalizing f with
  | nil => intro x hx; cases hx
  | cons y ys ih =>
    intro x hx
    obtain rfl | hx := List.mem_cons.mp hx
    · exact stays ys x _ (hu f x)
    · exact ih _ x hx

/-- The claim of an ECU is supported by the grants, where a grant `old` had a say. -/
def Flow.SupportedOf (gs : Vector Grant 64) (old : Grant) (e : EcuIx) (f : Flow) : Prop :=
  (f.claims.get e).inForce = true → (f.claims.get e).holder = old.slot → old.ecus.getLsbD e.val = true →
    supported gs old.slot e (f.claims.get e).level = true

theorem Flow.Sound.supportedOf {f g : Flow} (h : f.Sound g) {gs : Vector Grant 64} {old : Grant} {e : EcuIx}
    (hf : f.SupportedOf gs old e) : g.SupportedOf gs old e := fun he hh hb => by
  have hsame := h.claims e he
  obtain ⟨-, hholder, hlevel, -⟩ := id hsame
  rw [hlevel]
  exact hf (hsame.inForce ▸ he) (hholder ▸ hh) hb

theorem supportStep_sound (t : Tables) (gs : Vector Grant 64) (keep : Nat) (entering : Option EcuIx) (old : Grant)
    (f : Flow) (e : EcuIx) : f.Sound (
      if old.ecus.getLsbD e.val && (f.claims.get e).inForce && (f.claims.get e).holder == old.slot
        && !supported gs old.slot e (f.claims.get e).level then
        claimRelease t keep (entering == some e) f e .support
      else f) := by
  split
  · exact claimRelease_sound ..
  · exact .refl f

theorem supportCheck_sound (t : Tables) (gs : Vector Grant 64) (keep : Nat) (entering : Option EcuIx) (f : Flow)
    (old : Grant) : f.Sound (supportCheck t gs keep entering f old) :=
  .foldl _ (supportStep_sound t gs keep entering old) _ _

theorem supportCheck_supported (t : Tables) (gs : Vector Grant 64) (keep : Nat) (entering : Option EcuIx) (f : Flow)
    (old : Grant) (e : EcuIx) : (supportCheck t gs keep entering f old).SupportedOf gs old e := by
  refine foldl_establishes (P := fun e f => Flow.SupportedOf gs old e f) _ (fun f e => ?_)
    (fun f x y hx => (supportStep_sound t gs keep entering old f y).supportedOf hx) _ f e (List.mem_finRange e)
  split
  · intro he
    rw [claimRelease_notInForce] at he
    cases he
  · rename_i hc
    intro he hh hb
    by_contra hs
    exact hc (by simp [he, hh, hb, hs])

/-- A grant is replaced, and the claims that no grant supports any more are released (R54). -/
theorem State.moves_supportCheck (s : State) (i : GrantIx) (new : Grant) (keep : Nat) (entering : Option EcuIx) :
    s.Moves { s with
      grants := Vector.putRow s.grants i new
      flow := supportCheck s.tab (Vector.putRow s.grants i new) keep entering s.flow (s.grants.get i) } := by
  have hsound := supportCheck_sound s.tab (Vector.putRow s.grants i new) keep entering s.flow (s.grants.get i)
  refine .of_claims (.of_sound hsound) id (fun _ hl e => (hl e).congr (fun _ => rfl) (hsound.claims e))
    fun hs e he => ?_
  have hchecked := supportCheck_supported s.tab (Vector.putRow s.grants i new) keep entering s.flow (s.grants.get i) e he
  have hsame := hsound.claims e he
  obtain ⟨hatt, hsup⟩ := hs.1 e (hsame.inForce ▸ he)
  obtain ⟨-, hholder, hlevel, -⟩ := hsame
  refine ⟨by rw [hholder]; exact hatt, ?_⟩
  rw [hholder, hlevel] at hchecked ⊢
  by_cases hold : (s.grants.get i).supports (s.flow.claims.get e).holder e (s.flow.claims.get e).level = true
  · have hslot : (s.flow.claims.get e).holder = (s.grants.get i).slot := by
      simp only [Grant.supports, Bool.and_eq_true, beq_iff_eq] at hold
      exact hold.1.1.2.symm
    have hecu : (s.grants.get i).ecus.getLsbD e.val = true := by
      simp only [Grant.supports, Bool.and_eq_true, beq_iff_eq] at hold
      exact hold.1.2
    have := hchecked hslot hecu
    rwa [← hslot] at this
  · exact supported_putRow hsup fun h => absurd h hold

/-! ### Admission: the claim (R124) -/

/-- A claim record that an admission under a grant has taken or raised. -/
structure Claim.Admitted (old new : Claim) (k : Slot) (c : ServiceClass) (g : Grant) : Prop where
  state : new.state = .held
  holder : new.holder = k
  level : c.level = some new.level
  guard : new.guard = g.conds ∨ old.state = .held ∧ new.guard = old.guard ||| g.conds

theorem refreshClaim_claims (t : Tables) (f : Flow) (k : Slot) (e j : EcuIx) :
    ((refreshClaim t f k e).claims.get j).Same (f.claims.get j) := by
  unfold refreshClaim
  simp only
  split
  · rw [Flow.modClaim_get]
    split
    · rename_i h
      subst h
      exact ⟨rfl, rfl, rfl, rfl⟩
    · exact Claim.Same.refl _
  · exact Claim.Same.refl _

theorem refreshClaim_sound (t : Tables) (f : Flow) (k : Slot) (e : EcuIx) : f.Sound (refreshClaim t f k e) :=
  .of_keeps_same (refreshClaim_keeps ..) (refreshClaim_sameQueues ..)

theorem claimChanged_sound (t : Tables) (n : Nat) (f : Flow) (e : EcuIx) (ev : ClaimEvent) (r : Option Byte)
    (c : List Byte) : f.Sound (claimChanged t n f e ev r c) :=
  .of_keeps_same (claimChanged_keeps ..) (claimChanged_sameQueues ..)

theorem claimAdmit_butClaims (t : Tables) (keep : Nat) (f : Flow) (k : Slot) (e : EcuIx) (c : ServiceClass) (g : Grant) :
    f.ButClaims (claimAdmit t keep f k e c g) := by
  have hchange (u : Claim → Claim) (ev : ClaimEvent) :
      f.ButClaims (claimChanged t keep (f.modClaim e u) e ev none []) :=
    (Flow.ButClaims.modClaim ..).trans (.of_sound (claimChanged_sound ..))
  unfold claimAdmit
  simp only
  split
  · exact hchange ..
  · split
    · exact hchange ..
    · exact .of_sound (refreshClaim_sound ..)
  · exact .of_sound (refreshClaim_sound ..)

theorem claimAdmit_sameQueues (t : Tables) (keep : Nat) (f : Flow) (k : Slot) (e : EcuIx) (c : ServiceClass)
    (g : Grant) : f.SameQueues (claimAdmit t keep f k e c g) := by
  unfold claimAdmit
  simp only
  split
  · exact (Flow.SameQueues.modClaim ..).trans (claimChanged_sameQueues ..)
  · split
    · exact (Flow.SameQueues.modClaim ..).trans (claimChanged_sameQueues ..)
    · exact refreshClaim_sameQueues ..
  · exact refreshClaim_sameQueues ..

/-- An admission leaves every claim as it was, but for the one it takes or raises. -/
theorem claimAdmit_claims (t : Tables) (keep : Nat) (f : Flow) (k : Slot) (e : EcuIx) (c : ServiceClass) (g : Grant)
    (j : EcuIx) : ((claimAdmit t keep f k e c g).claims.get j).Same (f.claims.get j)
      ∨ j = e ∧ (f.claims.get j).Admitted ((claimAdmit t keep f k e c g).claims.get j) k c g := by
  have hchange {u : Claim → Claim} {ev : ClaimEvent} (hu : (f.claims.get e).Admitted (u (f.claims.get e)) k c g) :
      ((claimChanged t keep (f.modClaim e u) e ev none []).claims.get j).Same (f.claims.get j)
        ∨ j = e ∧ (f.claims.get j).Admitted ((claimChanged t keep (f.modClaim e u) e ev none []).claims.get j) k c g := by
    rw [claimChanged_claims, Flow.modClaim_get]
    split
    · rename_i h
      subst h
      exact .inr ⟨rfl, hu⟩
    · exact .inl (Claim.Same.refl _)
  unfold claimAdmit
  simp only
  split
  · rename_i l _ hl
    exact hchange ⟨rfl, rfl, hl, .inl rfl⟩
  · rename_i hheld hl
    split
    · rename_i hown
      simp only [Bool.and_eq_true, beq_iff_eq] at hown
      exact hchange ⟨hheld, hown.1, hl, .inr ⟨hheld, rfl⟩⟩
    · exact .inl (refreshClaim_claims ..)
  · exact .inl (refreshClaim_claims ..)

theorem satisfied_union {t : Tables} {a b : CondSet} (ha : satisfied t a = true) (hb : satisfied t b = true) :
    satisfied t (a ||| b) = true :=
  (satisfied_iff ..).mpr fun i hi => by
    rw [BitVec.getLsbD_or, Bool.or_eq_true] at hi
    exact hi.elim ((satisfied_iff ..).mp ha i) ((satisfied_iff ..).mp hb i)

/-- A grant under which a request is admitted supports the claim that the request takes. -/
theorem Grant.eligible_supports {t : Tables} {g : Grant} {k : Slot} {e : EcuIx} {c : ServiceClass} {l : ClaimLevel}
    (h : g.eligible t k e c = true) (hl : c.level = some l) : g.supports k e l = true := by
  simp only [Grant.eligible, Grant.covers, Grant.levelCovers, hl, Bool.and_eq_true, beq_iff_eq] at h
  obtain ⟨⟨hactive, ⟨⟨hslot, hecu⟩, -⟩, hlevel⟩, -⟩ := h
  simp only [Grant.supports, hactive, hslot, hecu, hlevel, BEq.rfl, Bool.true_or, Bool.and_self]

theorem Grant.eligible_satisfied {t : Tables} {g : Grant} {k : Slot} {e : EcuIx} {c : ServiceClass}
    (h : g.eligible t k e c = true) : satisfied t g.conds = true := by
  simp only [Grant.eligible, Bool.and_eq_true] at h
  exact h.2

/-- The claim of an admission is acted on, under an eligible grant of an ATTACHED slot. -/
theorem State.moves_claimAdmit (s : State) (keep : Nat) (k : Slot) (e : EcuIx) (c : ServiceClass) (i : GrantIx)
    (hg : (s.grants.get i).eligible s.tab k e c = true)
    (hatt : s.SupportLaw → (s.tab.testers.get k).attached = true) :
    s.Moves (s.withFlow (claimAdmit s.tab keep s.flow k e c (s.grants.get i))) := by
  have hclaims := claimAdmit_claims s.tab keep s.flow k e c (s.grants.get i)
  refine .of_claims (claimAdmit_butClaims ..) id (fun _ hl j => ?_) fun hs j hj => ?_
  · obtain hsame | ⟨rfl, hadm⟩ := hclaims j
    · exact (hl j).congr (fun _ => rfl) fun _ => hsame
    · have hgs := Grant.eligible_satisfied hg
      have hsat : satisfied s.tab ((claimAdmit s.tab keep s.flow k j c (s.grants.get i)).claims.get j).guard = true := by
        obtain hguard | ⟨hheld, hguard⟩ := hadm.guard
        · rw [hguard]; exact hgs
        · have hold := hl j
          rw [Claim.Lawful, hheld] at hold
          rw [hguard]; exact satisfied_union hold hgs
      unfold Claim.Lawful
      simp only [State.withFlow_flow, State.withFlow_tab, hadm.state]
      exact hsat
  · simp only [State.withFlow_flow, State.withFlow_tab, State.withFlow_grants] at hj ⊢
    obtain hsame | ⟨rfl, hadm⟩ := hclaims j
    · obtain ⟨ha, hsup⟩ := hs.1 j (hsame.inForce ▸ hj)
      obtain ⟨-, hholder, hlevel, -⟩ := hsame
      rw [hholder, hlevel]
      exact ⟨ha, hsup⟩
    · rw [hadm.holder]
      exact ⟨hatt hs, (supported_iff ..).mpr ⟨i, Grant.eligible_supports hg hadm.level⟩⟩

end Sys2Proof.Machine
end

section
/-! SUPPORT. Admission keeps the laws (R84 to R97): the flow of an evaluation, an admitted head with its new outstanding
entry, visits and evaluations again. -/

namespace Sys2Proof.Machine

/-! ### The evaluation of a head (R84 to R88) -/

theorem captureRoom_sound (t : Tables) (f : Flow) (n : Nat) : f.Sound (captureRoom t f n).2 :=
  .of_keeps_same (captureRoom_keeps ..) (captureRoom_sameQueues ..)

/-- A change that the laws allow and that leaves the queues alone. -/
structure Flow.Light (f g : Flow) : Prop where
  sound : f.Sound g
  queues : f.SameQueues g

theorem Flow.Light.refl (f : Flow) : f.Light f := ⟨.refl f, .refl f⟩

theorem Flow.Light.trans {f g h : Flow} (a : f.Light g) (b : g.Light h) : f.Light h :=
  ⟨a.sound.trans b.sound, a.queues.trans b.queues⟩

theorem resourceCheck_light (t : Tables) (f : Flow) (k : Slot) (e : EcuIx) (c : ServiceClass) (m : Message)
    (g : GrantIx) : f.Light (resourceCheck t f k e c m g).2 := by
  have hroom : f.Light (if requestBinding t k e c then
      captureRoom t f (recordSize (requestRecord t k e c m g none).content.length) else (true, f)).2 := by
    split
    · exact ⟨captureRoom_sound .., captureRoom_sameQueues ..⟩
    · exact .refl f
  unfold resourceCheck
  split
  · exact .refl f
  · split
    · exact .refl f
    · simp only
      generalize (if requestBinding t k e c then
        captureRoom t f (recordSize (requestRecord t k e c m g none).content.length) else (true, f)) = a at hroom ⊢
      split
      · exact hroom
      · split <;> exact hroom

/-- Forwarding finds its resources only where slot and ECU have no entry yet. -/
theorem resourceCheck_entryOf {t : Tables} {f : Flow} {k : Slot} {e : EcuIx} {c : ServiceClass} {m : Message}
    {g : GrantIx} (h : (resourceCheck t f k e c m g).1 = none) : f.entryOf k e = none := by
  unfold resourceCheck at h
  split at h
  · cases h
  · rename_i hp
    simpa using hp

theorem evaluateHead_light (s : State) (k : Slot) (m : InMsg) : s.flow.Light (evaluateHead s k m).2 := by
  have stays := Flow.Light.refl s.flow
  unfold evaluateHead
  simp only
  split
  · exact stays
  · split
    · exact stays
    · split
      · exact stays
      · split
        · exact stays
        · split
          · exact stays
          · split
            · exact stays
            · split <;> exact resourceCheck_light ..

/-- A head is admitted under an eligible grant, where its slot has no entry to the ECU yet. -/
theorem evaluateHead_admits {s : State} {k : Slot} {m : InMsg} {e : EcuIx} {c : ServiceClass} {i : GrantIx}
    (h : (evaluateHead s k m).1 = .admits e c i) :
    (s.grants.get i).eligible s.tab k e c = true ∧ s.flow.entryOf k e = none := by
  have hold {r : HoldReason} {e' : EcuIx} {c' : ServiceClass} (hr : holdOr s.tab k r e' c' = .admits e c i) : False := by
    unfold holdOr at hr
    split at hr <;> cases hr
  unfold evaluateHead at h
  simp only at h
  split at h
  · cases h
  · split at h
    · cases h
    · split at h
      · cases h
      · split at h
        · cases h
        · split at h
          · simp only at h
            split at h
            · cases h
            · exact (hold h).elim
          · rename_i hgrant
            split at h
            · exact (hold h).elim
            · split at h
              · cases h
              · rename_i hres
                cases h
                exact ⟨by simpa using List.find?_some hgrant, resourceCheck_entryOf hres⟩

/-! ### Before the entry: grant, claim and record (R97, items 1 to 4) -/

theorem grantStep_light (t : Tables) (keep : Nat) (f : Flow) (i : GrantIx) (g : Grant) (o : Byte) :
    f.Light (grantStep t keep f i g o) :=
  ⟨(event_sound ..).after (.setNews ..), grantStep_sameQueues ..⟩

theorem sample_light (t : Tables) (f : Flow) (n : Nat) (c : ServiceClass) : f.Light (sample t f n c).2.1 := by
  unfold sample
  split
  · simp only
    split <;> exact ⟨.same, rfl, rfl⟩
  · exact .refl f

theorem captureRequest_light (t : Tables) (f : Flow) (k : Slot) (e : EcuIx) (c : ServiceClass) (m : Message)
    (g : GrantIx) (st : Option (Word × Word)) : f.Light (captureRequest t f k e c m g st) := by
  unfold captureRequest
  simp only
  split
  · exact ⟨.of_keeps_same (captureWrite_keeps ..) (captureWrite_sameQueues ..), captureWrite_sameQueues ..⟩
  · split
    · exact ⟨.of_keeps_same (captureOffer_keeps ..) (captureOffer_sameQueues ..), captureOffer_sameQueues ..⟩
    · exact .refl f

/-- A grant that is charged and not spent supports what it supported. -/
theorem Grant.charged_supports {g : Grant} {now : Word} (h : (g.charged now).state ≠ .spent) (k : Slot) (e : EcuIx)
    (l : ClaimLevel) : (g.charged now).supports k e l = g.supports k e l := by
  unfold Grant.charged at h ⊢
  split
  · rfl
  · rename_i hn
    simp only [hn] at h
    split
    · rename_i hz
      simp [hz] at h
    · rfl

theorem State.admitBefore_queues (s : State) (f : Flow) (k : Slot) (m : InMsg) (e : EcuIx) (c : ServiceClass)
    (g : GrantIx) : f.SameQueues (admitBefore s f k m e c g).flow := by
  unfold admitBefore
  simp only
  refine .trans ?_ ((sample_light ..).trans (captureRequest_light ..)).queues
  split
  · exact ((grantStep_light ..).queues.trans (claimAdmit_sameQueues ..)).trans (supportCheck_sameQueues ..)
  · exact claimAdmit_sameQueues ..

/-- The head of a slot is held, or its slot is ATTACHED and has a free place for the head's item. -/
def State.OpenAt (s : State) (k : Slot) : Prop :=
  (s.flow.slots.get k).held.isSome ∨ (s.tab.testers.get k).attached = true ∧ s.flow.deliveryFree k = true

theorem State.OpenAt.attached {s : State} {k : Slot} (h : s.OpenAt k) (hs : s.SupportLaw) :
    (s.tab.testers.get k).attached = true := h.elim (hs.2 k) fun h => h.1

theorem State.OpenAt.roomFor {s : State} {k : Slot} (h : s.OpenAt k) : s.flow.RoomFor k := h.imp id fun h => h.2

theorem State.OpenAt.congr {s t : State} {k : Slot} (h : s.OpenAt k) (hq : s.flow.SameQueues t.flow)
    (ht : t.tab.testers = s.tab.testers := by rfl) : t.OpenAt k := by
  have hfree : t.flow.deliveryFree k = s.flow.deliveryFree k := by
    rw [Bool.eq_iff_iff, Flow.deliveryFree_iff, Flow.deliveryFree_iff, hq.load, hq.1]
  unfold State.OpenAt
  rw [hq.1, hfree, ht]
  exact h

theorem State.moves_captureRequest (s : State) (k : Slot) (e : EcuIx) (c : ServiceClass) (m : Message) (i : GrantIx) :
    s.Moves { s with
      fresh := (sample s.tab s.flow s.fresh c).2.2
      flow := captureRequest s.tab (sample s.tab s.flow s.fresh c).2.1 k e c m i (sample s.tab s.flow s.fresh c).1 } :=
  .of_flow {} ((sample_light ..).trans (captureRequest_light ..)).sound

/-- Items 1 to 4 of an admission under an eligible grant. -/
theorem State.moves_admitBefore (s : State) (k : Slot) (m : InMsg) (e : EcuIx) (c : ServiceClass) (i : GrantIx)
    (hg : (s.grants.get i).eligible s.tab k e c = true) (hopen : s.OpenAt k) :
    s.Moves (admitBefore s s.flow k m e c i) := by
  by_cases hspent : ((s.grants.get i).charged s.tab.now).state = .spent
  · let keep := keepRoom s.tab k e c m.msg i
    let old := s.grants.get i
    let f₁ := grantStep s.tab keep s.flow i old 0
    let f₂ := claimAdmit s.tab keep f₁ k e c old
    let gs := Vector.putRow s.grants i (old.charged s.tab.now)
    have hstep := grantStep_light s.tab keep s.flow i old 0
    have h₁ : s.Moves { s with flow := f₁ } := s.moves_withFlow hstep.sound
    have hopen₁ : State.OpenAt { s with flow := f₁ } k := hopen.congr hstep.queues
    have h₂ : State.Moves { s with flow := f₁ } { s with flow := f₂ } :=
      State.moves_claimAdmit { s with flow := f₁ } keep k e c i hg hopen₁.attached
    have h₃ : State.Moves { s with flow := f₂ } { s with grants := gs, flow := supportCheck s.tab gs keep (some e) f₂ old } :=
      State.moves_supportCheck { s with flow := f₂ } i _ keep (some e)
    have h₄ := State.moves_captureRequest { s with grants := gs, flow := supportCheck s.tab gs keep (some e) f₂ old } k e c
      m.msg i
    simp only [admitBefore, hspent, beq_self_eq_true, if_true]
    exact ((h₁.trans h₂).trans h₃).trans h₄
  · let keep := keepRoom s.tab k e c m.msg i
    let old := s.grants.get i
    let f₁ := claimAdmit s.tab keep s.flow k e c old
    let gs := Vector.putRow s.grants i (old.charged s.tab.now)
    have h₁ : s.Moves { s with flow := f₁ } := s.moves_claimAdmit keep k e c i hg hopen.attached
    have h₂ : State.Moves { s with flow := f₁ } { s with grants := gs, flow := f₁ } :=
      State.moves_grants { s with flow := f₁ } gs fun j _ hs => supported_putRow hs fun h => by
        rwa [Grant.charged_supports hspent]
    have h₃ := State.moves_captureRequest { s with grants := gs, flow := f₁ } k e c m.msg i
    simp only [admitBefore, beq_iff_eq, if_neg hspent]
    exact (h₁.trans h₂).trans h₃

/-! ### The new entry (R97, items 5 to 8; R102) -/

theorem jobForward_same (f : Flow) (k : Slot) (e : EcuIx) : (jobForward f k e).slots = f.slots
    ∧ (jobForward f k e).entries = f.entries ∧ (jobForward f k e).claims = f.claims ∧ (jobForward f k e).ram = f.ram
    ∧ (jobForward f k e).news = f.news := by
  unfold jobForward
  split <;> exact ⟨rfl, rfl, rfl, rfl, rfl⟩

section
variable (t : Tables) (f : Flow) (k : Slot) (i : EntryIx) (e : EcuIx) (c : ServiceClass) (g : GrantIx) (m : InMsg)

/-- The entry of an admitted head (R102). -/
def newEntry : Entry :=
  { slot := k, ecu := e, code := m.msg.code, cls := c, grant := g
    binding := isBinding t (governing t .response k (some e) (some c))
    state := .sending, deadline := none, interims := 0, held := none }

theorem forward_entries : (forward t f k i e c g m).entries = Vector.putRow f.entries i (some (newEntry t k e c g m)) :=
  (jobForward_same { f with entries := Vector.putRow f.entries i (some (newEntry t k e c g m)) } k e).2.1

theorem forward_claims : (forward t f k i e c g m).claims = f.claims :=
  (jobForward_same { f with entries := Vector.putRow f.entries i (some (newEntry t k e c g m)) } k e).2.2.1

theorem forward_ram : (forward t f k i e c g m).ram = f.ram :=
  (jobForward_same { f with entries := Vector.putRow f.entries i (some (newEntry t k e c g m)) } k e).2.2.2.1

theorem forward_news : (forward t f k i e c g m).news = f.news :=
  (jobForward_same { f with entries := Vector.putRow f.entries i (some (newEntry t k e c g m)) } k e).2.2.2.2

theorem forward_slots (j : Slot) : (forward t f k i e c g m).slots.get j =
    if j = k then { f.slots.get k with
      inbound := (f.slots.get k).inbound.drop 1, held := none, admitted := (f.slots.get k).admitted + 1 }
    else f.slots.get j := by
  have hslots := (jobForward_same { f with entries := Vector.putRow f.entries i (some (newEntry t k e c g m)) } k e).1
  change ((jobForward { f with entries := Vector.putRow f.entries i (some (newEntry t k e c g m)) } k e).modSlot k
    _).slots.get j = _
  rw [Flow.modSlot_get, hslots]

/-- The new entry is the only one of its slot and ECU. -/
theorem State.PairLaw.forward {s : State} (h : s.PairLaw) (hpair : s.flow.entryOf k e = none) :
    (s.withFlow (forward s.tab s.flow k i e c g m)).PairLaw := by
  have alone (j : EntryIx) (y : Entry) (hy : s.flow.entries.get j = some y) (hs : y.slot = k) (he : y.ecu = e) : False := by
    have := List.find?_eq_none.mp hpair j (List.mem_finRange j)
    simp [hy, hs, he] at this
  have cases (j : EntryIx) (y : Entry) (hy : (s.withFlow (Machine.forward s.tab s.flow k i e c g m)).flow.entries.get j = some y) :
      (j = i ∧ y.slot = k ∧ y.ecu = e) ∨ j ≠ i ∧ s.flow.entries.get j = some y := by
    rw [State.withFlow_flow, forward_entries, Vector.putRow_get] at hy
    split at hy
    · rename_i hj
      cases hy
      exact .inl ⟨hj, rfl, rfl⟩
    · rename_i hj
      exact .inr ⟨hj, hy⟩
  intro a b x y hx hy hslot hecu
  obtain ⟨ha, hxs, hxe⟩ | ⟨-, hx'⟩ := cases a x hx
  · obtain ⟨hb, -, -⟩ | ⟨-, hy'⟩ := cases b y hy
    · exact ha.trans hb.symm
    · exact (alone b y hy' (hslot.symm.trans hxs) (hecu.symm.trans hxe)).elim
  · obtain ⟨-, hys, hye⟩ | ⟨-, hy'⟩ := cases b y hy
    · exact (alone a x hx' (hslot.trans hys) (hecu.trans hye)).elim
    · exact h a b x y hx' hy' hslot hecu

/-- The place kept or free for the head becomes the place reserved for its entry (R81). -/
theorem forward_fits (hfree : f.entries.get i = none) (hroom : f.RoomFor k) (h : f.Fits) :
    (forward t f k i e c g m).Fits := fun j => by
  have hcount := countP_putRow (Entry.reserves j) f.entries i (some (newEntry t k e c g m))
  have hnone : Entry.reserves j (f.entries.get i) = false := by rw [hfree]; rfl
  have hnew : Entry.reserves j (some (newEntry t k e c g m)) = (k == j) := by
    simp [Entry.reserves, newEntry, EntryState.isOrphan]
  rw [hnone, hnew] at hcount
  have hj := h j
  unfold Flow.load at hj ⊢
  rw [Flow.liveEntries_eq] at hj ⊢
  rw [forward_entries, forward_slots]
  by_cases hjk : j = k
  · subst hjk
    have hlt := hroom.load_lt h
    unfold Flow.load at hlt
    rw [Flow.liveEntries_eq] at hlt
    simp only [BEq.rfl, if_true, SlotFlow.kept, Bool.false_eq_true, if_false, Option.isSome_none] at hcount ⊢
    omega
  · have hkj : ¬k = j := fun h => hjk h.symm
    simp only [if_neg hjk, beq_iff_eq, if_neg hkj, Bool.false_eq_true, if_false] at hcount ⊢
    omega

end

theorem State.moves_forward (s : State) (k : Slot) (i : EntryIx) (e : EcuIx) (c : ServiceClass) (g : GrantIx) (m : InMsg)
    (hfree : s.flow.entries.get i = none) (hpair : s.flow.entryOf k e = none) (hopen : s.OpenAt k) :
    s.Moves (s.withFlow (forward s.tab s.flow k i e c g m)) where
  controller := id
  conditions := id
  claims := fun _ h j => by
    rw [State.withFlow_flow, forward_claims]
    exact h j
  pairs := fun h => h.forward k i e c g m hpair
  places := forward_fits _ _ _ _ _ _ _ _ hfree hopen.roomFor
  support := fun ⟨hc, hh⟩ => ⟨by rw [State.withFlow_flow, forward_claims]; exact hc, fun j hj => by
    rw [State.withFlow_flow, forward_slots] at hj
    split at hj
    · cases hj
    · exact hh j hj⟩
  memory := by simp only [Memory.wf, State.withFlow_flow, forward_ram]; exact id
  news := by rw [State.withFlow_flow, forward_news, BitVec.and_self]
  pending := rfl

/-- A head is admitted (R97). -/
theorem State.moves_admitHead (s : State) (f : Flow) (hf : s.flow.Light f) (k : Slot) (m : InMsg) (e : EcuIx)
    (c : ServiceClass) (g : GrantIx) (hg : (s.grants.get g).eligible s.tab k e c = true)
    (hpair : s.flow.entryOf k e = none) (hopen : s.OpenAt k) : s.Moves (admitHead s f k m e c g) := by
  unfold admitHead
  split
  · exact .refl s
  · rename_i i hi
    have hopen₁ : (s.withFlow f).OpenAt k := hopen.congr hf.queues
    have hbefore := (s.moves_withFlow hf.sound).trans ((s.withFlow f).moves_admitBefore k m e c g hg hopen₁)
    have hqueues := hf.queues.trans (State.admitBefore_queues s f k m e c g)
    have hopen₂ : (admitBefore s f k m e c g).OpenAt k := hopen.congr hqueues
    have hfree : (admitBefore s f k m e c g).flow.entries.get i = none := by
      have := List.find?_some hi
      rw [hqueues.2, ← hf.queues.2]
      simpa using this
    have hpair₂ : (admitBefore s f k m e c g).flow.entryOf k e = none := by
      unfold Flow.entryOf
      rw [hqueues.2]
      exact hpair
    exact (hbefore.trans (State.moves_forward _ k i e c g m hfree hpair₂ hopen₂)).trans
      (State.moves_run _ (NoDue.cons rfl NoDue.nil))

/-! ### Evaluations (R84, R94) and visits (R82, R83) -/

theorem State.moves_evaluate (s : State) (k : Slot) (hopen : s.OpenAt k) : s.Moves (evaluate s k) := by
  unfold evaluate
  split
  · exact .refl s
  · rename_i m _ _
    have hlight := evaluateHead_light s k m
    simp only
    split
    · exact .of_head {} ((headRefuse_headMoves ..).after hlight.sound hlight.queues) hopen.roomFor hopen.attached
    · exact .of_head {} ((setHeld_headMoves ..).after hlight.sound hlight.queues) hopen.roomFor hopen.attached
    · rename_i hdecided
      obtain ⟨hg, hpair⟩ := evaluateHead_admits hdecided
      exact s.moves_admitHead _ hlight k m _ _ _ hg hpair hopen

theorem restore_sound (t : Tables) (f : Flow) : f.Sound (restore t f) := by
  have hslot (k : Slot) : ((restore t f).slots.get k).items = (f.slots.get k).items
      ∧ ((restore t f).slots.get k).held = (f.slots.get k).held := by
    unfold restore
    simp only [tableOf_get]
    split <;> exact ⟨rfl, rfl⟩
  exact { Flow.Sound.refl f with
    held := fun k h => by rw [(hslot k).2] at h; exact h
    fits := fun h k => by
      have hload : (restore t f).load k = f.load k := by
        unfold Flow.load
        rw [(hslot k).1]
        rfl
      rw [hload, SlotFlow.kept, (hslot k).2]
      exact h k }

theorem visitSlot_sound (f : Flow) (k : Slot) : f.Sound (visitSlot f k) :=
  .after .same (.modSlot f k (fun x => { x with allowance := x.allowance - 1 }) (fun _ => Nat.le_refl _) fun _ => id)

theorem visitSlot_deliveryFree (f : Flow) (k : Slot) (h : f.deliveryFree k = true) :
    (visitSlot f k).deliveryFree k = true := by
  have hlive : (visitSlot f k).liveEntries k = f.liveEntries k := Flow.liveEntries_congr rfl k
  have hslot : (visitSlot f k).slots.get k = { f.slots.get k with allowance := (f.slots.get k).allowance - 1 } :=
    Flow.modSlot_get_self ..
  unfold Flow.deliveryFree
  rw [hlive, hslot]
  exact h

/-- VISIT (R82, R83). -/
theorem execVisit_moves (s : State) : ∃ t, execVisit s = .next t ∧ s.Moves t := by
  unfold execVisit
  split
  · simp only
    generalize hf : (if (nextVisit s.tab s.flow).isNone then restore s.tab s.flow else s.flow) = f
    have hsound : s.flow.Sound f := by
      rw [← hf]
      split
      · exact restore_sound ..
      · exact .refl _
    split
    · exact ⟨s, rfl, .refl s⟩
    · rename_i k hk
      have hready := List.find?_some hk
      simp only [headReady, Bool.and_eq_true] at hready
      obtain ⟨⟨⟨⟨hatt, -⟩, -⟩, hfree⟩, -⟩ := hready
      exact ⟨_, rfl, (s.moves_withFlow (hsound.trans (visitSlot_sound f k))).trans
        (State.moves_evaluate _ k (.inr ⟨hatt, visitSlot_deliveryFree f k hfree⟩))⟩
  · exact ⟨s, rfl, .refl s⟩

/-- EVALUATION_AGAIN (R94). -/
theorem execEvaluationAgain_moves (s : State) : ∃ t, execEvaluationAgain s = .next t ∧ s.Moves t := by
  unfold execEvaluationAgain
  split
  · rename_i k rest _ _
    have hlist : s.Moves (s.withFlow { s.flow with again := rest }) := s.moves_withFlow .same
    simp only
    split
    · exact ⟨_, rfl, hlist⟩
    · rename_i h hheld
      refine ⟨_, rfl, hlist.trans ?_⟩
      split
      · exact State.moves_withFlow _ (tooLong_sound ..)
      · exact State.moves_evaluate _ k (.inl (by rw [hheld]; rfl))
  · exact ⟨s, rfl, .refl s⟩

end Sys2Proof.Machine
end

section
/-! SUPPORT. The controller keeps the laws (R191 to R198): a machine without traffic obeys them, and STARTING, RUNNING,
STOPPING, OFF and FAULTED follow one another as the controller's law asks. -/

namespace Sys2Proof.Machine

/-! ### A machine without traffic -/

/-- No entry, no claim, no item and no held head. -/
structure Flow.Empty (f : Flow) : Prop where
  entries : ∀ i, f.entries.get i = none
  claims : ∀ e, (f.claims.get e).state = .free
  slots : ∀ k, (f.slots.get k).items = [] ∧ (f.slots.get k).held = none

theorem Flow.Empty.reset (news : NewsFlags) (ram : List Host.Cell) : Flow.Empty { Flow.reset with news, ram } where
  entries := fun i => by simp [Flow.reset]
  claims := fun e => by simp [Flow.reset, Claim.reset]
  slots := fun k => by simp [Flow.reset, SlotFlow.reset]

theorem Flow.Empty.claimLaw {s : State} (h : s.flow.Empty) : s.ClaimLaw := fun e => by
  rw [Claim.Lawful, h.claims e]
  exact True.intro

theorem Flow.Empty.pairLaw {s : State} (h : s.flow.Empty) : s.PairLaw := fun i _ _ _ hx => by
  rw [h.entries i] at hx
  cases hx

theorem Flow.Empty.fits {f : Flow} (h : f.Empty) : f.Fits := fun k => by
  have hlive : f.liveEntries k = 0 := by
    rw [Flow.liveEntries_eq, Vector.toList_eq_map_get, List.countP_map, List.countP_eq_zero]
    intro i _ hi
    simp [h.entries i, Entry.reserves] at hi
  obtain ⟨hitems, hheld⟩ := h.slots k
  simp [Flow.load, hlive, hitems, hheld, SlotFlow.kept]

theorem Flow.Empty.supportLaw {s : State} (h : s.flow.Empty) : s.SupportLaw :=
  ⟨fun e he => by simp [Claim.inForce, h.claims e] at he, fun k hk => by simp [(h.slots k).2] at hk⟩

/-- A step to a machine without traffic. -/
theorem State.Preserves.of_empty {s t : State} (he : t.flow.Empty) (hctl : t.ControllerLaw) (hcond : t.ConditionLaw)
    (hram : ramWf s.flow.ram → ramWf t.flow.ram) : s.Preserves t :=
  ⟨fun _ => hctl, fun _ => hcond, fun _ _ => he.claimLaw, fun _ => he.pairLaw, fun _ => he.fits, fun _ => he.supportLaw,
    hram⟩

/-- A condition in FALSE, as reset and STARTING leave it. -/
structure Condition.Fresh (c : Condition) : Prop where
  raw : c.raw = false
  qual : c.qual = .isFalse
  deadline : c.deadline = none

theorem Condition.Fresh.laws {c : Condition} (h : c.Fresh) : c.Lawful ∧ c.DeadlineLaw := by
  simp [Condition.Lawful, Condition.DeadlineLaw, h.raw, h.qual, h.deadline]

theorem Tables.reset_conds (i : CondIx) : (Tables.reset.conds.get i).Fresh := by
  rw [Tables.reset, Vector.replicate_get]
  exact ⟨rfl, rfl, rfl⟩

/-! ### Resets and faults (R1, R192, R198) -/

theorem softReset_preserves (s : State) : s.Preserves (softReset s) :=
  .of_empty (.reset ..) (fun h => absurd rfl h) (fun i => (Tables.reset_conds i).laws) id

theorem hardwareReset_preserves (s : State) : ∃ t, execHardwareReset s = .next t ∧ s.Preserves t ∧ t.pending = s.pending :=
  ⟨_, rfl, .of_empty (.reset ..) (fun h => absurd rfl h) (fun i => (Tables.reset_conds i).laws) id, rfl⟩

theorem lastAttempt_sound (t : Tables) (f : Flow) (c : FaultCode) (again : Bool) : f.Sound (lastAttempt t f c again) := by
  unfold lastAttempt
  split
  · exact controllerRecord_sound ..
  · exact .refl f

/-- The part enters FAULTED from another controller state. -/
structure State.Faults (s t : State) : Prop extends State.Preserves s t where
  started : s.tab.ctl ≠ .faulted
  ended : t.tab.ctl = .faulted
  pending : t.pending = s.pending

/-- The fault is entered from what the access left behind. -/
theorem State.Faults.enter {s u : State} {c : FaultCode} {again : Bool} (hs : s.tab.ctl ≠ .faulted) (hc : c ≠ .noFault)
    (hram : ramWf s.flow.ram → ramWf u.flow.ram) (hp : u.pending = s.pending) : s.Faults (enterFaulted u c again) where
  toPreserves := .of_empty (.reset ..) ⟨hc, rfl⟩ (fun i => (Tables.reset_conds i).laws) fun h =>
    (lastAttempt_sound u.tab u.flow c again).ram (hram h)
  started := hs
  ended := rfl
  pending := hp

/-! ### STARTING begins and the controller leaves FAULTED (R192, R195) -/

theorem State.moves_controller (s : State) (ctl : CtlState) (fault : FaultCode) (dir : Option Directory)
    (h : s.ControllerLaw → State.ControllerLaw { s with tab := { s.tab with ctl, fault, dir } }) :
    s.Moves { s with tab := { s.tab with ctl, fault, dir } } where
  controller := h
  conditions := id
  claims := fun _ => id
  pairs := id
  places := id
  support := id
  memory := id
  news := BitVec.and_self
  pending := rfl

theorem State.moves_enterStarting (s : State) : s.Moves (enterStarting s) :=
  (s.moves_controller .starting .noFault none fun _ => ⟨rfl, rfl⟩).trans (.of_flow {} .same)

/-! ### STOPPING and OFF (R197) -/

theorem State.moves_toStopping (s : State) (h : s.tab.ctl = .running) (n : Nat) {f : Flow} (hf : s.flow.Sound f) :
    s.Moves { s with tab := { s.tab with ctl := .stopping }, fresh := n, flow := f } :=
  (s.moves_controller .stopping s.tab.fault s.tab.dir fun hc => by
    rw [State.ControllerLaw, h] at hc
    exact hc).trans (.of_flow {} hf)

theorem State.moves_enterStopping (s : State) (h : s.tab.ctl = .running) : s.Moves (enterStopping s) := by
  unfold enterStopping
  exact s.moves_toStopping h _ (stoppingEvents_sound ..)

theorem offEvents_sound (t : Tables) (f : Flow) : f.Sound (offEvents t f) := by
  have hcharges (cs : List Charge) (g : Flow) : g.Sound (cs.foldl releaseCharge g) := .foldl _ (fun _ _ => .same) _ _
  have hstop (g : Flow) : g.Sound { g with
      slots := g.slots.map SlotFlow.stop, ports := g.ports.map PortFlow.stop, again := [], roomReport := false } :=
    { Flow.Sound.refl g with
      held := fun k hk => by simp [SlotFlow.stop] at hk
      fits := fun hf k => by
        have hk := hf k
        have hload : Flow.load { g with
            slots := g.slots.map SlotFlow.stop, ports := g.ports.map PortFlow.stop, again := [], roomReport := false } k
            = g.liveEntries k := by
          simp [Flow.load, SlotFlow.stop, Flow.liveEntries]
        rw [hload]
        simp only [Flow.load] at hk
        simp only [Vector.map_get, SlotFlow.stop, SlotFlow.kept, Option.isSome_none, Bool.false_eq_true, if_false]
        omega }
  unfold offEvents
  exact .after (.setNews ..) (.after (hstop _) (.after (hcharges ..) (.after (relayCommit_sound ..)
    (.after .same (controllerRecord_sound ..)))))

theorem supported_map {gs : Vector Grant 64} {u : Grant → Grant} (hu : ∀ g k e l, (u g).supports k e l = g.supports k e l)
    (k : Slot) (e : EcuIx) (l : ClaimLevel) (h : supported gs k e l = true) : supported (gs.map u) k e l = true := by
  obtain ⟨i, hi⟩ := (supported_iff ..).mp h
  exact (supported_iff ..).mpr ⟨i, by rw [Vector.map_get, hu]; exact hi⟩

/-- Entry to OFF from STOPPING (R197). -/
theorem State.moves_enterOff (s : State) (h : s.tab.ctl = .stopping) : s.Moves (enterOff s) := by
  have hflow : s.Moves { s with
      tab := { s.tab with conds := s.tab.conds.map fun c => { c with deadline := none } }
      rot := { s.rot with deadline := none }, grants := s.grants.map (Grant.stop s.tab.now), scanDl := none
      flow := offEvents s.tab s.flow } :=
    .of_flow
      { raw := fun i => by rw [Vector.map_get]
        qual := fun i => by rw [Vector.map_get]
        deadline := fun i => .inr (by rw [Vector.map_get])
        grants := supported_map fun _ _ _ _ => rfl }
      (offEvents_sound ..)
  have hoff := hflow.trans (State.moves_controller _ .off s.tab.fault s.tab.dir fun hc => by
    rw [State.ControllerLaw, h] at hc
    exact fun hf => absurd hc.1 hf)
  unfold enterOff
  simp only
  split
  · exact hoff.trans (State.moves_enterStarting _)
  · exact hoff

theorem execEnterOff_moves (s : State) : ∃ t, execEnterOff s = .next t ∧ s.Moves t := by
  unfold execEnterOff
  split
  · rename_i h
    simp only [Bool.and_eq_true, beq_iff_eq] at h
    exact ⟨_, rfl, s.moves_enterOff h.1⟩
  · exact ⟨s, rfl, .refl s⟩

/-! ### What STARTING reads (R195, R196, R213) -/

/-- The controller's fields are as they were. -/
structure Tables.SameController (t u : Tables) : Prop where
  ctl : u.ctl = t.ctl := by rfl
  fault : u.fault = t.fault := by rfl
  dir : u.dir = t.dir := by rfl
  now : u.now = t.now := by rfl

theorem Tables.SameController.trans {t u v : Tables} (a : t.SameController u) (b : u.SameController v) :
    t.SameController v := ⟨b.ctl.trans a.ctl, b.fault.trans a.fault, b.dir.trans a.dir, b.now.trans a.now⟩

theorem loadEcus_sameController {f : Flow} {xs : List (EcuIx × List Byte)} {t u : Tables}
    (h : loadEcus f xs t = some u) : t.SameController u := by
  induction xs generalizing t with
  | nil => cases h; exact {}
  | cons x xs ih =>
    obtain ⟨e, bs⟩ := x
    unfold loadEcus at h
    split at h
    · cases h
    · split at h
      · cases h
      · exact .trans {} (ih h)

theorem loadTesters_sameController {f : Flow} {a : Bool} {xs : List (Slot × List Byte)} {t u : Tables}
    (h : loadTesters f a xs t = some u) : t.SameController u := by
  induction xs generalizing t with
  | nil => cases h; exact {}
  | cons x xs ih =>
    obtain ⟨k, bs⟩ := x
    unfold loadTesters at h
    split at h
    · cases h
    · split at h
      · split at h
        · cases h
        · split at h
          · cases h
          · exact .trans {} (ih h)
      · exact ih h

theorem readTablesLeaf_sameController {f : Flow} {bs : List Byte} {t u : Tables} (h : readTablesLeaf f bs t = some u) :
    t.SameController u := by
  simp only [readTablesLeaf, Option.bind_eq_bind, Option.bind_eq_some_iff] at h
  obtain ⟨ports, -, map, -, t₁, he, t₂, ha, hd⟩ := h
  exact (Tables.SameController.trans {} (loadEcus_sameController he)).trans
    ((loadTesters_sameController ha).trans (loadTesters_sameController hd))

theorem readCaptureLeaf_same {bs : List Byte} {t u : Tables} (h : readCaptureLeaf bs t = some u) :
    t.SameController u ∧ u.conds = t.conds := by
  simp only [readCaptureLeaf, Option.bind_eq_bind, Option.bind_eq_some_iff] at h
  obtain ⟨_, -, _, -, _, -, _, -, h⟩ := h
  split at h
  · cases h
  · cases h
    exact ⟨{}, rfl⟩

theorem getTimes_fresh {bs : List Byte} {c : Condition} (h : getTimes bs = some c) : c.Fresh := by
  simp only [getTimes, Option.bind_eq_bind, Option.bind_eq_some_iff] at h
  obtain ⟨_, -, _, -, h⟩ := h
  cases h
  exact ⟨rfl, rfl, rfl⟩

theorem readSettings_laws {f : Flow} {bs : List Byte} {t : Tables} {x : Settings} (h : readSettings f bs t = some x) :
    t.SameController x.tab ∧ ∀ i, (x.tab.conds.get i).Fresh := by
  simp only [readSettings, Option.bind_eq_bind, Option.bind_eq_some_iff] at h
  obtain ⟨t₁, ht₁, conds, hconds, _, -, _, -, h⟩ := h
  split at h
  · cases h
  · simp only [Option.bind_eq_some_iff] at h
    obtain ⟨t₂, ht₂, _, -, _, -, _, -, _, -, h⟩ := h
    split at h
    · cases h
    · cases h
      obtain ⟨hctl, hsame⟩ := readCaptureLeaf_same ht₂
      refine ⟨(readTablesLeaf_sameController ht₁).trans (Tables.SameController.trans {} (hctl.trans {})), fun i => ?_⟩
      simp only [hsame, vectorOf, tableOf_get]
      by_cases hi : i.val < conds.length
      · rw [List.getD_eq_getElem _ _ hi]
        obtain ⟨r, -, hr⟩ := (getAll_mem hconds).1 _ (List.getElem_mem hi)
        exact getTimes_fresh hr
      · rw [List.getD_eq_default _ _ (Nat.le_of_not_lt hi)]
        exact ⟨rfl, rfl, rfl⟩

/-- Settings that were read put the controller in RUNNING with a directory and every condition in FALSE. -/
theorem readStarting_laws {s : State} {x : Settings} (h : readStarting s = .ok x) :
    x.tab.ctl = .running ∧ x.tab.fault = .noFault ∧ x.tab.dir.isSome ∧ ∀ i, (x.tab.conds.get i).Fresh := by
  unfold readStarting at h
  split at h
  · cases h
  · simp only at h
    split at h
    · cases h
    · rename_i hx
      cases h
      obtain ⟨hsame, hconds⟩ := readSettings_laws hx
      exact ⟨hsame.ctl, hsame.fault, by rw [hsame.dir]; rfl, hconds⟩

theorem readDirectory_fault {ram : List Host.Cell} {base : Nat} {c : FaultCode} (h : readDirectory ram base = .error c) :
    c ≠ .noFault := by
  unfold readDirectory at h
  simp only at h
  split at h
  · cases h; decide
  · split at h
    · cases h; decide
    · split at h
      · split at h
        · cases h; decide
        · split at h
          · cases h
          · cases h; decide
      · cases h; decide

/-- A failed check has a fault code. -/
theorem readStarting_fault {s : State} {c : FaultCode} (h : readStarting s = .error c) : c ≠ .noFault := by
  unfold readStarting at h
  split at h
  · rename_i hd
    cases h
    exact readDirectory_fault hd
  · simp only at h
    split at h
    · cases h; decide
    · cases h

/-! ### Entry to RUNNING (R37, R196) -/

theorem startCondition_laws {c : Condition} (h : c.Fresh) (now : Word) (l : Lines) (i : CondIx) :
    (startCondition now l i c).Lawful ∧ (startCondition now l i c).DeadlineLaw := by
  unfold startCondition
  split
  · exact ⟨Condition.rawTo_lawful h.laws.1 _ _ (by rw [h.raw]; decide), Condition.rawTo_deadlineLaw h.laws.2 _ _⟩
  · exact h.laws

theorem State.moves_loadStarting (s : State) {x : Settings} (h : readStarting s = .ok x) : s.Moves (loadStarting s x) := by
  obtain ⟨hctl, hfault, hdir, hconds⟩ := readStarting_laws h
  refine ⟨.of_empty ⟨fun i => ?_, fun e => ?_, fun k => ?_⟩ ?_ (fun i => ?_) id, BitVec.and_self, rfl⟩
  · exact (Flow.Empty.reset 0 []).entries i
  · exact (Flow.Empty.reset 0 []).claims e
  · simp [loadStarting, SlotFlow.reset]
  · simp only [State.ControllerLaw, loadStarting, hctl]
    exact ⟨hfault, hdir⟩
  · simp only [loadStarting, tableOf_get]
    exact startCondition_laws (hconds i) ..

theorem putCondition_ctl (s : State) (i : CondIx) (c : Condition) : (putCondition s i c).tab.ctl = s.tab.ctl := by
  unfold putCondition
  simp only
  split <;> rfl

theorem reportRaw_ctl (s : State) (i : CondIx) (b : Bool) : (reportRaw s i b).tab.ctl = s.tab.ctl := by
  unfold reportRaw
  simp only
  split
  · rfl
  · exact putCondition_ctl ..

theorem directChanges_ctl (s : State) (x : Settings) : (directChanges s x).tab.ctl = s.tab.ctl := by
  unfold directChanges
  generalize directConditions s.lines x.tab.conds = xs
  induction xs generalizing s with
  | nil => rfl
  | cons i xs ih => rw [List.foldl_cons, ih, reportRaw_ctl]

/-- Entry to RUNNING, and on to STOPPING when ENABLE is clear (R196). -/
theorem State.moves_enterRunning (s : State) {x : Settings} (h : readStarting s = .ok x) : s.Moves (enterRunning s x) := by
  have hdirect : s.Moves (directChanges (loadStarting s x) x) :=
    (s.moves_loadStarting h).trans (.foldl _ (fun u i => u.moves_reportRaw i true) _ _)
  have hlook := hdirect.trans (State.moves_withFlow _ (lookAt_sound (directChanges (loadStarting s x) x).tab _))
  unfold enterRunning
  simp only
  split
  · exact hlook
  · refine hlook.trans (State.moves_enterStopping _ ?_)
    rw [State.withFlow_tab, directChanges_ctl]
    exact (readStarting_laws h).1

theorem execStartingComplete_moves (s : State) : ∃ t, execStartingComplete s = .next t ∧ s.Moves t := by
  unfold execStartingComplete
  split
  · rename_i hx
    exact ⟨_, rfl, s.moves_enterRunning hx⟩
  · exact ⟨s, rfl, .refl s⟩

theorem execStartingCheckFails_moves (s : State) :
    ∃ t, execStartingCheckFails s = .next t ∧ (s.Moves t ∨ s.Faults t) := by
  unfold execStartingCheckFails
  split
  · rename_i hctl hc
    exact ⟨_, rfl, .inr (.enter (by rw [hctl]; decide) (readStarting_fault hc) id rfl)⟩
  · exact ⟨s, rfl, .inl (.refl s)⟩

/-! ### Registers (R191 to R193) -/

theorem State.moves_store (s : State) (st : Stores) : s.Moves (s.store st) :=
  .of_flow {} { Flow.Sound.refl s.flow with ram := fun h => ramStores_wf h st }

theorem State.moves_enableWritten (s : State) (was : Bool) : s.Moves (enableWritten s was) := by
  unfold enableWritten
  split
  · exact s.moves_enterStarting
  · rename_i h _
    exact s.moves_enterStopping h
  · rename_i h _
    exact s.moves_controller .off s.tab.fault s.tab.dir fun hc => by
      rw [State.ControllerLaw, h] at hc
      exact fun _ => hc.2
  · exact .refl s

/-- A write to CTRL without SOFT_RESET. -/
theorem State.moves_ctrlWrite (s : State) {w : Word} (h : w.getLsbD 1 = false) : s.Moves (ctrlWrite s w) := by
  have hbits : s.Moves { s with enable := ctrlEnable w, irqEnable := ctrlIrq w } := .of_same {} rfl
  simp only [ctrlWrite, ctrlReset, h, Bool.false_eq_true, if_false]
  exact hbits.trans (State.moves_enableWritten _ _)

/-- A write to CTRL with SOFT_RESET. -/
theorem ctrlWrite_reset (s : State) {w : Word} (h : w.getLsbD 1 = true) :
    s.Preserves (ctrlWrite s w) ∧ (ctrlWrite s w).pending = s.pending := by
  have hirq : s.Moves { s with irqEnable := ctrlIrq w } := .of_same {} rfl
  simp only [ctrlWrite, ctrlReset, h, if_true]
  exact ⟨hirq.toPreserves.trans (softReset_preserves _), rfl⟩

end Sys2Proof.Machine
end

section
/-! SUPPORT. Every order keeps the laws (R8 to R14, R49 to R54, R160, R172, R199 to R206). -/

namespace Sys2Proof.Machine

/-! ### Tester orders (R8 to R14) -/

theorem getPut_attached {v : Vector Tester 16} {k : Slot} {x : Tester}
    (h : (v.get k).attached = true → x.attached = true) (j : Slot) (hj : (v.get j).attached = true) :
    ((Vector.putRow v k x).get j).attached = true := by
  rw [Vector.putRow_get]
  split
  · rename_i e
    exact h (e ▸ hj)
  · exact hj

theorem State.moves_attachTester (s : State) (k : Slot) (x : Tester) : s.Moves (attachTester s k x) :=
  .of_flow { attached := getPut_attached fun _ => rfl } (.modSlot _ _ _ (fun _ => Nat.le_refl _) fun _ => id)

theorem newTerms_sound (t : Tables) (f : Flow) (k : Slot) : f.Sound (f.modSlot k (SlotFlow.newTerms t k)) :=
  .modSlot _ _ _ (fun _ => Nat.le_refl _) fun x => by simp [SlotFlow.newTerms]

theorem State.moves_changeTester (s : State) (k : Slot) (x : Tester) : s.Moves (changeTester s k x) := by
  have hterms (t : Tables) (late : Bool) :
      s.flow.Sound (if late then settled t (tooLong t (s.flow.modSlot k (SlotFlow.newTerms t k)) k)
        else s.flow.modSlot k (SlotFlow.newTerms t k)) := by
    split
    · exact (newTerms_sound ..).trans (tooLong_sound ..)
    · exact newTerms_sound ..
  have hretake (c : Bool) : NoDue (if c then [.relayTake] else []) := by
    split
    · exact NoDue.cons rfl NoDue.nil
    · exact NoDue.nil
  unfold changeTester
  exact .of_flow { attached := getPut_attached fun h => h }
    (.after (.settle _ (hretake _)) (.after (.markHeads ..) (hterms _ _)))

theorem abandonSlotCtxs_leads (f : Flow) (k : Slot) : f.Leads (abandonSlotCtxs f k) := by
  have hfold (xs : List CtxIx) (a : Flow × List Act) (ha : f.Leads a) : f.Leads (xs.foldl (fun a c =>
      match a.1.ctx .tb c with
      | none => a
      | some x =>
        if x.owner == .slot k then
          let b := abandonCtx a.1 .tb c false
          (b.1, a.2 ++ b.2)
        else a) a) := by
    induction xs generalizing a with
    | nil => exact ha
    | cons c xs ih =>
      refine ih _ ?_
      simp only
      split
      · exact ha
      · split
        · obtain ⟨hs, hd⟩ := abandonCtx_leads a.1 .tb c false
          exact ⟨ha.sound.trans hs, ha.noDue.append hd⟩
        · exact ha
  unfold abandonSlotCtxs
  exact hfold _ _ (.stays f)

theorem flushInbound_leads (f : Flow) (k : Slot) : f.Leads (flushInbound f k) :=
  ⟨.modSlot _ _ _ (fun _ => Nat.le_refl _) (fun _ h => by cases h), (flushInbound_calm f k).noDue⟩

theorem flushItems_leads (f : Flow) (k : Slot) : f.Leads (flushItems f k) :=
  ⟨.modSlot _ _ _ (fun _ => Nat.zero_le _) fun _ => id, ⟨fun a ha => by
    obtain ⟨it, -, hit⟩ := List.mem_flatMap.mp ha
    exact (releases_calm it.body).noDue.due a hit⟩⟩

theorem orphanSlot_leads (t : Tables) (f : Flow) (k : Slot) : f.Leads (orphanSlot t f k) :=
  ⟨.of_keeps (orphanSlot_keeps ..) (orphanSlot_noMore ..), (orphanSlot_calm ..).noDue⟩

theorem releaseStep_sound (t : Tables) (k : Slot) (c : ReleaseCause) (f : Flow) (e : EcuIx) :
    f.Sound (if (f.claims.get e).holder == k then claimRelease t 0 false f e c else f) := by
  split
  · exact claimRelease_sound ..
  · exact .refl f

theorem releaseClaimsOf_sound (t : Tables) (f : Flow) (k : Slot) (c : ReleaseCause) : f.Sound (releaseClaimsOf t f k c) :=
  .foldl _ (releaseStep_sound t k c) _ _

/-- A slot holds no claim in force. -/
def Flow.HoldsNone (k : Slot) (e : EcuIx) (f : Flow) : Prop :=
  (f.claims.get e).inForce = true → (f.claims.get e).holder ≠ k

theorem Flow.Sound.holdsNone {f g : Flow} (h : f.Sound g) {k : Slot} {e : EcuIx} (hf : f.HoldsNone k e) :
    g.HoldsNone k e := fun he => by
  have hsame := h.claims e he
  rw [hsame.2.1]
  exact hf (hsame.inForce ▸ he)

theorem releaseClaimsOf_holdsNone (t : Tables) (f : Flow) (k : Slot) (c : ReleaseCause) (e : EcuIx) :
    (releaseClaimsOf t f k c).HoldsNone k e := by
  refine foldl_establishes (P := fun e f => Flow.HoldsNone k e f) _ (fun f e => ?_)
    (fun f x y hx => (releaseStep_sound t k c f y).holdsNone hx) _ f e (List.mem_finRange e)
  split
  · intro he
    rw [claimRelease_notInForce] at he
    cases he
  · rename_i hk
    exact fun _ h => hk (by simp [h])

/-- A slot without held head and without claims in force is detached. -/
theorem State.moves_detached (s : State) (k : Slot) {f : Flow} (hf : s.flow.Sound f)
    (hheld : (f.slots.get k).held = none) (hnone : ∀ e, f.HoldsNone k e) :
    s.Moves { s with
      tab := { s.tab with testers := Vector.modifyRow s.tab.testers k fun x => { x with attached := false } }
      flow := f } where
  controller := id
  conditions := id
  claims := fun _ h e => (h e).congr (fun _ => rfl) (hf.claims e)
  pairs := fun h => h.stays hf.entries
  places := hf.fits
  support := fun ⟨hc, hh⟩ => ⟨fun e he => by
    have hsame := hf.claims e he
    obtain ⟨ha, hs⟩ := hc e (hsame.inForce ▸ he)
    have hk := hnone e he
    obtain ⟨-, hholder, hlevel, -⟩ := hsame
    simp only [Vector.modifyRow_get_ne _ _ _ _ hk]
    rw [hholder, hlevel]
    exact ⟨ha, hs⟩, fun j hj => by
    have hjk : j ≠ k := fun e => by
      subst e
      rw [show ({ s with tab := _, flow := f } : State).flow = f from rfl, hheld] at hj
      cases hj
    simp only [Vector.modifyRow_get_ne _ _ _ _ hjk]
    exact hh j (hf.held j hj)⟩
  memory := hf.ram
  news := hf.news
  pending := rfl

/-- DETACH_TESTER on an ATTACHED slot (R13). -/
theorem State.moves_detach (s : State) (k : Slot) : s.Moves (detach s k) := by
  have ha := abandonSlotCtxs_leads s.flow k
  have hb := flushInbound_leads (abandonSlotCtxs s.flow k).1 k
  have hc := flushItems_leads (flushInbound (abandonSlotCtxs s.flow k).1 k).1 k
  have hd := orphanSlot_leads s.tab (flushItems (flushInbound (abandonSlotCtxs s.flow k).1 k).1 k).1 k
  have hflushed : ((flushInbound (abandonSlotCtxs s.flow k).1 k).1.slots.get k).held = none := by simp [flushInbound]
  unfold detach
  simp only
  generalize hbf : flushInbound (abandonSlotCtxs s.flow k).1 k = b at *
  generalize hcf : flushItems b.1 k = c at *
  generalize hdf : orphanSlot s.tab c.1 k = d at *
  have hrelease := releaseClaimsOf_sound s.tab d.1 k .detach
  have hnone := releaseClaimsOf_holdsNone s.tab d.1 k .detach
  have hlast (g : Flow) (t : Tables) {as : List Act} (hn : NoDue as) :
      g.Sound (settle t as (g.modSlot k fun x => { x with allowance := 0 })) :=
    .after (.settle t hn) (.modSlot _ _ _ (fun _ => Nat.le_refl _) fun _ => id)
  have hacts : NoDue ((if s.flow.relayStoppedAt k then [.relayTake] else []) ++ (abandonSlotCtxs s.flow k).2 ++ b.2 ++ c.2
      ++ d.2) := by
    refine (((NoDue.append ?_ ha.noDue).append hb.noDue).append hc.noDue).append hd.noDue
    split
    · exact NoDue.cons rfl NoDue.nil
    · exact NoDue.nil
  have hrest := hc.sound.trans (hd.sound.trans (hrelease.trans (hlast (releaseClaimsOf s.tab d.1 k .detach)
    { s.tab with testers := Vector.modifyRow s.tab.testers k fun x => { x with attached := false } } hacts)))
  refine s.moves_detached k (ha.sound.trans (hb.sound.trans hrest)) ?_ fun e => (hlast _ _ hacts).holdsNone (hnone e)
  rw [← Option.not_isSome_iff_eq_none]
  intro hh
  have := hrest.held k hh
  rw [hflushed] at this
  cases this

/-! ### Each order's effect -/

/-- An order's effect keeps the laws. -/
structure OrderMoves (g : OrderEffect) : Prop where
  moves : ∀ (s : State) n ps, s.Moves (g s n ps)

theorem State.moves_done (s : State) (n : Nat) (r : OrderResult) : s.Moves (s.done n r) :=
  s.moves_withFlow (orderDone_sound ..)

/-- A change that the laws allow, then the order's result. -/
theorem State.Moves.done {s t : State} (h : s.Moves t) (n : Nat) (r : OrderResult) : s.Moves (t.done n r) :=
  h.trans (t.moves_done n r)

theorem orderSetTester_moves : OrderMoves orderSetTester where
  moves := fun s n ps => by
    unfold orderSetTester
    split
    · simp only
      split
      · split
        · exact (s.moves_changeTester ..).done n _
        · exact s.moves_done ..
      · split
        · exact s.moves_done ..
        · split
          · exact s.moves_done ..
          · exact (s.moves_attachTester ..).done n _
    · exact s.moves_done ..

theorem orderDetachTester_moves : OrderMoves orderDetachTester where
  moves := fun s n ps => by
    unfold orderDetachTester
    split
    · exact s.moves_done ..
    · split
      · exact s.moves_done ..
      · split
        · exact s.moves_done ..
        · exact (s.moves_detach _).done n _

theorem orderSetEcu_moves : OrderMoves orderSetEcu where
  moves := fun s n ps => by
    unfold orderSetEcu
    split
    · split
      · exact s.moves_done ..
      · exact State.Moves.done (.of_flow {} (.markHeads ..)) n _
    · exact s.moves_done ..

theorem orderInstallGrant_moves : OrderMoves orderInstallGrant where
  moves := fun s n ps => by
    unfold orderInstallGrant
    split
    · split
      · exact s.moves_done ..
      · rename_i hfree
        simp only [bne_iff_ne, ne_eq, not_not] at hfree
        exact (s.moves_putGrant _ _ _ fun k e l h => by simp [Grant.supports, hfree] at h).done n _
    · exact s.moves_done ..

theorem orderRevokeGrant_moves : OrderMoves orderRevokeGrant where
  moves := fun s n ps => by
    unfold orderRevokeGrant
    split
    · exact s.moves_done ..
    · simp only
      split
      · exact s.moves_done ..
      · rename_i i _ _
        exact ((s.moves_supportCheck i .reset 0 none).trans (.of_flow {} (.markHeads ..))).done n _

theorem orderSuspendGrant_moves : OrderMoves orderSuspendGrant where
  moves := fun s n ps => by
    unfold orderSuspendGrant
    split
    · exact s.moves_done ..
    · simp only
      split
      · exact s.moves_done ..
      · exact (s.moves_putGrant _ _ _ fun k e l h => by
          simp only [Grant.supports, Bool.and_eq_true] at h ⊢
          exact ⟨⟨⟨rfl, h.1.1.2⟩, h.1.2⟩, h.2⟩).done n _
      · exact s.moves_done ..
      · exact s.moves_done ..
      · exact s.moves_done ..

theorem orderResumeGrant_moves : OrderMoves orderResumeGrant where
  moves := fun s n ps => by
    unfold orderResumeGrant
    split
    · exact s.moves_done ..
    · simp only
      split
      · exact s.moves_done ..
      · exact (s.moves_putGrant _ _ _ fun k e l h => by
          simp only [Grant.supports, Bool.and_eq_true] at h ⊢
          exact ⟨⟨⟨rfl, h.1.1.2⟩, h.1.2⟩, h.2⟩).done n _
      · exact s.moves_done ..
      · exact s.moves_done ..
      · exact s.moves_done ..

theorem Grant.renewed_supports (g : Grant) (now : Word) (k : Slot) (e : EcuIx) (l : ClaimLevel)
    (h : g.supports k e l = true) : (g.renewed now).supports k e l = true := by
  simp only [Grant.supports, Grant.renewed, Bool.and_eq_true] at h ⊢
  obtain ⟨⟨⟨hstate, hslot⟩, hecu⟩, hlevel⟩ := h
  refine ⟨⟨⟨?_, hslot⟩, hecu⟩, hlevel⟩
  cases hs : g.state <;> simp [hs] at hstate ⊢

theorem orderRenewGrant_moves : OrderMoves orderRenewGrant where
  moves := fun s n ps => by
    unfold orderRenewGrant
    split
    · exact s.moves_done ..
    · simp only
      split
      · exact s.moves_done ..
      · exact (s.moves_putGrant _ _ _ (Grant.renewed_supports _ _)).done n _

theorem orderSetStandstill_moves : OrderMoves orderSetStandstill where
  moves := fun s n ps => by
    unfold orderSetStandstill
    split
    · exact s.moves_done ..
    · exact (s.moves_reportRaw ..).done n _

theorem orderSetConditionTimes_moves : OrderMoves orderSetConditionTimes where
  moves := fun s n ps => by
    have hrow (i j : CondIx) (rise fall : Duration) :
        ((Vector.modifyRow s.tab.conds i fun c => { c with rise, fall }).get j).raw = (s.tab.conds.get j).raw
        ∧ ((Vector.modifyRow s.tab.conds i fun c => { c with rise, fall }).get j).qual = (s.tab.conds.get j).qual
        ∧ ((Vector.modifyRow s.tab.conds i fun c => { c with rise, fall }).get j).deadline
          = (s.tab.conds.get j).deadline := by
      rw [Vector.modifyRow_get]
      split
      · rename_i e
        subst e
        exact ⟨rfl, rfl, rfl⟩
      · exact ⟨rfl, rfl, rfl⟩
    unfold orderSetConditionTimes
    split
    · refine State.Moves.trans ?_ (State.moves_done _ n _)
      exact .of_same { raw := fun j => (hrow _ j _ _).1, qual := fun j => (hrow _ j _ _).2.1
                       deadline := fun j => .inl (hrow _ j _ _).2.2 } rfl
    · exact s.moves_done ..

theorem orderReleaseClaim_moves : OrderMoves orderReleaseClaim where
  moves := fun s n ps => by
    unfold orderReleaseClaim
    split
    · exact s.moves_done ..
    · simp only
      split
      · exact s.moves_done ..
      · exact s.moves_withFlow (.after (claimRelease_sound ..) .same)
      · exact s.moves_withFlow (.after (claimRelease_sound ..) .same)
      · exact s.moves_withFlow .same

theorem orderSetAccounts_moves : OrderMoves orderSetAccounts where
  moves := fun s n ps => by
    unfold orderSetAccounts
    simp only
    split
    · exact s.moves_done ..
    · split
      · exact s.moves_done ..
      · split
        · exact s.moves_done ..
        · refine State.Moves.trans ?_ (State.moves_done _ n _)
          refine State.Moves.trans ?_ (State.moves_run _ (NoDue.cons rfl NoDue.nil))
          exact .of_same {} rfl

theorem orderSetProbe_moves : OrderMoves orderSetProbe where
  moves := fun s n ps => by
    unfold orderSetProbe
    split
    · split
      · exact s.moves_done ..
      · exact State.Moves.done (.of_flow {} (.markHeads ..)) n _
    · exact s.moves_done ..

theorem orderSetSampler_moves : OrderMoves orderSetSampler where
  moves := fun s n ps => by
    unfold orderSetSampler
    split
    · exact s.moves_done ..
    · split
      · exact s.moves_done ..
      · refine State.Moves.trans ?_ (State.moves_done _ n _)
        exact .of_same {} rfl

theorem orderStartJob_moves : OrderMoves orderStartJob where
  moves := fun s n ps => by
    unfold orderStartJob
    simp only
    split
    · split
      · exact s.moves_done ..
      · split
        · exact s.moves_done ..
        · split
          · exact s.moves_done ..
          · exact s.moves_withFlow (.after (event_sound ..) (.modJob ..))
    · exact s.moves_done ..

theorem orderAbortJob_moves : OrderMoves orderAbortJob where
  moves := fun s n ps => by
    unfold orderAbortJob
    split
    · exact s.moves_done ..
    · split
      · exact (s.moves_run (NoDue.cons rfl NoDue.nil)).done n _
      · exact s.moves_done ..

theorem clearCounters_sound (f : Flow) : f.Sound (clearCounters f) where
  ram := id
  news := BitVec.and_self
  entries := fun _ => Entry.Stays.refl _
  held := fun k h => by simpa [clearCounters] using h
  claims := fun _ _ => Claim.Same.refl _
  fits := fun h k => by
    have hload : (clearCounters f).load k = f.load k := by
      simp [Flow.load, clearCounters, Flow.liveEntries]
    have hkept : ((clearCounters f).slots.get k).kept = (f.slots.get k).kept := by
      simp [clearCounters, SlotFlow.kept]
    rw [hload, hkept]
    exact h k

theorem orderReadCounters_moves : OrderMoves orderReadCounters where
  moves := fun s n ps => by
    unfold orderReadCounters
    split
    · exact s.moves_done ..
    · exact s.moves_done ..
    · refine State.Moves.done (s.moves_withFlow ?_) n _
      split
      · exact (clearCounters_sound _).after (.ram_write ..)
      · exact .ram_write ..

theorem orderReadTables_moves (written : Option Nat) : OrderMoves (orderReadTables written) where
  moves := fun s n ps => by
    unfold orderReadTables
    split
    · exact .refl s
    · simp only
      split
      · exact s.moves_done ..
      · exact (s.moves_withFlow (.ram_write ..)).done n _

theorem orderSetNewsMask_moves : OrderMoves orderSetNewsMask where
  moves := fun s n ps => by
    unfold orderSetNewsMask
    split
    · exact s.moves_done ..
    · refine State.Moves.trans ?_ (State.moves_done _ n _)
      exact .of_same {} rfl

theorem badOrder_moves : OrderMoves fun s n _ => s.done n .badOrder := ⟨fun s _ _ => s.moves_done ..⟩

/-- The effect of every order code keeps the laws. -/
theorem orderByCode_moves (c : Byte) : OrderMoves (orderByCode c).2 := by
  unfold orderByCode
  split
  · exact orderSetTester_moves
  · exact orderDetachTester_moves
  · exact orderSetEcu_moves
  · exact orderInstallGrant_moves
  · exact orderRevokeGrant_moves
  · exact orderSuspendGrant_moves
  · exact orderResumeGrant_moves
  · exact orderRenewGrant_moves
  · exact orderSetStandstill_moves
  · exact orderSetConditionTimes_moves
  · exact orderReleaseClaim_moves
  · exact orderSetAccounts_moves
  · exact orderSetProbe_moves
  · exact orderSetSampler_moves
  · exact orderStartJob_moves
  · exact orderAbortJob_moves
  · exact orderReadCounters_moves
  · exact orderReadTables_moves none
  · exact orderSetNewsMask_moves
  · exact badOrder_moves

/-! ### Taking an order (R199, R200) -/

theorem State.moves_took (s : State) (d : Directory) (l : Look) : s.Moves (s.took d l) :=
  s.moves_withFlow (.after (.same (f := { s.flow with
    ram := ramWrite s.flow.ram (d.orderAddr l.next) (leBytes 4 taken) })) (.ram_write ..))

theorem State.moves_takeOrder (s : State) (mine : Byte → Bool) (anyState : Bool) {g : OrderEffect} (h : OrderMoves g) :
    s.Moves (takeOrder s mine anyState g) := by
  unfold takeOrder
  split
  · rename_i d l _ _
    simp only
    split
    · have htook := s.moves_took d l
      refine State.Moves.trans (htook.trans ?_) (State.moves_withFlow _ (lookOn_sound ..))
      split
      · exact h.moves ..
      · exact State.moves_done ..
    · exact .refl s
  · exact .refl s

end Sys2Proof.Machine
end

section
/-! Every step keeps the laws of the machine (Sys2Proof/Safety.lean): the commands one by one, and the obligations O55, O56,
O57, O59 and O60. -/

namespace Sys2Proof.Machine

/-! ### Commands in groups -/

/-- The command answers a state that the laws allow. -/
def State.StepsTo (s : State) (o : Host.Outcome State Fault Refusal) : Prop := ∃ t, o = .next t ∧ s.Moves t

theorem State.Moves.steps {s t : State} (h : s.Moves t) : s.StepsTo (.next t) := ⟨t, rfl, h⟩

theorem State.StepsTo.ite {s : State} {c : Prop} [Decidable c] {o p : Host.Outcome State Fault Refusal}
    (ho : s.StepsTo o) (hp : s.StepsTo p) : s.StepsTo (if c then o else p) := by
  split
  · exact ho
  · exact hp

theorem State.steps_stay (s : State) : s.StepsTo (.next s) := (State.Moves.refl s).steps

/-- A command that first lets time pass. -/
theorem State.StepsTo.later {s : State} {dt : Nat} {o : Host.Outcome State Fault Refusal}
    (h : (s.advance dt).StepsTo o) : s.StepsTo o := by
  obtain ⟨t, ho, ht⟩ := h
  exact ⟨t, ho, (s.moves_advance dt).trans ht⟩

theorem State.steps_flow (s : State) {f : Flow} (h : s.flow.Sound f) : s.StepsTo (.next (s.withFlow f)) :=
  (s.moves_withFlow h).steps

theorem State.steps_settled (s : State) {r : Flow × List Act} (h : s.flow.Leads r) :
    s.StepsTo (.next (s.withFlow (settled s.tab r))) := s.steps_flow (h.settled s.tab)

/-! #### Frames (R140 to R150) -/

theorem execSingleFrame_steps (p : PortId) (fr : Frame) (s : State) : s.StepsTo (execSingleFrame p fr s) := by
  unfold execSingleFrame
  split
  · exact s.steps_settled (firstFrame_leads ..)
  · exact s.steps_stay

theorem execOpenFrame_steps (p : PortId) (fr : Frame) (s : State) : s.StepsTo (execOpenFrame p fr s) := by
  unfold execOpenFrame
  split
  · exact s.steps_settled (firstFrame_leads ..)
  · exact s.steps_stay

theorem execNextFrame_steps (p : PortId) (fr : Frame) (s : State) : s.StepsTo (execNextFrame p fr s) := by
  unfold execNextFrame
  split
  · exact s.steps_settled (nextFrom_leads ..)
  · exact s.steps_stay

theorem execGrantFrame_steps (p : PortId) (fr : Frame) (s : State) : s.StepsTo (execGrantFrame p fr s) := by
  unfold execGrantFrame
  split
  · exact s.steps_flow (grantTaken_sound ..)
  · exact s.steps_stay

theorem execStallFrame_steps (p : PortId) (fr : Frame) (s : State) : s.StepsTo (execStallFrame p fr s) := by
  unfold execStallFrame
  split
  · exact s.steps_settled (stallTaken_leads ..)
  · exact s.steps_stay

theorem execDoneFrame_steps (p : PortId) (fr : Frame) (s : State) : s.StepsTo (execDoneFrame p fr s) := by
  unfold execDoneFrame
  split
  · exact s.steps_settled (doneTaken_leads ..)
  · exact s.steps_stay

theorem execAbortFrame_steps (p : PortId) (fr : Frame) (s : State) : s.StepsTo (execAbortFrame p fr s) := by
  unfold execAbortFrame
  split
  · exact s.steps_settled (abortTaken_leads ..)
  · exact s.steps_stay

theorem execFrameWithdrawn_steps (p : PortId) (k : FramePick) (dt : Nat) (s : State) :
    s.StepsTo (execFrameWithdrawn p k dt s) := by
  refine .later (dt := dt) ?_
  unfold execFrameWithdrawn
  simp only
  split
  · exact State.steps_stay _
  · refine .ite (State.steps_flow _ ?_) (State.steps_stay _)
    exact .after (.modPort ..) (.after ((withdrawn_leads ..).settled _) (.modPort ..))

/-! #### Timers of the ports (R144, R147, R149) -/

theorem execCreditWaitTimeout_steps (p : PortId) (dt : Nat) (s : State) : s.StepsTo (execCreditWaitTimeout p dt s) :=
  .later (dt := dt) (.ite (State.steps_settled _ (transferTimeout_leads ..)) (State.steps_stay _))

theorem execDoneWaitTimeout_steps (p : PortId) (dt : Nat) (s : State) : s.StepsTo (execDoneWaitTimeout p dt s) :=
  .later (dt := dt) (.ite (State.steps_settled _ (transferTimeout_leads ..)) (State.steps_stay _))

theorem execGapTimerExpiry_steps (p : PortId) (c : CtxIx) (dt : Nat) (s : State) :
    s.StepsTo (execGapTimerExpiry p c dt s) := by
  refine .later (dt := dt) ?_
  unfold execGapTimerExpiry
  simp only
  split
  · exact State.steps_stay _
  · exact .ite (State.steps_settled _ (abandonCtx_leads ..)) (State.steps_stay _)

theorem execStallTimerExpiry_steps (p : PortId) (c : CtxIx) (dt : Nat) (s : State) :
    s.StepsTo (execStallTimerExpiry p c dt s) := by
  refine .later (dt := dt) ?_
  unfold execStallTimerExpiry
  simp only
  split
  · exact State.steps_stay _
  · exact .ite (State.steps_settled _ (stallTick_leads ..)) (State.steps_stay _)

/-! #### Entries, claims and grants (R46, R108, R125, R132) -/

theorem execResponseDeadline_steps (i : EntryIx) (dt : Nat) (s : State) : s.StepsTo (execResponseDeadline i dt s) := by
  refine .later (dt := dt) ?_
  unfold execResponseDeadline
  simp only
  split
  · exact State.steps_stay _
  · exact .ite (State.steps_settled _ (entryTimeout_leads ..)) (State.steps_stay _)

theorem execDeliveringOffer_steps (s : State) : s.StepsTo (execDeliveringOffer s) := by
  have hoffers : NoDue (s.flow.delivering.map .deliver) := ⟨fun a ha => by
    obtain ⟨i, -, rfl⟩ := List.mem_map.mp ha
    rfl⟩
  exact .ite ((s.moves_withFlow .same).trans (State.moves_run _ hoffers)).steps s.steps_stay

theorem execHoldOffExpiry_steps (e : EcuIx) (dt : Nat) (s : State) : s.StepsTo (execHoldOffExpiry e dt s) :=
  .later (dt := dt) (.ite (State.steps_flow _ (claimRelease_sound ..)) (State.steps_stay _))

theorem execCloseDeadline_steps (e : EcuIx) (dt : Nat) (s : State) : s.StepsTo (execCloseDeadline e dt s) :=
  .later (dt := dt) (.ite (State.steps_flow _ (closeEnd_sound ..)) (State.steps_stay _))

theorem State.moves_grantExpires (s : State) (i : GrantIx) : s.Moves { s with
    grants := Vector.putRow s.grants i (s.grants.get i).expire
    flow := markSlot (supportCheck s.tab (Vector.putRow s.grants i (s.grants.get i).expire) 0 none
      (grantStep s.tab 0 s.flow i (s.grants.get i) 1) (s.grants.get i)) (s.grants.get i).slot } := by
  have hstep := s.moves_withFlow (grantStep_light s.tab 0 s.flow i (s.grants.get i) 1).sound
  have hcheck := State.moves_supportCheck (s.withFlow (grantStep s.tab 0 s.flow i (s.grants.get i) 1)) i
    (s.grants.get i).expire 0 none
  exact (hstep.trans hcheck).trans (.of_flow {} (.markHeads ..))

theorem execGrantExpiry_steps (i : GrantIx) (dt : Nat) (s : State) : s.StepsTo (execGrantExpiry i dt s) :=
  .later (dt := dt) (.ite (State.moves_grantExpires _ i).steps (State.steps_stay _))

theorem execHoldDeadline_steps (k : Slot) (dt : Nat) (s : State) : s.StepsTo (execHoldDeadline k dt s) :=
  .later (dt := dt) (.ite (State.steps_flow _ (tooLong_sound ..)) (State.steps_stay _))

/-! #### The condition monitor (R24 to R30) -/

theorem execRawChange_steps (l : CondLine) (b : Bool) (s : State) : s.StepsTo (execRawChange l b s) := by
  have hline : s.Moves { s with lines := s.lines.put l b } := .of_same {} rfl
  exact .ite (hline.trans (State.moves_reportRaw ..)).steps hline.steps

theorem execRotEdge_steps (s : State) : s.StepsTo (execRotEdge s) :=
  .ite (State.Moves.steps (.of_same {} rfl)) s.steps_stay

theorem State.moves_windowEnd (s : State) (b : Bool) :
    s.Moves (reportRaw { s with rot := s.rot.windowEnd } condEngineStill b) := by
  have hrot : s.Moves { s with rot := s.rot.windowEnd } := .of_same {} rfl
  exact hrot.trans (State.moves_reportRaw _ condEngineStill b)

theorem execWindowEnd_steps (dt : Nat) (s : State) : s.StepsTo (execWindowEnd dt s) :=
  .later (dt := dt) (.ite (State.moves_windowEnd ..).steps (State.steps_stay _))

theorem execRiseTimerExpiry_steps (i : CondIx) (dt : Nat) (s : State) : s.StepsTo (execRiseTimerExpiry i dt s) :=
  .later (dt := dt) (.ite (State.moves_timerDone ..).steps (State.steps_stay _))

theorem execFallTimerExpiry_steps (i : CondIx) (dt : Nat) (s : State) : s.StepsTo (execFallTimerExpiry i dt s) :=
  .later (dt := dt) (.ite (State.moves_timerDone ..).steps (State.steps_stay _))

/-! #### Attentions, scans and rings (R183, R199, R202 to R204) -/

theorem execAttention_steps (w : Word) (st : Stores) (s : State) : s.StepsTo (execAttention w st s) :=
  ((s.moves_store st).trans (State.moves_withFlow _ (attend_sound ..))).steps

theorem execScan_steps (dt : Nat) (s : State) : s.StepsTo (execScan dt s) :=
  .later (dt := dt) (.ite (State.Moves.steps (.of_flow {} (attend_sound ..))) (State.steps_stay _))

theorem execRegisterWrite_steps (r : HostReg) (w : Word) (st : Stores) (s : State) :
    s.StepsTo (execRegisterWrite r w st s) := by
  have hstore := s.moves_store st
  unfold execRegisterWrite
  simp only
  split
  · have hbase : (s.store st).Moves { s.store st with xbase := alignBase w } := .of_same {} rfl
    exact (hstore.trans hbase).steps
  · exact hstore.steps

theorem execRelayFlushDeadline_steps (dt : Nat) (s : State) : s.StepsTo (execRelayFlushDeadline dt s) :=
  .later (dt := dt) (.ite (State.steps_flow _ (relayCommit_sound ..)) (State.steps_stay _))

theorem execCaptureFlushDeadline_steps (dt : Nat) (s : State) : s.StepsTo (execCaptureFlushDeadline dt s) :=
  .later (dt := dt) (.ite (State.steps_flow _ (captureCommit_sound ..)) (State.steps_stay _))

/-! #### Jobs (R161 to R171) -/

theorem State.steps_jobStep (s : State) (j : JobIx) (kind : StepKind) {run : Flow → List Byte → Flow × List Act}
    (h : ∀ (f : Flow) bs, f.Leads (run f bs)) : s.StepsTo (.next (s.jobStep j kind run)) := by
  unfold State.jobStep
  split
  · exact s.steps_settled (jobStep_leads _ _ _ _ h)
  · exact s.steps_stay

theorem execBadStep_steps (j : JobIx) (s : State) : s.StepsTo (execBadStep j s) :=
  .ite (s.moves_run (badStepAct_noDue ..)).steps s.steps_stay

theorem execJobTimeExpiry_steps (j : JobIx) (dt : Nat) (s : State) : s.StepsTo (execJobTimeExpiry j dt s) :=
  .later (dt := dt) (.ite (State.moves_run _ (NoDue.cons rfl NoDue.nil)).steps (State.steps_stay _))

theorem execConditionWaitExpiry_steps (j : JobIx) (dt : Nat) (s : State) :
    s.StepsTo (execConditionWaitExpiry j dt s) :=
  .later (dt := dt) (.ite
    ((State.moves_withFlow _ (.modJob ..)).trans (State.moves_run _ (NoDue.cons rfl NoDue.nil))).steps
    (State.steps_stay _))

/-! #### Memory errors (R198) -/

theorem State.moves_keepSlot (s old : State) (d : Directory) (n : Nat) : s.Moves (s.keepSlot old d n) :=
  s.moves_withFlow (.ram_write ..)

theorem State.moves_boardError (s : State) (g : BoardStage) : s.Moves (boardError s g) := by
  unfold boardError
  split
  · exact s.moves_took ..
  · exact (s.moves_takeOrder _ _ (orderByCode_moves _)).trans (State.moves_keepSlot ..)
  · exact .refl s

theorem State.moves_countersError (s : State) (n : Nat) : s.Moves (countersError s n) := by
  unfold countersError
  split
  · exact (s.moves_took ..).trans (State.moves_withFlow _ (.ram_write ..))
  · exact .refl s

theorem State.moves_takePage (s : State) : s.Moves (takePage s) := by
  unfold takePage
  split
  · exact .refl s
  · exact s.moves_withFlow (.ram_write ..)

theorem Tables.active_ctl {t : Tables} (h : t.active = true) : t.ctl ≠ .faulted := fun hc => by
  simp [Tables.active, hc] at h

theorem ctl_of_active_or_off {t : Tables} (h : (t.active || t.ctl == .off) = true) : t.ctl ≠ .faulted := fun hc => by
  simp [Tables.active, hc] at h

theorem execMemoryError_result (a : RamAccess) (again : Bool) (s : State) :
    ∃ t, execMemoryError a again s = .next t ∧ (s.Moves t ∨ s.Faults t) := by
  have moved {t : State} (h : s.Moves t) : ∃ u, (.next t : Host.Outcome State Fault Refusal) = .next u
      ∧ (s.Moves u ∨ s.Faults u) := ⟨t, rfl, .inl h⟩
  have faulted {u : State} (hc : s.tab.ctl ≠ .faulted) (hu : s.Moves u) :
      ∃ t, (.next (enterFaulted u .memoryError again) : Host.Outcome State Fault Refusal) = .next t
        ∧ (s.Moves t ∨ s.Faults t) := ⟨_, rfl, .inr (.enter hc (by decide) hu.memory hu.pending)⟩
  unfold execMemoryError
  split
  · rename_i hp
    cases a with
    | starting =>
      simp only [accessPossible, beq_iff_eq] at hp
      exact faulted (by rw [hp]; decide) (.refl s)
    | orderBoard g =>
      refine faulted ?_ (s.moves_boardError g)
      cases g with
      | stateWord => exact ctl_of_active_or_off (Bool.and_eq_true _ _ ▸ hp).2
      | order => exact ctl_of_active_or_off (Bool.and_eq_true _ _ ▸ hp).2
      | result => exact ctl_of_active_or_off (Bool.and_eq_true _ _ ▸ hp).2
    | counterBlock n => exact faulted (ctl_of_active_or_off (Bool.and_eq_true _ _ ▸ hp).2) (s.moves_countersError n)
    | relayPage b =>
      cases b with
      | false => exact faulted (Tables.active_ctl (Bool.and_eq_true _ _ ▸ hp).1) (.refl s)
      | true =>
        refine faulted ?_ s.moves_takePage
        intro hc
        simp only [accessPossible, pageToTake] at hp
        split at hp
        · cases hp
        · simp [hc] at hp
    | capturePage => exact faulted (Tables.active_ctl (Bool.and_eq_true _ _ ▸ hp).1) (.refl s)
    | jobStep j => exact moved (s.moves_run (NoDue.cons rfl NoDue.nil))
    | jobData j => exact moved ((s.moves_withFlow (.modJob ..)).trans (State.moves_run _ (NoDue.cons rfl NoDue.nil)))
    | jobResult j => exact moved (s.moves_withFlow (.modJob ..))
    | tablesArea k => exact moved (s.moves_takeOrder _ _ (orderReadTables_moves _))
  · exact moved (.refl s)

/-! ### Every command -/

/-- The command may clear news flags: a read of NEWS, or a reset (R192, R193). -/
inductive ClearsNews : Instr → Prop where
  | newsRead (st : Stores) : ClearsNews (.newsRead st)
  | hardwareReset : ClearsNews .hardwareReset
  | enable (w : Word) (st : Stores) (h : w.getLsbD 1 = true) : ClearsNews (.enable w st)
  | softReset (w : Word) (st : Stores) (h : w.getLsbD 1 = true) : ClearsNews (.softReset w st)
  | irqEnable (w : Word) (st : Stores) (h : w.getLsbD 1 = true) : ClearsNews (.irqEnable w st)

/-- What a command does, as far as the laws go. -/
def State.Result (s : State) (c : Instr) (t : State) : Prop := s.Moves t ∨ s.Faults t ∨ (s.Preserves t ∧ t.pending = s.pending) ∧ ClearsNews c

theorem ctrlWrite_result (s : State) (w : Word) (st : Stores) {c : Instr} (hc : w.getLsbD 1 = true → ClearsNews c) :
    s.Result c (ctrlWrite (s.store st) w) := by
  cases h : w.getLsbD 1 with
  | false => exact .inl ((s.moves_store st).trans (State.moves_ctrlWrite _ h))
  | true =>
    have hstore := s.moves_store st
    obtain ⟨hlaws, hpending⟩ := ctrlWrite_reset (s.store st) h
    exact .inr (.inr ⟨⟨hstore.toPreserves.trans hlaws, hpending.trans hstore.pending⟩, hc h⟩)

theorem execNewsRead_result (st : Stores) (s : State) :
    ∃ t, execNewsRead st s = .next t ∧ s.Result (.newsRead st) t := by
  have hclear (u : State) (w : Word) : u.Preserves { u with readData := w, flow := { u.flow with news := 0 } } :=
    ⟨id, id, fun _ => id, id, id, id, id⟩
  exact ⟨_, rfl, .inr (.inr ⟨⟨(s.moves_store st).toPreserves.trans (hclear ..), rfl⟩, .newsRead st⟩)⟩

/-- Every command answers a state, and keeps the laws. -/
theorem exec_result (c : Instr) (s : State) : ∃ t, exec c s = .next t ∧ s.Result c t := by
  have moves {o : Host.Outcome State Fault Refusal} (h : s.StepsTo o) : ∃ t, o = .next t ∧ s.Result c t := by
    obtain ⟨t, ho, ht⟩ := h
    exact ⟨t, ho, .inl ht⟩
  have faults {o : Host.Outcome State Fault Refusal} (h : ∃ t, o = .next t ∧ (s.Moves t ∨ s.Faults t)) :
      ∃ t, o = .next t ∧ s.Result c t := by
    obtain ⟨t, ho, ht⟩ := h
    exact ⟨t, ho, ht.imp id .inl⟩
  have order {mine : Byte → Bool} {any : Bool} {g : OrderEffect} (h : OrderMoves g) :
      ∃ t, (.next (takeOrder s mine any g) : Host.Outcome State Fault Refusal) = .next t ∧ s.Result c t :=
    ⟨_, rfl, .inl (s.moves_takeOrder mine any h)⟩
  cases c with
  | hardwareReset =>
    obtain ⟨t, ho, ht⟩ := hardwareReset_preserves s
    exact ⟨t, ho, .inr (.inr ⟨ht, .hardwareReset⟩)⟩
  | enable w st => exact ⟨_, rfl, ctrlWrite_result s w st (.enable w st)⟩
  | softReset w st => exact ⟨_, rfl, ctrlWrite_result s w st (.softReset w st)⟩
  | irqEnable w st => exact ⟨_, rfl, ctrlWrite_result s w st (.irqEnable w st)⟩
  | registerWrite r w st => exact moves (execRegisterWrite_steps ..)
  | attention w st => exact moves (execAttention_steps w st s)
  | newsRead st => exact execNewsRead_result st s
  | rawChange l b => exact moves (execRawChange_steps ..)
  | rotEdge => exact moves (execRotEdge_steps s)
  | windowEnd dt => exact moves (execWindowEnd_steps ..)
  | riseTimerExpiry i dt => exact moves (execRiseTimerExpiry_steps ..)
  | fallTimerExpiry i dt => exact moves (execFallTimerExpiry_steps ..)
  | scan dt => exact moves (execScan_steps ..)
  | startingComplete => exact moves (execStartingComplete_moves s)
  | enterOff => exact moves (execEnterOff_moves s)
  | memoryError a again => exact faults (execMemoryError_result ..)
  | singleFrame p f => exact moves (execSingleFrame_steps ..)
  | openFrame p f => exact moves (execOpenFrame_steps ..)
  | nextFrame p f => exact moves (execNextFrame_steps ..)
  | grantFrame p f => exact moves (execGrantFrame_steps ..)
  | stallFrame p f => exact moves (execStallFrame_steps ..)
  | doneFrame p f => exact moves (execDoneFrame_steps ..)
  | abortFrame p f => exact moves (execAbortFrame_steps ..)
  | frameSent p => exact moves (s.steps_flow (frameSent_sound ..))
  | frameWithdrawn p k dt => exact moves (execFrameWithdrawn_steps ..)
  | creditWaitTimeout p dt => exact moves (execCreditWaitTimeout_steps ..)
  | doneWaitTimeout p dt => exact moves (execDoneWaitTimeout_steps ..)
  | gapTimerExpiry p i dt => exact moves (execGapTimerExpiry_steps ..)
  | stallTimerExpiry p i dt => exact moves (execStallTimerExpiry_steps ..)
  | vbTransmitStart v => exact moves (.ite (s.steps_flow (vbStart_sound ..)) s.steps_stay)
  | tbTransmitStart => exact moves (.ite (s.steps_flow (tbStart_sound ..)) s.steps_stay)
  | relayWrite => exact moves (.ite (s.steps_settled (relayWriteItem_leads ..)) s.steps_stay)
  | relayRecord => exact moves (.ite (s.steps_flow (relayTakeRecord_settled ..)) s.steps_stay)
  | visit => exact moves (execVisit_moves s)
  | evaluationAgain => exact moves (execEvaluationAgain_moves s)
  | holdDeadline k dt => exact moves (execHoldDeadline_steps ..)
  | responseDeadline i dt => exact moves (execResponseDeadline_steps ..)
  | deliveringOffer => exact moves (execDeliveringOffer_steps s)
  | holdOffExpiry e dt => exact moves (execHoldOffExpiry_steps ..)
  | closeDeadline e dt => exact moves (execCloseDeadline_steps ..)
  | grantExpiry i dt => exact moves (execGrantExpiry_steps ..)
  | captureFlushDeadline dt => exact moves (execCaptureFlushDeadline_steps ..)
  | relayFlushDeadline dt => exact moves (execRelayFlushDeadline_steps ..)
  | jobSend j => exact moves (s.steps_jobStep j _ fun _ _ => runSend_leads ..)
  | jobRepeat j => exact moves (s.steps_jobStep j _ fun _ _ => runRepeat_leads ..)
  | jobWaitTime j => exact moves (s.steps_jobStep j _ fun _ _ => runWaitTime_leads ..)
  | jobWaitCondition j => exact moves (s.steps_jobStep j _ fun _ _ => runWaitCondition_leads ..)
  | jobSync j => exact moves (s.steps_jobStep j _ fun _ _ => runSync_leads ..)
  | jobEnd j => exact moves (s.steps_jobStep j _ fun f _ => .one (.refl f) rfl)
  | jobTimeExpiry j dt => exact moves (execJobTimeExpiry_steps ..)
  | conditionWaitExpiry j dt => exact moves (execConditionWaitExpiry_steps ..)
  | setTester => exact order orderSetTester_moves
  | detachTester => exact order orderDetachTester_moves
  | setEcu => exact order orderSetEcu_moves
  | installGrant => exact order orderInstallGrant_moves
  | revokeGrant => exact order orderRevokeGrant_moves
  | suspendGrant => exact order orderSuspendGrant_moves
  | resumeGrant => exact order orderResumeGrant_moves
  | renewGrant => exact order orderRenewGrant_moves
  | setStandstill => exact order orderSetStandstill_moves
  | setConditionTimes => exact order orderSetConditionTimes_moves
  | releaseClaim => exact order orderReleaseClaim_moves
  | setAccounts => exact order orderSetAccounts_moves
  | setProbe => exact order orderSetProbe_moves
  | setSampler => exact order orderSetSampler_moves
  | startJob => exact order orderStartJob_moves
  | abortJob => exact order orderAbortJob_moves
  | readCounters => exact order orderReadCounters_moves
  | readTables => exact order (orderReadTables_moves none)
  | setNewsMask => exact order orderSetNewsMask_moves
  | unknownOrderCode => exact order badOrder_moves
  | startingCheckFails => exact faults (execStartingCheckFails_moves s)
  | badStep j => exact moves (execBadStep_steps ..)

theorem State.Result.preserves {s t : State} {c : Instr} (h : s.Result c t) : s.Preserves t := by
  obtain h | h | h := h
  · exact h.toPreserves
  · exact h.toPreserves
  · exact h.1.1

theorem State.Result.pending {s t : State} {c : Instr} (h : s.Result c t) : t.pending = s.pending := by
  obtain h | h | h := h
  · exact h.pending
  · exact h.pending
  · exact h.1.2

theorem exec_preserves {c : Instr} {s t : State} (h : exec c s = .next t) : s.Preserves t := by
  obtain ⟨u, hu, hr⟩ := exec_result c s
  rw [hu] at h
  cases h
  exact hr.preserves

theorem step_preserves {s t : State} (h : step s = .next t) : s.Preserves t := by
  unfold step at h
  split at h
  · cases h
    exact (s.moves_advance 1).toPreserves
  · rename_i rest _
    have hqueue : s.Preserves { s with pending := rest } := ⟨id, id, fun _ => id, id, id, id, id⟩
    exact hqueue.trans (exec_preserves h)

/-! ### The obligations -/

/-- Settles O55: the controller's law is one of those that every step keeps. -/
theorem stepKeepsControllerLaw : Obligations.StepKeepsControllerLaw := fun _ _ hl h => (step_preserves h).controller hl

/-- Settles O56: the laws of the conditions and the claims are among those that every step keeps. -/
theorem stepKeepsConditionsAndClaims : Obligations.StepKeepsConditionsAndClaims := fun _ _ hc hl h =>
  ⟨(step_preserves h).conditions hc, (step_preserves h).claims hc hl⟩

/-- Settles O57: entries begin only at an admission, which finds no entry of the pair, and a delivery place is taken only
where one is kept or free. -/
theorem stepKeepsPairsAndPlaces : Obligations.StepKeepsPairsAndPlaces :=
  ⟨fun _ _ hl h => (step_preserves h).pairs hl, fun _ _ hl h => (step_preserves h).places hl⟩

/-- Settles O59: a grant that ceases to support takes with it the claims that no other grant supports. -/
theorem stepKeepsClaimSupport : Obligations.StepKeepsClaimSupport := fun _ _ hl h => (step_preserves h).support hl

theorem hasNews_of_kept {a b : NewsFlags} (h : a &&& b = a) {n : News} (hn : (a &&& n.flag != 0) = true) :
    (b &&& n.flag != 0) = true := by
  simp only [bne_iff_ne, ne_eq] at hn ⊢
  intro hb
  apply hn
  rw [← h, BitVec.and_assoc, hb]
  exact BitVec.and_zero

/-- Settles O60: shared RAM keeps its form, and a command that neither reads NEWS nor resets nor enters FAULTED moves the
machine with all news flags kept. -/
theorem stepKeepsMemoryAndNews : Obligations.StepKeepsMemoryAndNews := by
  refine ⟨fun _ _ hl h => (step_preserves h).memory hl, ?_⟩
  intro s t c rest hpending hstep hread hhard hctrl hfault n hn
  simp only [step, hpending] at hstep
  obtain ⟨u, hu, hr⟩ := exec_result c { s with pending := rest }
  rw [hu] at hstep
  cases hstep
  obtain hmoves | hfaults | ⟨-, hclears⟩ := hr
  · exact hasNews_of_kept hmoves.news hn
  · exact absurd (hfault hfaults.ended) hfaults.started
  · cases hclears with
    | newsRead st => exact absurd rfl (hread st)
    | hardwareReset => exact absurd rfl hhard
    | enable w st h => rw [hctrl w st (.inl rfl)] at h; cases h
    | softReset w st h => rw [hctrl w st (.inr (.inl rfl))] at h; cases h
    | irqEnable w st h => rw [hctrl w st (.inr (.inr rfl))] at h; cases h

end Sys2Proof.Machine
end

section
/-! The tier 1 statements on the queue of commands and on reset: O1 to O5. -/

namespace Sys2Proof.Machine

/-- Settles O1: a step is the execution of the front command. -/
theorem stepRunsFrontCommand : Obligations.StepRunsFrontCommand := fun _ _ _ => rfl

/-- Settles O2: with an empty queue a step lets one millisecond pass. -/
theorem emptyQueuePassesOneMillisecond : Obligations.EmptyQueuePassesOneMillisecond := fun s h => by
  unfold step
  split
  · rfl
  · rename_i hs
    rw [h] at hs
    cases hs

/-- Settles O3: the walk over the commands that shows that each keeps the laws shows that each answers a state with the
queue it found. -/
theorem everyCommandAnswersNext : Obligations.EveryCommandAnswersNext := fun c s => by
  obtain ⟨t, ht, hr⟩ := exec_result c s
  exact ⟨t, ht, hr.pending⟩

/-- Settles O4: every table of the reset state repeats one row. -/
theorem resetValues : Obligations.ResetValues := by
  refine ⟨⟨rfl, rfl, rfl, rfl, rfl, fun n => ?mask⟩, ⟨rfl, rfl, rfl, rfl, rfl, rfl⟩,
    ⟨rfl, rfl, rfl, rfl, rfl, rfl, rfl, rfl, rfl, rfl⟩, fun w hw => ?writers, fun k => ⟨?tester, ?slot⟩,
    fun e => ⟨?valid, ?limit, ?counts, ?claim⟩, fun code => ?cls, fun i => ?cond, rfl, fun g => ?grant,
    fun a => ⟨?threshold, ?usage⟩, fun i => ?entry, fun p => ⟨?tx, fun c => ?ctx, ?port⟩, fun v => ?vb, fun j => ?job,
    fun i => ?probe, rfl, rfl⟩
  case mask => cases n <;> decide
  case writers => cases hw <;> assumption
  case ctx =>
    change ((State.reset.flow.port p).ctxs.get c) = none
    simp only [Flow.port, State.reset, Flow.reset, Vector.replicate_get]
    exact Vector.replicate_get ..
  case valid => exact congrArg Ecu.valid (Vector.replicate_get 32 Ecu.reset e)
  case limit => exact congrArg Ecu.interimLimit (Vector.replicate_get 32 Ecu.reset e)
  case claim => exact congrArg Claim.state (Vector.replicate_get 32 Claim.reset e)
  case grant => exact congrArg Grant.state (Vector.replicate_get 64 Grant.reset g)
  case tx => exact congrArg PortFlow.tx (Vector.replicate_get 4 PortFlow.reset (portIx p))
  case job => exact congrArg Job.state (Vector.replicate_get 4 Job.reset j)
  case probe => exact congrArg Probe.enabled (Vector.replicate_get 4 Probe.reset i)
  all_goals exact Vector.replicate_get ..

/-! ### The laws at reset -/

theorem replicate_toList_flatMap {α β : Type} (n : Nat) (x : α) (g : α → List β) (h : g x = []) :
    (Vector.replicate n x).toList.flatMap g = [] := by
  rw [List.flatMap_eq_nil_iff]
  intro y hy
  rw [Vector.toList_replicate] at hy
  rw [List.eq_of_mem_replicate hy, h]

theorem replicate_toList_filterMap {α β : Type} (n : Nat) (x : α) (g : α → Option β) (h : g x = none) :
    (Vector.replicate n x).toList.filterMap g = [] := by
  rw [List.filterMap_eq_nil_iff]
  intro y hy
  rw [Vector.toList_replicate] at hy
  rw [List.eq_of_mem_replicate hy, h]

/-- No message holds a charge. -/
theorem reset_charges : State.reset.flow.charges = [] := by
  have hctxs : PortFlow.reset.charges = [] := replicate_toList_filterMap _ _ _ rfl
  simp only [Flow.charges, State.reset, Flow.reset, replicate_toList_flatMap _ _ _ hctxs,
    replicate_toList_flatMap 16 SlotFlow.reset SlotFlow.charges rfl,
    replicate_toList_flatMap 3 VbFlow.reset (fun v => v.outbound.map (·.msg.charge)) rfl,
    replicate_toList_filterMap 40 (none : Option Entry) (fun x => x.bind Entry.charge) rfl,
    replicate_toList_filterMap 4 Job.reset (fun b => b.build.bind (·.charge)) rfl, List.append_nil]

theorem reset_storeLaw : State.reset.StoreLaw := by
  rw [State.StoreLaw, reset_charges]
  refine ⟨⟨fun a => ?_, rfl, fun c hc => (List.not_mem_nil hc).elim, fun a => ?_, ?_⟩, fun i x hx => ?_, fun j hj => ?_⟩
  · simp [State.reset, Flow.reset]
  · simp [State.reset, Flow.reset]
  · decide
  · simp [State.reset, Flow.reset] at hx
  · simp [State.reset, Flow.reset, Job.reset]

/-- Settles O5: after reset there is no traffic. -/
theorem resetKeepsLaws : Obligations.ResetKeepsLaws :=
  have hempty : State.reset.flow.Empty := .reset 0 []
  ⟨ramWf_nil, fun h => absurd rfl h, fun i => (Tables.reset_conds i).laws, hempty.claimLaw, hempty.pairLaw, hempty.fits,
    reset_storeLaw, hempty.supportLaw⟩

/-! ### The registers (R191 to R193, R207) -/

theorem BitVec.and_ne_zero_iff {n : Nat} (a b : BitVec n) :
    a &&& b ≠ 0#n ↔ ∃ i < n, a.getLsbD i = true ∧ b.getLsbD i = true := by
  rw [← not_iff_not, not_not]
  constructor
  · rintro h ⟨i, -, ha, hb⟩
    have := congrArg (fun x => x.getLsbD i) h
    simp [ha, hb] at this
  · intro h
    refine BitVec.eq_of_getLsbD_eq fun i hi => ?_
    rw [BitVec.getLsbD_and, BitVec.getLsbD_zero, Bool.and_eq_false_iff]
    by_contra hc
    exact h ⟨i, hi, by simpa using hc⟩

/-- Every bit of NEWS is the bit of a flag. -/
theorem exists_news_iff {p : Nat → Prop} : (∃ i < 11, p i) ↔ ∃ n : News, p n.bit := by
  constructor
  · rintro ⟨i, hi, h⟩
    have hbits : ∀ i < 11, ∃ n ∈ [News.orderDone, .relayOut, .relayInFree, .capture, .captureGap, .condition, .claim,
      .grant, .jobEnd, .fault, .stopped], n.bit = i := by decide
    obtain ⟨n, -, hn⟩ := hbits i hi
    exact ⟨n, hn ▸ h⟩
  · rintro ⟨n, h⟩
    exact ⟨n.bit, by cases n <;> decide, h⟩

theorem State.irq_iff (s : State) : s.irq = true ↔
    s.irqEnable = true ∧ ∃ n : News, s.flow.news.getLsbD n.bit = true ∧ s.mask.getLsbD n.bit = true := by
  rw [State.irq, Bool.and_eq_true, bne_iff_ne, ne_eq]
  exact and_congr_right fun _ => (BitVec.and_ne_zero_iff ..).trans exists_news_iff

/-- The word of STATE (R207). -/
theorem stateWord_fields (c : CtlState) (f : FaultCode) :
    (BitVec.ofNat 32 (c.code + 256 * f.code)).extractLsb' 0 3 = BitVec.ofNat 3 c.code
    ∧ (BitVec.ofNat 32 (c.code + 256 * f.code)).extractLsb' 8 3 = BitVec.ofNat 3 f.code
    ∧ (BitVec.ofNat 32 (c.code + 256 * f.code)).extractLsb' 3 5 = 0
    ∧ (BitVec.ofNat 32 (c.code + 256 * f.code)).extractLsb' 11 21 = 0 := by
  cases c <;> cases f <;> decide

/-- A CTRL write without SOFT_RESET. -/
theorem ctrlWrite_stored (s : State) {w : Word} (h : w.getLsbD 1 = false) :
    ctrlWrite s w = enableWritten { s with enable := w.getLsbD 0, irqEnable := w.getLsbD 2 } s.enable := by
  simp only [ctrlWrite, ctrlReset, ctrlEnable, ctrlIrq, h, Bool.false_eq_true, if_false]

/-- Outside the three changes of ENABLE that the controller acts on, a CTRL write just stores its bits. -/
theorem enableWritten_same {s : State} {was : Bool} (hoff : ¬(s.tab.ctl = .off ∧ was = false ∧ s.enable = true))
    (hrun : ¬(s.tab.ctl = .running ∧ was = true ∧ s.enable = false)) (hfault : ¬(s.tab.ctl = .faulted ∧ s.enable = false)) :
    enableWritten s was = s := by
  unfold enableWritten
  split
  · rename_i h1 h2
    exact absurd ⟨h1, rfl, h2⟩ hoff
  · rename_i h1 h2
    exact absurd ⟨h1, rfl, h2⟩ hrun
  · rename_i h1 h2
    exact absurd ⟨h1, h2⟩ hfault
  · rfl

/-- Settles O8: a CTRL write that keeps ENABLE only stores its bits, and the words are read field by field. -/
theorem registersAndIrqLine : Obligations.RegistersAndIrqLine := by
  refine ⟨⟨fun w st s hreset hen hfault => ?irqEnable, State.irq_iff, fun r w st s => ⟨fun h => ?xbase, fun h => ?ignored⟩,
    rfl, rfl, fun s => ?ctrl, fun s => stateWord_fields ..⟩, fun st s => rfl⟩
  case irqEnable =>
    change Host.Outcome.next (ctrlWrite (s.store st) w) = _
    rw [ctrlWrite_stored _ hreset, enableWritten_same]
    · rw [hen]; rfl
    · rintro ⟨-, h1, h2⟩
      simp only [State.store_enable] at h1 h2
      rw [hen, h1] at h2
      cases h2
    · rintro ⟨-, h1, h2⟩
      simp only [State.store_enable] at h1 h2
      rw [hen, h1] at h2
      cases h2
    · rintro ⟨h1, h2⟩
      have := hfault h1
      rw [hen, this] at h2
      cases h2
  case xbase =>
    obtain ⟨rfl, hoff⟩ := h
    change execRegisterWrite .xbase w st s = _
    simp only [execRegisterWrite, State.store_tab, hoff]
    rfl
  case ignored =>
    change execRegisterWrite r w st s = _
    unfold execRegisterWrite
    simp only
    split
    · rename_i hctl
      exact absurd ⟨rfl, hctl⟩ h
    · rfl
  case ctrl =>
    unfold State.ctrlWord
    cases s.enable <;> cases s.irqEnable <;> rfl

end Sys2Proof.Machine
end

section
/-! Resets, ENABLE and the controller states: O6 and O7, with what the capture unit leaves alone. -/

namespace Sys2Proof.Machine

/-! ### CTRL writes (R192) -/

theorem exec_enable (w : Word) (st : Stores) (s : State) : exec (.enable w st) s = .next (ctrlWrite (s.store st) w) := rfl

/-- Settles O6: the resets are written out in the model, and a stored ENABLE acts in the three cases of R192. -/
theorem resetsAndEnable : Obligations.ResetsAndEnable := by
  refine ⟨⟨fun s => rfl, fun w st s h => ?soft⟩, fun w st s h => ?_⟩
  case soft =>
    change Host.Outcome.next (ctrlWrite (s.store st) w) = _
    simp only [ctrlWrite, ctrlReset, h, if_true]
    rfl
  rw [exec_enable, ctrlWrite_stored _ h]
  refine ⟨fun ⟨hctl, hen, hw⟩ => ?_, fun ⟨hctl, hw⟩ => ?_, fun hoff hfault hrun => ?_⟩
  · simp only [enableWritten, State.store_tab, State.store_enable, hctl, hen, hw]
    rfl
  · simp only [enableWritten, State.store_tab, State.store_enable, hctl, hw]
  · rw [enableWritten_same hoff (by simpa using hrun) hfault]

/-! ### The entry to STOPPING (R197) -/

theorem exec_enable_stops {w : Word} {st : Stores} {s : State} (hreset : w.getLsbD 1 = false) (hw : w.getLsbD 0 = false)
    (hctl : s.tab.ctl = .running) (hen : s.enable = true) :
    exec (.enable w st) s = .next { s.store st with
      enable := false, irqEnable := w.getLsbD 2, fresh := s.fresh + 1, tab := { s.tab with ctl := .stopping }
      flow := stoppingEvents { s.tab with ctl := .stopping } s.fresh (s.store st).flow } := by
  rw [exec_enable, ctrlWrite_stored _ hreset, hw]
  simp only [enableWritten, State.store_tab, State.store_enable, hctl, hen, enterStopping, State.store_fresh]

/-- The channel gives up the page that it holds (R202). -/
theorem relayStopReading_page {t : Tables} {f : Flow} {r : Ring} (hr : t.relayInRing = some r)
    (hc : f.relayIn.count.isSome) : relayStopReading t f = { f with
      ram := ramWrite f.ram (r.pageAddr f.relayIn.page) [0, 0, 0, 0]
      news := f.news ||| 0x004
      waiting := f.waiting.filter fun w => w.who != .relay
      relayIn := { page := (f.relayIn.page + 1) % r.pages, record := 0, offset := 16, count := none, stop := none } } := by
  have hcount : (f.leaveWait .relay).relayIn.count.isSome := hc
  simp only [relayStopReading, hr, hcount, if_true]
  rfl

theorem relayStopReading_between {t : Tables} {f : Flow} {r : Ring} (hr : t.relayInRing = some r)
    (hc : f.relayIn.count = none) : (relayStopReading t f).relayIn = { f.relayIn with stop := none } := by
  have hcount : ¬(f.leaveWait .relay).relayIn.count.isSome = true := by
    rw [show (f.leaveWait .relay).relayIn = f.relayIn from rfl, hc]
    simp
  simp only [relayStopReading, hr, hcount]
  rfl

/-! ### The capture unit (R181 to R190) -/

/-- Shared RAM, the news flags and the capture writer change, and nothing else. -/
def Flow.Captures (f g : Flow) : Prop :=
  ∃ (ram : List Host.Cell) (news : NewsFlags) (writer : Writer), g = { f with ram, news, writer }

theorem Flow.Captures.refl (f : Flow) : f.Captures f := ⟨f.ram, f.news, f.writer, rfl⟩

theorem Flow.Captures.trans {f g h : Flow} (a : f.Captures g) (b : g.Captures h) : f.Captures h := by
  obtain ⟨_, _, _, rfl⟩ := a
  obtain ⟨ram, news, writer, rfl⟩ := b
  exact ⟨ram, news, writer, rfl⟩

theorem captureRoom_captures (t : Tables) (f : Flow) (n : Nat) : f.Captures (captureRoom t f n).2 := by
  unfold captureRoom
  split
  · exact .refl f
  · exact ⟨_, _, _, rfl⟩

theorem captureWrite_captures (t : Tables) (f : Flow) (c : CaptureRecord) : f.Captures (captureWrite t f c) := by
  unfold captureWrite
  split
  · exact .refl f
  · simp only
    split <;> exact ⟨_, _, _, rfl⟩

theorem captureLost_captures (f : Flow) : f.Captures (captureLost f) := ⟨_, _, _, rfl⟩

theorem captureOffer_captures (t : Tables) (f : Flow) (c : CaptureRecord) : f.Captures (captureOffer t f c) := by
  unfold captureOffer
  simp only
  split
  · exact (captureRoom_captures ..).trans (captureWrite_captures ..)
  · exact (captureRoom_captures ..).trans (captureLost_captures _)

theorem captureCommit_captures (t : Tables) (f : Flow) : f.Captures (captureCommit t f) := by
  unfold captureCommit
  split
  · exact ⟨_, _, _, rfl⟩
  · exact .refl f

theorem event_captures (t : Tables) (n : Nat) (f : Flow) (c : CaptureRecord) : f.Captures (event t n f c) := by
  unfold event
  split
  · split
    · exact captureOffer_captures ..
    · simp only
      split
      · exact (captureRoom_captures ..).trans (captureLost_captures _)
      · split
        · exact (captureRoom_captures ..).trans (captureWrite_captures ..)
        · exact captureLost_captures f
  · exact .refl f

theorem controllerRecord_captures (t : Tables) (f : Flow) (o : Byte) (r : Option Byte) :
    f.Captures (controllerRecord t f o r) := (event_captures ..).trans (captureCommit_captures ..)

/-! ### What the entry to STOPPING leaves (R128, R174, R202) -/

/-- The entry events of STOPPING after the relay channel has stopped reading. -/
theorem stoppingEvents_after_relay (t : Tables) (n : Nat) (f : Flow) :
    (relayStopReading t (controllerRecord t f recStopping none)).Keeps (stoppingEvents t n f) :=
  (releaseAll_keeps ..).after ((stopJobs_keeps ..).after ((refuseHeads_keeps ..).after ((stopJobs_keeps ..).after
    (releaseAll_keeps ..))))

theorem stoppingEvents_idle (t : Tables) (n : Nat) (f : Flow)
    (h : ∀ j, (f.jobs.get j).active = true → (f.jobs.get j).slot.isSome) (j : JobIx) :
    ((stoppingEvents t n f).jobs.get j).state = .idle := by
  have hrelay : ∀ j, ((relayStopReading t (controllerRecord t f recStopping none)).jobs.get j).active = true →
      ((relayStopReading t (controllerRecord t f recStopping none)).jobs.get j).slot.isSome := by
    rw [relayStopReading_jobs]
    exact (controllerRecord_keeps ..).jobSlots h
  have hbefore := (refuseHeads_keeps t _).after ((stopJobs_keeps t (fun j => !Config.headsBeforeJobs n j) _).after
    (releaseAll_keeps t (Config.claimsBeforeJobs n) (relayStopReading t (controllerRecord t f recStopping none))))
  exact (releaseAll_keeps ..).idle j (stopJobs_idle t _ _ (hbefore.jobSlots hrelay) j rfl)

theorem stoppingEvents_notInForce (t : Tables) (n : Nat) (f : Flow) (e : EcuIx) :
    ((stoppingEvents t n f).claims.get e).inForce = false := releaseAll_notInForce t _ _ e rfl

theorem stoppingEvents_relayIn {t : Tables} {n : Nat} {f : Flow} {r : Ring} (hr : t.relayInRing = some r) :
    (stoppingEvents t n f).relayIn = (relayStopReading t (controllerRecord t f recStopping none)).relayIn := by
  obtain ⟨hcount, hstop⟩ := relayStopReading_none t (controllerRecord t f recStopping none) (by rw [hr]; rfl)
  exact (stoppingEvents_after_relay t n f).relayIn hcount hstop

theorem Flow.hasNews_setNews (f : Flow) (n : News) : (f.setNews n).hasNews n = true := by
  simp only [Flow.hasNews, Flow.setNews, bne_iff_ne, ne_eq]
  intro h
  have hbit := congrArg (fun x => x.getLsbD n.bit) h
  have hflag : (n.flag).getLsbD n.bit = true := by cases n <;> decide
  simp [hflag] at hbit

theorem Flow.Keeps.hasNews {f g : Flow} (h : f.Keeps g) {n : News} (hn : f.hasNews n = true) : g.hasNews n = true :=
  hasNews_of_kept h.news hn

/-- The relay channel after the entry events of STOPPING (R202). -/
theorem stoppingEvents_relay {t : Tables} (n : Nat) (f : Flow) {r : Ring} (hr : t.relayInRing = some r) :
    (f.relayIn.count = none → (stoppingEvents t n f).relayIn = { f.relayIn with stop := none })
    ∧ (f.relayIn.count.isSome → (stoppingEvents t n f).hasNews .relayInFree = true
      ∧ (stoppingEvents t n f).relayIn =
        { page := (f.relayIn.page + 1) % r.pages, record := 0, offset := 16, count := none, stop := none }) := by
  have hsame : (controllerRecord t f recStopping none).relayIn = f.relayIn := by
    obtain ⟨_, _, _, he⟩ := controllerRecord_captures t f recStopping none
    rw [he]
  rw [stoppingEvents_relayIn hr, ← hsame]
  refine ⟨relayStopReading_between hr, fun hcount => ?_⟩
  rw [relayStopReading_page hr hcount]
  refine ⟨(stoppingEvents_after_relay t n f).hasNews ?_, rfl⟩
  rw [relayStopReading_page hr hcount]
  exact Flow.hasNews_setNews _ .relayInFree

theorem slotsFrom_eq : ∀ p : Slot, slotsFrom p = (List.finRange 16).map fun i => p + i := by decide

/-- A held head at the entry to STOPPING: nothing is refused of a slot without an inbound message. -/
theorem refuseHeldHead_settled (t : Tables) (f : Flow) (k : Slot) : settled t (refuseHeldHead t f k) =
    match (f.slots.get k).held, (f.slots.get k).inbound with
    | some h, m :: _ =>
      let a := if h.passed = true then headRefuse t f k .heldTooLong h.ecu (some (classOf t m.msg.code))
        else headRefuse t f k .stopping none none
      settle t a.2 a.1
    | _, _ => f := by
  unfold refuseHeldHead
  cases hheld : (f.slots.get k).held with
  | none => rfl
  | some h =>
    cases hin : (f.slots.get k).inbound with
    | nil => cases hp : h.passed <;> simp [tooLong, headRefuse, hheld, hin, hp]
    | cons m rest =>
      simp only [tooLong, hheld, hin]
      split <;> rfl

/-- Settles O7: the entry events are run in the order of the model's STOPPING; what they leave follows from what each
keeps. -/
theorem enableClearedStops : Obligations.EnableClearedStops := by
  refine ⟨fun w st s hreset hw hctl hen hslots => ?_, fun t f r hr hc => relayStopReading_page hr hc,
    fun w st s hreset hw hctl hen => ?_⟩
  · have hexec := exec_enable_stops (st := st) hreset hw hctl hen
    have hidle := stoppingEvents_idle { s.tab with ctl := .stopping } s.fresh (s.store st).flow hslots
    have hnone := stoppingEvents_notInForce { s.tab with ctl := .stopping } s.fresh (s.store st).flow
    have hrelay (r : Ring) := stoppingEvents_relay (t := { s.tab with ctl := .stopping }) s.fresh (s.store st).flow (r := r)
    generalize stoppingEvents { s.tab with ctl := .stopping } s.fresh (s.store st).flow = g at hexec hidle hnone hrelay
    exact ⟨_, hexec, rfl, rfl, rfl, rfl, rfl, rfl, rfl, rfl, rfl, rfl, rfl, hidle, hnone, hrelay⟩
  · have hheads (t : Tables) (f : Flow) : refuseHeads t f =
        (((List.finRange 16).map fun i => f.visitPos + i).filter fun k => (f.slots.get k).held.isSome).foldl (fun g k =>
          match (g.slots.get k).held, (g.slots.get k).inbound with
          | some h, m :: _ =>
            let a := if h.passed = true then headRefuse t g k .heldTooLong h.ecu (some (classOf t m.msg.code))
              else headRefuse t g k .stopping none none
            settle t a.2 a.1
          | _, _ => g) f := by
      simp only [refuseHeads, heldSlots, slotsFrom_eq, refuseHeldHead_settled]
    intro t n releases ends refuses recorded first held
    rw [exec_enable_stops hreset hw hctl hen]
    have hflow : stoppingEvents t n (s.store st).flow
        = releases (fun _ => true) (ends (fun _ => true) (held.foldl refuses first)) := by
      unfold stoppingEvents
      simp only [hheads]
      rfl
    rw [← hflow]

end Sys2Proof.Machine
end

section
/-! The end of STOPPING: O12. -/

namespace Sys2Proof.Machine

/-! ### What OFF leaves of the traffic (R197) -/

theorem foldl_releaseCharge (cs : List Charge) (f : Flow) : ∃ u, cs.foldl releaseCharge f =
    { f with free := f.free + (cs.map (·.cells)).sum, usage := u } := by
  induction cs generalizing f with
  | nil => exact ⟨f.usage, rfl⟩
  | cons c cs ih =>
    obtain ⟨u, hu⟩ := ih (releaseCharge f c)
    refine ⟨u, hu.trans ?_⟩
    simp only [releaseCharge, List.map_cons, List.sum_cons, Nat.add_assoc]

/-- The writer of the relay channel, its ring and its news flag change, and nothing else. -/
theorem relayCommit_eq (t : Tables) (f : Flow) :
    ∃ ram news relayOut, relayCommit t f = { f with ram, news, relayOut } := by
  unfold relayCommit
  split
  · exact ⟨_, _, _, rfl⟩
  · exact ⟨f.ram, f.news, f.relayOut, rfl⟩

/-- The commit of the relay page does not look at the waiting list. -/
theorem relayCommit_ram_waiting (t : Tables) (f : Flow) (ws : List Waiter) :
    (relayCommit t { f with waiting := ws }).ram = (relayCommit t f).ram := by
  unfold relayCommit
  cases t.relayOutRing with
  | none => rfl
  | some r => cases f.relayOut.page <;> rfl

/-- The traffic of OFF: the two rings committed, every queue and context empty, and the cells of what was left free. -/
theorem offEvents_eq (t : Tables) (f : Flow) : ∃ news writer relayOut usage,
    offEvents t f = Flow.setNews { f with
      ram := (relayCommit t (controllerRecord t f recOff none)).ram, news, writer, relayOut, usage
      waiting := [], free := f.free + ((leftCharges f).map (·.cells)).sum
      slots := f.slots.map SlotFlow.stop, ports := f.ports.map PortFlow.stop, again := [], roomReport := false
      } .stopped := by
  have hram := relayCommit_ram_waiting t (controllerRecord t f recOff none) []
  obtain ⟨ram, news, writer, hrecord⟩ := controllerRecord_captures t f recOff none
  obtain ⟨ram', news', relayOut, hcommit⟩ := relayCommit_eq t { controllerRecord t f recOff none with waiting := [] }
  obtain ⟨usage, hfree⟩ := foldl_releaseCharge (leftCharges f)
    (relayCommit t { controllerRecord t f recOff none with waiting := [] })
  have hleft : leftCharges (relayCommit t { controllerRecord t f recOff none with waiting := [] }) = leftCharges f := by
    rw [hcommit, hrecord]
    rfl
  refine ⟨news', writer, relayOut, usage, ?_⟩
  unfold offEvents
  simp only [hleft, hfree]
  rw [← hram, hcommit, hrecord]

/-- An entry of the part to OFF, from which it goes on to STARTING when ENABLE is set (R197). -/
theorem exec_enterOff {s : State} (hctl : s.tab.ctl = .stopping) (hdrained : drained s.flow = true) :
    exec .enterOff s = .next (enterOff s) := by
  change execEnterOff s = _
  simp only [execEnterOff, hctl, hdrained, beq_self_eq_true, Bool.and_self, if_true]

theorem exec_enterOff_waits {s : State} (h : ¬(s.tab.ctl = .stopping ∧ drained s.flow = true)) :
    exec .enterOff s = .next s := by
  change execEnterOff s = _
  unfold execEnterOff
  rw [if_neg]
  simpa using h

/-- What OFF keeps of the traffic, with ENABLE set or clear. -/
theorem enterOff_flow (s : State) : ∃ look lookDue,
    (enterOff s).flow = { offEvents s.tab s.flow with look := look, lookDue := lookDue } := by
  unfold enterOff
  simp only
  split
  · exact ⟨none, false, rfl⟩
  · exact ⟨(offEvents s.tab s.flow).look, (offEvents s.tab s.flow).lookDue, rfl⟩

/-- What OFF keeps of the registers and the tables. -/
theorem enterOff_state (s : State) :
    (enterOff s).tab.ctl = (if s.enable then .starting else .off) ∧ (s.enable = false → (enterOff s).tab.dir = s.tab.dir)
    ∧ (enterOff s).tab.testers = s.tab.testers ∧ (enterOff s).tab.ecus = s.tab.ecus
    ∧ (enterOff s).tab.classMap = s.tab.classMap
    ∧ (enterOff s).tab.conds = s.tab.conds.map (fun c => { c with deadline := none })
    ∧ (enterOff s).rot = { s.rot with deadline := none } ∧ (enterOff s).scanDl = none
    ∧ (enterOff s).grants = s.grants.map (Grant.stop s.tab.now) := by
  unfold enterOff
  cases s.enable <;> exact ⟨rfl, by simp, rfl, rfl, rfl, rfl, rfl, rfl, rfl⟩

/-- Settles O12: the traffic of OFF is `offEvents_eq`; ENABLE set only puts STARTING, without a directory, in its place. -/
theorem enterOffWhenDrained : Obligations.EnterOffWhenDrained := by
  refine ⟨fun s hctl hdrained => ⟨_, exec_enterOff hctl hdrained, ?_⟩, fun s h => exec_enterOff_waits h,
    fun s hctl hdrained => ⟨_, exec_enterOff hctl hdrained, ?_⟩, drained_iff⟩
  · obtain ⟨hto, hdir, htesters, hecus, hclasses, hconds, hrot, hscan, hgrants⟩ := enterOff_state s
    obtain ⟨look, lookDue, hflow⟩ := enterOff_flow s
    obtain ⟨news, writer, relayOut, usage, hoff⟩ := offEvents_eq s.tab s.flow
    rw [hoff] at hflow
    refine ⟨hto, hdir, htesters, hecus, hclasses, fun i => ?_, hrot, hscan, fun i => ?_, fun k => ?_, fun p => ?_, ?_⟩
    · rw [hconds, Vector.map_get]
    · rw [hgrants, Vector.map_get, Grant.stop]
      cases (s.grants.get i).life <;> rfl
    · rw [hflow]
      simp only [Flow.setNews, Vector.map_get]
      exact ⟨rfl, rfl, rfl⟩
    · rw [hflow]
      simp only [Flow.setNews, Flow.ctx, Flow.port, Vector.map_get]
      refine ⟨fun c => ?_, rfl, rfl, rfl⟩
      simp [PortFlow.stop, Vector.get]
    · rw [hflow]
      exact ⟨rfl, rfl, Flow.hasNews_setNews _ .stopped⟩
  · obtain ⟨look, lookDue, hflow⟩ := enterOff_flow s
    obtain ⟨news, writer, relayOut, usage, hoff⟩ := offEvents_eq s.tab s.flow
    rw [hflow, hoff]
    rfl

end Sys2Proof.Machine
end

section
/-! The checks of STARTING: O11. -/

namespace Sys2Proof.Machine

theorem exec_startingCheckFails_error {s : State} {c : FaultCode} (hctl : s.tab.ctl = .starting)
    (h : readStarting s = .error c) : exec .startingCheckFails s = .next (enterFaulted s c false) := by
  change execStartingCheckFails s = _
  simp only [execStartingCheckFails, hctl, h]

theorem exec_startingCheckFails_else {s : State} (h : s.tab.ctl ≠ .starting ∨ ∃ x, readStarting s = .ok x) :
    exec .startingCheckFails s = .next s := by
  change execStartingCheckFails s = _
  unfold execStartingCheckFails
  split
  · rename_i c hctl hread
    obtain hne | ⟨x, hx⟩ := h
    · exact absurd hctl hne
    · rw [hread] at hx
      exact absurd hx (by simp)
  · rfl

/-- There is no last attempt of the capture unit outside RUNNING and STOPPING (R190). -/
theorem lastAttempt_inactive {t : Tables} (h : t.active = false) (f : Flow) (c : FaultCode) (again : Bool) :
    lastAttempt t f c again = f := by
  simp only [lastAttempt, h, Bool.false_and, Bool.false_eq_true, if_false]

theorem Tables.active_of_starting {t : Tables} (h : t.ctl = .starting) : t.active = false := by
  simp only [Tables.active, h]
  rfl

/-- Settles O11: the directory's checks are `readDirectory_eq`, the settings leaf's `readStarting_eq`. -/
theorem startingFails : Obligations.StartingFails := by
  refine ⟨fun s c hctl h => ?_, fun s => ?_, fun s => exec_startingCheckFails_else, readDirectory_eq, readStarting_eq⟩
  · rw [exec_startingCheckFails_error hctl h, enterFaulted, lastAttempt_inactive (Tables.active_of_starting hctl)]
    rfl
  · intro head h
    refine (readStarting_eq s).1 _ ((readDirectory_eq s.flow.ram s.xbase.toNat).1 ?_)
    rintro ⟨hsig, hlow, hhigh⟩
    obtain h | h | h := h
    · exact h hsig
    · exact absurd (show (byteAt head 4).toNat = 0 from h) (by intro h0; rw [h0] at hlow; omega)
    · exact absurd hhigh (Nat.not_le.mpr h)

end Sys2Proof.Machine
end

section
/-! ATTENTION and the scan timer: O9. -/

namespace Sys2Proof.Machine

/-! ### The order look (R212) -/

theorem seekPosted_eq (d : Directory) (ram : List Host.Cell) : ∀ (left n : Nat), n < d.slots →
    let slotAt := fun i => (n + i) % d.slots
    let isPosted := fun i => ramNum ram (d.orderAddr (slotAt i)) 4 = 1
    (seekPosted d ram left n = none ∧ ∀ i < left, ¬isPosted i)
    ∨ ∃ i < left, isPosted i ∧ (∀ j < i, ¬isPosted j)
      ∧ seekPosted d ram left n = some { next := slotAt i, left := left - i }
  | 0, n, _ => .inl ⟨rfl, fun i h => absurd h (Nat.not_lt_zero i)⟩
  | left + 1, n, hn => by
    intro slotAt isPosted
    have hzero : slotAt 0 = n := Nat.mod_eq_of_lt hn
    have hsucc (i : Nat) : slotAt (i + 1) = ((n + 1) % d.slots + i) % d.slots := by
      simp only [slotAt, Nat.mod_add_mod, Nat.add_assoc, Nat.add_comm 1]
    by_cases hp : isPosted 0
    · refine .inr ⟨0, Nat.succ_pos left, hp, fun j h => absurd h (Nat.not_lt_zero j), ?_⟩
      simp only [isPosted, hzero] at hp
      simp [seekPosted, posted, hp, hzero]
    · have hp' : ¬ramNum ram (d.orderAddr n) 4 = posted := by
        rw [← hzero]
        exact hp
      have hstep : seekPosted d ram (left + 1) n = seekPosted d ram left ((n + 1) % d.slots) := by
        simp only [seekPosted, hp', if_false]
      have hmod : (n + 1) % d.slots < d.slots := Nat.mod_lt _ (by omega)
      rw [hstep]
      obtain ⟨hnone, hall⟩ | ⟨i, hi, hpi, hbefore, hsome⟩ := seekPosted_eq d ram left _ hmod
      · refine .inl ⟨hnone, fun i hi => ?_⟩
        cases i with
        | zero => exact hp
        | succ i => simpa only [isPosted, hsucc] using hall i (by omega)
      · refine .inr ⟨i + 1, by omega, by simpa only [isPosted, hsucc] using hpi, fun j hj => ?_, ?_⟩
        · cases j with
          | zero => exact hp
          | succ j => simpa only [isPosted, hsucc] using hbefore j (by omega)
        · rw [hsome, hsucc, Nat.add_sub_add_right]

/-! ### The relay channel and the rings (R182, R202, R203) -/

theorem relayPages_succ (r : Ring) (n : Nat) (f : Flow) :
    let took := { f with ram := ramWrite f.ram (r.pageAddr f.relayIn.page) [2, 0, 0, 0] }
    let count := ramNum took.ram (r.pageAddr f.relayIn.page + 4) 2
    (r.stateOf f.ram f.relayIn.page ≠ 1 → relayPages r (n + 1) f = f)
    ∧ (r.stateOf f.ram f.relayIn.page = 1 → count = 0 → relayPages r (n + 1) f = relayPages r n (relayPageDone r took))
    ∧ (r.stateOf f.ram f.relayIn.page = 1 → count ≠ 0 → relayPages r (n + 1) f = { took with
      relayIn := { page := f.relayIn.page, record := 0, offset := 16, count := some count, stop := none } }) := by
  intro took count
  refine ⟨fun h => ?_, fun h hc => ?_, fun h hc => ?_⟩
  · have hstate : ¬r.stateOf f.ram f.relayIn.page = pageFilled := h
    simp only [relayPages, hstate, if_false]
  · have hstate : r.stateOf f.ram f.relayIn.page = pageFilled := h
    have hcount : ramNum (ramWrite f.ram (r.pageAddr f.relayIn.page) (leBytes 4 pageTaken))
      (r.pageAddr f.relayIn.page + 4) 2 = 0 := hc
    simp only [relayPages, hstate, hcount, if_true]
    rfl
  · have hstate : r.stateOf f.ram f.relayIn.page = pageFilled := h
    have hcount : ¬ramNum (ramWrite f.ram (r.pageAddr f.relayIn.page) (leBytes 4 pageTaken))
      (r.pageAddr f.relayIn.page + 4) 2 = 0 := hc
    simp only [relayPages, hstate, hcount, if_true, if_false]
    rfl

theorem relayBegin_begins {t : Tables} {f : Flow} {r : Ring} (hctl : t.ctl = .running) (hr : t.relayInRing = some r)
    (hcount : f.relayIn.count = none) (hstop : f.relayIn.stop = none) :
    relayBegin t f = relayPages r (r.pages + 1) f := by
  simp only [relayBegin, hr, hctl, hcount, hstop, beq_self_eq_true, Option.isNone_none, Bool.and_self, if_true]

theorem captureReread_unblocks {t : Tables} {f : Flow} {r : Ring} (hr : t.captureRing = some r)
    (hb : f.writer.blocked = true) (he : r.stateOf f.ram (f.writer.nextPage r) = 0) :
    captureReread t f = Flow.markHeads { f with
      writer := { f.writer with blocked := false }, roomReport := true } fun _ h => h.reason == .capture := by
  have hempty : r.stateOf f.ram (f.writer.nextPage r) = pageEmpty := he
  simp [captureReread, hr, Writer.reread, hb, hempty]

theorem Writer.reread_same {w : Writer} {r : Ring} {ram : List Host.Cell}
    (h : w.blocked = false ∨ r.stateOf ram (w.nextPage r) ≠ 0) : w.reread r ram = w := by
  have : ¬(w.blocked = true ∧ r.stateOf ram (w.nextPage r) = pageEmpty) := by
    rintro ⟨hb, he⟩
    exact h.elim (fun h => by simp [hb] at h) (fun h => h he)
  unfold Writer.reread
  rw [if_neg (by simpa using this)]

theorem captureReread_same {t : Tables} {f : Flow} {r : Ring} (hr : t.captureRing = some r)
    (h : f.writer.blocked = false ∨ r.stateOf f.ram (f.writer.nextPage r) ≠ 0) : captureReread t f = f := by
  simp [captureReread, hr, Writer.reread_same h]

theorem relayReread_unblocks {t : Tables} {f : Flow} {r : Ring} (hr : t.relayOutRing = some r)
    (hb : f.relayOut.blocked = true) (he : r.stateOf f.ram (f.relayOut.nextPage r) = 0) :
    relayReread t f = { f with relayOut := { f.relayOut with blocked := false } } := by
  have hempty : r.stateOf f.ram (f.relayOut.nextPage r) = pageEmpty := he
  simp [relayReread, hr, Writer.reread, hb, hempty]

theorem relayReread_same {t : Tables} {f : Flow} {r : Ring} (hr : t.relayOutRing = some r)
    (h : f.relayOut.blocked = false ∨ r.stateOf f.ram (f.relayOut.nextPage r) ≠ 0) : relayReread t f = f := by
  simp [relayReread, hr, Writer.reread_same h]

/-- The rings leave the order board as it is. -/
structure Flow.SameBoard (f g : Flow) : Prop where
  look : g.look = f.look
  lookDue : g.lookDue = f.lookDue
  boardPos : g.boardPos = f.boardPos

theorem Flow.SameBoard.trans {f g h : Flow} (a : f.SameBoard g) (b : g.SameBoard h) : f.SameBoard h :=
  ⟨b.look.trans a.look, b.lookDue.trans a.lookDue, b.boardPos.trans a.boardPos⟩

theorem Flow.SameBoard.after {f g h : Flow} (b : g.SameBoard h) (a : f.SameBoard g) : f.SameBoard h := a.trans b

theorem relayPages_sameBoard (r : Ring) : ∀ (n : Nat) (f : Flow), f.SameBoard (relayPages r n f)
  | 0, _ => ⟨rfl, rfl, rfl⟩
  | n + 1, f => by
    obtain ⟨hother, hempty, hfilled⟩ := relayPages_succ r n f
    by_cases hstate : r.stateOf f.ram f.relayIn.page = 1
    · by_cases hcount : ramNum (ramWrite f.ram (r.pageAddr f.relayIn.page) [2, 0, 0, 0])
        (r.pageAddr f.relayIn.page + 4) 2 = 0
      · rw [hempty hstate hcount]
        exact (relayPages_sameBoard r n _).after ⟨rfl, rfl, rfl⟩
      · rw [hfilled hstate hcount]
        exact ⟨rfl, rfl, rfl⟩
    · rw [hother hstate]
      exact ⟨rfl, rfl, rfl⟩

theorem relayBegin_sameBoard (t : Tables) (f : Flow) : f.SameBoard (relayBegin t f) := by
  unfold relayBegin
  split
  · exact ⟨rfl, rfl, rfl⟩
  · split
    · exact relayPages_sameBoard ..
    · exact ⟨rfl, rfl, rfl⟩

theorem captureReread_sameBoard (t : Tables) (f : Flow) : f.SameBoard (captureReread t f) := by
  unfold captureReread
  split
  · exact ⟨rfl, rfl, rfl⟩
  · simp only
    split <;> exact ⟨rfl, rfl, rfl⟩

theorem relayReread_sameBoard (t : Tables) (f : Flow) : f.SameBoard (relayReread t f) := by
  unfold relayReread
  split <;> exact ⟨rfl, rfl, rfl⟩

/-! ### ATTENTION (R212, R199) -/

theorem exec_attention (w : Word) (st : Stores) (s : State) :
    exec (.attention w st) s = .next ((s.store st).withFlow (attend s.tab (s.store st).flow)) := rfl

theorem attend_active {t : Tables} (f : Flow) (h : t.ctl = .running ∨ t.ctl = .stopping) :
    attend t f = relayReread t (captureReread t (relayBegin t (lookAt t f))) := by
  obtain h | h := h <;> simp [attend, Tables.active, h]

theorem attend_off {t : Tables} (f : Flow) (h : t.ctl = .off) : attend t f = lookAt t f := by
  simp [attend, Tables.active, h]

theorem attend_none {t : Tables} (f : Flow) (h : t.ctl = .starting ∨ t.ctl = .faulted) : attend t f = f := by
  obtain h | h := h <;> simp [attend, Tables.active, h]

theorem attend_sameBoard {t : Tables} (f : Flow) (h : t.ctl = .off ∨ t.ctl = .running ∨ t.ctl = .stopping) :
    (lookAt t f).SameBoard (attend t f) := by
  obtain h | h := h
  · rw [attend_off f h]
    exact ⟨rfl, rfl, rfl⟩
  · rw [attend_active f h]
    exact (relayBegin_sameBoard ..).trans ((captureReread_sameBoard ..).trans (relayReread_sameBoard ..))

/-- The look of an ATTENTION: under way it is due again, else it begins at the board position. -/
theorem lookAt_dir {t : Tables} {d : Directory} (h : t.dir = some d) (f : Flow) :
    lookAt t f = if f.look.isSome then { f with lookDue := true } else beginLook d f := by
  simp only [lookAt, h]

theorem Tables.active_iff (t : Tables) : t.active = true ↔ t.ctl = .running ∨ t.ctl = .stopping := by
  simp [Tables.active]

theorem exec_scan_due {dt : Nat} {s : State} (hactive : (s.advance dt).tab.active = true)
    (hdue : expired (s.advance dt).tab.now s.scanDl = true) :
    exec (.scan dt) s = .next { s.advance dt with
      flow := attend (s.advance dt).tab (s.advance dt).flow
      scanDl := s.scanDl.map fun d => after d s.tab.scan } := by
  change execScan dt s = _
  simp only [execScan, hactive, State.advance_scanDl, hdue, State.advance_scan, Bool.and_self, if_true]

theorem exec_scan_waits {dt : Nat} {s : State} (h : s.tab.active = false ∨ expired (s.advance dt).tab.now s.scanDl = false) :
    exec (.scan dt) s = .next (s.advance dt) := by
  have hnot : ((s.advance dt).tab.active && expired (s.advance dt).tab.now s.scanDl) = false :=
    h.elim (fun h => by rw [show (s.advance dt).tab.active = false from h, Bool.false_and])
      (fun h => by rw [h, Bool.and_false])
  change execScan dt s = _
  simp only [execScan, State.advance_scanDl, hnot, Bool.false_eq_true, if_false]

/-- Settles O9: what ATTENTION does in each controller state is `attend`, the look is `seekPosted_eq`. -/
theorem attentionReaches : Obligations.AttentionReaches := by
  refine ⟨⟨fun w st s => ?_, fun dt s => ?_⟩, ⟨fun w st s d hdir hpos hctl => ?_, ?_, ?_, ?_⟩, ?_⟩
  · intro u
    refine ⟨fun h => ?_, fun h => ?_, fun h => ?_⟩
    · rw [exec_attention, attend_none _ h]
      rfl
    · rw [exec_attention, attend_off _ h]
    · rw [exec_attention, attend_active _ h]
  · intro u
    refine ⟨fun d hctl hdl hreached => ?_, fun h => ?_⟩
    · have hdue : expired u.tab.now s.scanDl = true := by rw [hdl]; exact hreached
      have hactive : u.tab.active = true := (Tables.active_iff _).mpr hctl
      rw [exec_scan_due hactive hdue, hdl, attend_active (t := (s.advance dt).tab) _ hctl]
      rfl
    · exact exec_scan_waits h
  · have hsame := attend_sameBoard (s.store st).flow hctl
    have hlook := lookAt_dir hdir (s.store st).flow
    refine ⟨_, exec_attention w st s, hsame.boardPos.trans ?_, fun hunder => ?_, fun hnone => ?_⟩
    · rw [hlook]
      split <;> rfl
    · have hunder' : (s.store st).flow.look.isSome = true := hunder
      rw [if_pos hunder'] at hlook
      exact ⟨hsame.look.trans (by rw [hlook]; rfl), hsame.lookDue.trans (by rw [hlook])⟩
    · intro slotAt isPosted
      have hnone' : ¬(s.store st).flow.look.isSome = true := by
        rw [show (s.store st).flow.look = none from hnone]
        simp
      rw [if_neg hnone'] at hlook
      have hbegins : ((s.store st).withFlow (attend s.tab (s.store st).flow)).flow.look
          = seekPosted d (s.store st).flow.ram d.slots s.flow.boardPos := hsame.look.trans (by rw [hlook]; rfl)
      rw [hbegins]
      exact ⟨hsame.lookDue.trans (by rw [hlook]; rfl), seekPosted_eq d (s.store st).flow.ram d.slots s.flow.boardPos hpos⟩
  · intro t f r hctl hr hcount hstop hstate ram n hn
    rw [relayBegin_begins hctl hr hcount hstop]
    exact (relayPages_succ r r.pages f).2.2 hstate hn
  · exact fun t f r => captureReread_unblocks
  · exact fun t f r => captureReread_same
  · exact fun t f r hr => ⟨relayReread_unblocks hr, relayReread_same hr⟩

end Sys2Proof.Machine
end

section
/-! The condition monitor: O14, O15 and O16. -/

namespace Sys2Proof.Machine

/-! ### The rotation monitor (R29) -/

theorem exec_rotEdge (s : State) : exec .rotEdge s =
    if s.tab.active then .next { s with rot := { s.rot with running := min 65535 (s.rot.running + 1) } } else .next s := rfl

theorem exec_windowEnd (dt : Nat) (s : State) : exec (.windowEnd dt) s =
    if s.tab.active && expired (s.advance dt).tab.now s.rot.deadline then
      .next (reportRaw { s.advance dt with rot := s.rot.windowEnd } 2 (decide (s.rot.running ≤ s.rot.threshold)))
    else .next (s.advance dt) := rfl

/-- A command of a timer that is not due, or of a block that is not at work, changes nothing. -/
theorem not_both {a b : Bool} (h : a = false ∨ b = false) : ¬(a && b) = true := by
  obtain h | h := h <;> simp [h]

/-- Settles O14: the window and the edge by their definitions, the raw change by `reportRaw_eq`. -/
theorem rotationMonitor : Obligations.RotationMonitor := by
  refine ⟨fun s => ⟨fun h => ?_, fun h => ?_⟩, fun dt s => ?_, reportRaw_eq⟩
  · rw [exec_rotEdge, if_pos ((Tables.active_iff _).mpr h)]
  · rw [exec_rotEdge, if_neg (by rw [Tables.active_iff]; tauto)]
  · intro u
    refine ⟨fun d hactive hdl hreached => ?_, fun h => ?_⟩
    · have hdue : expired (s.advance dt).tab.now s.rot.deadline = true := by rw [hdl]; exact hreached
      rw [exec_windowEnd, if_pos (by rw [hactive, hdue]; rfl), Rotation.windowEnd, hdl]
      rfl
    · rw [exec_windowEnd, if_neg (not_both h)]

/-! ### Raw changes and the timers of the conditions (R26) -/

theorem exec_rawChange (l : CondLine) (b : Bool) (s : State) : exec (.rawChange l b) s =
    if s.tab.active then .next (reportRaw { s with lines := s.lines.put l b } (lineCond l) b)
    else .next { s with lines := s.lines.put l b } := rfl

theorem exec_riseTimerExpiry (i : CondIx) (dt : Nat) (s : State) : exec (.riseTimerExpiry i dt) s =
    if s.tab.active && (s.tab.conds.get i).qual == .rising && expired (s.advance dt).tab.now (s.tab.conds.get i).deadline then
      .next (putCondition (s.advance dt) i (s.tab.conds.get i).timerDone)
    else .next (s.advance dt) := rfl

theorem exec_fallTimerExpiry (i : CondIx) (dt : Nat) (s : State) : exec (.fallTimerExpiry i dt) s =
    if s.tab.active && (s.tab.conds.get i).qual == .falling && expired (s.advance dt).tab.now (s.tab.conds.get i).deadline then
      .next (putCondition (s.advance dt) i (s.tab.conds.get i).timerDone)
    else .next (s.advance dt) := rfl

theorem putCondition_qualifies {s : State} {i : CondIx} {c : Condition}
    (h : (s.tab.conds.get i).qualified ≠ c.qualified) : putCondition s i c =
    let t := { s.tab with conds := Vector.putRow s.tab.conds i c }
    { s with tab := t, flow := settled t (qualifiedChange t s.flow i c.qualified) } := by
  simp only [putCondition, h, if_false]

theorem exec_rise_ends {i : CondIx} {dt : Nat} {s : State} (hactive : s.tab.active = true)
    (hqual : (s.tab.conds.get i).qual = .rising)
    (hdue : expired (s.advance dt).tab.now (s.tab.conds.get i).deadline = true) :
    let u := s.advance dt
    let t := { u.tab with conds := Vector.putRow u.tab.conds i { s.tab.conds.get i with qual := .isTrue, deadline := none } }
    exec (.riseTimerExpiry i dt) s = .next { u with tab := t, flow := settled t (qualifiedChange t u.flow i true) } := by
  have hdone : (s.tab.conds.get i).timerDone = { s.tab.conds.get i with qual := .isTrue, deadline := none } := by
    simp only [Condition.timerDone, hqual]
  rw [exec_riseTimerExpiry, if_pos (by rw [hactive, hqual, hdue]; rfl), hdone,
    putCondition_qualifies (by simp [Condition.qualified, hqual])]
  rfl

theorem exec_fall_ends {i : CondIx} {dt : Nat} {s : State} (hactive : s.tab.active = true)
    (hqual : (s.tab.conds.get i).qual = .falling)
    (hdue : expired (s.advance dt).tab.now (s.tab.conds.get i).deadline = true) :
    let u := s.advance dt
    let t := { u.tab with conds := Vector.putRow u.tab.conds i { s.tab.conds.get i with qual := .isFalse, deadline := none } }
    exec (.fallTimerExpiry i dt) s = .next { u with tab := t, flow := settled t (qualifiedChange t u.flow i false) } := by
  have hdone : (s.tab.conds.get i).timerDone = { s.tab.conds.get i with qual := .isFalse, deadline := none } := by
    simp only [Condition.timerDone, hqual]
  rw [exec_fallTimerExpiry, if_pos (by rw [hactive, hqual, hdue]; rfl), hdone,
    putCondition_qualifies (by simp [Condition.qualified, hqual])]
  rfl

theorem not_all_three {a b : Bool} {q r : Qual} (h : a = false ∨ q ≠ r ∨ b = false) : ¬((a = true ∧ q = r) ∧ b = true) := by
  rintro ⟨⟨ha, hq⟩, hb⟩
  obtain h | h | h := h
  · simp [ha] at h
  · exact h hq
  · simp [hb] at h

/-- Settles O15: a raw change in RUNNING and STOPPING is `reportRaw_eq`, a timer that ends changes the qualified value. -/
theorem rawChangesAndTimers : Obligations.RawChangesAndTimers := by
  refine ⟨fun l b s => ?_, fun i dt s => ?_⟩
  · intro i c u goes qualifies
    obtain ⟨hsame, hrise, hfall, -⟩ := reportRaw_eq u i b
    have hmoves : s.tab.active = true → exec (.rawChange l b) s = .next (reportRaw u i b) := fun hactive => by
      rw [exec_rawChange, if_pos hactive]
    refine ⟨?_, fun hactive hraw hb => ?_, fun hactive hraw hb => ?_⟩
    · rintro (h | h)
      · rw [exec_rawChange, if_neg (by simp [h])]
      · by_cases hactive : s.tab.active = true
        · rw [hmoves hactive, hsame h]
        · rw [exec_rawChange, if_neg hactive]
    · obtain ⟨hrises, hat, hback⟩ := hrise hraw hb
      refine ⟨fun h h' => ?_, fun h h' => ?_, fun h => ?_⟩
      · exact (hmoves hactive).trans (congrArg _ (hrises h h'))
      · exact (hmoves hactive).trans (congrArg _ (hat h h'))
      · exact (hmoves hactive).trans (congrArg _ (hback h))
    · obtain ⟨hfalls, hat, hback⟩ := hfall hraw hb
      refine ⟨fun h h' => ?_, fun h h' => ?_, fun h => ?_⟩
      · exact (hmoves hactive).trans (congrArg _ (hfalls h h'))
      · exact (hmoves hactive).trans (congrArg _ (hat h h'))
      · exact (hmoves hactive).trans (congrArg _ (hback h))
  · intro u c qualifies
    refine ⟨fun hactive hqual hdue => ?_, fun hactive hqual hdue => ?_, fun h => ?_, fun h => ?_⟩
    · exact exec_rise_ends hactive hqual hdue
    · exact exec_fall_ends hactive hqual hdue
    · rw [exec_riseTimerExpiry, if_neg]
      rw [Bool.and_eq_true, Bool.and_eq_true, beq_iff_eq]
      exact not_all_three h
    · rw [exec_fallTimerExpiry, if_neg]
      rw [Bool.and_eq_true, Bool.and_eq_true, beq_iff_eq]
      exact not_all_three h

/-! ### Claims and jobs follow the conditions (R33, R126, R169) -/

/-- Without a job that waits for a condition, a qualified change causes nothing further. -/
theorem jobsOnCondition_none {t : Tables} {f : Flow} (h : ∀ j, (f.jobs.get j).state ≠ .waiting .condition) :
    jobsOnCondition t f = (f, []) := by
  have hnot (j : JobIx) : (f.jobs.get j).conditionMet t = false := by simp [Job.conditionMet, h j]
  have hfold (js : List JobIx) : js.foldl (fun (a : Flow × List Act) j =>
      if (a.1.jobs.get j).conditionMet t then
        (a.1.modJob j fun b => { b with verdict := .positive }, a.2 ++ [.stepDone j])
      else a) (f, []) = (f, []) := by
    induction js with
    | nil => rfl
    | cons j js ih => rw [List.foldl_cons, hnot j]; exact ih
  exact hfold _

theorem event_jobs (t : Tables) (n : Nat) (f : Flow) (c : CaptureRecord) : (event t n f c).jobs = f.jobs := by
  obtain ⟨_, _, _, h⟩ := event_captures t n f c
  rw [h]

theorem event_news_kept (t : Tables) (n : Nat) (f : Flow) (c : CaptureRecord) (x : News) (h : f.hasNews x = true) :
    (event t n f c).hasNews x = true := (event_keeps t n f c).hasNews h

theorem haltOrResume_jobs (t : Tables) (i : CondIx) (value : Bool) (f : Flow) (e : EcuIx) :
    (haltOrResume t i value f e).jobs = f.jobs := by
  unfold haltOrResume
  simp only
  split
  · split
    · simp only [claimReport, event_jobs]
      rfl
    · rfl
  · split
    · simp only [claimReport, event_jobs]
      rfl
    · rfl
  · rfl

theorem foldl_haltOrResume_jobs (t : Tables) (i : CondIx) (value : Bool) (es : List EcuIx) (f : Flow) :
    (es.foldl (haltOrResume t i value) f).jobs = f.jobs := by
  induction es generalizing f with
  | nil => rfl
  | cons e es ih => rw [List.foldl_cons, ih, haltOrResume_jobs]

/-- Without a job that waits for a condition, a qualified change is the halts and resumptions, the news and the record. -/
theorem qualifiedChange_noJobs {t : Tables} {f : Flow} (i : CondIx) (value : Bool)
    (h : ∀ j, (f.jobs.get j).state ≠ .waiting .condition) :
    ∃ g : Flow, qualifiedChange t f i value = (g, []) ∧ g.hasNews .condition = true
      ∧ ∀ e, g.claims.get e = (f.claims.get e).onChange t i value := by
  unfold qualifiedChange
  simp only
  refine ⟨_, jobsOnCondition_none fun j => ?_, event_news_kept _ _ _ _ _ (Flow.hasNews_setNews _ .condition), fun e => ?_⟩
  · rw [event_jobs, Flow.setNews_jobs, Flow.markHeads_jobs, foldl_haltOrResume_jobs]
    exact h j
  · rw [event_claims, Flow.setNews_claims, Flow.markHeads_claims, haltAll_claims]

theorem Claim.onChange_true (t : Tables) (i : CondIx) (c : Claim) : c.onChange t i true =
    if c.state = .halted ∧ satisfied t c.guard = true then { c with state := .held } else c := by
  cases h : c.state <;> simp [Claim.onChange, h]

theorem Claim.onChange_false (t : Tables) (i : CondIx) (c : Claim) : c.onChange t i false =
    if c.state = .held ∧ c.guard.getLsbD i.val = true then { c with state := .halted } else c := by
  cases h : c.state <;> simp only [Claim.onChange, h, true_and, reduceCtorEq, false_and, if_false]

/-- Settles O16: the claims follow by `haltAll_claims`, the order of the steps is `qualifiedChange_eq`. -/
theorem claimsFollowConditions : Obligations.ClaimsFollowConditions := by
  refine ⟨?_, qualifiedChange_eq⟩
  intro i dt s u c hactive hdue hjobs
  have hjobs' (j : JobIx) : (u.flow.jobs.get j).state ≠ .waiting .condition := by
    rw [State.advance_flow_jobs]
    exact hjobs j
  have hput (x : Condition) : (Vector.putRow u.tab.conds i x).get i = x := Vector.putRow_get_self ..
  refine ⟨fun hqual => ⟨_, exec_rise_ends hactive hqual hdue, ?_⟩, fun hqual => ⟨_, exec_fall_ends hactive hqual hdue, ?_⟩⟩
  · obtain ⟨g, hchange, hnews, hclaims⟩ := qualifiedChange_noJobs (t := { u.tab with
      conds := Vector.putRow u.tab.conds i { c with qual := .isTrue, deadline := none } }) i true hjobs'
    rw [hchange]
    refine ⟨hnews, hput _, fun e => ?_⟩
    have hclaim := (hclaims e).trans (Claim.onChange_true _ i _)
    rw [State.advance_flow_claims] at hclaim
    exact hclaim
  · obtain ⟨g, hchange, hnews, hclaims⟩ := qualifiedChange_noJobs (t := { u.tab with
      conds := Vector.putRow u.tab.conds i { c with qual := .isFalse, deadline := none } }) i false hjobs'
    rw [hchange]
    refine ⟨hnews, hput _, fun e => ?_⟩
    have hclaim := (hclaims e).trans (Claim.onChange_false _ i _)
    rw [State.advance_flow_claims] at hclaim
    exact hclaim

end Sys2Proof.Machine
end

section
/-! The end of STARTING: O10. -/

namespace Sys2Proof.Machine

/-- Every slot keeps its allowance and what is admitted of it (R80). -/
structure Flow.SameShares (f g : Flow) : Prop where
  slots : ∀ k, (g.slots.get k).allowance = (f.slots.get k).allowance ∧ (g.slots.get k).admitted = (f.slots.get k).admitted

namespace Flow.SameShares

theorem of_slots {f g : Flow} (h : g.slots = f.slots) : f.SameShares g := ⟨fun k => by rw [h]; exact ⟨rfl, rfl⟩⟩

theorem of_keeps {f g : Flow} (h : f.Keeps g) : f.SameShares g := ⟨fun k =>
  have ⟨hallow, hadmit, _⟩ := h.slots k
  ⟨hallow, hadmit⟩⟩

theorem refl (f : Flow) : f.SameShares f := of_slots rfl

theorem trans {f g h : Flow} (a : f.SameShares g) (b : g.SameShares h) : f.SameShares h := ⟨fun k =>
  have ⟨hallow, hadmit⟩ := a.slots k
  have ⟨hallow', hadmit'⟩ := b.slots k
  ⟨hallow'.trans hallow, hadmit'.trans hadmit⟩⟩

theorem after {f g h : Flow} (b : g.SameShares h) (a : f.SameShares g) : f.SameShares h := a.trans b

theorem markHeads (f : Flow) (p : Slot → Held → Bool) : f.SameShares (f.markHeads p) := of_slots rfl

theorem foldl {α : Type} (u : Flow → α → Flow) (h : ∀ (f : Flow) x, f.SameShares (u f x)) (xs : List α) (f : Flow) :
    f.SameShares (xs.foldl u f) := by
  induction xs generalizing f with
  | nil => exact refl f
  | cons x xs ih => exact (h f x).trans (ih _)

end Flow.SameShares

theorem haltOrResume_slots (t : Tables) (i : CondIx) (value : Bool) (f : Flow) (e : EcuIx) :
    (haltOrResume t i value f e).slots = f.slots := by
  have hreport (g : Flow) (ev : ClaimEvent) : (claimReport t 0 g e ev none []).slots = g.slots := by
    obtain ⟨_, _, _, h⟩ := event_captures t 0 (g.setNews .claim) (eventRecord 5 (ixByte (g.claims.get e).holder) (ixByte e)
      (some (g.claims.get e).level.cls.byte) (some ev.byte) none [])
    rw [claimReport, h]
    rfl
  unfold haltOrResume
  simp only
  split
  · split
    · exact hreport ..
    · rfl
  · split
    · exact hreport ..
    · rfl
  · rfl

theorem jobsOnCondition_slots (t : Tables) (f : Flow) : (jobsOnCondition t f).1.slots = f.slots := by
  have hfold (js : List JobIx) (a : Flow × List Act) : (js.foldl (fun a j =>
      if (a.1.jobs.get j).conditionMet t then
        (a.1.modJob j fun b => { b with verdict := .positive }, a.2 ++ [.stepDone j])
      else a) a).1.slots = a.1.slots := by
    induction js generalizing a with
    | nil => rfl
    | cons j js ih =>
      rw [List.foldl_cons, ih]
      split <;> rfl
  exact hfold _ _

theorem qualifiedChange_sameShares (t : Tables) (f : Flow) (i : CondIx) (value : Bool) :
    f.SameShares (settled t (qualifiedChange t f i value)) := by
  have halts := Flow.SameShares.foldl _ (fun g e => .of_slots (haltOrResume_slots t i value g e)) (List.finRange 32) f
  have hevent (g : Flow) (c : CaptureRecord) := Flow.SameShares.of_keeps (event_keeps t 0 g c)
  refine (Flow.SameShares.of_keeps (settled_keeps t _)).after ?_
  unfold qualifiedChange
  exact (Flow.SameShares.of_slots (jobsOnCondition_slots ..)).after ((hevent ..).after
    (halts.trans (.of_slots rfl)))

/-! ### The changes at the entry to RUNNING (R37) -/

/-- Raw changes of conditions, which leave the allowances alone. -/
structure State.Reports (s t : State) : Prop where
  same : ∃ conds flow, t = { s with tab := { s.tab with conds }, flow }
  shares : s.flow.SameShares t.flow

theorem State.Reports.refl (s : State) : s.Reports s := ⟨⟨_, _, rfl⟩, .refl _⟩

theorem State.Reports.trans {s t u : State} (a : s.Reports t) (b : t.Reports u) : s.Reports u := by
  obtain ⟨⟨_, _, ht⟩, hshares⟩ := a
  obtain ⟨⟨conds, flow, hu⟩, hshares'⟩ := b
  exact ⟨⟨conds, flow, by rw [hu, ht]⟩, hshares.trans hshares'⟩

theorem putCondition_reports (s : State) (i : CondIx) (c : Condition) : s.Reports (putCondition s i c) := by
  unfold putCondition
  simp only
  split
  · exact ⟨⟨_, _, rfl⟩, .refl _⟩
  · exact ⟨⟨_, _, rfl⟩, qualifiedChange_sameShares ..⟩

theorem putCondition_conds (s : State) (i : CondIx) (c : Condition) :
    (putCondition s i c).tab.conds = Vector.putRow s.tab.conds i c := by
  unfold putCondition
  simp only
  split <;> rfl

theorem reportRaw_reports (s : State) (i : CondIx) (b : Bool) : s.Reports (reportRaw s i b) := by
  unfold reportRaw
  simp only
  split
  · exact .refl s
  · exact putCondition_reports ..

theorem reportRaw_conds (s : State) (i j : CondIx) (b : Bool) : (reportRaw s i b).tab.conds.get j =
    if j = i ∧ (s.tab.conds.get i).raw ≠ b then (s.tab.conds.get i).rawTo s.tab.now b else s.tab.conds.get j := by
  unfold reportRaw
  simp only
  split
  · rename_i h
    simp [h]
  · rename_i h
    rw [putCondition_conds, Vector.putRow_get]
    simp [h]

theorem foldl_reportRaw (is : List CondIx) (hn : is.Nodup) (s : State) :
    s.Reports (is.foldl (fun s i => reportRaw s i true) s)
    ∧ ∀ j, (is.foldl (fun s i => reportRaw s i true) s).tab.conds.get j =
      if j ∈ is ∧ (s.tab.conds.get j).raw = false then (s.tab.conds.get j).rawTo s.tab.now true
      else s.tab.conds.get j := by
  induction is generalizing s with
  | nil => exact ⟨.refl s, fun j => by simp⟩
  | cons i is ih =>
    obtain ⟨hi, his⟩ := List.nodup_cons.mp hn
    obtain ⟨hreports, hconds⟩ := ih his (reportRaw s i true)
    have hnow : (reportRaw s i true).tab.now = s.tab.now := by
      obtain ⟨⟨_, _, h⟩, -⟩ := reportRaw_reports s i true
      rw [h]
    refine ⟨(reportRaw_reports s i true).trans hreports, fun j => ?_⟩
    rw [List.foldl_cons, hconds, hnow]
    by_cases hj : j = i
    · subst hj
      simp [hi, reportRaw_conds]
    · simp [hj, reportRaw_conds]

/-- The condition that STARTING ends with (R37). -/
theorem startCondition_eq {c : Condition} (hqual : c.qual = .isFalse) (now : Word) (l : Lines) (i : CondIx) :
    startCondition now l i c =
      if rawAtStart l i = true ∧ c.rise.count ≠ 0 then
        { c with raw := true, qual := .rising, deadline := some (after now c.rise) }
      else c := by
  unfold startCondition
  by_cases hc : c.rise.count = 0
  · simp [hc, Duration.isZero]
  · have hzero : c.rise.isZero = false := by simpa [Duration.isZero] using hc
    have hcount : c.rise.count ≠ 0 := hc
    simp only [hzero, Bool.not_false, Bool.and_true, ne_eq, hcount, not_false_eq_true, and_true, Condition.rawTo, hqual]
    rfl

theorem readStarting_now {s : State} {x : Settings} (h : readStarting s = .ok x) : x.tab.now = s.tab.now := by
  unfold readStarting at h
  split at h
  · cases h
  · simp only at h
    split at h
    · cases h
    · rename_i hx
      cases h
      exact (readSettings_laws hx).1.now

theorem exec_startingComplete {s : State} {x : Settings} (hctl : s.tab.ctl = .starting) (h : readStarting s = .ok x) :
    exec .startingComplete s = .next (enterRunning s x) := by
  change execStartingComplete s = _
  simp only [execStartingComplete, hctl, h]

theorem relayStopReading_slots (t : Tables) (f : Flow) : (relayStopReading t f).slots = f.slots := by
  unfold relayStopReading
  simp only
  split
  · rfl
  · split <;> rfl

theorem stoppingEvents_sameShares (t : Tables) (n : Nat) (f : Flow) : f.SameShares (stoppingEvents t n f) :=
  (Flow.SameShares.of_keeps (stoppingEvents_after_relay t n f)).after
    ((Flow.SameShares.of_slots (relayStopReading_slots ..)).after (.of_keeps (controllerRecord_keeps ..)))

theorem lookAt_slots (t : Tables) (f : Flow) : (lookAt t f).slots = f.slots := by
  unfold lookAt
  split
  · rfl
  · split <;> rfl

/-- The entry to RUNNING, and on to STOPPING when ENABLE is clear, changes of the state that was loaded the controller state,
the conditions and the traffic. -/
theorem enterRunning_eq (s : State) (x : Settings) (hctl : x.tab.ctl = .running) :
    let u := loadStarting s x
    let v := directChanges u x
    ∃ conds flow fresh, enterRunning s x = { u with
        fresh, tab := { u.tab with ctl := if s.enable then .running else .stopping, conds }, flow }
      ∧ v.tab.conds = conds ∧ u.flow.SameShares flow := by
  intro u v
  obtain ⟨⟨⟨conds, flow, hsame⟩, hshares⟩, -⟩ := foldl_reportRaw (directConditions s.lines x.tab.conds)
    ((List.nodup_finRange 6).filter _) u
  change v = _ at hsame
  have hlook : u.flow.SameShares (lookAt v.tab v.flow) := (Flow.SameShares.of_slots (lookAt_slots ..)).after hshares
  have henv : v.enable = s.enable := by rw [hsame]; rfl
  have hentry : enterRunning s x =
      if v.enable then v.withFlow (lookAt v.tab v.flow) else enterStopping (v.withFlow (lookAt v.tab v.flow)) := rfl
  have hconds : v.tab.conds = conds := by rw [hsame]
  rw [hentry, henv]
  cases hen : s.enable with
  | true =>
    generalize lookAt v.tab v.flow = g at hlook
    refine ⟨conds, g, u.fresh, ?_, hconds, hlook⟩
    rw [if_pos rfl, if_pos rfl, show CtlState.running = u.tab.ctl from hctl.symm, hsame]
    rfl
  | false =>
    have hstop := hlook.trans (stoppingEvents_sameShares { v.tab with ctl := .stopping } v.fresh (lookAt v.tab v.flow))
    have hentered : enterStopping (v.withFlow (lookAt v.tab v.flow)) = { v with
        tab := { v.tab with ctl := .stopping }, fresh := v.fresh + 1
        flow := stoppingEvents { v.tab with ctl := .stopping } v.fresh (lookAt v.tab v.flow) } := rfl
    rw [hentered, if_neg Bool.false_ne_true, if_neg Bool.false_ne_true]
    generalize stoppingEvents { v.tab with ctl := .stopping } v.fresh (lookAt v.tab v.flow) = g at hstop
    refine ⟨conds, g, v.fresh + 1, ?_, hconds, hstop⟩
    rw [hsame]

/-- The line of a condition stands at its level at the start (R37). -/
theorem rawAtStart_iff (l : Lines) (i : CondIx) : rawAtStart l i = true ↔
    i = 0 ∧ l.ign = true ∨ i = 1 ∧ l.park = true ∨ i = 3 ∧ l.supply = true ∨ i = 4 ∧ l.wshop = true := by
  simp only [rawAtStart, Bool.or_eq_true, Bool.and_eq_true, beq_iff_eq, or_assoc]

/-- The conditions at the entry to RUNNING (R37). -/
theorem directChanges_conds {s : State} {x : Settings} (h : readStarting s = .ok x) (i : CondIx) :
    let c := x.tab.conds.get i
    (directChanges (loadStarting s x) x).tab.conds.get i =
      { rise := c.rise, fall := c.fall, raw := rawAtStart s.lines i
        qual := if rawAtStart s.lines i = true then (if c.rise.count = 0 then .isTrue else .rising) else .isFalse
        deadline := if rawAtStart s.lines i = true ∧ c.rise.count ≠ 0 then some (after s.tab.now c.rise) else none } := by
  intro c
  obtain ⟨-, -, -, hfresh⟩ := readStarting_laws h
  obtain ⟨hraw, hqual, hdl⟩ := hfresh i
  obtain ⟨-, hconds⟩ := foldl_reportRaw (directConditions s.lines x.tab.conds)
    ((List.nodup_finRange 6).filter _) (loadStarting s x)
  have hmem : i ∈ directConditions s.lines x.tab.conds ↔ rawAtStart s.lines i = true ∧ c.rise.count = 0 := by
    simp [directConditions, Duration.isZero, c]
  have hload : (loadStarting s x).tab.conds.get i = startCondition s.tab.now s.lines i c := by
    simp only [loadStarting, tableOf_get, readStarting_now h]
    rfl
  rw [show (directChanges (loadStarting s x) x).tab.conds.get i = _ from hconds i, hload, startCondition_eq hqual]
  simp only [hmem]
  have hfields : c = { rise := c.rise, fall := c.fall, raw := false, qual := .isFalse, deadline := none } := by
    rw [← hraw, ← hqual, ← hdl]
  generalize hr : c.rise = rise at *
  generalize c.fall = fall at *
  rw [show x.tab.conds.get i = _ from hfields]
  cases hhigh : rawAtStart s.lines i with
  | false => simp
  | true =>
    by_cases hzero : rise.count = 0
    · simp [hzero, Condition.rawTo, Duration.isZero]
    · have hcount : ¬rise.count = 0#12 := hzero
      simp [hcount]

/-- Settles O10. -/
theorem startingCompletes : Obligations.StartingCompletes := by
  refine ⟨fun s x hctl h => ⟨_, exec_startingComplete hctl h, ?_⟩, readStarting_ok, getPort_some⟩
  obtain ⟨hrun, hfault, hdir, -⟩ := readStarting_laws h
  obtain ⟨conds, flow, fresh, henter, hconds, hshares⟩ := enterRunning_eq s x hrun
  have hcond := directChanges_conds h
  rw [hconds] at hcond
  rw [henter]
  have hnow := readStarting_now h
  refine ⟨rfl, fun i => ?_, hfault, hdir, rfl, fun i => ?_, ?_, ?_, fun k => ?_, rfl, rfl, rfl, rfl, rfl, rfl⟩
  · intro c high
    rw [show _ = _ from hcond i]
    simp only [rawAtStart_iff]
    have hraw : rawAtStart s.lines i = decide high := by
      rw [Bool.eq_iff_iff, rawAtStart_iff, decide_eq_true_iff]
    rw [hraw]
  · simp [loadStarting, Vector.get]
  · simp only [loadStarting, hnow]
    rfl
  · simp only [loadStarting, hnow, Duration.isZero, beq_iff_eq]
  · obtain ⟨hallow, hadmit⟩ := hshares.slots k
    simp only [loadStarting, tableOf_get] at hallow hadmit
    exact ⟨hallow, hadmit⟩

end Sys2Proof.Machine
end

section
/-! Memory errors: O13. -/

namespace Sys2Proof.Machine

theorem exec_memoryError (a : RamAccess) (again : Bool) (s : State) :
    exec (.memoryError a again) s = execMemoryError a again s := rfl

theorem State.orderAtLook_eq {s : State} {d : Directory} {l : Look} (hd : s.tab.dir = some d)
    (hl : s.flow.look = some l) : s.orderAtLook = some (d, l, ramByte s.flow.ram (d.orderAddr l.next + 4)) := by
  simp only [State.orderAtLook, hd, hl]

theorem lastAttempt_none {t : Tables} {f : Flow} {c : FaultCode} {again : Bool}
    (h : t.active = false ∨ t.eventCapture = false ∨ again = true) : lastAttempt t f c again = f := by
  obtain h | h | h := h <;> simp [lastAttempt, h]

theorem lastAttempt_record {t : Tables} (f : Flow) (c : FaultCode) (ha : t.active = true) (he : t.eventCapture = true) :
    lastAttempt t f c false = controllerRecord t f recFaulted (some (BitVec.ofNat 8 c.code)) := by
  simp [lastAttempt, ha, he]

theorem exec_memoryError_none {a : RamAccess} {s : State} (again : Bool) (h : accessPossible s a = false) :
    exec (.memoryError a again) s = .next s := by
  simp only [exec_memoryError, execMemoryError, h, Bool.false_eq_true, if_false]

/-- A memory error of the order board, whatever it had done before. -/
theorem exec_memoryError_board {g : BoardStage} {s : State} (again : Bool) (h : accessPossible s (.orderBoard g) = true) :
    exec (.memoryError (.orderBoard g) again) s = .next (enterFaulted (boardError s g) .memoryError again) := by
  simp only [exec_memoryError, execMemoryError, h, if_true]

theorem jobReadsData_of_send {s : State} {j : JobIx} {g : Guard} {bs : List Byte} {x : SendStep}
    (hstate : (s.flow.jobs.get j).state = .running) (hstep : readStep s.tab s.flow j = .step .send g bs)
    (hguard : g.holds (s.flow.jobs.get j).verdict = true) (hsend : getSend bs = some x)
    (hvalid : (s.tab.ecus.get x.ecu).valid = true) (hreads : x.readsData (s.flow.jobs.get j) = true) :
    jobReadsData s j = true := by
  simp only [jobReadsData, hstep, hstate, hguard, hsend, hvalid, hreads, beq_self_eq_true, Bool.and_self]

/-- Settles O13: each access by its case of the command, the last attempt by `lastAttempt_record`. -/
theorem memoryErrors : Obligations.MemoryErrors := by
  refine ⟨fun a again s hposs => ?_, fun v again h => by rw [lastAttempt_none h], fun j again s hstate => ?_,
    ?_, fun j again s hactive => ?_,
    fun a again s h => exec_memoryError_none again h, fun t f c ha he => lastAttempt_record f c ha he⟩
  · intro faulted lookOf
    refine ⟨?_, ?_, ?_, ?_, ?_⟩
    · rintro (rfl | rfl | rfl | rfl)
      · simp only [faulted, exec_memoryError, execMemoryError, hposs, if_true]
        rfl
      · exact exec_memoryError_board again hposs
      · simp only [faulted, exec_memoryError, execMemoryError, hposs, if_true]
        rfl
      · simp only [faulted, exec_memoryError, execMemoryError, hposs, if_true]
        rfl
    · rintro d l rfl ⟨hd, hl⟩
      have hboard : boardError s .order = s.took d l := by simp only [boardError, State.orderAtLook_eq hd hl]
      rw [← hboard]
      exact exec_memoryError_board again hposs
    · rintro d l rfl ⟨hd, hl⟩ o
      have hboard : boardError s .result = (takeOrder s (fun _ => true) o.1 o.2).keepSlot (s.took d l) d l.next := by
        simp only [boardError, State.orderAtLook_eq hd hl]
        rfl
      rw [← hboard]
      exact exec_memoryError_board again hposs
    · rintro n d l c rfl ⟨hd, hl⟩ hc u
      have hcounters : countersError s n
          = u.withFlow { u.flow with ram := ramWrite u.flow.ram c ((counterBytes s.tab s.flow).take n) } := by
        simp only [countersError, State.orderAtLook_eq hd hl, hd, Option.bind_some, hc]
        rfl
      rw [← hcounters]
      simp only [faulted, exec_memoryError, execMemoryError, hposs, if_true]
      rfl
    · rintro r rfl hr
      have hpage : takePage s = s.withFlow { s.flow with
          ram := ramWrite s.flow.ram (r.pageAddr s.flow.relayIn.page) [2, 0, 0, 0] } := by
        simp only [takePage, hr]
        rfl
      rw [← hpage]
      simp only [faulted, exec_memoryError, execMemoryError, hposs, if_true]
      rfl
  · have hposs : accessPossible s (.jobStep j) = true := by simp [accessPossible, hstate]
    simp only [exec_memoryError, execMemoryError, hposs, if_true]
    rfl
  · intro j again s g bs x b hstate hstep hguard hsend hvalid hreads
    have hposs : accessPossible s (.jobData j) = true :=
      jobReadsData_of_send hstate hstep hguard hsend hvalid hreads
    have hsteps : (s.flow.modJob j fun y => { y with steps := y.steps + 1 })
        = s.flow.modJob j fun y => { y with steps := b.steps + 1 } :=
      congrArg (fun jobs => { s.flow with jobs }) (Vector.modifyRow_congr s.flow.jobs j rfl)
    simp only [exec_memoryError, execMemoryError, hposs, if_true, hsteps]
    rfl
  · have hposs : accessPossible s (.jobResult j) = true := hactive
    simp only [exec_memoryError, execMemoryError, hposs, if_true]

end Sys2Proof.Machine
end

section
/-! Grants, claim checks and charges: O17 and O19. -/

namespace Sys2Proof.Machine

/-! ### The charged grant and the claim check (R42 to R44, R123) -/

theorem Grant.covers_iff (g : Grant) (k : Slot) (e : EcuIx) (c : ServiceClass) : g.covers k e c = true ↔
    g.slot = k ∧ g.ecus.getLsbD e.val = true ∧ g.classes.getLsbD c.num = true
    ∧ (c = .adjust → g.level ≠ .noClaim) ∧ (c = .program → g.level = .program) := by
  have hlevel : g.levelCovers c = true ↔ (c = .adjust → g.level ≠ .noClaim) ∧ (c = .program → g.level = .program) := by
    cases c <;> cases h : g.level <;> simp [Grant.levelCovers, ServiceClass.level, h] <;> decide
  simp only [Grant.covers, Bool.and_eq_true, beq_iff_eq, hlevel, and_assoc]

theorem someCovers_iff (gs : Vector Grant 64) (st : GrantState) (k : Slot) (e : EcuIx) (c : ServiceClass) :
    someCovers gs st k e c = true ↔ ∃ i, (gs.get i).state = st ∧ (gs.get i).covers k e c = true := by
  simp [someCovers]

theorem List.find?_finRange_eq_some {n : Nat} {p : Fin n → Bool} {i : Fin n} :
    (List.finRange n).find? p = some i ↔ p i = true ∧ ∀ j < i, ¬p j = true := by
  rw [← Fin.find?_eq_find?_finRange, Fin.find?_eq_some_iff]
  simp

theorem Grant.eligible_iff (t : Tables) (g : Grant) (k : Slot) (e : EcuIx) (c : ServiceClass) :
    g.eligible t k e c = true ↔ g.state = .active ∧ g.covers k e c = true
      ∧ ∀ n : CondIx, g.conds.getLsbD n.val = true → (t.conds.get n).qualified = true := by
  simp only [Grant.eligible, Bool.and_eq_true, beq_iff_eq, satisfied_iff, and_assoc]

theorem chargedGrant_none {t : Tables} {gs : Vector Grant 64} {k : Slot} {e : EcuIx} {c : ServiceClass} :
    chargedGrant t gs k e c = none ↔ ∀ i, ¬(gs.get i).eligible t k e c = true := by
  simp [chargedGrant]

theorem grantReason_eq (gs : Vector Grant 64) (k : Slot) (e : EcuIx) (c : ServiceClass) :
    let active := ∃ i, (gs.get i).state = .active ∧ (gs.get i).covers k e c = true
    let suspended := ∃ i, (gs.get i).state = .suspended ∧ (gs.get i).covers k e c = true
    (grantReason gs k e c = some .condition ↔ active)
    ∧ (grantReason gs k e c = some .suspended ↔ ¬active ∧ suspended)
    ∧ (grantReason gs k e c = none ↔ ¬active ∧ ¬suspended) := by
  intro active suspended
  have ha : someCovers gs .active k e c = true ↔ active := someCovers_iff ..
  have hs : someCovers gs .suspended k e c = true ↔ suspended := someCovers_iff ..
  unfold grantReason
  by_cases h : active
  · simp [ha.mpr h, h]
  · by_cases h' : suspended
    · simp [ha, h, h', hs.mpr h']
    · simp [ha, hs, h, h']

/-- Settles O17: the grants by the definition of coverage, the claim check by its table. -/
theorem grantAndClaimChecks : Obligations.GrantAndClaimChecks := by
  refine ⟨fun t gs k e c => ?_, fun x k c => ⟨fun h => ?_, fun h => ?_, fun h hk => ?_, fun h hk => ?_, fun h hk => ?_⟩⟩
  · intro covers eligible
    have hcovers (i : GrantIx) : (gs.get i).covers k e c = true ↔ covers i := Grant.covers_iff ..
    have heligible (i : GrantIx) : (gs.get i).eligible t k e c = true ↔ eligible i := by
      rw [Grant.eligible_iff, hcovers]
    obtain ⟨hcondition, hsuspended, hnone⟩ := grantReason_eq gs k e c
    simp only [hcovers, not_exists] at hcondition hsuspended hnone
    refine ⟨fun i => ?_, ?_, hcondition, hsuspended, ?_⟩
    · rw [chargedGrant, List.find?_finRange_eq_some]
      simp only [heligible]
    · rw [chargedGrant_none]
      simp only [heligible]
    · rw [hnone, forall_and]
  · simp only [claimCheck, h]
  · simp only [claimCheck, h]
  · simp only [claimCheck, h, hk, beq_self_eq_true]
  · cases c <;> simp [claimCheck, h, hk, ServiceClass.grade]
  · have hother : (x.holder == k) = false := by simpa using hk
    obtain h | h := h <;> cases c <;> cases hl : x.level <;> simp [claimCheck, h, hother, hl, ServiceClass.grade]

/-! ### Charges (R62, R63) -/

/-- The four accounts of a charge are different ones. -/
theorem accounts_ne (k : Slot) (g : Grade) : acctSlotGrade k g ≠ acctSlot k ∧ acctSlotGrade k g ≠ acctGrade g
    ∧ acctSlotGrade k g ≠ acctCommon ∧ acctSlot k ≠ acctGrade g ∧ acctSlot k ≠ acctCommon ∧ acctGrade g ≠ acctCommon := by
  have hk := k.isLt
  have hg := g.num_lt
  have hcommon : acctCommon.val = 50 := rfl
  simp only [ne_eq, Fin.ext_iff, acctSlotGrade, acctSlot, acctGrade, hcommon]
  omega

theorem modifyRow_four {v : Vector Nat 51} {a b c d : AccountIx} (u : Nat → Nat → Nat) (p q r s : Nat)
    (hab : a ≠ b) (hac : a ≠ c) (had : a ≠ d) (hbc : b ≠ c) (hbd : b ≠ d) (hcd : c ≠ d) (x : AccountIx)
    (h : ∀ n, u n 0 = n) :
    (Vector.modifyRow (Vector.modifyRow (Vector.modifyRow (Vector.modifyRow v a (u · p)) b (u · q)) c (u · r)) d
      (u · s)).get x
    = u (v.get x) (if x = a then p else if x = b then q else if x = c then r else if x = d then s else 0) := by
  simp only [Vector.modifyRow_get]
  by_cases hd : x = d
  · subst hd; simp [had.symm, hbd.symm, hcd.symm]
  by_cases hc : x = c
  · subst hc; simp [hac.symm, hbc.symm, hd]
  by_cases hb : x = b
  · subst hb; simp [hab.symm, hc, hd]
  by_cases ha : x = a
  · subst ha; simp [hb, hc, hd]
  · simp [ha, hb, hc, hd, h]

theorem usageAdd_get (u : Vector Nat 51) (c : Charge) (a : AccountIx) : (usageAdd u c).get a = u.get a
    + (if a = acctSlotGrade c.slot c.grade then c.slotGrade else if a = acctSlot c.slot then c.slotReserve
      else if a = acctGrade c.grade then c.gradeShared else if a = acctCommon then c.common else 0) := by
  obtain ⟨hab, hac, had, hbc, hbd, hcd⟩ := accounts_ne c.slot c.grade
  exact modifyRow_four (· + ·) _ _ _ _ hab hac had hbc hbd hcd a fun _ => rfl

theorem usageSub_get (u : Vector Nat 51) (c : Charge) (a : AccountIx) : (usageSub u c).get a = u.get a
    - (if a = acctSlotGrade c.slot c.grade then c.slotGrade else if a = acctSlot c.slot then c.slotReserve
      else if a = acctGrade c.grade then c.gradeShared else if a = acctCommon then c.common else 0) := by
  obtain ⟨hab, hac, had, hbc, hbd, hcd⟩ := accounts_ne c.slot c.grade
  exact modifyRow_four (· - ·) _ _ _ _ hab hac had hbc hbd hcd a fun _ => rfl

theorem chargeFits_iff (t : Tables) (f : Flow) (c : Charge) : chargeFits t f c = true ↔
    c.slotGrade + c.slotReserve + c.gradeShared + c.common = c.cells
    ∧ (0 < c.gradeShared + c.common →
      unusedReservation t f - (c.slotGrade + c.slotReserve) + c.cells ≤ f.free) := by
  unfold chargeFits
  rw [Bool.and_eq_true, Bool.or_eq_true, decide_eq_true_iff, decide_eq_true_iff, beq_iff_eq, or_iff_not_imp_left]
  simp only [← ne_eq, ← Nat.pos_iff_ne_zero, Charge.reservePart, Charge.sharingPart, Nat.add_assoc]

/-- Settles O19: the division is the definition, the accounts are `usageAdd_get`. -/
theorem chargeDivides : Obligations.ChargeDivides := by
  intro t f k g n room a1 a2 a3 n1 n2 n3 n4 fits
  have hfits : chargeFits t f (divideCells t f k g n) = true ↔ fits := chargeFits_iff ..
  refine ⟨⟨?_, rfl, ?_, rfl⟩, fun h => ?_, fun h => ⟨usageAdd f.usage (divideCells t f k g n), ?_, usageAdd_get _ _⟩⟩
  · cases g <;> rfl
  · cases g <;> rfl
  · simp only [charge, hfits, h, if_false]
  · simp only [charge, hfits, h, if_true]
    rfl

end Sys2Proof.Machine
end

section
/-! Releases and offers: O20. -/

namespace Sys2Proof.Machine

/-! ### Offers of cells (R65, R68) -/

theorem charge_waiting {t : Tables} {f g : Flow} {k : Slot} {d : Grade} {n : Nat} {h : Charge}
    (hc : charge t f k d n = some (g, h)) : ∃ free usage, g = { f with free, usage } := by
  simp only [charge] at hc
  split at hc
  · cases hc
    exact ⟨_, _, rfl⟩
  · cases hc

theorem tryWaiter_none {t : Tables} {f : Flow} {x : Waiter} (got : List (Claimant × Charge))
    (h : charge t f x.slot x.grade x.cells = none) : tryWaiter t (f, got) x = (f, got) := by
  simp only [tryWaiter, h]

theorem tryWaiter_some {t : Tables} {f g : Flow} {x : Waiter} {c : Charge} (got : List (Claimant × Charge))
    (h : charge t f x.slot x.grade x.cells = some (g, c)) : tryWaiter t (f, got) x =
      ({ g with waiting := f.waiting.filter fun w => w.who != x.who }, got ++ [(x.who, c)]) := by
  obtain ⟨_, _, rfl⟩ := charge_waiting h
  simp only [tryWaiter, h]
  rfl

/-! ### Offers of an inbound place (R79) -/

theorem act_placeFreed_full (t : Tables) {f : Flow} {k : Slot} (h : f.inboundFree k = false) :
    act t (.placeFreed k) f = (f, []) := by
  change offerPlace t f k = _
  simp only [offerPlace, h, Bool.false_eq_true, if_false]

theorem act_placeFreed_ctx (t : Tables) {f : Flow} {k : Slot} {c : CtxIx} {rest : List CtxIx} (h : f.inboundFree k = true)
    (hw : (f.slots.get k).placeWait = c :: rest) : act t (.placeFreed k) f = placeToCtx t f k c := by
  change offerPlace t f k = _
  simp only [offerPlace, h, hw, if_true]

theorem act_placeFreed_others (t : Tables) {f : Flow} {k : Slot} (h : f.inboundFree k = true)
    (hw : (f.slots.get k).placeWait = []) :
    (f.relayIn.stop = some { slot := k, wait := .place } → act t (.placeFreed k) f = (f, [.relayTake]))
    ∧ (f.relayIn.stop ≠ some { slot := k, wait := .place } →
      (∀ j, jobOf f k = some j → (f.jobs.get j).state = .waiting .place → act t (.placeFreed k) f = (f, [.jobAppend j]))
      ∧ ((∀ j, jobOf f k = some j → (f.jobs.get j).state ≠ .waiting .place) → act t (.placeFreed k) f = (f, []))) := by
  refine ⟨fun hs => ?_, fun hs => ⟨fun j hj hstate => ?_, fun hno => ?_⟩⟩
  · change offerPlace t f k = _
    simp only [offerPlace, h, hw, hs, if_true]
  · change offerPlace t f k = _
    simp only [offerPlace, h, hw, hs, hj, hstate, beq_self_eq_true, if_true, if_false]
  · change offerPlace t f k = _
    cases hj : jobOf f k with
    | none => simp only [offerPlace, h, hw, hs, hj, if_true, if_false]
    | some j => simp [offerPlace, h, hw, hs, hj, hno j hj]

theorem placeToCtx_eq (t : Tables) {f : Flow} (k : Slot) {c : CtxIx} {x : Ctx} (hx : f.ctx .tb c = some x) :
    let left := f.modSlot k fun y => { y with placeWait := (f.slots.get k).placeWait.filter (· != c) }
    let grade := (classOf t x.code).grade
    let cells := if x.malformed then 1 else cellsFor x.length
    (∀ g h, charge t left k grade cells = some (g, h) →
      placeToCtx t f k c = ctxCharged t (g.putCtx .tb c (some { x with place := true, wait := .noWait })) .tb c h)
    ∧ (charge t left k grade cells = none →
      placeToCtx t f k c = ({ left.putCtx .tb c (some { x with place := true, wait := .cells }) with
        waiting := f.waiting ++ [{ who := .tbCtx c, slot := k, grade := grade, cells := cells, since := t.now }] }, [])) := by
  intro left grade cells
  have hleft : f.leavePlace k c = left := congrArg (fun slots => { f with slots }) (Vector.modifyRow_congr f.slots k rfl)
  have hctx : left.ctx .tb c = some x := hx
  refine ⟨fun g h hcharge => ?_, fun hcharge => ?_⟩
  · simp only [placeToCtx, hleft, hctx]
    simp only [cells, grade] at hcharge
    simp only [hcharge]
  · simp only [placeToCtx, hleft, hctx]
    simp only [cells, grade] at hcharge
    simp only [hcharge]
    rfl

/-- Settles O20: the offers by their cases, what a charged claimant does by `act_charged_ctx` and `act_charged_others`. -/
theorem releasesAndOffers : Obligations.ReleasesAndOffers := by
  refine ⟨fun t f c => ⟨usageSub f.usage c, rfl, usageSub_get _ _⟩, fun t f x got =>
    ⟨rfl, tryWaiter_none got, fun g h => tryWaiter_some got⟩, fun t f k => ?_, act_charged_ctx, act_charged_others⟩
  intro next
  refine ⟨act_placeFreed_full t, fun c rest x hfree hwait hx => ?_, act_placeFreed_others t⟩
  have hnext : next = placeToCtx t f k c := act_placeFreed_ctx t hfree hwait
  rw [hnext]
  exact placeToCtx_eq t k hx

end Sys2Proof.Machine
end

section
/-! Frames received: O21 and O24. -/

namespace Sys2Proof.Machine

/-! ### What a frame is taken as (R140, R154, R216) -/

theorem accepts_false {t : Tables} {g : Flow} {p : PortId} {f : Frame}
    (h : t.ctl ≠ .running ∧ t.ctl ≠ .stopping ∨ f.id.extractLsb' 27 2 ≠ 0 ∨ f.id.extractLsb' 16 8 ≠ (t.port p).kind
      ∨ ∃ v, p = .vb v ∧ f.id.extractLsb' 8 8 ≠ (t.port p).node
        ∧ ∀ k, holdsAddr t g k = true → (t.testers.get k).vsAddr ≠ f.id.extractLsb' 8 8) :
    accepts t g p f = false := by
  rw [Bool.eq_false_iff]
  intro hacc
  simp only [accepts, Bool.and_eq_true, beq_iff_eq, Tables.active_iff] at hacc
  obtain ⟨⟨⟨hactive, hhigh⟩, hkind⟩, htarget⟩ := hacc
  obtain ⟨hrun, hstop⟩ | h | h | ⟨v, rfl, hnode, hslots⟩ := h
  · exact hactive.elim hrun hstop
  · exact h hhigh
  · exact h hkind
  · simp only [Bool.or_eq_true, beq_iff_eq, List.any_eq_true, Bool.and_eq_true, List.mem_finRange, true_and] at htarget
    obtain h | ⟨k, hk, haddr⟩ := htarget
    · exact hnode h
    · exact hslots k hk haddr

theorem received_of_accepts {s : State} {p : PortId} {f : Frame} (h : accepts s.tab s.flow p f = true) :
    received s p f = frBody f := by
  simp only [received, h, if_true]

theorem received_none {s : State} {p : PortId} {f : Frame}
    (h : accepts s.tab s.flow p f = false ∨ frBody f = none) : received s p f = none := by
  unfold received
  split
  · rename_i hacc
    exact h.elim (fun h => by rw [h] at hacc; cases hacc) id
  · rfl

/-- A frame that is ignored. -/
theorem exec_ignored {s : State} {p : PortId} {f : Frame} (h : received s p f = none) {c : Instr}
    (hc : c ∈ [.singleFrame p f, .openFrame p f, .nextFrame p f, .grantFrame p f, .stallFrame p f, .doneFrame p f,
      .abortFrame p f]) : exec c s = .next s := by
  simp only [List.mem_cons, List.not_mem_nil, or_false] at hc
  obtain rfl | rfl | rfl | rfl | rfl | rfl | rfl := hc
  · change execSingleFrame p f s = _
    simp only [execSingleFrame, h]
  · change execOpenFrame p f s = _
    simp only [execOpenFrame, h]
  · change execNextFrame p f s = _
    simp only [execNextFrame, h]
  · change execGrantFrame p f s = _
    simp only [execGrantFrame, h]
  · change execStallFrame p f s = _
    simp only [execStallFrame, h]
  · change execDoneFrame p f s = _
    simp only [execDoneFrame, h]
  · change execAbortFrame p f s = _
    simp only [execAbortFrame, h]

/-- The command of a first frame and its body, a SINGLE or an OPEN. -/
def firstCmd (p : PortId) (f : Frame) (single : Bool) : Instr := if single then .singleFrame p f else .openFrame p f

def firstBody (n : Nat) (pay : List Byte) (single : Bool) : FrameBody := if single then .single n pay else .openMsg n pay

theorem exec_firstFrame {s : State} {p : PortId} {f : Frame} {n : Nat} {pay : List Byte} {single : Bool}
    (hacc : accepts s.tab s.flow p f = true) (hbody : frBody f = some (firstBody n pay single)) :
    exec (firstCmd p f single) s = .next (s.withFlow (settled s.tab (firstFrame s.tab s.flow p f single n pay))) := by
  have hrec := (received_of_accepts hacc).trans hbody
  cases single with
  | true =>
    change execSingleFrame p f s = _
    simp only [execSingleFrame, hrec, firstBody, if_true]
  | false =>
    change execOpenFrame p f s = _
    simp only [execOpenFrame, hrec, firstBody, Bool.false_eq_true, if_false]

theorem exec_nextFrame {s : State} {p : PortId} {f : Frame} {i : BitVec 4} {bs : List Byte}
    (hacc : accepts s.tab s.flow p f = true) (hbody : frBody f = some (.next i bs)) :
    exec (.nextFrame p f) s = .next (s.withFlow (settled s.tab (nextFrom s.tab s.flow p f i bs))) := by
  change execNextFrame p f s = _
  simp only [execNextFrame, (received_of_accepts hacc).trans hbody]

/-! ### Frames without a sender (R150) -/

theorem busSlot_none {t : Tables} {a : Byte} (h : ∀ k, ¬((t.testers.get k).attached = true
    ∧ (t.testers.get k).kind = .bus ∧ (t.testers.get k).tbAddr = a)) : busSlot t a = none := by
  simp only [busSlot, List.find?_eq_none, Bool.and_eq_true, beq_iff_eq, and_assoc]
  exact fun k _ => h k

/-- Settles O21: a frame that is not received changes nothing, the bodies are `frBody_eq`. -/
theorem framesIgnored : Obligations.FramesIgnored := by
  refine ⟨fun p f s c hc h => exec_ignored (received_none ?_) hc, fun f s hacc hno => ?_, frBody_eq, frBody_nil,
    single_zero_vb⟩
  · obtain h | h | h | h | h := h
    · exact .inl (accepts_false (.inl h))
    · exact .inl (accepts_false (.inr (.inl h)))
    · exact .inl (accepts_false (.inr (.inr (.inl h))))
    · exact .inl (accepts_false (.inr (.inr (.inr h))))
    · exact .inr h
  · intro counted
    have hslot := busSlot_none hno
    have hfirst (single : Bool) (n : Nat) (pay : List Byte) : firstFrame s.tab s.flow .tb f single n pay
        = ({ s.flow with tbUnknown := s.flow.tbUnknown + 1 }, []) := by simp only [firstFrame, tbFirst, hslot]
    refine ⟨fun n pay hbody => ?_, fun n pay hbody => ?_, fun i bs hbody => ?_⟩
    · have hexec := exec_firstFrame (single := true) hacc hbody
      rw [hfirst] at hexec
      exact hexec
    · have hexec := exec_firstFrame (single := false) hacc hbody
      rw [hfirst] at hexec
      exact hexec
    · have hnext : nextFrom s.tab s.flow .tb f i bs = ({ s.flow with tbUnknown := s.flow.tbUnknown + 1 }, []) := by
        simp only [nextFrom, hslot]
      rw [exec_nextFrame hacc hbody, hnext]
      rfl

/-! ### Strays (R104, R105, R132, R153) -/

/-- The first frame on a VB port that is nobody's. -/
theorem firstFrame_stray {t : Tables} {g : Flow} {v : VbIx} {f : Frame} {single : Bool} {n : Nat} {pay : List Byte}
    (hn : 0 < n) : (portEcu t v (frSource f) = none →
      firstFrame t g (.vb v) f single n pay = (stray t g (.vb v) f single none, []))
    ∧ ∀ e, portEcu t v (frSource f) = some e →
      (frTarget f ≠ (t.port (.vb v)).node ∧ (∀ i, matchEntry t g e (frTarget f) = some i →
          ∀ x, g.entries.get i = some x → x.state.takes = false)
        ∨ frTarget f = (t.port (.vb v)).node
          ∧ ¬((g.claims.get e).state = .closing ∧ (g.claims.get e).phase = some .awaiting)) →
      firstFrame t g (.vb v) f single n pay = (stray t g (.vb v) f single (some e), []) := by
  have hzero : ¬n = 0 := Nat.pos_iff_ne_zero.mp hn
  refine ⟨fun hnone => ?_, fun e hecu => ?_⟩
  · simp only [firstFrame, hzero, if_false, vbAnswer, vbResponse, hnone, ite_self]
  · rintro (⟨hother, hentry⟩ | ⟨hnode, hclaim⟩)
    · simp only [firstFrame, hzero, hother, if_false, vbResponse, hecu]
      cases hm : matchEntry t g e (frTarget f) with
      | none => rfl
      | some i =>
        simp only
        cases hx : g.entries.get i with
        | none => rfl
        | some x => simp only [hentry i hm x hx, Bool.not_false, if_true]
    · have hnot : (g.claims.get e).awaitsAnswer = false := by simpa [Claim.awaitsAnswer] using hclaim
      simp only [firstFrame, hzero, hnode, if_true, if_false, vbAnswer, hecu, hnot, Bool.false_eq_true]

/-- Settles O24: `firstFrame_stray` gives the answer, which the command leaves behind. -/
theorem straysOnVb : Obligations.StraysOnVb := by
  intro v f s n pay single hacc hn hbody cmd answered
  have hexec : exec cmd s = .next (s.withFlow (settled s.tab (firstFrame s.tab s.flow (.vb v) f single n pay))) :=
    exec_firstFrame hacc hbody
  obtain ⟨hnone, hstray⟩ := firstFrame_stray (f := f) (single := single) (pay := pay) (t := s.tab) (g := s.flow) (v := v) hn
  refine ⟨fun h => ?_, fun e he h => ?_⟩
  · rw [hexec, hnone h]
    rfl
  · rw [hexec, hstray e he h]
    rfl

end Sys2Proof.Machine
end

section
/-! First frames on TB: O22 and O23. -/

namespace Sys2Proof.Machine

/-! ### The bodies of first frames (R140) -/

theorem nibble_cases (b : Byte) : b.toNat / 16 = 0 ∨ b.toNat / 16 = 1 ∨ b.toNat / 16 = 2 ∨ b.toNat / 16 = 3
    ∨ b.toNat / 16 = 4 ∨ 5 ≤ b.toNat / 16 := by omega

theorem frBody_single {f : Frame} {n : Nat} {pay : List Byte} (h : frBody f = some (.single n pay)) :
    pay.length = n ∧ n ≤ 7 := by
  obtain ⟨id, data⟩ := f
  cases data with
  | nil => rw [frBody_nil] at h; cases h
  | cons b rest =>
    obtain ⟨h0, h1, h2, h3, h4, h5⟩ := frBody_eq id b rest
    obtain hb | hb | hb | hb | hb | hb := nibble_cases b
    · rw [h0 hb] at h
      split at h
      · cases h
      · rename_i hlong
        cases h
        rw [List.length_take]
        omega
    · rw [h1 hb] at h
      split at h <;> cases h
    · rw [h2 hb] at h
      split at h <;> cases h
    · rw [h3 hb] at h
      split_ifs at h <;> cases h
    · rw [h4 hb] at h
      split at h <;> cases h
    · rw [h5 hb] at h
      cases h

theorem frBody_open {f : Frame} {n : Nat} {pay : List Byte} (h : frBody f = some (.openMsg n pay)) :
    pay.length = min 6 n ∧ 1 ≤ n := by
  obtain ⟨id, data⟩ := f
  cases data with
  | nil => rw [frBody_nil] at h; cases h
  | cons b rest =>
    obtain ⟨h0, h1, h2, h3, h4, h5⟩ := frBody_eq id b rest
    obtain hb | hb | hb | hb | hb | hb := nibble_cases b
    · rw [h0 hb] at h
      split at h <;> cases h
    · rw [h1 hb] at h
      split at h
      · cases h
      · rename_i hlong
        cases h
        rw [List.length_take, List.length_drop]
        omega
    · rw [h2 hb] at h
      split at h <;> cases h
    · rw [h3 hb] at h
      split_ifs at h <;> cases h
    · rw [h4 hb] at h
      split at h <;> cases h
    · rw [h5 hb] at h
      cases h

theorem segmentsFor_eq_zero (n : Nat) : segmentsFor n = 0 ↔ n ≤ 6 := by
  unfold segmentsFor
  omega

/-! ### The first frame of a key (R146) -/

theorem takeFirst_busy {t : Tables} {g : Flow} {p : PortId} {fr : FirstFrame} (taken : Flow → Flow)
    (hs : fr.single = false) (hfind : g.findCtx p fr.source fr.target = none) (hfree : g.freeCtx p = none) :
    takeFirst t g p fr taken = (pushControl t g p .nobody fr.source fr.target [0x40, 5], []) := by
  simp only [takeFirst, hs, hfind, hfree]
  rfl

theorem takeFirst_fresh {t : Tables} {g : Flow} {p : PortId} {fr : FirstFrame} {taken : Flow → Flow}
    (hports : (taken g).ports = g.ports)
    (hfind : g.findCtx p fr.source fr.target = none) (h : fr.single = true ∨ g.freeCtx p ≠ none) :
    takeFirst t g p fr taken = (taken g, [.seek p (if fr.single then none else g.freeCtx p) { fr with place := false }]) := by
  obtain ⟨hfind', hfree', -⟩ := findCtx_of_ports hports p fr.source fr.target
  have hroom : (!fr.single && (g.findCtx p fr.source fr.target).isNone && (g.freeCtx p).isNone) = false := by
    cases hs : fr.single with
    | true => rfl
    | false =>
      have hne : g.freeCtx p ≠ none := h.resolve_left (by simp [hs])
      cases hf : g.freeCtx p with
      | none => exact absurd hf hne
      | some c => simp [hfind]
  simp only [takeFirst, hroom, restart, hfind'.trans hfind, hfree', Bool.false_eq_true, if_false, Option.none_or,
    List.nil_append]

/-- The cells of a context that is dropped are released (R146). -/
def freedActs : Option Charge → List Act
  | none => []
  | some h => [.release h]

theorem takeFirst_restart {t : Tables} {g : Flow} {p : PortId} {fr : FirstFrame} {taken : Flow → Flow} {c : CtxIx}
    {x : Ctx} (hports : (taken g).ports = g.ports) (hfind : g.findCtx p fr.source fr.target = some c)
    (hx : g.ctx p c = some x) :
    takeFirst t g p fr taken = (dropContext (taken g) p c, freedActs x.charge ++ [.seek p (some c) { fr with place := x.place }]) := by
  obtain ⟨hfind', -, hctx⟩ := findCtx_of_ports hports p fr.source fr.target
  have hroom : (!fr.single && (g.findCtx p fr.source fr.target).isNone && (g.freeCtx p).isNone) = false := by
    simp [hfind]
  cases hc : x.charge with
  | none =>
    simp only [takeFirst, hroom, restart, hfind'.trans hfind, (hctx c).trans hx, hc, Bool.false_eq_true, if_false,
      Option.some_or, ite_self]
    rfl
  | some h =>
    simp only [takeFirst, hroom, restart, hfind'.trans hfind, (hctx c).trans hx, hc, Bool.false_eq_true, if_false,
      Option.some_or, ite_self]
    rfl

section
variable {t : Tables} {f g : Flow} {i : Option CtxIx} {fr : FirstFrame} {k : Slot} {h : Charge}

/-- The room that a message of TB seeks, charged: a SINGLE. -/
theorem seekTb_single (hplace : (fr.place || f.inboundFree k) = true)
    (hc : charge t f k (classOf t fr.code).grade fr.cells = some (g, h)) (hs : fr.single = true) :
    seekTb t f i fr k = (appendInbound g k fr.target (ctxMessage fr.length fr.malformed fr.code fr.bytes h), []) := by
  simp only [seekTb, hplace, hc, hs, if_true]

/-- An OPEN without segments. -/
theorem seekTb_short (hplace : (fr.place || f.inboundFree k) = true)
    (hc : charge t f k (classOf t fr.code).grade fr.cells = some (g, h)) (hs : fr.single = false)
    (hseg : segmentsFor fr.length = 0) : seekTb t f i fr k =
      (appendInbound (pushControl t g .tb .nobody fr.source fr.target doneData) k fr.target
        (ctxMessage fr.length fr.malformed fr.code fr.bytes h), []) := by
  simp only [seekTb, hplace, hc, hs, hseg, if_true, Bool.false_eq_true, if_false]

/-- An OPEN with segments. -/
theorem seekTb_open (hplace : (fr.place || f.inboundFree k) = true)
    (hc : charge t f k (classOf t fr.code).grade fr.cells = some (g, h)) (hs : fr.single = false)
    (hseg : segmentsFor fr.length ≠ 0) {c : CtxIx} (hw : waitCtx g .tb i = some c) : seekTb t f i fr k =
      (sendGrant t g .tb c { fr.ctx with charge := some h, place := true }, []) := by
  simp only [seekTb, hplace, hc, hs, hseg, hw, if_true, Bool.false_eq_true, if_false]

/-- Whether the message of TB finds its place and its cells. -/
def noRoomTb (t : Tables) (f : Flow) (k : Slot) (fr : FirstFrame) : Prop :=
  (fr.place || f.inboundFree k) = false ∨ charge t f k (classOf t fr.code).grade fr.cells = none

theorem noRoomTb.charge_none (hn : noRoomTb t f k fr) :
    (if (fr.place || f.inboundFree k) = true then charge t f k (classOf t fr.code).grade fr.cells else none) = none := by
  obtain hn | hn := hn
  · simp only [hn, Bool.false_eq_true, if_false]
  · simp only [hn, ite_self]

/-- Without room nothing is kept in REFUSE mode, and none in HOLD mode when all contexts are in use (R149). -/
theorem seekTb_refused (hn : noRoomTb t f k fr) (hk : fr.hold = false ∨ waitCtx f .tb i = none) :
    seekTb t f i fr k = noRoomFor t f .tb fr := by
  obtain hk | hk := hk
  · simp only [seekTb, hn.charge_none, hk, Bool.false_eq_true, if_false]
  · simp only [seekTb, hn.charge_none, hk, ite_self]

/-- The context in which a message of TB waits. -/
def waitsTb (t : Tables) (f : Flow) (k : Slot) (c : CtxIx) (fr : FirstFrame) : Flow :=
  if fr.place || f.inboundFree k then
    (f.putCtx .tb c (some { fr.ctx with place := true, wait := .cells })).enterWait t (.tbCtx c) k
      (classOf t fr.code).grade fr.cells
  else (f.putCtx .tb c (some { fr.ctx with wait := .place })).modSlot k fun x => { x with placeWait := x.placeWait ++ [c] }

theorem seekTb_waits (hn : noRoomTb t f k fr) (hk : fr.hold = true) {c : CtxIx} (hw : waitCtx f .tb i = some c) :
    seekTb t f i fr k = stallTick t (waitsTb t f k c fr) .tb c := by
  simp only [seekTb, hn.charge_none, hk, hw, if_true, waitsTb]
  split <;> rfl

end

/-! ### First frames of a BUS slot (R145, R146, R149, R150) -/

/-- The first frame of a BUS slot, as the model seeks room for it. -/
def tbFrame (s : State) (f : Frame) (k : Slot) (n : Nat) (pay : List Byte) (single : Bool) : FirstFrame :=
  { source := frSource f, target := frTarget f, owner := .slot k, hold := (s.tab.testers.get k).mode == .hold, single
    length := n, malformed := n == 0, code := firstByte pay, bytes := pay, place := false }

theorem firstFrame_tb {s : State} {f : Frame} {k : Slot} (hslot : busSlot s.tab (frSource f) = some k) (n : Nat)
    (pay : List Byte) (single : Bool) : firstFrame s.tab s.flow .tb f single n pay
      = takeFirst s.tab s.flow .tb (tbFrame s f k n pay single) id := by
  simp only [firstFrame, tbFirst, hslot, tbFrame]

section
variable {s : State} {f : Frame} {k : Slot} {n : Nat} {pay : List Byte} {single : Bool}

/-- A first frame on a key that is not in use seeks room. -/
theorem exec_tbFirst_fresh (hacc : accepts s.tab s.flow .tb f = true) (hbody : frBody f = some (firstBody n pay single))
    (hslot : busSlot s.tab (frSource f) = some k) (hfind : s.flow.findCtx .tb (frSource f) (frTarget f) = none)
    (h : single = true ∨ s.flow.freeCtx .tb ≠ none) : exec (firstCmd .tb f single) s = .next (s.run
      [.seek .tb (if single then none else s.flow.freeCtx .tb) (tbFrame s f k n pay single)]) := by
  rw [exec_firstFrame hacc hbody, firstFrame_tb hslot, takeFirst_fresh (taken := id) rfl hfind h]
  rfl

theorem run_one {s : State} {a : Act} {g : Flow} (h : act s.tab a s.flow = (g, [])) : s.run [a] = s.withFlow g := by
  rw [State.run, settle_one, h]
  rfl

theorem exec_tbFirst {g : Flow} (hacc : accepts s.tab s.flow .tb f = true)
    (hbody : frBody f = some (firstBody n pay single))
    (hslot : busSlot s.tab (frSource f) = some k) (hfind : s.flow.findCtx .tb (frSource f) (frTarget f) = none)
    (h : single = true ∨ s.flow.freeCtx .tb ≠ none)
    (hseek : seekTb s.tab s.flow (if single then none else s.flow.freeCtx .tb) (tbFrame s f k n pay single) k = (g, [])) :
    exec (firstCmd .tb f single) s = .next (s.withFlow g) := by
  rw [exec_tbFirst_fresh hacc hbody hslot hfind h]
  exact congrArg _ (run_one hseek)

end

/-- Settles O22: room for the message is `seekTb_single`, `seekTb_short` and `seekTb_open`. -/
theorem firstFrameTakenIn : Obligations.FirstFrameTakenIn := by
  refine ⟨fun f s k n pay g h hacc hbody hslot hfind hfree hcharge => ?_,
    fun f s k n pay c g h hacc hbody hslot hfind hctx hfree hcharge => ⟨fun hn => ?_, fun hn => ?_⟩,
    fun f s k n pay single c x hacc hbody hslot hfind hx => ?_⟩
  · obtain ⟨hlen, hn⟩ := frBody_single hbody
    have hcells : (tbFrame s f k n pay true).cells = 1 := by
      simp only [FirstFrame.cells, tbFrame, beq_iff_eq, cellsFor]
      split <;> omega
    have hpay : (if (n == 0) = true then [] else pay.take n) = pay := by
      split
      · rename_i hzero
        rw [beq_iff_eq] at hzero
        exact (List.length_eq_zero_iff.mp (hlen.trans hzero)).symm
      · exact List.take_of_length_le (Nat.le_of_eq hlen)
    have hmsg : ctxMessage n (n == 0) (firstByte pay) pay h
        = { charge := h, length := n, malformed := n == 0, code := firstByte pay, payload := pay } := by
      simp only [ctxMessage, hpay]
    rw [← hcells] at hcharge
    have hexec := exec_tbFirst (single := true) hacc hbody hslot hfind (.inl rfl) (seekTb_single hfree hcharge rfl)
    simp only [tbFrame, hmsg] at hexec
    exact hexec
  · obtain ⟨hlen, hpos⟩ := frBody_open hbody
    have hsome : s.flow.freeCtx .tb ≠ none := by simp [hctx]
    have hzero : (n == 0) = false := by simpa using Nat.pos_iff_ne_zero.mp hpos
    have hcharge' : charge s.tab s.flow k (classOf s.tab (tbFrame s f k n pay false).code).grade
        (tbFrame s f k n pay false).cells = some (g, h) := by
      simpa only [FirstFrame.cells, tbFrame, hzero, Bool.false_eq_true, if_false] using hcharge
    have hexec := exec_tbFirst (single := false) hacc hbody hslot hfind (.inr hsome)
      (seekTb_short hfree hcharge' rfl ((segmentsFor_eq_zero n).mpr hn))
    simp only [ctxMessage, tbFrame, hzero, Bool.false_eq_true, if_false, List.take_of_length_le (by omega : pay.length ≤ n)] at hexec
    exact hexec
  · obtain ⟨hlen, hpos⟩ := frBody_open hbody
    have hsome : s.flow.freeCtx .tb ≠ none := by simp [hctx]
    have hzero : (n == 0) = false := by simpa using Nat.pos_iff_ne_zero.mp hpos
    have hcharge' : charge s.tab s.flow k (classOf s.tab (tbFrame s f k n pay false).code).grade
        (tbFrame s f k n pay false).cells = some (g, h) := by
      simpa only [FirstFrame.cells, tbFrame, hzero, Bool.false_eq_true, if_false] using hcharge
    have hseg : segmentsFor n ≠ 0 := fun h => absurd ((segmentsFor_eq_zero n).mp h) (Nat.not_le.mpr hn)
    have hwait : waitCtx g .tb (s.flow.freeCtx .tb) = some c := by
      obtain ⟨_, _, rfl⟩ := charge_waiting hcharge
      have hnone := List.find?_some hctx
      simp only [hctx, waitCtx]
      exact if_pos hnone
    have hexec := exec_tbFirst (single := false) hacc hbody hslot hfind (.inr hsome)
      (seekTb_open (fr := tbFrame s f k n pay false) hfree hcharge' rfl hseg hwait)
    simp only [sendGrant, tbFrame, FirstFrame.ctx, hzero, Bool.false_eq_true, if_false, Nat.sub_zero] at hexec
    exact hexec
  · intro again
    have hexec : exec (firstCmd .tb f single) s = _ := exec_firstFrame hacc hbody
    rw [firstFrame_tb hslot, takeFirst_restart (fr := tbFrame s f k n pay single) (taken := id) rfl hfind hx] at hexec
    exact hexec

end Sys2Proof.Machine
end

section
/-! First frames on TB without room: O23. -/

namespace Sys2Proof.Machine

theorem noRoomFor_tb (t : Tables) (g : Flow) (s : State) (f : Frame) (k : Slot) (n : Nat) (pay : List Byte)
    (single : Bool) : noRoomFor t g .tb (tbFrame s f k n pay single)
      = (pushControl t g .tb .nobody (frSource f) (frTarget f) [0x40, 1], []) := rfl

theorem tbFrame_cells (s : State) (f : Frame) (k : Slot) (n : Nat) (pay : List Byte) (single : Bool) :
    (tbFrame s f k n pay single).cells = if n = 0 then 1 else cellsFor n := by
  simp only [FirstFrame.cells, tbFrame, beq_iff_eq]

/-- A wait with stalls left sends STALL, and with none is abandoned (R149). -/
theorem stallTick_putCtx {t : Tables} {f : Flow} {p : PortId} {c : CtxIx} {x : Ctx} (hx : x.stalls = 0) :
    (0 < (t.port p).stallLimit → stallTick t (f.putCtx p c (some x)) p c = (pushControl t
      (f.putCtx p c (some { x with stalls := 1, timer := .stall (after t.now (t.port p).stallInterval) })) p (.context c)
      x.source x.target [0x31], []))
    ∧ ((t.port p).stallLimit = 0 → stallTick t (f.putCtx p c (some x)) p c
      = abandonCtx (pushControl t (f.putCtx p c (some x)) p .nobody x.source x.target [0x40, 1]) p c true) := by
  refine ⟨fun h => ?_, fun h => ?_⟩
  · simp only [stallTick, Flow.putCtx_ctx_self, hx, h, if_true, Flow.putCtx_putCtx, stallData]
  · simp only [stallTick, Flow.putCtx_ctx_self, hx, h, Nat.lt_irrefl, if_false]
    rfl

/-- Settles O23. -/
theorem noRoomOnTb : Obligations.NoRoomOnTb := by
  intro f s k n pay single hacc hbody hslot hfind cmd grade cells answer noRoom mode
  have hno : noRoom ↔ noRoomTb s.tab s.flow k (tbFrame s f k n pay single) := by
    simp only [noRoom, noRoomTb, tbFrame_cells]
    rfl
  have hrefuse (h : single = true ∨ s.flow.freeCtx .tb ≠ none) (hn : noRoom)
      (hk : (tbFrame s f k n pay single).hold = false
        ∨ waitCtx s.flow .tb (if single then none else s.flow.freeCtx .tb) = none) : answer [0x40, 1] := by
    refine exec_tbFirst hacc hbody hslot hfind h ?_
    rw [seekTb_refused (hno.mp hn) hk, noRoomFor_tb]
  refine ⟨fun hs hfree => ?_, fun hn hmode h => hrefuse h hn (.inl ?_), fun hn hmode hs hfree => hrefuse (.inl hs) hn (.inr ?_),
    fun c hn hmode hc => ?_⟩
  · have hexec : exec cmd s = _ := exec_firstFrame hacc hbody
    rw [firstFrame_tb hslot, takeFirst_busy (fr := tbFrame s f k n pay single) id hs hfind hfree] at hexec
    exact hexec
  · simp only [tbFrame]
    rw [show (s.tab.testers.get k).mode = .refuse from hmode]
    rfl
  · rw [if_pos hs]
    exact hfree
  · intro place x waits
    have hhold : (tbFrame s f k n pay single).hold = true := by
      simp only [tbFrame]
      rw [show (s.tab.testers.get k).mode = .hold from hmode]
      rfl
    have hfree : single = true ∨ s.flow.freeCtx .tb ≠ none := .inr (by simp [hc])
    have hwait : waitCtx s.flow .tb (if single then none else s.flow.freeCtx .tb) = some c := by
      cases single with
      | true => exact hc
      | false =>
        have hnone := List.find?_some hc
        simp only [hc, waitCtx]
        exact if_pos hnone
    have hframe : tbFrame s f k n pay single = {
        source := frSource f, target := frTarget f, owner := .slot k, hold := true, single := single, length := n
        malformed := n == 0, code := firstByte pay, bytes := pay, place := false } := by
      rw [← hhold]
      rfl
    have hseek := seekTb_waits (hno.mp hn) hhold hwait
    have hwaits : waitsTb s.tab s.flow k c (tbFrame s f k n pay single) = waits x := by
      have hcells := tbFrame_cells s f k n pay single
      rw [hframe] at hcells ⊢
      simp only [waitsTb, Bool.false_or, hcells, waits, x]
      cases hp : place with
      | true =>
        rw [show s.flow.inboundFree k = true from hp, if_pos rfl, if_pos rfl, if_pos rfl]
        rfl
      | false =>
        rw [show s.flow.inboundFree k = false from hp, if_neg Bool.false_ne_true, if_neg Bool.false_ne_true,
          if_neg Bool.false_ne_true]
        rfl
    rw [hwaits] at hseek
    obtain ⟨hstall, habandon⟩ := stallTick_putCtx (t := s.tab) (f := if place then
        { s.flow with waiting := s.flow.waiting ++
          [{ who := .tbCtx c, slot := k, grade := grade, cells := cells, since := s.tab.now }] }
      else s.flow.modSlot k fun y => { y with placeWait := y.placeWait ++ [c] }) (p := .tb) (c := c) (x := x) rfl
    refine ⟨fun h => ?_, fun h => ?_⟩
    · exact exec_tbFirst hacc hbody hslot hfind hfree (hseek.trans (hstall h))
    · intro seek
      have hmatch : (if single then none else s.flow.freeCtx .tb) = (if single then none else some c) := by rw [hc]
      refine ⟨?_, ?_⟩
      · have hexec := exec_tbFirst_fresh hacc hbody hslot hfind hfree
        rw [hmatch, hframe] at hexec
        exact hexec
      · rw [hmatch, hframe] at hseek
        exact hseek.trans (habandon h)

end Sys2Proof.Machine
end

section
/-! The answers of an ECU: O25 and O26. -/

namespace Sys2Proof.Machine

/-! ### Runs of acts -/

theorem settleFor_act {t : Tables} {n : Nat} {a : Act} {rest as : List Act} {f g : Flow} (h : act t a f = (g, as)) :
    settleFor t (n + 1) (a :: rest) f = settleFor t n (as ++ rest) g := by
  rw [settleFor, h]

/-! ### The first frame of an entry (R104, R107) -/

theorem isInterim_false {t : Tables} {e : EcuIx} {single : Bool} {pay : List Byte}
    (h : single = true → (t.ecus.get e).interimMarker ≠ some (firstByte pay)) : isInterim t e single pay = false := by
  cases single with
  | false => rfl
  | true =>
    cases hm : (t.ecus.get e).interimMarker with
    | none => simp only [isInterim, hm, Bool.and_false]
    | some m =>
      cases pay with
      | nil => simp [isInterim, hm]
      | cons b rest =>
        have hne : b ≠ m := fun hb => h rfl (by rw [hm, ← hb]; rfl)
        simp [isInterim, hm, hne]

theorem isInterim_true {t : Tables} {e : EcuIx} {pay : List Byte} (hpay : pay ≠ [])
    (h : (t.ecus.get e).interimMarker = some (firstByte pay)) : isInterim t e true pay = true := by
  cases pay with
  | nil => exact absurd rfl hpay
  | cons b rest => simp [isInterim, h, firstByte]

section
variable {t : Tables} {g : Flow} {v : VbIx} {f : Frame} {single : Bool} {n : Nat} {pay : List Byte} {e : EcuIx}
  {i : EntryIx} {x : Entry}

/-- A frame for an entry that awaits its response (R104). -/
theorem firstFrame_entry (hn : 0 < n) (hother : frTarget f ≠ (t.port (.vb v)).node)
    (hecu : portEcu t v (frSource f) = some e) (hentry : matchEntry t g e (frTarget f) = some i)
    (hx : g.entries.get i = some x) (htakes : x.state.takes = true) :
    firstFrame t g (.vb v) f single n pay =
      if isInterim t e single pay then interimAnswer t g v f i x pay
      else takeFirst t g (.vb v)
        { source := frSource f, target := frTarget f, owner := .entry i, hold := true, single, length := n
          malformed := false, code := firstByte pay, bytes := pay, place := false }
        fun f => f.modEntry i fun y => { y with state := y.state.toPhase .receiving, deadline := none } := by
  have hzero : ¬n = 0 := Nat.pos_iff_ne_zero.mp hn
  simp only [firstFrame, hzero, hother, if_false, vbResponse, hecu, hentry, hx, htakes, Bool.not_true, Bool.false_eq_true]

theorem EntryState.toPhase_receiving (s : EntryState) :
    s.toPhase .receiving = if s.isOrphan then .orphaned .receiving else .receiving := by
  cases s <;> rfl

theorem EntryState.toPhase_awaiting (s : EntryState) :
    s.toPhase .awaiting = if s.isOrphan then .orphaned .awaiting else .awaiting := by
  cases s <;> rfl

theorem modEntry_receiving (hx : g.entries.get i = some x) :
    (g.modEntry i fun y => { y with state := y.state.toPhase .receiving, deadline := none })
      = g.modEntry i fun y => { y with
          state := if x.state.isOrphan then .orphaned .receiving else .receiving, deadline := none } :=
  Flow.modEntry_congr hx (by rw [EntryState.toPhase_receiving])

end

/-- The first frame of an entry, as the model seeks room for it. -/
def vbFrame (f : Frame) (i : EntryIx) (n : Nat) (pay : List Byte) (single : Bool) : FirstFrame :=
  { source := frSource f, target := frTarget f, owner := .entry i, hold := true, single, length := n
    malformed := false, code := firstByte pay, bytes := pay, place := false }

/-- The entry of a response that began is RECEIVING, an ORPHANED one too (R104). -/
def receives (g : Flow) (i : EntryIx) (x : Entry) : Flow := g.modEntry i fun y => { y with
  state := if x.state.isOrphan then .orphaned .receiving else .receiving, deadline := none }

section
variable {v : VbIx} {f : Frame} {s : State} {single : Bool} {n : Nat} {pay : List Byte} {e : EcuIx} {i : EntryIx} {x : Entry}

theorem exec_vbFirst (hacc : accepts s.tab s.flow (.vb v) f = true) (hn : 0 < n)
    (hbody : frBody f = some (firstBody n pay single)) (hother : frTarget f ≠ (s.tab.port (.vb v)).node)
    (hecu : portEcu s.tab v (frSource f) = some e) (hentry : matchEntry s.tab s.flow e (frTarget f) = some i)
    (hx : s.flow.entries.get i = some x) (htakes : x.state.takes = true)
    (hinterim : single = true → (s.tab.ecus.get e).interimMarker ≠ some (firstByte pay)) :
    exec (firstCmd (.vb v) f single) s = .next (s.withFlow (settled s.tab
      (takeFirst s.tab s.flow (.vb v) (vbFrame f i n pay single)
        fun f => f.modEntry i fun y => { y with state := y.state.toPhase .receiving, deadline := none }))) := by
  rw [exec_firstFrame hacc hbody, firstFrame_entry hn hother hecu hentry hx htakes, isInterim_false hinterim]
  rfl

/-- The response of an entry that began, on a key that is not in use, seeks room. -/
theorem exec_vbFirst_fresh (hacc : accepts s.tab s.flow (.vb v) f = true) (hn : 0 < n)
    (hbody : frBody f = some (firstBody n pay single)) (hother : frTarget f ≠ (s.tab.port (.vb v)).node)
    (hecu : portEcu s.tab v (frSource f) = some e) (hentry : matchEntry s.tab s.flow e (frTarget f) = some i)
    (hx : s.flow.entries.get i = some x) (htakes : x.state.takes = true)
    (hinterim : single = true → (s.tab.ecus.get e).interimMarker ≠ some (firstByte pay))
    (hfind : s.flow.findCtx (.vb v) (frSource f) (frTarget f) = none)
    (h : single = true ∨ s.flow.freeCtx (.vb v) ≠ none) :
    exec (firstCmd (.vb v) f single) s = .next ((s.withFlow (receives s.flow i x)).run
      [.seek (.vb v) (if single then none else s.flow.freeCtx (.vb v)) (vbFrame f i n pay single)]) := by
  rw [exec_vbFirst hacc hn hbody hother hecu hentry hx htakes hinterim,
    takeFirst_fresh (fr := vbFrame f i n pay single) rfl hfind h, modEntry_receiving hx]
  rfl

end

/-- A complete response of an entry that awaits it, without a probe and without a JOB slot (R109, R110, R114, R125). -/
theorem settle_response {t : Tables} {f : Flow} {i : EntryIx} {x : Entry} {m : Message} (hx : f.entries.get i = some x)
    (hstate : x.state = .receiving) (hbinding : x.binding = false)
    (hprobe : governing t .response x.slot (some x.ecu) (some x.cls) = none)
    (hkind : (t.testers.get x.slot).kind ≠ .job) (n : Nat) :
    let counted := f.countEcu x.ecu fun c => { c with responses := c.responses + 1 }
    let ended := entryEnd t (refreshClaim t (toDelivering counted i (.response m)) x.slot x.ecu) i
    settleFor t (n + 4) [.response i m] f = { ended.modSlot x.slot (fun y => { y with
        items := y.items ++ [{ body := .response m, source := (t.ecus.get x.ecu).node, ecu := some x.ecu, order := ended.placed }] })
      with placed := ended.placed + 1 } := by
  intro counted ended
  have hresponse : act t (.response i m) f = (toDelivering counted i (.response m), [.deliver i]) :=
    ((act_response t f i x m hx).1 hstate).1
  have hdelivering : (toDelivering counted i (.response m)).entries.get i
      = some { x with state := .delivering, deadline := none, held := some (.response m) } := by
    simp [toDelivering, counted, Flow.countEcu, Flow.modEntry, hx]
  have hdeliver := ((act_deliver_response t _ i _ m hdelivering rfl rfl).1 hbinding).1 hprobe
  have hplace : act t (.placeItem x.slot (.response m) (t.ecus.get x.ecu).node (some x.ecu) (.entry x.ecu)) ended
      = ({ ended.modSlot x.slot (fun y => { y with
        items := y.items ++ [{ body := .response m, source := (t.ecus.get x.ecu).node, ecu := some x.ecu, order := ended.placed }] })
      with placed := ended.placed + 1 }, []) := by
    change placeItem t ended _ _ _ _ _ = _
    cases hk : (t.testers.get x.slot).kind with
    | job => exact absurd hk hkind
    | bus => simp only [placeItem, hk]
    | relay => simp only [placeItem, hk]
  rw [settleFor_act hresponse, List.append_nil, settleFor_act hdeliver, List.append_nil, settleFor_act hplace]
  rfl

/-- Settles O25. -/
theorem responseReachesTester : Obligations.ResponseReachesTester := by
  refine ⟨?_, ?_, act_seek_vb, act_response, act_deliver_response, refreshClaim_eq⟩
  · intro v f s n pay e i x g h hacc hbody hn hother hecu hentry hx hstate hmarker hfind hbinding hprobe hkind taken hcharge
      m counted ended
    obtain ⟨hlen, hmax⟩ := frBody_single hbody
    have htakes : x.state.takes = true := by obtain h | h := hstate <;> rw [h] <;> rfl
    have horphan : x.state.isOrphan = false := by obtain h | h := hstate <;> rw [h] <;> rfl
    have htaken : receives s.flow i x = taken := by simp only [receives, horphan, Bool.false_eq_true, if_false, taken]
    have hcells : cellsFor n = 1 := by
      unfold cellsFor
      omega
    have hentries : taken.entries.get i = some { x with state := .receiving, deadline := none } := by
      simp [taken, Flow.modEntry, hx]
    have hgentries : g.entries.get i = some { x with state := .receiving, deadline := none } := by
      obtain ⟨_, _, rfl⟩ := charge_waiting hcharge
      exact hentries
    rw [← hcells] at hcharge
    have hseek := ((act_seek_vb s.tab taken v none (vbFrame f i n pay true) i _ rfl hentries rfl).1 g h hcharge).1 rfl
    have hmsg : pay.take n = pay := List.take_of_length_le (Nat.le_of_eq hlen)
    simp only [vbFrame, hmsg] at hseek
    have hexec := exec_vbFirst_fresh (single := true) hacc hn hbody hother hecu hentry hx htakes (fun _ => hmarker) hfind
      (.inl rfl)
    rw [htaken] at hexec
    refine hexec.trans (congrArg _ (congrArg (State.withFlow _) ?_))
    rw [settle, actLimit, if_pos rfl]
    exact (settleFor_act hseek).trans (settle_response hgentries rfl hbinding hprobe hkind 99995)
  · intro v f s n pay single e i x hacc hn hbody hother hecu hentry hx htakes hmarker cmd fr taken free
    refine ⟨fun hfind => ⟨fun hs hfree => ?_, fun hfree => ?_⟩, fun c y hfind hy => ?_⟩
    · have hexec := exec_vbFirst hacc hn hbody hother hecu hentry hx htakes hmarker
      rw [takeFirst_busy (fr := vbFrame f i n pay single) _ hs hfind hfree] at hexec
      exact hexec
    · exact exec_vbFirst_fresh hacc hn hbody hother hecu hentry hx htakes hmarker hfind hfree
    · have hexec := exec_vbFirst hacc hn hbody hother hecu hentry hx htakes hmarker
      rw [takeFirst_restart (fr := vbFrame f i n pay single) rfl hfind hy, modEntry_receiving hx] at hexec
      exact hexec

end Sys2Proof.Machine
end

section
/-! The interim answer and the answer to a closing: O26. -/

namespace Sys2Proof.Machine

theorem freeContext_entries (f : Flow) (p : PortId) (c : CtxIx) : (freeContext f p c).entries = f.entries := by
  unfold freeContext
  split
  · rfl
  · rename_i x _
    cases x.owner <;> rfl

theorem freeContext_free {f : Flow} {p : PortId} {c : CtxIx} (h : f.ctx p c = none) : freeContext f p c = f := by
  simp only [freeContext, h]

/-- The context of the key of an interim answer is given up, and its cells released (R104). -/
def interimGone (g : Flow) (v : VbIx) (f : Frame) : Flow :=
  match g.findCtx (.vb v) (frSource f) (frTarget f) with
  | none => g
  | some c => freeContext g (.vb v) c

def interimFreed (g : Flow) (v : VbIx) (f : Frame) : List Act :=
  freedActs ((g.findCtx (.vb v) (frSource f) (frTarget f)).bind fun c => (g.ctx (.vb v) c).bind (·.charge))

theorem interimGone_entries (g : Flow) (v : VbIx) (f : Frame) : (interimGone g v f).entries = g.entries := by
  unfold interimGone
  split
  · rfl
  · exact freeContext_entries ..

theorem interimAnswer_eq {t : Tables} {g : Flow} (v : VbIx) (f : Frame) {i : EntryIx} {x : Entry} (pay : List Byte)
    (hx : g.entries.get i = some x) :
    let counted := (interimGone g v f).modEntry i fun y => { y with interims := x.interims + 1 }
    interimAnswer t g v f i x pay =
      if (t.ecus.get x.ecu).interimLimit < x.interims + 1 then
        (counted.countEcu x.ecu fun c => { c with timeouts := c.timeouts + 1 },
          interimFreed g v f ++ [.refuseEntry i .timeout])
      else
        (counted.modEntry i fun y =>
          { y with state := if x.state.isOrphan then .orphaned .awaiting else .awaiting
                   deadline := some (after t.now (t.ecus.get x.ecu).longTimeout) },
          interimFreed g v f ++ [.interim i pay]) := by
  intro counted
  have hcounted : counted.entries.get i = some { x with interims := x.interims + 1 } := by
    simp [counted, Flow.modEntry, interimGone_entries, hx]
  have hwaits : (counted.modEntry i fun y => { y with
        state := y.state.toPhase .awaiting, deadline := some (after t.now (t.ecus.get x.ecu).longTimeout) })
      = counted.modEntry i fun y =>
          { y with state := if x.state.isOrphan then .orphaned .awaiting else .awaiting
                   deadline := some (after t.now (t.ecus.get x.ecu).longTimeout) } :=
    Flow.modEntry_congr hcounted (by simp only [EntryState.toPhase_awaiting])
  rw [← hwaits]
  unfold interimAnswer
  cases hfind : g.findCtx (.vb v) (frSource f) (frTarget f) with
  | none =>
    simp only [counted, interimGone, interimFreed, hfind]
    rfl
  | some c =>
    cases hctx : g.ctx (.vb v) c with
    | none =>
      simp only [counted, interimGone, interimFreed, hfind, freeContext_free hctx]
      simp only [Option.bind_some, hctx]
      rfl
    | some y =>
      simp only [counted, interimGone, interimFreed, hfind, Option.bind_some, hctx, Option.map_some]
      cases y.charge <;> rfl

theorem act_interim (t : Tables) (f : Flow) (i : EntryIx) (x : Entry) (pay : List Byte) (hx : f.entries.get i = some x) :
    act t (.interim i pay) f = (f,
      if x.state.isOrphan = false ∧ (t.ecus.get x.ecu).interimFwd = true ∧ f.deliveryFree x.slot = true then
        [.placeItem x.slot (.interim pay) (t.ecus.get x.ecu).node (some x.ecu) (.entry x.ecu)] else []) := by
  change (f, interimCopy t f i pay) = _
  simp only [interimCopy, hx, Bool.and_eq_true, Bool.not_eq_true', and_assoc, entryItem]

/-- Settles O26: the interim answer is `interimAnswer_eq`, the answer to a closing `closeAnswer_eq`. -/
theorem interimAndCloseAnswers : Obligations.InterimAndCloseAnswers := by
  refine ⟨?_, act_interim, ?_, closeAnswer_eq, act_seek_close⟩
  · intro v f s n pay e i x hacc hbody hn hother hecu hentry hx htakes hmarker he ecu old freed gone counted
    subst he
    have hpay : pay ≠ [] := by
      rintro rfl
      exact absurd (frBody_single hbody).1.symm (Nat.pos_iff_ne_zero.mp hn)
    have hexec : exec (.singleFrame (.vb v) f) s = _ := exec_firstFrame (single := true) hacc hbody
    rw [firstFrame_entry hn hother hecu hentry hx htakes, if_pos (isInterim_true hpay hmarker),
      interimAnswer_eq v f pay hx] at hexec
    refine ⟨fun h => ?_, fun h => ?_⟩
    · rw [if_pos h] at hexec
      exact hexec
    · rw [if_neg (Nat.not_lt.mpr h)] at hexec
      exact hexec
  · intro v f s n pay e hacc hbody hn hnode hecu hstate hphase hfind
    exact ((closeAnswer_eq v f s n pay true e hacc hn hbody hnode hecu hstate hphase).1 hfind).1 rfl

end Sys2Proof.Machine
end

section
/-! NEXT, CREDIT and ABORT frames, and the frames that are sent: O27, O28 and O29. -/

namespace Sys2Proof.Machine

/-! ### NEXT (R147, R216) -/

theorem nextFrom_known {t : Tables} {g : Flow} {p : PortId} {f : Frame} {i : BitVec 4} {bs : List Byte}
    (h : p = .tb → (busSlot t (frSource f)).isSome) : nextFrom t g p f i bs = nextTaken t g p f i bs := by
  cases p with
  | vb v => rfl
  | tb =>
    obtain ⟨k, hk⟩ := Option.isSome_iff_exists.mp (h rfl)
    simp only [nextFrom, hk]

theorem nextTaken_none {t : Tables} {g : Flow} {p : PortId} {f : Frame} (i : BitVec 4) (bs : List Byte)
    (h : g.findCtx p (frSource f) (frTarget f) = none) : nextTaken t g p f i bs = (g, []) := by
  simp only [nextTaken, h]

/-- A segment in order is taken into its context (R147). -/
theorem nextTaken_inOrder {t : Tables} {g : Flow} {p : PortId} {f : Frame} {i : BitVec 4} {bs : List Byte} {c : CtxIx}
    {x : Ctx} (hfind : g.findCtx p (frSource f) (frTarget f) = some c) (hx : g.ctx p c = some x)
    (horder : x.expects i = true) (hlong : x.segmentBytes ≤ bs.length) :
    nextTaken t g p f i bs =
      if x.segments ≤ x.received + 1 then ctxComplete t g p c (x.take bs)
      else if x.granted - 1 = 0 then (sendGrant t g p c (x.take bs), [])
      else (g.putCtx p c (some (x.take bs)), []) := by
  have hcalled : ¬bs.length < x.calledFor i := by
    rw [Ctx.calledFor, if_pos horder]
    exact Nat.not_lt.mpr hlong
  simp only [nextTaken, hfind, hx, hcalled, if_false, nextSegment, horder, if_true]
  rfl

theorem ctxComplete_charged {t : Tables} {g : Flow} {p : PortId} {c : CtxIx} {y : Ctx} {h : Charge} (hc : y.charge = some h) :
    ctxComplete t g p c y = handOver (pushControl t (freeContext g p c) p .nobody y.source y.target doneData) y.owner y.target
      (ctxMessage y.length y.malformed y.code y.bytes h) := by
  simp only [ctxComplete, hc]

theorem ctxComplete_uncharged {t : Tables} {g : Flow} {p : PortId} {c : CtxIx} {y : Ctx} (hc : y.charge = none) :
    ctxComplete t g p c y = (pushControl t (freeContext g p c) p .nobody y.source y.target doneData, []) := by
  simp only [ctxComplete, hc]

/-- Settles O27: in order by `nextTaken_inOrder`, else by `nextFrame_stores_nothing`. -/
theorem nextFrameTaken : Obligations.NextTaken := by
  intro p f s index bytes hacc hbody hbus
  have hexec := exec_nextFrame hacc hbody
  rw [nextFrom_known hbus] at hexec
  refine ⟨fun hnone => ?_, fun c x hfind hx => ?_⟩
  · rw [hexec, nextTaken_none _ _ hnone]
    rfl
  · obtain ⟨hshort, hstray, habort⟩ := nextFrame_stores_nothing p f s index bytes c x hacc hbody hbus hfind hx
    intro size inOrder y called
    have htaken (horder : inOrder) (hlong : size ≤ bytes.length) := nextTaken_inOrder (t := s.tab) (bs := bytes) hfind hx
      (x.expects_iff index |>.mpr horder) hlong
    have hy : x.take bytes = y := by
      simp only [Ctx.take, Ctx.stored, y]
      cases x.owner <;> rfl
    rw [hy] at htaken
    refine ⟨hshort, hstray, habort, fun hlong horder hmore hgranted => ?_, fun hlong horder hmore hgranted => ?_,
      fun k h hlong horder hlast howner hcharge hmal => ?_, fun e h hlong horder hlast howner hcharge hmal => ?_,
      fun e hlong horder hlast howner hcharge => ?_⟩
    · rw [hexec, htaken horder hlong, if_neg (Nat.not_le.mpr hmore), if_neg (by omega)]
      rfl
    · rw [hexec, htaken horder hlong, if_neg (Nat.not_le.mpr hmore), if_pos (by omega)]
      have hwait : x.wait = .noWait := horder.1
      simp only [sendGrant, y, hwait]
      rfl
    · rw [hexec, htaken horder hlong, if_pos hlast, ctxComplete_charged (show y.charge = some h from hcharge),
        show y.owner = .slot k from howner, show y.malformed = false from hmal]
      rfl
    · rw [hexec, htaken horder hlong, if_pos hlast, ctxComplete_charged (show y.charge = some h from hcharge),
        show y.owner = .entry e from howner, show y.malformed = false from hmal]
      rfl
    · rw [hexec, htaken horder hlong, if_pos hlast, ctxComplete_uncharged (show y.charge = none from hcharge)]
      rfl

/-! ### CREDIT and ABORT frames (R143, R144, R148) -/

section
variable {p : PortId} {f : Frame} {s : State}

theorem exec_grantFrame {n : Nat} (hacc : accepts s.tab s.flow p f = true) (hbody : frBody f = some (.grant n)) :
    exec (.grantFrame p f) s = .next (s.withFlow (grantTaken s.tab s.flow p f n)) := by
  change execGrantFrame p f s = _
  simp only [execGrantFrame, (received_of_accepts hacc).trans hbody]

theorem exec_stallFrame (hacc : accepts s.tab s.flow p f = true) (hbody : frBody f = some .stall) :
    exec (.stallFrame p f) s = .next (s.withFlow (settled s.tab (stallTaken s.tab s.flow p f))) := by
  change execStallFrame p f s = _
  simp only [execStallFrame, (received_of_accepts hacc).trans hbody]

theorem exec_doneFrame (hacc : accepts s.tab s.flow p f = true) (hbody : frBody f = some .done) :
    exec (.doneFrame p f) s = .next (s.withFlow (settled s.tab (doneTaken s.tab s.flow p f))) := by
  change execDoneFrame p f s = _
  simp only [execDoneFrame, (received_of_accepts hacc).trans hbody]

theorem exec_abortFrame (hacc : accepts s.tab s.flow p f = true) (hbody : frBody f = some .abort) :
    exec (.abortFrame p f) s = .next (s.withFlow (settled s.tab (abortTaken s.tab s.flow p f))) := by
  change execAbortFrame p f s = _
  simp only [execAbortFrame, (received_of_accepts hacc).trans hbody]

end

section
variable {t : Tables} {g : Flow} {p : PortId} {f : Frame}

theorem creditFor_tx {x : Transfer} (h : creditFor g p f = some x) : (g.port p).tx = some x := by
  unfold creditFor at h
  split at h
  · cases h
  · rename_i y hy
    split at h
    · cases h
      exact hy
    · cases h

/-- The transfer changed by two functions that agree on it. -/
theorem modTx_congr {x : Transfer} {u w : Transfer → Transfer} (hx : (g.port p).tx = some x) (h : u x = w x) :
    modTx g p u = modTx g p w := by
  unfold modTx Flow.modPort
  congr 1
  refine Vector.modifyRow_congr _ _ ?_
  rw [show g.ports.get (portIx p) = g.port p from rfl, hx]
  simp only [Option.map_some, h]

theorem grantTaken_ignored (n : Nat) (h : ∀ x, creditFor g p f = some x → x.phase ≠ .waitCredit) :
    grantTaken t g p f n = g := by
  unfold grantTaken
  cases hc : creditFor g p f with
  | none => rfl
  | some x => simp [h x hc]

theorem grantTaken_runs {x : Transfer} (n : Nat) (hc : creditFor g p f = some x) (hp : x.phase = .waitCredit) :
    grantTaken t g p f n = pushNext t (modTx g p fun y =>
      { y with phase := .run, granted := min n (x.segments - x.sent), stalls := 0, deadline := none }) p := by
  rw [← modTx_congr (u := fun y =>
    { y with phase := .run, granted := min n (y.segments - y.sent), stalls := 0, deadline := none }) (creditFor_tx hc) rfl]
  simp only [grantTaken, hc, hp, beq_self_eq_true, if_true]

theorem stallTaken_ignored (h : ∀ x, creditFor g p f = some x → x.phase ≠ .waitCredit) :
    stallTaken t g p f = (g, []) := by
  unfold stallTaken
  cases hc : creditFor g p f with
  | none => rfl
  | some x => simp [h x hc]

theorem stallTaken_waits {x : Transfer} (hc : creditFor g p f = some x) (hp : x.phase = .waitCredit) :
    stallTaken t g p f = if (t.port p).stallLimit ≤ x.stalls then transferTimeout t g p
      else (modTx g p fun y =>
        { y with stalls := x.stalls + 1, deadline := some (after t.now (t.port p).creditWait) }, []) := by
  rw [← modTx_congr (u := fun y =>
    { y with stalls := y.stalls + 1, deadline := some (after t.now (t.port p).creditWait) }) (creditFor_tx hc) rfl]
  simp only [stallTaken, hc, hp, beq_self_eq_true, if_true]

theorem doneTaken_ignored (h : ∀ x, creditFor g p f = some x → x.phase ≠ .waitDone) :
    doneTaken t g p f = (g, []) := by
  unfold doneTaken
  cases hc : creditFor g p f with
  | none => rfl
  | some x => simp [h x hc]

theorem doneTaken_ends {x : Transfer} (hc : creditFor g p f = some x) (hp : x.phase = .waitDone) :
    doneTaken t g p f = transferEnd t g p true := by
  simp only [doneTaken, hc, hp, beq_self_eq_true, if_true]

end

/-- Settles O28: each frame is ignored, or does what its phase says. -/
theorem creditAndAbortFrames : Obligations.CreditAndAbortFrames := by
  refine ⟨fun p f s hacc => ⟨fun n hbody => ⟨fun h => ?_, fun x hc hp => ?_⟩, fun hbody => ⟨fun h => ?_, fun x hc hp =>
    ⟨fun hlt => ?_, fun hle => ?_⟩⟩, fun hbody => ⟨fun h => ?_, fun x hc hp => ?_⟩⟩, fun p f s hacc hbody => ?_⟩
  · rw [exec_grantFrame hacc hbody, grantTaken_ignored n h]
    rfl
  · rw [exec_grantFrame hacc hbody, grantTaken_runs n hc hp]
  · rw [exec_stallFrame hacc hbody, stallTaken_ignored h]
    rfl
  · rw [exec_stallFrame hacc hbody, stallTaken_waits hc hp, if_neg (Nat.not_le.mpr hlt)]
    rfl
  · rw [exec_stallFrame hacc hbody, stallTaken_waits hc hp, if_pos hle]
    rfl
  · rw [exec_doneFrame hacc hbody, doneTaken_ignored h]
    rfl
  · rw [exec_doneFrame hacc hbody, doneTaken_ends hc hp]
    rfl
  · rw [exec_abortFrame hacc hbody]
    refine ⟨fun hc hfind => ?_, fun c hc hfind => ?_, fun x hc => ⟨fun hfind => ?_, fun c hfind => ?_⟩⟩
    · have habort : abortTaken s.tab s.flow p f = (s.flow, []) := by simp [abortTaken, hc, hfind]
      rw [habort]
      rfl
    · have habort : abortTaken s.tab s.flow p f = abandonCtx s.flow p c false := by simp [abortTaken, hc, hfind]
      rw [habort]
      rfl
    · have habort : abortTaken s.tab s.flow p f = transferEnd s.tab s.flow p false := by simp [abortTaken, hc, hfind]
      rw [habort]
      rfl
    · have habort : abortTaken s.tab s.flow p f = ((abandonCtx (transferEnd s.tab s.flow p false).1 p c false).1,
          (transferEnd s.tab s.flow p false).2 ++ (abandonCtx (transferEnd s.tab s.flow p false).1 p c false).2) := by
        simp [abortTaken, hc, hfind]
      rw [habort]
      rfl

/-! ### What the part sends (R140, R141, R216) -/

theorem frameId_fields (ps : PortSettings) (target source : Byte) :
    (frameId ps target source).extractLsb' 27 2 = 0 ∧ (frameId ps target source).extractLsb' 16 8 = ps.kind
    ∧ (frameId ps target source).extractLsb' 8 8 = target ∧ (frameId ps target source).extractLsb' 0 8 = source
    ∧ (frameId ps target source).extractLsb' 24 3 = ps.priority := by
  unfold frameId
  refine ⟨?_, ?_, ?_, ?_, ?_⟩
  all_goals
    ext i hi
    simp only [BitVec.getElem_extractLsb', BitVec.getLsbD_append]
    grind

/-- Settles O29: the bytes of each frame are `sentData_eq`, what they are read as is `frBody_eq`. -/
theorem framesSentAreRead : Obligations.FramesSentAreRead := by
  obtain ⟨hsingle, hopen, hnext, hgrant, hstall, hdone, habort⟩ := sentData_eq
  refine ⟨fun id pay hmin hmax => ?_, fun id pay hmin hmax => ?_, fun id pay k hk => ?_, fun id n hmin hmax => ?_,
    fun id => ⟨?_, ?_, fun r => ?_⟩, fun ps target source d => frameId_fields ps target source, hsingle, hopen, hnext,
    hgrant, hstall, hdone, habort⟩
  · have hb : (BitVec.ofNat 8 pay.length).toNat = pay.length := by simp; omega
    rw [hsingle, (frBody_eq id _ pay).1 (by omega), hb, Nat.mod_eq_of_lt (by omega), if_neg (by omega), List.take_length]
  · have hb : (BitVec.ofNat 8 (16 + (pay.length - 1) / 256)).toNat = 16 + (pay.length - 1) / 256 := by simp; omega
    have hlow : (BitVec.ofNat 8 ((pay.length - 1) % 256)).toNat = (pay.length - 1) % 256 := by simp
    rw [hopen pay hmin hmax, (frBody_eq id _ _).2.1 (by omega), hb]
    simp only [List.headD_cons, hlow]
    have hlen : (16 + (pay.length - 1) / 256) % 8 * 256 + (pay.length - 1) % 256 + 1 = pay.length := by omega
    rw [hlen, if_neg, List.drop_succ_cons, List.drop_zero, Nat.min_eq_left (by omega), List.take_take, Nat.min_self]
    rw [List.length_cons, List.length_take]
    omega
  · have hb : (BitVec.ofNat 8 (32 + (k + 1) % 16)).toNat = 32 + (k + 1) % 16 := by simp; omega
    have hrest : (pay.drop (6 + 7 * k)).take 7 ≠ [] := by
      rw [Ne, ← List.length_eq_zero_iff, List.length_take, List.length_drop]
      omega
    have hindex : BitVec.ofNat 4 ((32 + (k + 1) % 16) % 16) = BitVec.ofNat 4 (k + 1) := by
      apply BitVec.eq_of_toNat_eq
      simp only [BitVec.toNat_ofNat]
      omega
    rw [hnext, (frBody_eq id _ _).2.2.1 (by omega), hb, if_neg hrest, hindex]
  · have hb : (BitVec.ofNat 8 n).toNat = n := by simp; omega
    rw [hgrant, ((frBody_eq id _ _).2.2.2.1 (by decide)), if_pos (by decide)]
    simp only [List.headD_cons, hb]
    rw [if_neg]
    simp
    omega
  · rw [hstall]
    rfl
  · rw [hdone]
    rfl
  · cases r <;> rfl

end Sys2Proof.Machine
end

section
/-! Frames sent and withdrawn, and the ends of transfers: O30. -/

namespace Sys2Proof.Machine

/-! ### A frame of the transmitter was sent (R143) -/

section
variable {t : Tables} {f : Flow} {p : PortId} {x : Transfer}

theorem transmitterSent_first (hx : (f.port p).tx = some x) (hp : x.phase = .first) :
    transmitterSent t f p = if x.payload.length ≤ 7 then transferEnd t f p true
      else (modTx f p fun y =>
        { y with phase := .waitCredit, deadline := some (after t.now (t.port p).creditWait) }, []) := by
  simp only [transmitterSent, hx, hp]

theorem transmitterSent_run (hx : (f.port p).tx = some x) (hp : x.phase = .run) :
    transmitterSent t f p = (runSent t f p x, []) := by
  simp only [transmitterSent, hx, hp]

theorem runSent_next (hx : (f.port p).tx = some x) (hmore : x.sent + 1 < x.segments) (hgranted : 1 < x.granted) :
    runSent t f p x = pushNext t (modTx f p fun y => { y with sent := x.sent + 1, granted := x.granted - 1 }) p := by
  rw [← modTx_congr (u := fun _ => { x with sent := x.sent + 1, granted := x.granted - 1 }) hx rfl]
  have hsome : (x.granted - 1 != 0) = true := by
    rw [bne_iff_ne]
    omega
  simp only [runSent, hsome, hmore, decide_true, Bool.and_self, if_true]

theorem runSent_credit (hx : (f.port p).tx = some x) (hmore : x.sent + 1 < x.segments) (hgranted : x.granted ≤ 1) :
    runSent t f p x = modTx f p fun y => { y with
      sent := x.sent + 1, granted := 0, phase := .waitCredit, deadline := some (after t.now (t.port p).creditWait) } := by
  have hnone : x.granted - 1 = 0 := by omega
  rw [← modTx_congr (u := fun _ => { x with
    sent := x.sent + 1, granted := 0, phase := .waitCredit, deadline := some (after t.now (t.port p).creditWait) }) hx rfl]
  simp only [runSent, hnone, hmore, bne_self_eq_false, Bool.false_and, Bool.false_eq_true, if_false, if_true]

theorem runSent_last (hx : (f.port p).tx = some x) (hlast : x.segments ≤ x.sent + 1) :
    runSent t f p x = modTx f p fun y => { y with
      sent := x.sent + 1, granted := x.granted - 1, phase := .waitDone
      deadline := some (after t.now (t.port p).doneWait) } := by
  have hno : ¬x.sent + 1 < x.segments := Nat.not_lt.mpr hlast
  rw [← modTx_congr (u := fun _ => { x with
    sent := x.sent + 1, granted := x.granted - 1, phase := .waitDone
    deadline := some (after t.now (t.port p).doneWait) }) hx rfl]
  simp only [runSent, hno, decide_false, Bool.and_false, Bool.false_eq_true, if_false]

end

theorem exec_frameSent (p : PortId) (s : State) :
    exec (.frameSent p) s = .next (s.withFlow (frameSent s.tab s.flow p)) := rfl

/-- The bus of the port is free, and the next due frame may start (R142). -/
def busFreed (f : Flow) (p : PortId) : Flow := f.modPort p fun x => { x with onBus := none }

theorem busFreed_tx (f : Flow) (p : PortId) : ((busFreed f p).port p).tx = (f.port p).tx := by
  simp [busFreed]

theorem frameSent_none {t : Tables} {f : Flow} {p : PortId} (h : (f.port p).onBus = none) : frameSent t f p = f := by
  simp only [frameSent, h]

theorem frameSent_other {t : Tables} {f : Flow} {p : PortId} {d : DueFrame} (h : (f.port p).onBus = some d)
    (ho : d.owner ≠ .transmitter) : frameSent t f p = (busFreed f p).modPort p (startFrame t p) := by
  cases hd : d.owner with
  | transmitter => exact absurd hd ho
  | context c => simp only [frameSent, h, hd, busFreed]
  | nobody => simp only [frameSent, h, hd, busFreed]

theorem frameSent_transmitter {t : Tables} {f : Flow} {p : PortId} {d : DueFrame} (h : (f.port p).onBus = some d)
    (ho : d.owner = .transmitter) : frameSent t f p
      = (settled t (transmitterSent t (busFreed f p) p)).modPort p (startFrame t p) := by
  simp only [frameSent, h, ho, busFreed]

/-! ### A frame is withdrawn (R142) -/

theorem exec_frameWithdrawn_none {p : PortId} {k : FramePick} {dt : Nat} {s : State}
    (h : pickFrame ((s.advance dt).flow.port p) k = none) : exec (.frameWithdrawn p k dt) s = .next (s.advance dt) := by
  change execFrameWithdrawn p k dt s = _
  simp only [execFrameWithdrawn, h]

theorem exec_frameWithdrawn_some {p : PortId} {k : FramePick} {dt : Nat} {s : State} {d : DueFrame} {x : PortFlow}
    (h : pickFrame ((s.advance dt).flow.port p) k = some (d, x)) : exec (.frameWithdrawn p k dt) s =
      if reached (s.advance dt).tab.now (after d.due (s.tab.port p).creditWait) then
        .next ((s.advance dt).withFlow ((settled (s.advance dt).tab
          (withdrawn (s.advance dt).tab ((s.advance dt).flow.modPort p fun _ => x) p d)).modPort p
            (startFrame (s.advance dt).tab p)))
      else .next (s.advance dt) := by
  change execFrameWithdrawn p k dt s = _
  simp only [execFrameWithdrawn, h]
  rfl

/-! ### The end of a transfer (R103, R115, R144, R151) -/

theorem idleTx_tx (f : Flow) (p : PortId) : ((idleTx f p).port p).tx = none := by simp [idleTx]

theorem requestSent_ports (t : Tables) (f : Flow) (e : EntryIx) (ok : Bool) : (requestSent t f e ok).1.ports = f.ports := by
  unfold requestSent
  split
  · rfl
  · split
    · rfl
    · split <;> rfl

theorem closeSent_ports (t : Tables) (f : Flow) (e : EcuIx) (ok : Bool) : (closeSent t f e ok).ports = f.ports := by
  unfold closeSent
  split
  · rfl
  · exact closeEnd_ports ..

theorem transferEnd_tx (t : Tables) (f : Flow) (p : PortId) (ok : Bool) : ((transferEnd t f p ok).1.port p).tx = none := by
  have hports {g : Flow} (h : g.ports = (idleTx f p).ports) : (g.port p).tx = none := by
    rw [Flow.port, h]
    exact idleTx_tx f p
  unfold transferEnd
  split
  · assumption
  · rename_i x _
    simp only
    split
    · exact hports (requestSent_ports ..)
    · exact hports (closeSent_ports ..)
    · refine hports ?_
      simp only
      split <;> rfl

/-- Settles O30. -/
theorem framesSentAndWithdrawn : Obligations.FramesSentAndWithdrawn := by
  refine ⟨fun p s => ?_, fun p k dt s => ?_, transferEnd_tx, transferEnd_request, transferEnd_closing, transferEnd_item⟩
  · intro off goes creditWait
    refine ⟨fun h => ?_, fun d h ho => ?_, fun d x h ho hx => ?_⟩
    · rw [exec_frameSent, frameSent_none h]
      rfl
    · simp only [goes]
      rw [exec_frameSent, frameSent_other h ho]
      rfl
    · have hoff : ((busFreed s.flow p).port p).tx = some x := (busFreed_tx s.flow p).trans hx
      have hgoes {f : Flow} (hf : settled s.tab (transmitterSent s.tab (busFreed s.flow p) p) = f) : goes f := by
        simp only [goes]
        rw [exec_frameSent, frameSent_transmitter h ho, hf]
      refine ⟨fun hp hlen => hgoes ?_, fun hp hlen => hgoes ?_, fun hp hmore hgranted => hgoes ?_,
        fun hp hmore hgranted => hgoes ?_, fun hp hlast => hgoes ?_⟩
      · rw [transmitterSent_first hoff hp, if_pos hlen]
        rfl
      · rw [transmitterSent_first hoff hp, if_neg (Nat.not_le.mpr hlen)]
        rfl
      · rw [transmitterSent_run hoff hp, runSent_next hoff hmore hgranted]
        rfl
      · rw [transmitterSent_run hoff hp, runSent_credit hoff hmore hgranted]
        rfl
      · rw [transmitterSent_run hoff hp, runSent_last hoff hlast]
        rfl
  · intro u
    refine ⟨exec_frameWithdrawn_none, fun d x hpick => ?_⟩
    intro gone late goes
    have hexec := exec_frameWithdrawn_some hpick
    refine ⟨fun hlate => ?_, fun hlate ho => ?_, fun c hlate ho => ?_, fun hlate ho => ?_⟩
    · rw [hexec, if_neg (Bool.eq_false_iff.mp hlate)]
    · simp only [goes]
      rw [hexec, if_pos hlate, withdrawn, ho]
      rfl
    · simp only [goes]
      rw [hexec, if_pos hlate, withdrawn, ho]
      rfl
    · simp only [goes]
      rw [hexec, if_pos hlate, withdrawn, ho]
      rfl

end Sys2Proof.Machine
end

section
/-! The operations of a port: O31. -/

namespace Sys2Proof.Machine

/-! ### Starting a due frame (R142) -/

section
variable {t : Tables} {p : PortId} {x : PortFlow}

theorem spacingPassed_iff : spacingPassed t p x = true ↔
    ∀ w, x.lastStart = some w → (t.port p).spacing.ms ≤ (t.now - w).toNat := by
  unfold spacingPassed
  cases x.lastStart with
  | none => simp
  | some w => simp

theorem startFrame_waits (h : ¬(x.onBus = none ∧ spacingPassed t p x = true)) : startFrame t p x = x := by
  unfold startFrame
  cases hb : x.onBus with
  | some d => rfl
  | none =>
    have hs : spacingPassed t p x = false := by simpa [hb] using h
    simp only [hs, Bool.false_eq_true, if_false]

theorem startFrame_control {d : DueFrame} {rest : List DueFrame} (hb : x.onBus = none) (hs : spacingPassed t p x = true)
    (hc : x.control = d :: rest) :
    startFrame t p x = { x with onBus := some d, control := rest, lastStart := some t.now } := by
  simp only [startFrame, hb, hs, hc, if_true]

theorem startFrame_transmitter {d : DueFrame} {rest : List DueFrame} (hb : x.onBus = none)
    (hs : spacingPassed t p x = true) (hc : x.control = []) (ht : x.txDue = d :: rest) :
    startFrame t p x = { x with onBus := some d, txDue := rest, lastStart := some t.now } := by
  simp only [startFrame, hb, hs, hc, ht, if_true]

theorem startFrame_none (hc : x.control = []) (ht : x.txDue = []) : startFrame t p x = x := by
  unfold startFrame
  cases hb : x.onBus with
  | some d => rfl
  | none => simp only [hc, ht, ite_self]

end

/-! ### Abandoned contexts (R148) -/

theorem disown_of_ne {o : FrameOwner} {d : DueFrame} (h : d.owner ≠ o) : d.disown o = d := by
  simp only [DueFrame.disown, h, if_false]

theorem disown_owner_ne (c : CtxIx) (d : DueFrame) : (d.disown (.context c)).owner ≠ .context c := by
  unfold DueFrame.disown
  split
  · exact fun h => by cases h
  · assumption

section
variable {f : Flow} {p : PortId} {c : CtxIx} {x : Ctx}

theorem freeContext_port (hx : f.ctx p c = some x) : (freeContext f p c).port p = { f.port p with
    ctxs := Vector.putRow (f.port p).ctxs c none
    control := (f.port p).control.map (DueFrame.disown (.context c))
    onBus := (f.port p).onBus.map (DueFrame.disown (.context c)) } := by
  have hport {g : Flow} (h : g.ports = (f.putCtx p c none).ports) : g.port p
      = { f.port p with ctxs := Vector.putRow (f.port p).ctxs c none } := by
    rw [Flow.port, h]
    exact Flow.modPort_port_self f p _
  simp only [freeContext, hx]
  rw [Flow.modPort_port_self]
  cases x.owner with
  | slot k => rw [hport (g := ((f.putCtx p c none).leaveWait (ctxClaimant p c)).leavePlace k c) rfl]
  | entry e => rw [hport (g := (f.putCtx p c none).leaveWait (ctxClaimant p c)) rfl]
  | close e => rw [hport (g := (f.putCtx p c none).leaveWait (ctxClaimant p c)) rfl]

theorem freeContext_waiting (hx : f.ctx p c = some x) :
    (freeContext f p c).waiting = f.waiting.filter (fun w => w.who != ctxClaimant p c) := by
  simp only [freeContext, hx]
  cases x.owner <;> rfl

theorem freeContext_placeWait {k : Slot} (hx : f.ctx p c = some x) (ho : x.owner = .slot k) :
    c ∉ ((freeContext f p c).slots.get k).placeWait := by
  have hslots : (freeContext f p c).slots = (((f.putCtx p c none).leaveWait (ctxClaimant p c)).leavePlace k c).slots := by
    simp only [freeContext, hx, ho]
    rfl
  rw [hslots, Flow.leavePlace, Flow.modSlot_get_self]
  simp

theorem freeContext_ctx (hx : f.ctx p c = some x) (d : CtxIx) :
    (freeContext f p c).ctx p d = if d = c then none else f.ctx p d := by
  rw [Flow.ctx, freeContext_port hx, Vector.putRow_get]
  rfl

theorem dropContext_ctx (hx : f.ctx p c = some x) : (dropContext f p c).ctx p c = none := by
  unfold dropContext
  rw [freeContext_ctx (x := x), if_pos rfl]
  rw [← hx, Flow.ctx, Flow.modPort_port_self]
  rfl

theorem dropContext_control (hx : f.ctx p c = some x) :
    ((dropContext f p c).port p).control = (f.port p).control.filter (fun b => b.owner != .context c) := by
  have hx' : (f.modPort p fun y => { y with control := y.control.filter (·.owner != .context c) }).ctx p c = some x := by
    rw [← hx, Flow.ctx, Flow.modPort_port_self]
    rfl
  unfold dropContext
  rw [freeContext_port hx', Flow.modPort_port_self]
  refine (List.map_congr_left fun b hb => disown_of_ne ?_).trans (List.map_id _)
  simpa using List.of_mem_filter hb

theorem abandonCtx_some (forCells : Bool) (hx : f.ctx p c = some x) : abandonCtx f p c forCells =
    (freeContext f p c, freedActs x.charge ++ (match x.owner with
      | .slot k => if x.place then [.placeFreed k] else []
      | .entry e => [.abandoned e forCells]
      | .close _ => [])) := by
  simp only [abandonCtx, hx]
  cases x.charge <;> rfl

end

/-- Settles O31: the operations by their definitions, an abandoned context by what `freeContext` leaves. -/
theorem portOperations : Obligations.PortOperations := by
  refine ⟨fun t f p o target source d => ⟨rfl, rfl⟩, fun t p x => ?_, fun t f p source target pay cargo => ?_,
    fun t f p x hx => ⟨?_, ?_⟩, fun f p c x forCells hx => ?_⟩
  · intro starts
    have hstarts : starts ↔ x.onBus = none ∧ spacingPassed t p x = true := by rw [spacingPassed_iff]
    refine ⟨fun h => startFrame_waits (mt hstarts.mpr h), fun d rest h hc => ?_, fun d rest h hc ht => ?_, startFrame_none⟩
    · obtain ⟨hb, hs⟩ := hstarts.mp h
      exact startFrame_control hb hs hc
    · obtain ⟨hb, hs⟩ := hstarts.mp h
      exact startFrame_transmitter hb hs hc ht
  · by_cases h : pay.length ≤ 7
    · simp only [startTransfer, h, decide_true, if_true]
    · simp only [startTransfer, h, decide_false, Bool.false_eq_true, if_false]
  · simp only [pushNext, hx]
  · simp only [transferTimeout, hx]
    rfl
  · intro a g freed
    have ha : a = _ := abandonCtx_some forCells hx
    rw [ha]
    refine ⟨rfl, rfl, ?_, fun d hd => ?_, freeContext_waiting hx, fun k ho => freeContext_placeWait hx ho, ?_, ?_, ?_, ?_,
      dropContext_ctx hx, dropContext_control hx⟩
    · rw [freeContext_ctx hx, if_pos rfl]
    · rw [freeContext_ctx hx, if_neg hd]
    · simp only [freeContext_port hx]
      intro b hb
      obtain ⟨d, -, rfl⟩ := List.mem_map.mp hb
      exact disown_owner_ne c d
    · simp only [freeContext_port hx]
      intro b hb
      obtain ⟨d, -, rfl⟩ := Option.map_eq_some_iff.mp hb
      exact disown_owner_ne c d
    · rw [freeContext_port hx]
    · rw [freeContext_port hx]

end Sys2Proof.Machine
end

section
/-! The timers of a port and the starts of transfers: O32 and O33. -/

namespace Sys2Proof.Machine

/-! ### The timers (R144, R147, R149) -/

theorem startFrame_ctxs (t : Tables) (p : PortId) (x : PortFlow) : (startFrame t p x).ctxs = x.ctxs := by
  unfold startFrame
  split
  · rfl
  · split
    · split <;> rfl
    · rfl

/-- The passing of time leaves transfers and contexts alone. -/
theorem advance_port (s : State) (dt : Nat) (p : PortId) :
    ((s.advance dt).flow.port p).tx = (s.flow.port p).tx ∧ ((s.advance dt).flow.port p).ctxs = (s.flow.port p).ctxs := by
  have hfold (t : Tables) (ps : List PortId) (f : Flow) :
      ((ps.foldl (fun f p => f.modPort p (startFrame t p)) f).port p).tx = (f.port p).tx
      ∧ ((ps.foldl (fun f p => f.modPort p (startFrame t p)) f).port p).ctxs = (f.port p).ctxs := by
    induction ps generalizing f with
    | nil => exact ⟨rfl, rfl⟩
    | cons q ps ih =>
      obtain ⟨htx, hctxs⟩ := ih (f.modPort q (startFrame t q))
      rw [List.foldl_cons, htx, hctxs, Flow.modPort_port]
      split
      · rename_i h
        subst h
        exact ⟨startFrame_tx .., startFrame_ctxs ..⟩
      · exact ⟨rfl, rfl⟩
  exact hfold _ _ _

theorem advance_ctx (s : State) (dt : Nat) (p : PortId) (c : CtxIx) : (s.advance dt).flow.ctx p c = s.flow.ctx p c := by
  rw [Flow.ctx, (advance_port s dt p).2]
  rfl

section
variable {p : PortId} {dt : Nat} {s : State}

theorem txExpired_advance {x : Transfer} (hx : (s.flow.port p).tx = some x) (ph : TxPhase) :
    txExpired (s.advance dt) p ph = (x.phase == ph && expired (s.advance dt).tab.now x.deadline) := by
  simp only [txExpired, (advance_port s dt p).1, hx]

theorem exec_creditWaitTimeout {x : Transfer} (hx : (s.flow.port p).tx = some x) :
    exec (.creditWaitTimeout p dt) s =
      if x.phase == .waitCredit && expired (s.advance dt).tab.now x.deadline then
        .next ((s.advance dt).withFlow (settled (s.advance dt).tab (transferTimeout (s.advance dt).tab (s.advance dt).flow p)))
      else .next (s.advance dt) := by
  rw [← txExpired_advance hx]
  rfl

theorem exec_doneWaitTimeout {x : Transfer} (hx : (s.flow.port p).tx = some x) :
    exec (.doneWaitTimeout p dt) s =
      if x.phase == .waitDone && expired (s.advance dt).tab.now x.deadline then
        .next ((s.advance dt).withFlow (settled (s.advance dt).tab (transferTimeout (s.advance dt).tab (s.advance dt).flow p)))
      else .next (s.advance dt) := by
  rw [← txExpired_advance hx]
  rfl

theorem exec_gapTimerExpiry {c : CtxIx} {x : Ctx} (hx : s.flow.ctx p c = some x) : exec (.gapTimerExpiry p c dt) s =
    if x.timer.gapDone (s.advance dt).tab.now then
      .next ((s.advance dt).withFlow (settled (s.advance dt).tab (abandonCtx (s.advance dt).flow p c false)))
    else .next (s.advance dt) := by
  change execGapTimerExpiry p c dt s = _
  simp only [execGapTimerExpiry, advance_ctx, hx]

theorem exec_stallTimerExpiry {c : CtxIx} {x : Ctx} (hx : s.flow.ctx p c = some x) : exec (.stallTimerExpiry p c dt) s =
    if x.timer.stallDone (s.advance dt).tab.now then
      .next ((s.advance dt).withFlow (settled (s.advance dt).tab (stallTick (s.advance dt).tab (s.advance dt).flow p c)))
    else .next (s.advance dt) := by
  change execStallTimerExpiry p c dt s = _
  simp only [execStallTimerExpiry, advance_ctx, hx]

end

theorem CtxTimer.gapDone_iff (now : Word) (x : CtxTimer) : x.gapDone now = true ↔ ∃ d, x = .gap d ∧ reached now d = true := by
  cases x <;> simp [CtxTimer.gapDone]

theorem CtxTimer.stallDone_iff (now : Word) (x : CtxTimer) :
    x.stallDone now = true ↔ ∃ d, x = .stall d ∧ reached now d = true := by
  cases x <;> simp [CtxTimer.stallDone]

/-- A wait for room sends STALL again below the stall limit, and is abandoned at it (R149). -/
theorem stallTick_some {t : Tables} {f : Flow} {p : PortId} {c : CtxIx} {x : Ctx} (hx : f.ctx p c = some x) :
    stallTick t f p c = if x.stalls < (t.port p).stallLimit then
      (pushControl t (f.putCtx p c (some { x with
        stalls := x.stalls + 1, timer := .stall (after t.now (t.port p).stallInterval) })) p (.context c) x.source x.target
        [0x31], [])
    else abandonCtx (pushControl t f p .nobody x.source x.target [0x40, 1]) p c true := by
  simp only [stallTick, hx]
  rfl

theorem phase_not_due {q r : TxPhase} {b : Bool} (h : q ≠ r ∨ b = false) : ¬(q == r && b) = true := by
  rw [Bool.and_eq_true, beq_iff_eq]
  rintro ⟨hq, hb⟩
  exact h.elim (fun h => h hq) (fun h => by rw [h] at hb; cases hb)

/-- Settles O32. -/
theorem portTimers : Obligations.PortTimers := by
  intro p dt s u fails
  refine ⟨fun x hx => ⟨fun hp hd => ?_, fun h => ?_, fun hp hd => ?_, fun h => ?_⟩, fun c x hx =>
    ⟨fun d ht hd => ?_, fun h => ?_, fun d ht hd hlow => ?_, fun d ht hd hlimit => ?_, fun h => ?_⟩⟩
  · rw [exec_creditWaitTimeout hx, if_pos (by rw [hp, hd]; rfl)]
    rfl
  · rw [exec_creditWaitTimeout hx, if_neg (phase_not_due h)]
  · rw [exec_doneWaitTimeout hx, if_pos (by rw [hp, hd]; rfl)]
    rfl
  · rw [exec_doneWaitTimeout hx, if_neg (phase_not_due h)]
  · rw [exec_gapTimerExpiry hx, if_pos ((CtxTimer.gapDone_iff ..).mpr ⟨d, ht, hd⟩)]
    rfl
  · rw [exec_gapTimerExpiry hx, if_neg]
    rw [CtxTimer.gapDone_iff]
    rintro ⟨d, ht, hd⟩
    exact absurd hd (Bool.eq_false_iff.mp (h d ht))
  · have hlow' : x.stalls < ((s.advance dt).tab.port p).stallLimit := hlow
    rw [exec_stallTimerExpiry hx, if_pos ((CtxTimer.stallDone_iff ..).mpr ⟨d, ht, hd⟩),
      stallTick_some ((advance_ctx s dt p c).trans hx), if_pos hlow']
    rfl
  · have hlimit' : ¬x.stalls < ((s.advance dt).tab.port p).stallLimit := Nat.not_lt.mpr hlimit
    rw [exec_stallTimerExpiry hx, if_pos ((CtxTimer.stallDone_iff ..).mpr ⟨d, ht, hd⟩),
      stallTick_some ((advance_ctx s dt p c).trans hx), if_neg hlimit']
    rfl
  · rw [exec_stallTimerExpiry hx, if_neg]
    rw [CtxTimer.stallDone_iff]
    rintro ⟨d, ht, hd⟩
    exact absurd hd (Bool.eq_false_iff.mp (h d ht))

/-! ### The starts of transfers (R115, R131, R151, R152) -/

theorem exec_vbTransmitStart {v : VbIx} {s : State} (hactive : s.tab.active = true) (hidle : (s.flow.port (.vb v)).tx = none) :
    exec (.vbTransmitStart v) s = .next (s.withFlow (vbStart s.tab s.flow v)) := by
  change execVbTransmitStart v s = _
  simp only [execVbTransmitStart, hactive, Flow.txIdle, hidle, Option.isNone_none, Bool.and_self, if_true]

theorem exec_vbTransmitStart_none {v : VbIx} {s : State} (h : s.tab.active = false ∨ (s.flow.port (.vb v)).tx.isSome) :
    exec (.vbTransmitStart v) s = .next s := by
  change execVbTransmitStart v s = _
  unfold execVbTransmitStart
  refine if_neg ?_
  rw [Bool.and_eq_true, Flow.txIdle, Option.isNone_iff_eq_none]
  rintro ⟨ha, hi⟩
  exact h.elim (fun h => by rw [h] at ha; cases ha) (fun h => by rw [hi] at h; cases h)

theorem exec_tbTransmitStart {s : State} (hactive : s.tab.active = true) (hidle : (s.flow.port .tb).tx = none)
    (hdrain : s.tab.ctl = .stopping → drained s.flow = false) :
    exec .tbTransmitStart s = .next (s.withFlow (tbStart s.tab s.flow)) := by
  have hgoes : (s.tab.ctl == .stopping && drained s.flow) = false := by
    cases hd : drained s.flow with
    | false => exact Bool.and_false _
    | true =>
      have hne : s.tab.ctl ≠ .stopping := fun h => by rw [hdrain h] at hd; cases hd
      simp [hne]
  change execTbTransmitStart s = _
  simp only [execTbTransmitStart, hactive, Flow.txIdle, hidle, hgoes, Option.isNone_none, Bool.and_self, Bool.not_false,
    if_true]

/-- The oldest of the delivery items found so far. -/
structure OldestOf (t : Tables) (f : Flow) (kind : TesterKind) (ks : List Slot) (best : Option (Slot × Item)) : Prop where
  found : ∀ k it, best = some (k, it) → (t.testers.get k).kind = kind ∧ (f.slots.get k).items.head? = some it
  oldest : ∀ j ∈ ks, ∀ x, (t.testers.get j).kind = kind → (f.slots.get j).items.head? = some x →
    ∃ k it, best = some (k, it) ∧ it.order ≤ x.order

/-- One slot compared with the oldest item found before it. -/
def olderOf (t : Tables) (f : Flow) (kind : TesterKind) (best : Option (Slot × Item)) (k : Slot) : Option (Slot × Item) :=
  if (t.testers.get k).kind == kind then
    match (f.slots.get k).items, best with
    | [], _ => best
    | it :: _, none => some (k, it)
    | it :: _, some b => if it.order < b.2.order then some (k, it) else best
  else best

theorem OldestOf.step {t : Tables} {f : Flow} {kind : TesterKind} {ks : List Slot} {best : Option (Slot × Item)}
    (h : OldestOf t f kind ks best) (k : Slot) : OldestOf t f kind (ks ++ [k]) (olderOf t f kind best k) := by
  have hkeep (hno : ∀ x, (t.testers.get k).kind = kind → (f.slots.get k).items.head? = some x →
      ∃ j it, best = some (j, it) ∧ it.order ≤ x.order) : OldestOf t f kind (ks ++ [k]) best := by
    refine ⟨h.found, fun j hj x hkind hx => ?_⟩
    obtain hj | hj := List.mem_append.mp hj
    · exact h.oldest j hj x hkind hx
    · cases List.mem_singleton.mp hj
      exact hno x hkind hx
  unfold olderOf
  by_cases hk : (t.testers.get k).kind = kind
  · rw [if_pos (beq_iff_eq.mpr hk)]
    cases hi : (f.slots.get k).items with
    | nil => exact hkeep fun x _ hx => by rw [hi] at hx; cases hx
    | cons it rest =>
      have hhead : (f.slots.get k).items.head? = some it := by rw [hi]; rfl
      have htakes (hless : ∀ j y, best = some (j, y) → it.order ≤ y.order) :
          OldestOf t f kind (ks ++ [k]) (some (k, it)) := by
        refine ⟨fun j y hy => ?_, fun j hj x hkind hx => ⟨k, it, rfl, ?_⟩⟩
        · cases hy
          exact ⟨hk, hhead⟩
        · obtain hj | hj := List.mem_append.mp hj
          · obtain ⟨j', y, hbest, hle⟩ := h.oldest j hj x hkind hx
            exact (hless j' y hbest).trans hle
          · cases List.mem_singleton.mp hj
            rw [hhead] at hx
            cases hx
            exact Nat.le_refl _
      cases hb : best with
      | none => exact htakes fun j y hy => by rw [hb] at hy; cases hy
      | some b =>
        simp only
        split
        · rename_i hlt
          exact htakes fun j y hy => by
            rw [hb] at hy
            cases hy
            exact Nat.le_of_lt hlt
        · rename_i hle
          rw [← hb]
          refine hkeep fun x _ hx => ⟨b.1, b.2, hb, ?_⟩
          rw [hhead] at hx
          cases hx
          exact Nat.not_lt.mp hle
  · rw [if_neg (by rwa [beq_iff_eq])]
    exact hkeep fun x hkind => absurd hkind hk

theorem oldestItem_oldest (t : Tables) (f : Flow) (kind : TesterKind) :
    OldestOf t f kind (List.finRange 16) (oldestItem t f kind) := by
  have hfold (ks js : List Slot) (best : Option (Slot × Item)) (h : OldestOf t f kind js best) :
      OldestOf t f kind (js ++ ks) (ks.foldl (olderOf t f kind) best) := by
    induction ks generalizing js best with
    | nil => rw [List.append_nil]; exact h
    | cons k ks ih =>
      rw [List.foldl_cons, List.append_cons]
      exact ih _ _ (h.step k)
  exact hfold _ [] none ⟨fun k it h => (nomatch h), fun j hj => (List.not_mem_nil hj).elim⟩

/-- Settles O33. -/
theorem transmitStarts : Obligations.TransmitStarts := by
  refine ⟨fun v s hactive hidle => ⟨fun b hb => ?_, fun r rest hb hout => ?_, fun hb hout => ?_⟩,
    fun v s h => exec_vbTransmitStart_none h, fun s hactive hidle hdrain => ⟨fun k it hit => ?_, fun hit => ?_⟩,
    fun t f kind k it hit => ?_⟩
  · rw [exec_vbTransmitStart hactive hidle]
    simp only [vbStart, hb]
  · rw [exec_vbTransmitStart hactive hidle]
    simp only [vbStart, hb, hout]
  · rw [exec_vbTransmitStart hactive hidle]
    simp only [vbStart, hb, hout]
    rfl
  · rw [exec_tbTransmitStart hactive hidle hdrain]
    simp only [tbStart, hit]
    rfl
  · rw [exec_tbTransmitStart hactive hidle hdrain]
    simp only [tbStart, hit]
    rfl
  · have hold := oldestItem_oldest t f kind
    obtain ⟨hkind, hhead⟩ := hold.found k it hit
    refine ⟨hkind, hhead, fun j x hj hx => ?_⟩
    obtain ⟨k', it', hbest, hle⟩ := hold.oldest j (List.mem_finRange j) x hj hx
    rw [hit] at hbest
    cases hbest
    exact hle

end Sys2Proof.Machine
end

section
/-! The relay writer and the pages: O34 and O35. -/

namespace Sys2Proof.Machine

/-! ### The relay writer (R116, R204) -/

theorem exec_relayWrite (s : State) : exec .relayWrite s =
    if s.tab.active then .next (s.withFlow (settled s.tab (relayWriteItem s.tab s.flow))) else .next s := rfl

section
variable {t : Tables} {f : Flow} {k : Slot} {it : Item}

theorem relayWriteItem_none (h : oldestItem t f .relay = none) : relayWriteItem t f = (f, []) := by
  simp only [relayWriteItem, h]

theorem relayWriteItem_noRing (h : oldestItem t f .relay = some (k, it)) (hr : t.relayOutRing = none) :
    relayWriteItem t f = (f.modSlot k fun y => { y with items := y.items.drop 1, deliveryFails := y.deliveryFails + 1 },
      it.body.releases) := by
  simp only [relayWriteItem, h, hr, takeItem, Flow.modSlot, Vector.modifyRow_modifyRow]

theorem relayWriteItem_ring {r : Ring} (h : oldestItem t f .relay = some (k, it)) (hr : t.relayOutRing = some r) :
    let bytes := relayOutBytes t k it
    let a := f.relayOut.room r f.ram bytes.length
    let w := a.2.write r f.ram t.now t.relayFlush bytes
    let g := { f with relayOut := w.1, ram := w.2.1 }.modSlot k fun y => { y with items := y.items.drop 1 }
    relayWriteItem t f =
      if a.1 then (if w.2.2 then g.setNews .relayOut else g, it.body.releases) else ({ f with relayOut := a.2 }, []) := by
  intro bytes a w g
  simp only [relayWriteItem, h, hr]
  rfl

end

/-- Settles O34. -/
theorem relayWriteTakesItem : Obligations.RelayWriteTakesItem := by
  refine ⟨fun s => ⟨fun h => ?_, fun k it hactive hit => ?_⟩, relayOutBytes_eq⟩
  · rw [exec_relayWrite]
    split
    · rename_i hactive
      rw [relayWriteItem_none (h.resolve_left (by rw [hactive]; decide))]
      rfl
    · rfl
  · intro freed
    have hexec := exec_relayWrite s
    rw [if_pos hactive] at hexec
    have hfreed : it.body.releases = freed := by
      simp only [freed]
      cases it.body <;> rfl
    refine ⟨fun hr => ?_, fun r hr => ?_⟩
    · rw [hexec, relayWriteItem_noRing hit hr, hfreed]
      rfl
    · intro bytes a w f
      have hring := relayWriteItem_ring hit hr
      refine ⟨fun h => ?_, fun h => ?_⟩
      · rw [hexec, hring, if_neg (Bool.eq_false_iff.mp h)]
        rfl
      · rw [hexec, hring, if_pos h, hfreed]
        rfl

/-! ### Flush deadlines (R183, R204) -/

theorem exec_captureFlushDeadline (dt : Nat) (s : State) : exec (.captureFlushDeadline dt) s =
    if s.tab.active && expired (s.advance dt).tab.now (s.flow.writer.page.bind (·.deadline)) then
      .next ((s.advance dt).withFlow (captureCommit (s.advance dt).tab (s.advance dt).flow))
    else .next (s.advance dt) := by
  rw [← State.advance_flow_writer s dt]
  rfl

theorem exec_relayFlushDeadline (dt : Nat) (s : State) : exec (.relayFlushDeadline dt) s =
    if s.tab.active && expired (s.advance dt).tab.now (s.flow.relayOut.page.bind (·.deadline)) then
      .next ((s.advance dt).withFlow (relayCommit (s.advance dt).tab (s.advance dt).flow))
    else .next (s.advance dt) := by
  rw [← State.advance_flow_relayOut s dt]
  rfl

/-- Settles O35: a commit is `commit_eq`. -/
theorem pagesFlushed : Obligations.PagesFlushed := by
  refine ⟨fun dt s => ?_, commit_eq⟩
  intro u next header
  obtain ⟨hcapture, -, hrelay, -⟩ := commit_eq u.tab u.flow
  rw [State.advance_flow_ram] at hcapture hrelay
  refine ⟨fun r p hactive hr hp hd => ?_, fun h => ?_, fun r p hactive hr hp hd => ?_, fun h => ?_⟩
  · intro w
    have hdue : expired u.tab.now (s.flow.writer.page.bind (·.deadline)) = true := by rw [hp]; exact hd
    have hw : u.flow.writer = s.flow.writer := State.advance_flow_writer s dt
    rw [exec_captureFlushDeadline, if_pos (by rw [hactive]; exact hdue), hcapture r p hr (by rw [hw]; exact hp), hw]
    rfl
  · rw [exec_captureFlushDeadline, if_neg (not_both h)]
  · intro w
    have hdue : expired u.tab.now (s.flow.relayOut.page.bind (·.deadline)) = true := by rw [hp]; exact hd
    have hw : u.flow.relayOut = s.flow.relayOut := State.advance_flow_relayOut s dt
    rw [exec_relayFlushDeadline, if_pos (by rw [hactive]; exact hdue), hrelay r p hr (by rw [hw]; exact hp), hw]
    rfl
  · rw [exec_relayFlushDeadline, if_neg (not_both h)]

end Sys2Proof.Machine
end

section
/-! Probes, the capture writer and its records: O36. -/

namespace Sys2Proof.Machine

/-! ### The governing probe (R176) -/

theorem Probe.matchesItem_iff (p : Probe) (d : Direction) (k : Slot) (e : Option EcuIx) (c : Option ServiceClass) :
    p.matchesItem d k e c = true ↔
      p.enabled = true ∧ p.dirs.getLsbD d.bit = true ∧ p.slots.getLsbD k.val = true
      ∧ (∀ x, e = some x → p.ecus.getLsbD x.val = true) ∧ (e = none → p.ecus = BitVec.allOnes 32)
      ∧ (∀ x, c = some x → p.classes.getLsbD x.num = true) ∧ (c = none → p.classes = BitVec.allOnes 6) := by
  cases e <;> cases c <;> simp [Probe.matchesItem, and_assoc]

/-- The highest row with a property is the first one of the rows read backwards. -/
theorem List.find?_reverse_finRange {n : Nat} {p : Fin n → Bool} {i : Fin n} :
    (List.finRange n).reverse.find? p = some i ↔ p i = true ∧ ∀ j, i < j → ¬p j = true := by
  rw [List.finRange_reverse, List.find?_map, Option.map_eq_some_iff]
  simp only [List.find?_finRange_eq_some, Function.comp_apply]
  constructor
  · rintro ⟨k, ⟨hk, hlow⟩, rfl⟩
    refine ⟨hk, fun j hj => ?_⟩
    have hrev := hlow (Fin.rev j) (Fin.rev_lt_iff.mp hj)
    rwa [Fin.rev_rev] at hrev
  · rintro ⟨hi, hhigh⟩
    exact ⟨Fin.rev i, ⟨by rwa [Fin.rev_rev], fun j hj => hhigh _ (Fin.lt_rev_iff.mp hj)⟩, Fin.rev_rev i⟩

theorem governing_some {t : Tables} {d : Direction} {k : Slot} {e : Option EcuIx} {c : Option ServiceClass} {i : ProbeIx} :
    governing t d k e c = some i ↔
      (t.probes.get i).matchesItem d k e c = true ∧ ∀ j, i < j → ¬(t.probes.get j).matchesItem d k e c = true :=
  List.find?_reverse_finRange

theorem governing_none {t : Tables} {d : Direction} {k : Slot} {e : Option EcuIx} {c : Option ServiceClass} :
    governing t d k e c = none ↔ ∀ i, ¬(t.probes.get i).matchesItem d k e c = true := by
  simp [governing]

/-! ### The writer (R182) -/

section
variable (w : Writer) (r : Ring) (ram : List Host.Cell)

theorem Writer.fits_iff (size : Nat) : w.fits r size = true ↔ ∃ p, w.page = some p ∧ p.used + size ≤ r.size := by
  unfold Writer.fits
  cases w.page <;> simp

theorem Writer.nextPage_eq : w.nextPage r = if w.page = none then w.pos else (w.pos + 1) % r.pages := by
  unfold Writer.nextPage
  cases w.page <;> simp

theorem Writer.room_true {size : Nat}
    (h : w.fits r size = true ∨ w.blocked = false ∧ r.stateOf ram (w.nextPage r) = 0) : w.room r ram size = (true, w) := by
  unfold Writer.room
  split
  · rfl
  · rename_i hno
    obtain ⟨hb, he⟩ := h.resolve_left hno
    have hempty : r.stateOf ram (w.nextPage r) = pageEmpty := he
    simp only [hb, hempty, Bool.false_eq_true, if_false, if_true]

theorem Writer.room_false {size : Nat} (hno : ¬w.fits r size = true)
    (h : w.blocked = true ∨ ¬r.stateOf ram (w.nextPage r) = 0) : w.room r ram size = (false, { w with blocked := true }) := by
  unfold Writer.room
  rw [if_neg hno]
  split
  · rename_i hb
    rw [← hb]
  · rename_i hb
    have hfull : ¬r.stateOf ram (w.nextPage r) = pageEmpty := h.resolve_left hb
    rw [if_neg hfull]

theorem Writer.room_gap (size : Nat) : (w.room r ram size).2.gap = w.gap := by
  unfold Writer.room
  split
  · rfl
  · split
    · rfl
    · split <;> rfl

variable (now : Word) (flush : Duration) (bytes : List Byte)

/-- The page that a record opens (R183). -/
def openedPage (now : Word) (flush : Duration) : OpenPage :=
  { used := 16, count := 0, deadline := if flush.count = 0 then none else some (after now flush) }

theorem openedPage_eq : openedPage now flush
    = { used := 16, count := 0, deadline := if flush.isZero then none else some (after now flush) } := by
  simp [openedPage, Duration.isZero]

theorem Writer.write_closed (h : w.page = none) : w.write r ram now flush bytes =
    ({ w with page := some { openedPage now flush with used := 16 + bytes.length, count := 1 } },
      ramWrite ram (r.pageAddr w.pos + 16) bytes, false) := by
  simp only [Writer.write, h, Option.getD_none, openedPage_eq]

theorem Writer.write_open {p : OpenPage} (h : w.page = some p) (hfits : p.used + bytes.length ≤ r.size) :
    w.write r ram now flush bytes =
      ({ w with page := some { p with used := p.used + bytes.length, count := p.count + 1 } },
        ramWrite ram (r.pageAddr w.pos + p.used) bytes, false) := by
  simp only [Writer.write, h, hfits, if_true, Option.getD_some]

theorem Writer.write_commits {p : OpenPage} (h : w.page = some p) (hfull : r.size < p.used + bytes.length) :
    w.write r ram now flush bytes =
      ({ (w.commit r ram p).1.advance r with
          page := some { openedPage now flush with used := 16 + bytes.length, count := 1 } },
        ramWrite (w.commit r ram p).2 (r.pageAddr ((w.pos + 1) % r.pages) + 16) bytes, true) := by
  have hno : ¬p.used + bytes.length ≤ r.size := Nat.not_le.mpr hfull
  simp only [Writer.write, h, hno, if_false, openedPage_eq]
  rfl

end

/-! ### Records offered (R178, R180, R185) -/

section
variable {t : Tables} {f : Flow} (x : CaptureRecord)

theorem capture_noRing (h : t.captureRing = none) :
    captureBinding t f x = (false, f) ∧ captureOffer t f x = captureLost f := by
  simp [captureBinding, captureOffer, captureRoom, h]

theorem capture_ring {r : Ring} (h : t.captureRing = some r) :
    let a := f.writer.room r f.ram (recordSize x.content.length)
    let w := a.2.write r f.ram t.now t.captureFlush (x.bytes t.now)
    let g := { f with writer := w.1, ram := w.2.1 }
    let written := if w.2.2 then g.setNews .capture else g
    (a.1 = true → captureOffer t f x = written ∧ captureBinding t f x = (true, written))
    ∧ (a.1 = false → captureOffer t f x = captureLost { f with writer := a.2 }
      ∧ captureBinding t f x = (false, { f with writer := a.2 })) := by
  intro a w g written
  have hroom : captureRoom t f (recordSize x.content.length) = (a.1, { f with writer := a.2 }) := by
    simp only [captureRoom, h, a]
  have hwrite : captureWrite t { f with writer := a.2 } x = written := by
    simp only [captureWrite, h]
    rfl
  refine ⟨fun ha => ?_, fun ha => ?_⟩
  · simp only [captureOffer, captureBinding, hroom, ha, if_true, hwrite, and_self]
  · simp only [captureOffer, captureBinding, hroom, ha, Bool.false_eq_true, if_false, and_self]

end

theorem sample_eq (t : Tables) (f : Flow) (n : Nat) (c : ServiceClass) :
    let candidate := t.sampler.enabled = true ∧ t.sampler.classes.getLsbD c.num = true
    let drawn := (Config.sampleDraw n).val < t.sampler.rate
    (¬candidate → sample t f n c = (none, f, n))
    ∧ (candidate → ¬drawn → sample t f n c = (none, { f with candidates := f.candidates + 1 }, n + 1))
    ∧ (candidate → drawn → sample t f n c = (some (f.candidates + 1, f.samples + 1),
      { f with candidates := f.candidates + 1, samples := f.samples + 1 }, n + 1)) := by
  intro candidate drawn
  have hcandidate : (t.sampler.enabled && t.sampler.classes.getLsbD c.num) = true ↔ candidate := Bool.and_eq_true_iff
  refine ⟨fun h => ?_, fun h hd => ?_, fun h hd => ?_⟩
  · simp only [sample, hcandidate, h, if_false]
  · have hd' : ¬(Config.sampleDraw n).val < t.sampler.rate := hd
    simp only [sample, hcandidate, h, if_true, hd', if_false]
  · have hd' : (Config.sampleDraw n).val < t.sampler.rate := hd
    simp only [sample, hcandidate, h, if_true, hd']

theorem CaptureRecord.bytes_eq (x : CaptureRecord) (now : Word) :
    let orOnes := fun b : Option Byte => b.getD 0xFF
    x.bytes now = [if x.event then 1 else 0, BitVec.ofNat 8 x.source, x.slot, orOnes x.subject, orOnes x.cls, x.code
        , orOnes x.grant, orOnes x.outcome, orOnes x.reason, orOnes x.probe, if x.stamp.isSome then 1 else 0, 0]
      ++ leBytes 4 now.toNat
      ++ (match x.stamp with
        | none => List.replicate 8 0xFF
        | some y => leBytes 4 y.1.toNat ++ leBytes 4 y.2.toNat)
      ++ leBytes 2 x.length ++ leBytes 2 x.content.length ++ [0, 0, 0, 0]
      ++ x.content ++ List.replicate ((4 - x.content.length % 4) % 4) 0 := by
  intro orOnes'
  have hones (b : Option Byte) : orOnes b = orOnes' b := by cases b <;> rfl
  simp only [CaptureRecord.bytes, hones, pad4, ← List.append_assoc]
  cases x.stamp <;> rfl

/-- Settles O36. -/
theorem captureRecordsOffered : Obligations.CaptureRecordsOffered := by
  refine ⟨fun t d k e c => ?_, fun w r ram size => ?_, fun w r ram now flush bytes => ?_, fun t f x => ?_,
    fun t f n c => ?_, event_eq, refusalRecord_eq, CaptureRecord.bytes_eq⟩
  · intro matching
    have hmatching (i : ProbeIx) : (t.probes.get i).matchesItem d k e c = true ↔ matching i := Probe.matchesItem_iff ..
    refine ⟨fun i => ?_, ?_⟩
    · rw [governing_some]
      simp only [hmatching]
    · rw [governing_none]
      simp only [hmatching]
  · intro fits page empty
    have hfits : w.fits r size = true ↔ fits := Writer.fits_iff ..
    have hempty : r.stateOf ram (w.nextPage r) = 0 ↔ empty := by
      rw [Writer.nextPage_eq]
      rfl
    refine ⟨fun h => w.room_true r ram (by rwa [hfits, hempty]), fun h h' => w.room_false r ram (by rwa [hfits])
      (by rwa [hempty])⟩
  · intro opened put
    refine ⟨fun h => ?_, fun p h hfits => w.write_open r ram now flush bytes h hfits, fun p h hfull => ?_⟩
    · rw [w.write_closed r ram now flush bytes h]
      rfl
    · intro header
      rw [w.write_commits r ram now flush bytes h hfull]
      rfl
  · intro lost
    refine ⟨fun h => capture_noRing x h, fun r hr => ?_⟩
    intro a w g written
    obtain ⟨hroom, hfull⟩ := capture_ring (f := f) x hr
    refine ⟨hroom, fun ha => ?_⟩
    obtain ⟨hoffer, hbinding⟩ := hfull ha
    refine ⟨?_, hbinding⟩
    have hgap : a.2.gap = f.writer.gap := Writer.room_gap ..
    simp only [lost, ← hgap]
    exact hoffer
  · intro candidate drawn
    obtain ⟨hno, hdrop, hdraw⟩ := sample_eq t f n c
    refine ⟨hno, hdrop, hdraw, fun h => ?_, fun h => ?_⟩
    · simp only [drawn, h, Nat.not_lt_zero, not_false_eq_true]
    · simp only [drawn, h]
      exact (Config.sampleDraw n).isLt

end Sys2Proof.Machine
end

section
/-! The relay channel: O37. -/

namespace Sys2Proof.Machine

theorem exec_relayRecord (s : State) : exec .relayRecord s =
    if s.tab.ctl == .running && s.flow.relayIn.stop.isNone then
      .next (s.withFlow (settled s.tab (relayTakeRecord s.tab s.flow)))
    else .next s := rfl

theorem exec_relayRecord_none {s : State}
    (h : s.tab.ctl ≠ .running ∨ s.flow.relayIn.stop.isSome ∨ s.flow.relayIn.count = none) :
    exec .relayRecord s = .next s := by
  rw [exec_relayRecord]
  split
  · rename_i hgo
    rw [Bool.and_eq_true, beq_iff_eq, Option.isNone_iff_eq_none] at hgo
    obtain ⟨hrun, hstop⟩ := hgo
    have hcount : s.flow.relayIn.count = none := by
      obtain h | h | h := h
      · exact absurd hrun h
      · rw [hstop] at h; cases h
      · exact h
    have hnone : relayTakeRecord s.tab s.flow = (s.flow, []) := by
      unfold relayTakeRecord
      rw [hcount]
      cases s.tab.relayInRing <;> rfl
    rw [hnone]
    rfl
  · rfl

/-- The channel waits no more while it handles the record at its read position (R203). -/
def leftRelayWait (f : Flow) : Flow := { f with waiting := f.waiting.filter fun w => w.who != .relay }

/-- The record at the read position of the channel is handled (R203). -/
def relayHandle (t : Tables) (r : Ring) (f : Flow) : Flow × List Act :=
  match relayRecordAt r f with
  | none => (relayPages r (r.pages + 1) (relayPageDone r f), [])
  | some x =>
    match relaySlot t x.ident with
    | none => (relayAdvance r { f with relayUnknown := f.relayUnknown + 1 } x.length false, [])
    | some k =>
      if f.inboundFree k then
        match charge t f k (classOf t x.code).grade x.cells with
        | some (f, h) => (relayAdvance r (appendInbound f k x.target (x.message h)) x.length x.malformed, [])
        | none => relayNoRoom t r f k x .cells
      else relayNoRoom t r f k x .place

theorem relayTakeRecord_eq {t : Tables} {f : Flow} {r : Ring} {n : Nat} (hr : t.relayInRing = some r)
    (hc : f.relayIn.count = some n) (hs : f.relayIn.stop = none) :
    relayTakeRecord t f = relayHandle t r (leftRelayWait f) := by
  have hstay : { f.relayIn with stop := none } = f.relayIn := by rw [← hs]
  have hleft : leftRelayWait f = { f.leaveWait .relay with relayIn := { f.relayIn with stop := none } } := by
    rw [hstay]
    rfl
  rw [hleft]
  unfold relayTakeRecord
  split
  · rename_i hr' _
    rw [hr] at hr'
    cases hr'
    rfl
  · rename_i hno
    exact (hno r n hr hc).elim

theorem exec_relayRecord_handles {s : State} {r : Ring} {n : Nat} (hctl : s.tab.ctl = .running)
    (hs : s.flow.relayIn.stop = none) (hc : s.flow.relayIn.count = some n) (hr : s.tab.relayInRing = some r) :
    exec .relayRecord s = .next (s.withFlow (settled s.tab (relayHandle s.tab r (leftRelayWait s.flow)))) := by
  rw [exec_relayRecord, if_pos (by rw [hctl, hs]; rfl), relayTakeRecord_eq hr hc hs]

section
variable {t : Tables} {f : Flow} {r : Ring} {x : RelayRecord} {k : Slot}

theorem relayHandle_done (hx : relayRecordAt r f = none) :
    relayHandle t r f = (relayPages r (r.pages + 1) (relayPageDone r f), []) := by
  simp only [relayHandle, hx]

theorem relayHandle_unknown (hx : relayRecordAt r f = some x) (hk : relaySlot t x.ident = none) :
    relayHandle t r f = (relayAdvance r { f with relayUnknown := f.relayUnknown + 1 } x.length false, []) := by
  simp only [relayHandle, hx, hk]

theorem relayHandle_taken {g : Flow} {h : Charge} (hx : relayRecordAt r f = some x) (hk : relaySlot t x.ident = some k)
    (hfree : f.inboundFree k = true) (hc : charge t f k (classOf t x.code).grade x.cells = some (g, h)) :
    relayHandle t r f = (relayAdvance r (appendInbound g k x.target (x.message h)) x.length x.malformed, []) := by
  simp only [relayHandle, hx, hk, hfree, if_true, hc]

theorem relayHandle_noPlace (hx : relayRecordAt r f = some x) (hk : relaySlot t x.ident = some k)
    (hfree : f.inboundFree k = false) : relayHandle t r f = relayNoRoom t r f k x .place := by
  simp only [relayHandle, hx, hk, hfree, Bool.false_eq_true, if_false]

theorem relayHandle_noCells (hx : relayRecordAt r f = some x) (hk : relaySlot t x.ident = some k)
    (hfree : f.inboundFree k = true) (hc : charge t f k (classOf t x.code).grade x.cells = none) :
    relayHandle t r f = relayNoRoom t r f k x .cells := by
  simp only [relayHandle, hx, hk, hfree, if_true, hc]

theorem relayNoRoom_refuse (w : RelayWait) (hm : (t.testers.get k).mode = .refuse) :
    relayNoRoom t r f k x w = (relayAdvance r (relayRefuse t f k x).1 x.length x.malformed, (relayRefuse t f k x).2) := by
  simp only [relayNoRoom, hm]

theorem relayNoRoom_hold (w : RelayWait) (hm : (t.testers.get k).mode = .hold) :
    relayNoRoom t r f k x w = ({ f with
      relayIn := { f.relayIn with stop := some { slot := k, wait := w } }
      waiting := if w = .cells then
          f.waiting ++ [{ who := .relay, slot := k, grade := (classOf t x.code).grade, cells := x.cells, since := t.now }]
        else f.waiting }, []) := by
  cases w <;> simp only [relayNoRoom, hm] <;> rfl

theorem relayRefuse_eq : relayRefuse t f k x =
    let e := findEcu t x.target
    let a := captureRefusal t f k e (if x.malformed then none else some (classOf t x.code)) x.code none .noRoom
      (if x.malformed then some x.length else none)
    let g := a.2.modSlot k fun y => { y with refused := y.refused + 1 }
    (g, if a.1 = none ∧ g.deliveryFree k = true then
      [.placeItem k (.refusal [t.marker, x.code, 0x0D]) x.target e .head] else []) := by
  simp only [relayRefuse, Bool.and_eq_true, Option.isNone_iff_eq_none]
  rfl

end

/-- Settles O37. -/
theorem relayRecordHandled : Obligations.RelayRecordHandled := by
  refine ⟨fun s h => exec_relayRecord_none h, fun s r n hctl hs hc hr => ?_, fun r f n => ⟨rfl, relayPages_succ r n f⟩,
    fun t f k x => relayRefuse_eq, relayRecordAt_eq, relayAdvance_eq⟩
  intro f
  have hexec : exec .relayRecord s = .next (s.withFlow (settled s.tab (relayHandle s.tab r f))) :=
    exec_relayRecord_handles hctl hs hc hr
  refine ⟨fun hx => ?_, fun x hx => ⟨fun hk => ?_, fun k hk => ?_⟩⟩
  · rw [hexec, relayHandle_done hx]
    rfl
  · rw [hexec, relayHandle_unknown hx hk]
    rfl
  · intro grade cells stops
    refine ⟨fun g h hfree hcharge => ?_, fun hfree hm => ?_, fun hfree hcharge hm => ?_, fun h hm => ?_⟩
    · rw [hexec, relayHandle_taken hx hk hfree hcharge]
      rfl
    · simp only [stops]
      rw [hexec, relayHandle_noPlace hx hk hfree, relayNoRoom_hold _ hm]
      rfl
    · simp only [stops]
      rw [hexec, relayHandle_noCells hx hk hfree hcharge, relayNoRoom_hold _ hm]
      rfl
    · intro a
      have hrefuses : ∃ w, relayHandle s.tab r f = relayNoRoom s.tab r f k x w := by
        cases hfree : f.inboundFree k with
        | false => exact ⟨.place, relayHandle_noPlace hx hk hfree⟩
        | true => exact ⟨.cells, relayHandle_noCells hx hk hfree (h.resolve_left (by rw [hfree]; decide))⟩
      obtain ⟨w, hw⟩ := hrefuses
      rw [hexec, hw, relayNoRoom_refuse w hm]
      rfl

end Sys2Proof.Machine
end

section
/-! The visits: O38. -/

namespace Sys2Proof.Machine

theorem headReady_iff {t : Tables} {f : Flow} {k : Slot} : headReady t f k = true ↔
    (t.testers.get k).attached = true ∧ (f.slots.get k).inbound ≠ [] ∧ (f.slots.get k).held = none
      ∧ (f.slots.get k).items.length + f.liveEntries k < 8 := by
  unfold headReady Flow.deliveryFree SlotFlow.kept
  cases (f.slots.get k).held <;> simp [and_assoc]

/-- The place of the slot in the round that begins at the visit position decides (R81). -/
theorem nextVisit_iff {t : Tables} {f : Flow} {k : Slot} : nextVisit t f = some k ↔
    ∃ n : Slot, k = f.visitPos + n ∧ (headReady t f k = true ∧ 0 < (f.slots.get k).allowance)
      ∧ ∀ j < n, ¬(headReady t f (f.visitPos + j) = true ∧ 0 < (f.slots.get (f.visitPos + j)).allowance) := by
  rw [nextVisit, slotsFrom_eq, List.find?_map, Option.map_eq_some_iff]
  simp only [List.find?_finRange_eq_some, Function.comp_apply, Bool.and_eq_true, decide_eq_true_eq]
  constructor
  · rintro ⟨n, ⟨hready, hfirst⟩, rfl⟩
    exact ⟨n, rfl, hready, hfirst⟩
  · rintro ⟨n, rfl, hready, hfirst⟩
    exact ⟨n, ⟨hready, hfirst⟩, rfl⟩

theorem nextVisit_ready {t : Tables} {f : Flow} {k : Slot} (h : nextVisit t f = some k) : headReady t f k = true := by
  obtain ⟨_, _, ⟨hready, _⟩, _⟩ := nextVisit_iff.mp h
  exact hready

theorem anyReady_iff {t : Tables} {f : Flow} : anyReady t f = true ↔ ∃ k, headReady t f k = true := by
  simp [anyReady]

theorem exec_visit (s : State) : exec .visit s =
    if s.tab.active && anyReady s.tab s.flow then
      match nextVisit s.tab (if (nextVisit s.tab s.flow).isNone then restore s.tab s.flow else s.flow) with
      | none => .next s
      | some k => .next (evaluate (s.withFlow
          (visitSlot (if (nextVisit s.tab s.flow).isNone then restore s.tab s.flow else s.flow) k)) k)
    else .next s := rfl

theorem exec_visit_idle {s : State} (h : s.tab.active = false ∨ ∀ k, headReady s.tab s.flow k = false) :
    exec .visit s = .next s := by
  have hidle : ¬(s.tab.active && anyReady s.tab s.flow) = true := by
    rw [Bool.and_eq_true, anyReady_iff]
    rintro ⟨hactive, k, hk⟩
    obtain h | h := h
    · rw [hactive] at h
      cases h
    · rw [h k] at hk
      cases hk
  rw [exec_visit, if_neg hidle]

theorem exec_visit_takes {s : State} {k : Slot} (hactive : s.tab.active = true) (hk : nextVisit s.tab s.flow = some k) :
    exec .visit s = .next (evaluate (s.withFlow (visitSlot s.flow k)) k) := by
  have hready : anyReady s.tab s.flow = true := anyReady_iff.mpr ⟨k, nextVisit_ready hk⟩
  have hkeep : (if (nextVisit s.tab s.flow).isNone then restore s.tab s.flow else s.flow) = s.flow := by rw [hk]; rfl
  rw [exec_visit, if_pos (by rw [hactive, hready]; rfl), hkeep, hk]

/-- The restoring changes allowances only, so the heads that are ready stay so. -/
theorem headReady_restore (t : Tables) (f : Flow) (k : Slot) : headReady t (restore t f) k = headReady t f k := by
  have hlive : (restore t f).liveEntries k = f.liveEntries k := Flow.liveEntries_congr rfl k
  rw [Bool.eq_iff_iff, headReady_iff, headReady_iff, hlive, restore]
  simp only [tableOf_get]
  split <;> rfl

theorem exec_visit_restores {s : State} {k : Slot} (hactive : s.tab.active = true) (hnone : nextVisit s.tab s.flow = none)
    (hk : nextVisit s.tab (restore s.tab s.flow) = some k) :
    exec .visit s = .next (evaluate (s.withFlow (visitSlot (restore s.tab s.flow) k)) k) := by
  have hready : anyReady s.tab s.flow = true :=
    anyReady_iff.mpr ⟨k, by rw [← headReady_restore]; exact nextVisit_ready hk⟩
  have hrestores : (if (nextVisit s.tab s.flow).isNone then restore s.tab s.flow else s.flow) = restore s.tab s.flow := by
    rw [hnone]
    rfl
  rw [exec_visit, if_pos (by rw [hactive, hready]; rfl), hrestores, hk]

/-- Settles O38. -/
theorem visitChoosesSlot : Obligations.VisitChoosesSlot :=
  ⟨fun _ _ _ => headReady_iff, fun _ _ _ => nextVisit_iff, fun _ => exec_visit_idle, fun _ _ hactive =>
    ⟨exec_visit_takes hactive, exec_visit_restores hactive⟩⟩

end Sys2Proof.Machine
end

section
/-! How every order begins and ends: O47. -/

namespace Sys2Proof.Machine

/-! ### The seventeen orders of RUNNING (R199) -/

/-- Each of the seventeen rows takes the orders of its own code, in RUNNING only. -/
theorem exec_runningOrder {code : Byte} {c : Instr} (h : (code, c) ∈ runningOrders) :
    ∃ g : OrderEffect, ∀ s, exec c s = .next (takeOrder s (codeIs code) false g) := by
  simp only [runningOrders, List.mem_cons, Prod.mk.injEq, List.not_mem_nil, or_false] at h
  obtain ⟨rfl, rfl⟩ | ⟨rfl, rfl⟩ | ⟨rfl, rfl⟩ | ⟨rfl, rfl⟩ | ⟨rfl, rfl⟩ | ⟨rfl, rfl⟩ | ⟨rfl, rfl⟩ | ⟨rfl, rfl⟩ |
    ⟨rfl, rfl⟩ | ⟨rfl, rfl⟩ | ⟨rfl, rfl⟩ | ⟨rfl, rfl⟩ | ⟨rfl, rfl⟩ | ⟨rfl, rfl⟩ | ⟨rfl, rfl⟩ | ⟨rfl, rfl⟩ |
    ⟨rfl, rfl⟩ := h
  all_goals exact ⟨_, fun _ => rfl⟩

/-! ### The end of an order (R200) -/

section
variable {t : Tables} {f : Flow} {d : Directory} {n : Nat} {r : OrderResult} {detail : List Byte}

theorem orderDone_eq (hd : t.dir = some d) : orderDone t f n r detail = { f with
    ram := ramWrite (ramWrite (ramWrite f.ram (d.orderAddr n + 5) [r.byte]) (d.orderAddr n + 8) (padTo 12 detail))
      (d.orderAddr n) (leBytes 4 3) }.setNews .orderDone := by
  simp only [orderDone, hd]

theorem padTo_length {k : Nat} {bs : List Byte} (h : bs.length ≤ k) : (padTo k bs).length = k := by
  simp only [padTo, zeros, List.length_append, List.length_replicate]
  omega

variable (hd : t.dir = some d) (hwf : ramWf f.ram) (htop : d.orderAddr n + 64 ≤ ramTop) (hlen : detail.length ≤ 12)
include hd hwf htop

theorem orderDone_state : ramNum (orderDone t f n r detail).ram (d.orderAddr n) 4 = 3 := by
  rw [orderDone_eq hd]
  exact ramNum_ramWrite (ramWrite_wf (ramWrite_wf hwf _ _) _ _) _ 4 3 (by omega) (by decide)

include hlen

omit hwf in
theorem orderDone_result : ramByte (orderDone t f n r detail).ram (d.orderAddr n + 5) = r.byte := by
  have hpad : (padTo 12 detail).length = 12 := padTo_length hlen
  have hnum : (leBytes 4 3).length = 4 := leBytes_length 4 3
  rw [orderDone_eq hd]
  change ramByte (ramWrite (ramWrite _ _ _) _ _) _ = _
  rw [ramWrite_outside _ _ _ (by omega) _ (by omega), ramWrite_outside _ _ _ (by omega) _ (by omega)]
  exact ramWrite_inside f.ram (d.orderAddr n + 5) [r.byte] (by simp only [List.length_singleton]; omega) 0 Nat.zero_lt_one

theorem orderDone_detail : ramRead (orderDone t f n r detail).ram (d.orderAddr n + 8) 12 = padTo 12 detail := by
  have hpad : (padTo 12 detail).length = 12 := padTo_length hlen
  have hnum : (leBytes 4 3).length = 4 := leBytes_length 4 3
  rw [orderDone_eq hd]
  change ramRead (ramWrite (ramWrite _ _ _) _ _) _ _ = _
  rw [ramRead_apart (ramWrite_wf (ramWrite_wf hwf _ _) _ _) _ _ (by omega) (by omega) (by omega)]
  calc ramRead _ (d.orderAddr n + 8) 12 = ramRead _ (d.orderAddr n + 8) (padTo 12 detail).length := by rw [hpad]
    _ = padTo 12 detail := ramRead_ramWrite (ramWrite_wf hwf _ _) _ _ (by omega)

omit hwf in
/-- Of the slot an end writes the state word, the result and the details; outside it nothing. -/
theorem orderDone_outside {b : Nat} (hb : b < d.orderAddr n ∨ d.orderAddr n + 20 ≤ b ∨ b = d.orderAddr n + 4
      ∨ b = d.orderAddr n + 6 ∨ b = d.orderAddr n + 7) : ramByte (orderDone t f n r detail).ram b = ramByte f.ram b := by
  have hpad : (padTo 12 detail).length = 12 := padTo_length hlen
  have hnum : (leBytes 4 3).length = 4 := leBytes_length 4 3
  have hone : [r.byte].length = 1 := rfl
  rw [orderDone_eq hd]
  change ramByte (ramWrite (ramWrite (ramWrite _ _ _) _ _) _ _) _ = _
  rw [ramWrite_outside _ _ _ (by omega) _ (by omega), ramWrite_outside _ _ _ (by omega) _ (by omega),
    ramWrite_outside _ _ _ (by omega) _ (by omega)]

end

/-- Settles O47: the rows by `takeOrder`'s three cases, the end of an order by its three writes. -/
theorem ordersBeginAndEnd : Obligations.OrdersBeginAndEnd := by
  refine ⟨fun s d l code c hc => ?_, fun t f d n r detail hd hwf htop hlen => ?_⟩
  · obtain ⟨g, hexec⟩ := exec_runningOrder hc
    refine ⟨fun hctl hfind => ?_, fun other hother hfind => ?_, fun hlook => ?_⟩
    · rw [hexec, order_finds hfind, if_neg hctl]
    · rw [hexec, takeOrder_other hfind (by simpa [codeIs] using hother)]
    · rw [hexec, takeOrder_noLook hlook]
  · have hdone := orderDone_eq (f := f) (n := n) (r := r) (detail := detail) hd
    refine ⟨orderDone_state hd hwf htop, orderDone_result hd htop hlen, orderDone_detail hd hwf htop hlen,
      fun b hb => orderDone_outside hd htop hlen hb, ?_, ?_⟩
    · rw [hdone]
      exact Flow.hasNews_setNews _ _
    · rw [hdone]
      rfl

end Sys2Proof.Machine
end

section
/-! The orders of the conditions, the settings and the news mask: O50, O52. -/

namespace Sys2Proof.Machine

/-! ### An order in RUNNING (R199) -/

section
variable {s : State} {d : Directory} {l : Look} {code : Byte} {i : Instr} {g : OrderEffect}
variable (hexec : ∀ s, exec i s = .next (takeOrder s (codeIs code) false g)) (hrun : s.tab.ctl = .running)
  (hfind : s.Finds d l code)
include hexec hrun hfind

/-- An order that is taken in RUNNING has its effect, and then the look goes on. -/
theorem exec_order_effect {v : State} (hg : g (s.took d l) l.next (s.params d l) = v) :
    exec i s = .next (v.looksOn d l) := by
  rw [hexec, order_finds hfind, if_pos hrun, hg]

end

theorem getFlag_none {b : Byte} (h : b ≠ 0 ∧ b ≠ 1) : getFlag b = none := by
  obtain ⟨h0, h1⟩ := h
  rw [getFlag, if_neg h0, if_neg h1]

theorem asIx_none {n k : Nat} (h : n ≤ k) : asIx n k = none := dif_neg (by omega)

/-! ### SET_STANDSTILL and SET_CONDITION_TIMES (R31, R32) -/

section
variable {u : State} {n : Nat} {ps : List Byte}

theorem orderSetStandstill_badParam (h : byteAt ps 0 ≠ 0 ∧ byteAt ps 0 ≠ 1) :
    orderSetStandstill u n ps = u.done n .badParam := by
  simp only [orderSetStandstill, getFlag_none h]

theorem orderSetStandstill_ok {b : Bool} (h : byteAt ps 0 = if b then 1 else 0) :
    orderSetStandstill u n ps = (reportRaw u 5 b).done n .ok := by
  simp only [orderSetStandstill, (getFlag_some _ b).mpr h]
  rfl

theorem orderSetConditionTimes_badParam
    (h : 6 ≤ (byteAt ps 0).toNat ∨ getDuration ps 1 = none ∨ getDuration ps 3 = none) :
    orderSetConditionTimes u n ps = u.done n .badParam := by
  simp only [orderSetConditionTimes]
  split
  · rename_i hi hrise hfall
    obtain h | h | h := h
    · rw [asIx_none h] at hi
      cases hi
    · rw [hrise] at h
      cases h
    · rw [hfall] at h
      cases h
  · rfl

theorem orderSetConditionTimes_ok {i : CondIx} {rise fall : Duration} (hi : asIx 6 (byteAt ps 0).toNat = some i)
    (hrise : getDuration ps 1 = some rise) (hfall : getDuration ps 3 = some fall) :
    orderSetConditionTimes u n ps = { u with tab := { u.tab with
      conds := Vector.modifyRow u.tab.conds i fun c => { c with rise, fall } } }.done n .ok := by
  simp only [orderSetConditionTimes, hi, hrise, hfall]

end

/-- Settles O50: a raw change by `reportRaw_eq`. -/
theorem conditionOrders : Obligations.ConditionOrders := by
  intro s d l hrun u ps ends
  refine ⟨fun hfind => ⟨fun h => ?_, fun b hb => ?_⟩, fun hfind => ⟨fun h => ?_, fun i rise fall hi hrise hfall => ?_⟩⟩
  · exact exec_order_effect (fun _ => rfl) hrun hfind (orderSetStandstill_badParam h)
  · obtain ⟨hsame, -, -, hraw⟩ := reportRaw_eq u 5 b
    have hexec : exec .setStandstill s = ends (reportRaw u 5 b) .ok :=
      exec_order_effect (fun _ => rfl) hrun hfind (orderSetStandstill_ok hb)
    exact ⟨fun heq => by rw [hexec, hsame heq], fun _ => ⟨hexec, hraw⟩⟩
  · exact exec_order_effect (fun _ => rfl) hrun hfind (orderSetConditionTimes_badParam h)
  · exact exec_order_effect (fun _ => rfl) hrun hfind (orderSetConditionTimes_ok hi hrise hfall)

/-! ### SET_ACCOUNTS (R72, R73) -/

section
variable {u : State} {n : Nat} {ps : List Byte}

/-- The new thresholds of a SET_ACCOUNTS order are in range (R72). -/
structure AccountsInRange (th : Vector Nat 51) (first count : Nat) (xs : List Nat) : Prop where
  first_le : first ≤ 50
  count_pos : 1 ≤ count
  count_le : count ≤ 20
  last_le : first + count ≤ 51
  values : ∀ x ∈ xs, x ≤ 1024
  fit : sumReserve (fun a => th.get a) ≤ 1024

/-- The new thresholds carry what the accounts hold (R73). -/
def AccountsCarried (th : Vector Nat 51) (f : Flow) : Prop :=
  (∀ a, f.usage.get a ≤ th.get a) ∧ reservation th f.usage ≤ f.free

theorem accountsCarried_iff {th : Vector Nat 51} {f : Flow} :
    (!usageWithin th f.usage || decide (f.free < reservation th f.usage)) = false ↔ AccountsCarried th f := by
  simp [usageWithin, AccountsCarried]

/-- The thresholds after the order (R72). -/
def newThresholds (u : State) (ps : List Byte) : Vector Nat 51 :=
  replaceRun u.tab.thresholds (byteAt ps 0).toNat (getHalves (byteAt ps 1).toNat (ps.drop 2))

theorem orderSetAccounts_badParam (h : ¬AccountsInRange (newThresholds u ps) (byteAt ps 0).toNat (byteAt ps 1).toNat
      (getHalves (byteAt ps 1).toNat (ps.drop 2))) : orderSetAccounts u n ps = u.done n .badParam := by
  simp only [orderSetAccounts]
  split
  · rfl
  · rename_i hfields
    simp only [List.any_eq_true, decide_eq_true_eq, not_or, not_exists, not_and, not_lt] at hfields
    obtain ⟨hfirst, hpos, hcount, hlast, hvalues⟩ := hfields
    rw [if_pos]
    simp only [thresholdsFit, Bool.not_eq_true', decide_eq_false_iff_not]
    exact fun hfit => h ⟨by omega, by omega, by omega, by omega, hvalues, hfit⟩

theorem orderSetAccounts_inRange (h : AccountsInRange (newThresholds u ps) (byteAt ps 0).toNat (byteAt ps 1).toNat
      (getHalves (byteAt ps 1).toNat (ps.drop 2))) : orderSetAccounts u n ps =
    if !usageWithin (newThresholds u ps) u.flow.usage
        || decide (u.flow.free < reservation (newThresholds u ps) u.flow.usage) then u.done n .inUse
    else (({ u with tab := { u.tab with thresholds := newThresholds u ps } } : State).run [.offer]).done n .ok := by
  obtain ⟨hfirst, hpos, hcount, hlast, hvalues, hfit⟩ := h
  simp only [orderSetAccounts]
  rw [if_neg, if_neg]
  · rfl
  · simpa [thresholdsFit, newThresholds] using hfit
  · simp only [List.any_eq_true, decide_eq_true_eq, not_or, not_exists, not_and, not_lt]
    exact ⟨by omega, by omega, by omega, by omega, hvalues⟩

end

/-! ### SET_PROBE and SET_NEWS_MASK (R186, R193) -/

section
variable {u : State} {n : Nat} {ps : List Byte}

theorem orderSetProbe_badParam (h : asIx 4 (byteAt ps 0).toNat = none ∨ getProbe (ps.drop 1) = none) :
    orderSetProbe u n ps = u.done n .badParam := by
  simp only [orderSetProbe]
  split
  · rename_i hi hp
    obtain h | h := h
    · rw [hi] at h
      cases h
    · rw [hp] at h
      cases h
  · rfl

variable {i : ProbeIx} {p : Probe} (hi : asIx 4 (byteAt ps 0).toNat = some i) (hp : getProbe (ps.drop 1) = some p)
include hi hp

theorem orderSetProbe_noEntry (hen : p.enabled = true) (hring : u.tab.captureRing = none) :
    orderSetProbe u n ps = u.done n .noEntry := by
  simp only [orderSetProbe, hi, hp, hen, hring]
  rfl

theorem orderSetProbe_ok (h : p.enabled = false ∨ u.tab.captureRing.isSome) : orderSetProbe u n ps = { u with
    tab := { u.tab with probes := Vector.putRow u.tab.probes i p }
    flow := u.flow.markHeads fun _ h => h.reason == HoldReason.capture }.done n .ok := by
  simp only [orderSetProbe, hi, hp]
  rw [if_neg]
  obtain h | h := h
  · simp [h]
  · simp [Option.isSome_iff_ne_none.mp h]

end

theorem orderSetNewsMask_badParam {u : State} {n : Nat} {ps : List Byte} (h : 2 ^ 11 ≤ numAt ps 0 4) :
    orderSetNewsMask u n ps = u.done n .badParam := by
  rw [orderSetNewsMask, getMask, if_neg (by omega)]

theorem orderSetNewsMask_ok {u : State} {n : Nat} {ps : List Byte} (h : numAt ps 0 4 < 2 ^ 11) :
    orderSetNewsMask u n ps = { u with mask := BitVec.ofNat 11 (numAt ps 0 4) }.done n .ok := by
  rw [orderSetNewsMask, getMask, if_pos h]

theorem codeUnknown_iff {code : Byte} : codeUnknown code = true ↔ code = 0 ∨ 0x13 < code.toNat := by
  simp [codeUnknown]

/-- Settles O52: SET_ACCOUNTS by its two ranges, the probe record by `getProbe_some`. -/
theorem settingsOrders : Obligations.SettingsOrders := by
  refine ⟨fun s d l => ?_, getProbe_some⟩
  intro u ps ends
  refine ⟨fun hrun hfind => ?_, fun hrun hfind => ⟨fun h => ?_, fun i p hi hp => ⟨fun hen hring => ?_, fun h => ?_⟩⟩,
    fun hrun hfind => ⟨fun h => ?_, fun h => ?_⟩, fun code hcode hfind => ?_⟩
  · intro first count xs th inRange carried
    have hinRange : inRange ↔ AccountsInRange (newThresholds u ps) first count xs :=
      ⟨fun ⟨h1, h2, h3, h4, h5, h6⟩ => ⟨h1, h2, h3, h4, h5, h6⟩, fun h => ⟨h.1, h.2, h.3, h.4, h.5, h.6⟩⟩
    refine ⟨fun h => ?_, fun h hc => ?_, fun h hc => ?_⟩
    · exact exec_order_effect (fun _ => rfl) hrun hfind (orderSetAccounts_badParam (hinRange.not.mp h))
    · refine exec_order_effect (fun _ => rfl) hrun hfind ((orderSetAccounts_inRange (hinRange.mp h)).trans (if_pos ?_))
      exact Bool.not_eq_false _ ▸ fun hfalse => hc (accountsCarried_iff.mp hfalse)
    · refine exec_order_effect (fun _ => rfl) hrun hfind ((orderSetAccounts_inRange (hinRange.mp h)).trans (if_neg ?_))
      exact Bool.eq_false_iff.mp (accountsCarried_iff.mpr hc)
  · exact exec_order_effect (fun _ => rfl) hrun hfind (orderSetProbe_badParam h)
  · exact exec_order_effect (fun _ => rfl) hrun hfind (orderSetProbe_noEntry hi hp hen hring)
  · exact exec_order_effect (fun _ => rfl) hrun hfind (orderSetProbe_ok hi hp h)
  · exact exec_order_effect (fun _ => rfl) hrun hfind (orderSetNewsMask_badParam h)
  · exact exec_order_effect (fun _ => rfl) hrun hfind (orderSetNewsMask_ok h)
  · change Host.Outcome.next (takeOrder s codeUnknown true fun s n _ => s.done n .badOrder) = _
    rw [takeOrder_finds hfind (codeUnknown_iff.mpr hcode)]
    rfl

end Sys2Proof.Machine
end

section
/-! READ_COUNTERS and READ_TABLES: O54. -/

namespace Sys2Proof.Machine

/-! ### The counters (R205, R214) -/

theorem Vector.eq_tableOf {α : Type} {n : Nat} {v : Vector α n} {f : Fin n → α} (h : ∀ i, v.get i = f i) :
    v = tableOf n f := by
  refine Vector.ext fun i hi => ?_
  have hget : v.get ⟨i, hi⟩ = (tableOf n f).get ⟨i, hi⟩ := by rw [h, tableOf_get]
  exact hget

theorem clearCounters_eq (f : Flow) : clearCounters f = { f with
    slots := tableOf 16 fun k => { f.slots.get k with admitted := 0, refused := 0, heldTooLong := 0, deliveryFails := 0 }
    ecuCounts := tableOf 32 fun _ => { forwarded := 0, responses := 0, timeouts := 0, strays := 0, sendFailures := 0 }
    tbUnknown := 0, relayUnknown := 0 } := by
  unfold clearCounters
  congr 1
  exact Vector.eq_tableOf fun i => by rw [Vector.map_get]

/-- A number read in a slice of a block is the number the slice's first bytes hold. -/
theorem numAt_of_slice {bs xs : List Byte} {o k n m : Nat} (h : (bs.drop o).take k = leBytes n m ++ xs) (hn : n ≤ k)
    (hm : m < 256 ^ n) : numAt bs o n = m := by
  have htake : (bs.drop o).take n = leBytes n m := by
    calc (bs.drop o).take n = ((bs.drop o).take k).take n := by rw [List.take_take, min_eq_left hn]
      _ = leBytes n m := by rw [h, List.take_left' (leBytes_length n m)]
  rw [numAt, htake, leNat_leBytes n m hm]

theorem word_lt (w : Word) : w.toNat < 256 ^ 4 := w.isLt

/-! ### The orders' effects -/

section
variable {u : State} {n : Nat} {ps : List Byte} {d : Directory}

theorem orderReadCounters_badParam (h : byteAt ps 0 ≠ 0 ∧ byteAt ps 0 ≠ 1) :
    orderReadCounters u n ps = u.done n .badParam := by
  simp only [orderReadCounters, getFlag_none h]

theorem orderReadCounters_flag {b : Bool} (hb : byteAt ps 0 = if b then 1 else 0) : orderReadCounters u n ps =
    match u.tab.dir.bind (·.counters) with
    | none => u.done n .noEntry
    | some a =>
      let f := { u.flow with ram := ramWrite u.flow.ram a (counterBytes u.tab u.flow) }
      (u.withFlow (if b then clearCounters f else f)).done n .ok := by
  simp only [orderReadCounters, (getFlag_some _ b).mpr hb]
  cases u.tab.dir.bind (·.counters) <;> rfl

end

theorem exec_readCounters {s : State} {d : Directory} {l : Look} (hfind : s.Finds d l 0x11) :
    exec .readCounters s = .next ((orderReadCounters (s.took d l) l.next (s.params d l)).looksOn d l) := by
  change Host.Outcome.next (takeOrder s (codeIs 0x11) true orderReadCounters) = _
  rw [takeOrder_finds hfind (codeIs_self _)]
  rfl

/-- What READ_TABLES writes: all of the snapshot, or the bytes before a memory error (R206). -/
def writtenTables (s : State) : Option Nat → List Byte
  | none => snapshot s
  | some k => (snapshot s).take k

theorem orderReadTables_eq {u : State} {d : Directory} (written : Option Nat) (n : Nat) (ps : List Byte)
    (hd : u.tab.dir = some d) : orderReadTables written u n ps =
    if areaOk d ((d.base + numAt ps 0 4) % 2 ^ 32) (numAt ps 4 2) = true then
      (u.withFlow { u.flow with ram := ramWrite u.flow.ram ((d.base + numAt ps 0 4) % 2 ^ 32) (writtenTables u written) }).done n
        (if written.isSome then .memoryError else .ok)
    else u.done n .badParam := by
  simp only [orderReadTables, hd, ramTop]
  by_cases hok : areaOk d ((d.base + numAt ps 0 4) % 2 ^ 32) (numAt ps 4 2) = true
  · simp only [hok, Bool.not_true, Bool.false_eq_true, if_false, if_true]
    cases written <;> rfl
  · simp only [Bool.eq_false_iff.mpr hok, Bool.not_false, Bool.false_eq_true, if_false, if_true]

theorem takeOrder_readTables {s : State} {d : Directory} {l : Look} (hfind : s.Finds d l 0x12) (written : Option Nat) :
    takeOrder s (codeIs 0x12) true (orderReadTables written) =
      (orderReadTables written (s.took d l) l.next (s.params d l)).looksOn d l := by
  rw [takeOrder_finds hfind (codeIs_self _)]
  rfl

theorem exec_readTables {s : State} {d : Directory} {l : Look} (hfind : s.Finds d l 0x12) :
    exec .readTables s = .next ((orderReadTables none (s.took d l) l.next (s.params d l)).looksOn d l) :=
  congrArg Host.Outcome.next (takeOrder_readTables hfind none)

theorem exec_memoryError_tablesArea {s : State} {d : Directory} {l : Look} (hfind : s.Finds d l 0x12) (k : Nat)
    (again : Bool) : exec (.memoryError (.tablesArea k) again) s =
      .next ((orderReadTables (some k) (s.took d l) l.next (s.params d l)).looksOn d l) := by
  obtain ⟨hd, -⟩ := id hfind
  have hposs : accessPossible s (.tablesArea k) = true := by simp only [accessPossible, hd, Option.isSome_some]
  rw [exec_memoryError, execMemoryError, if_pos hposs]
  exact congrArg Host.Outcome.next (takeOrder_readTables hfind (some k))

/-! ### The area (R206) -/

theorem overlap_false {x y : Nat × Nat} : (!overlap x y) = true ↔ x.1 + x.2 ≤ y.1 ∨ y.1 + y.2 ≤ x.1 := by
  simp only [overlap, Bool.not_eq_true', Bool.and_eq_false_iff, decide_eq_false_iff_not]
  omega

theorem areaOk_iff {d : Directory} {a len : Nat} : areaOk d a len = true ↔
    4244 ≤ len ∧ ∀ x ∈ areaExtents a len, ∀ y ∈ d.extents, x.1 + x.2 ≤ y.1 ∨ y.1 + y.2 ≤ x.1 := by
  have hsize : snapshotSize = 4244 := rfl
  simp only [areaOk, hsize, Bool.and_eq_true, decide_eq_true_eq, List.all_eq_true, overlap_false]

/-- Settles O54: the two blocks by `counterBytes_eq` and `snapshot_eq`. -/
theorem snapshotOrders : Obligations.SnapshotOrders := by
  refine ⟨fun t f k => ?_, fun s => ?_, fun s d l => ?_, fun d a len => areaOk_iff, counterBytes_eq, snapshot_eq⟩
  · obtain ⟨hlen, hnow, hslot, -⟩ := counterBytes_eq t f
    refine ⟨hlen, numAt_of_slice (xs := []) (hnow.trans (List.append_nil _).symm) le_rfl (word_lt _), ?_⟩
    exact numAt_of_slice (hslot k) (by decide) (word_lt _)
  · obtain ⟨hlen, hnow, -⟩ := snapshot_eq s
    exact ⟨hlen, numAt_of_slice (xs := []) (hnow.trans (List.append_nil _).symm) le_rfl (word_lt _)⟩
  · intro u ps ends
    refine ⟨fun hfind => ?_, fun hfind => ?_⟩
    · have hdir : u.tab.dir = some d := hfind.1
      have hexec := exec_readCounters hfind
      have hflag {b : Bool} (hb : byteAt ps 0 = if b then 1 else 0) :=
        orderReadCounters_flag (u := u) (n := l.next) hb
      refine ⟨fun h => ?_, fun h hnone => ?_, fun a hsome => ?_⟩
      · rw [hexec, orderReadCounters_badParam h]
      · have hb : ∃ b : Bool, byteAt ps 0 = if b then 1 else 0 := h.elim (fun h => ⟨false, h⟩) fun h => ⟨true, h⟩
        obtain ⟨b, hb⟩ := hb
        have hnone' : u.tab.dir.bind (·.counters) = none := by rw [hdir]; exact hnone
        rw [hexec, hflag hb, hnone']
      · have hsome' : u.tab.dir.bind (·.counters) = some a := by rw [hdir]; exact hsome
        intro f
        refine ⟨fun h => ?_, fun h => ?_⟩
        · rw [hexec, hflag (b := false) h, hsome']
          rfl
        · rw [hexec, hflag (b := true) h, hsome']
          exact congrArg (fun g => ends (u.withFlow g) .ok) (clearCounters_eq f)
    · intro a len
      have hread := fun written => orderReadTables_eq (u := u) written l.next ps hfind.1
      refine ⟨fun h => ?_, fun h => ⟨?_, fun n again => ?_⟩⟩
      · rw [exec_readTables hfind, hread none, if_neg (Bool.eq_false_iff.mp h)]
      · rw [exec_readTables hfind, hread none, if_pos h]
        rfl
      · rw [exec_memoryError_tablesArea hfind, hread (some n), if_pos h]
        rfl

end Sys2Proof.Machine
end

section
/-! The timers of the claims and grants: O42. First what the end of a closing, a release and a support check leave of the
claims. -/

namespace Sys2Proof.Machine

/-! ### What telling a change leaves (R93, R135, R136, R180) -/

/-- Shared RAM, the news flags, the capture writer, the list of heads to evaluate and the orders that wait change, and
nothing else. -/
def Flow.Tells (f g : Flow) : Prop :=
  ∃ (ram : List Host.Cell) (news : NewsFlags) (writer : Writer) (again : List Slot) (releaseWaits : List ReleaseWait),
    g = { f with ram, news, writer, again, releaseWaits }

namespace Flow.Tells

theorem refl (f : Flow) : f.Tells f := ⟨f.ram, f.news, f.writer, f.again, f.releaseWaits, rfl⟩

theorem trans {f g h : Flow} (a : f.Tells g) (b : g.Tells h) : f.Tells h := by
  obtain ⟨_, _, _, _, _, rfl⟩ := a
  obtain ⟨ram, news, writer, again, releaseWaits, rfl⟩ := b
  exact ⟨ram, news, writer, again, releaseWaits, rfl⟩

theorem of_captures {f g : Flow} (h : f.Captures g) : f.Tells g := by
  obtain ⟨ram, news, writer, rfl⟩ := h
  exact ⟨ram, news, writer, f.again, f.releaseWaits, rfl⟩

theorem markHeads (f : Flow) (p : Slot → Held → Bool) : f.Tells (f.markHeads p) := ⟨_, _, _, _, _, rfl⟩

theorem setNews (f : Flow) (n : News) : f.Tells (f.setNews n) := ⟨_, _, _, _, _, rfl⟩

theorem foldl {α : Type} (u : Flow → α → Flow) (h : ∀ (f : Flow) x, f.Tells (u f x)) (xs : List α) (f : Flow) :
    f.Tells (xs.foldl u f) := by
  induction xs generalizing f with
  | nil => exact refl f
  | cons x xs ih => exact (h f x).trans (ih _)

variable {f g : Flow} (h : f.Tells g)
include h

theorem claims : g.claims = f.claims := by
  obtain ⟨_, _, _, _, _, rfl⟩ := h
  rfl

theorem vbs : g.vbs = f.vbs := by
  obtain ⟨_, _, _, _, _, rfl⟩ := h
  rfl

theorem slots : g.slots = f.slots := by
  obtain ⟨_, _, _, _, _, rfl⟩ := h
  rfl

theorem jobs : g.jobs = f.jobs := by
  obtain ⟨_, _, _, _, _, rfl⟩ := h
  rfl

theorem entries : g.entries = f.entries := by
  obtain ⟨_, _, _, _, _, rfl⟩ := h
  rfl

end Flow.Tells

theorem event_tells (t : Tables) (n : Nat) (f : Flow) (c : CaptureRecord) : f.Tells (event t n f c) :=
  .of_captures (event_captures ..)

theorem grantStep_tells (t : Tables) (keep : Nat) (f : Flow) (i : GrantIx) (g : Grant) (o : Byte) :
    f.Tells (grantStep t keep f i g o) := (Flow.Tells.setNews ..).trans (event_tells ..)

theorem claimReport_tells (t : Tables) (n : Nat) (f : Flow) (e : EcuIx) (ev : ClaimEvent) (r : Option Byte)
    (c : List Byte) : f.Tells (claimReport t n f e ev r c) := (Flow.Tells.setNews ..).trans (event_tells ..)

theorem claimChanged_tells (t : Tables) (n : Nat) (f : Flow) (e : EcuIx) (ev : ClaimEvent) (r : Option Byte)
    (c : List Byte) : f.Tells (claimChanged t n f e ev r c) :=
  (Flow.Tells.markHeads ..).trans (claimReport_tells ..)

theorem orderDone_tells (t : Tables) (f : Flow) (n : Nat) (r : OrderResult) (d : List Byte) :
    f.Tells (orderDone t f n r d) := by
  unfold orderDone
  split
  · exact .refl f
  · exact ⟨_, _, _, _, _, rfl⟩

theorem endReleaseOrders_tells (t : Tables) (f : Flow) (e : EcuIx) (c : Option ReleaseCause) (o : CloseOutcome)
    (a : Option Byte) : f.Tells (endReleaseOrders t f e c o a) :=
  Flow.Tells.trans ⟨_, _, _, _, _, rfl⟩ (.foldl _ (fun _ _ => orderDone_tells ..) _ _)

theorem claimChanged_hasNews (t : Tables) (n : Nat) (f : Flow) (e : EcuIx) (ev : ClaimEvent) (r : Option Byte)
    (c : List Byte) : (claimChanged t n f e ev r c).hasNews .claim = true :=
  event_news_kept _ _ _ _ _ (Flow.hasNews_setNews _ .claim)

theorem grantStep_hasNews (t : Tables) (keep : Nat) (f : Flow) (i : GrantIx) (g : Grant) (o : Byte) :
    (grantStep t keep f i g o).hasNews .grant = true := event_news_kept _ _ _ _ _ (Flow.hasNews_setNews _ .grant)

theorem Flow.Sound.hasNews {f g : Flow} (h : f.Sound g) {n : News} (hn : f.hasNews n = true) : g.hasNews n = true :=
  hasNews_of_kept h.news hn

/-! ### The close buffer (R129, R133) -/

section
variable {t : Tables} {f : Flow} {e : EcuIx}

theorem enterBuffer_empty (h : (f.vbs.get (t.ecus.get e).port).closeBuf = none) :
    enterBuffer t f e = (f.modVb (t.ecus.get e).port fun v =>
      { v with closeBuf := some { ecu := e, bytes := (t.ecus.get e).closeMsg } }).modClaim e
        fun c => { c with phase := some .sending } := by
  simp only [enterBuffer, h]

theorem enterBuffer_waits (h : (f.vbs.get (t.ecus.get e).port).closeBuf.isSome = true) :
    enterBuffer t f e = (f.modVb (t.ecus.get e).port fun v => { v with closeList := v.closeList ++ [e] }).modClaim e
      fun c => { c with phase := some .waitBuffer } := by
  obtain ⟨b, hb⟩ := Option.isSome_iff_exists.mp h
  simp only [enterBuffer, hb]

theorem passBuffer_others (h : ∀ b, (f.vbs.get (t.ecus.get e).port).closeBuf = some b → b.ecu ≠ e) :
    passBuffer t f e = f := by
  simp only [passBuffer]
  split
  · rfl
  · rename_i b hb
    rw [if_neg (h b hb)]

variable {b : CloseBuf} (hb : (f.vbs.get (t.ecus.get e).port).closeBuf = some b) (he : b.ecu = e)
include hb he

theorem passBuffer_last (hlist : (f.vbs.get (t.ecus.get e).port).closeList = []) :
    passBuffer t f e = f.modVb (t.ecus.get e).port fun x => { x with closeBuf := none } := by
  simp only [passBuffer, hb, he, hlist, if_true]

theorem passBuffer_next {n : EcuIx} {rest : List EcuIx}
    (hlist : (f.vbs.get (t.ecus.get e).port).closeList = n :: rest) :
    passBuffer t f e = (f.modVb (t.ecus.get e).port fun x =>
      { x with closeBuf := some { ecu := n, bytes := (t.ecus.get n).closeMsg }, closeList := rest }).modClaim n
        fun c => { c with phase := some .sending } := by
  simp only [passBuffer, hb, he, hlist, if_true]

end

/-! ### The end of a closing (R133, R135) -/

/-- The claim of an ECU whose closing has ended (R133). -/
def Flow.freeClaim (f : Flow) (e : EcuIx) (o : CloseOutcome) (answer : Option Byte) : Flow :=
  f.modClaim e fun c => { c with
    outcome := o, answer, state := .free, cause := none, phase := none, closeDeadline := none }

theorem closeEnd_tells (t : Tables) (keep : Nat) (f : Flow) (e : EcuIx) (o : CloseOutcome) (answer : Option Byte) :
    (passBuffer t (f.freeClaim e o answer) e).Tells (closeEnd t keep f e o answer) :=
  (endReleaseOrders_tells ..).trans (claimChanged_tells ..)

theorem closeEnd_hasNews (t : Tables) (keep : Nat) (f : Flow) (e : EcuIx) (o : CloseOutcome) (answer : Option Byte) :
    (closeEnd t keep f e o answer).hasNews .claim = true := claimChanged_hasNews ..

/-- The claim of an ECU in CLOSING with a cause, before its closing goes on (R127). -/
def Flow.closeClaim (f : Flow) (e : EcuIx) (cause : ReleaseCause) : Flow :=
  f.modClaim e fun c => { c with state := .closing, cause := some cause, holdOff := none, phase := some .waitEntry }

theorem claimRelease_hasNews {t : Tables} {keep : Nat} {entering : Bool} {f : Flow} {e : EcuIx} {cause : ReleaseCause}
    (h : (f.claims.get e).inForce = true) : (claimRelease t keep entering f e cause).hasNews .claim = true := by
  simp only [claimRelease, h, if_true]
  split
  · exact claimChanged_hasNews ..
  · exact (closingProceeds_keeps ..).hasNews (claimChanged_hasNews ..)

/-! ### A change of one claim leaves the others in force as they are -/

theorem Flow.modClaim_other (f : Flow) {e i : EcuIx} (h : i ≠ e) (u : Claim → Claim) :
    (f.modClaim e u).claims.get i = f.claims.get i := by
  rw [Flow.modClaim_get, if_neg h]

theorem Flow.modClaim_same (f : Flow) (e i : EcuIx) {u : Claim → Claim} (h : ∀ c, (u c).Same c) :
    ((f.modClaim e u).claims.get i).Same (f.claims.get i) := by
  rw [Flow.modClaim_get]
  split
  · rename_i hi
    rw [hi]
    exact h _
  · exact Claim.Same.refl _

theorem passBuffer_same (t : Tables) (f : Flow) (e i : EcuIx) :
    ((passBuffer t f e).claims.get i).Same (f.claims.get i) := by
  unfold passBuffer
  simp only
  split
  · exact Claim.Same.refl _
  · split
    · split
      · exact Claim.Same.refl _
      · exact Flow.modClaim_same (f.modVb _ _) _ i fun _ => ⟨rfl, rfl, rfl, rfl⟩
    · exact Claim.Same.refl _

theorem enterBuffer_same (t : Tables) (f : Flow) (e i : EcuIx) :
    ((enterBuffer t f e).claims.get i).Same (f.claims.get i) := by
  unfold enterBuffer
  simp only
  split <;> exact Flow.modClaim_same (f.modVb _ _) e i fun _ => ⟨rfl, rfl, rfl, rfl⟩

section
variable {e i : EcuIx} (h : i ≠ e)
include h

theorem closeEnd_same (t : Tables) (keep : Nat) (f : Flow) (o : CloseOutcome) (answer : Option Byte) :
    ((closeEnd t keep f e o answer).claims.get i).Same (f.claims.get i) := by
  rw [(closeEnd_tells t keep f e o answer).claims]
  have hpass := passBuffer_same t (f.freeClaim e o answer) e i
  rwa [Flow.freeClaim, Flow.modClaim_other _ h] at hpass

theorem claimRelease_same (t : Tables) (keep : Nat) (entering : Bool) (f : Flow) (cause : ReleaseCause) :
    ((claimRelease t keep entering f e cause).claims.get i).Same (f.claims.get i) := by
  have hclosing : ((claimChanged t keep (f.closeClaim e cause) e .released (some cause.byte) []).claims.get i) =
      f.claims.get i := by
    rw [(claimChanged_tells ..).claims, Flow.closeClaim, Flow.modClaim_other _ h]
  unfold claimRelease
  simp only
  split
  · split
    · exact hclosing ▸ Claim.Same.refl _
    · unfold closingProceeds
      split
      · exact hclosing ▸ closeEnd_same h ..
      · exact hclosing ▸ enterBuffer_same ..
  · exact Claim.Same.refl _

end

/-- A pass over claims that changes one claim at a time: each is as its own turn leaves it. -/
theorem foldl_claims_turn {u : Flow → EcuIx → Flow}
    (hu : ∀ f e i, i ≠ e → ((u f e).claims.get i).Same (f.claims.get i)) :
    ∀ {es : List EcuIx} (_ : es.Nodup) (f : Flow) {e : EcuIx}, e ∈ es →
      ∃ g, (g.claims.get e).Same (f.claims.get e) ∧ ((es.foldl u f).claims.get e).Same ((u g e).claims.get e) := by
  have stays (e : EcuIx) : ∀ (es : List EcuIx) (f : Flow), e ∉ es →
      ((es.foldl u f).claims.get e).Same (f.claims.get e) := by
    intro es
    induction es with
    | nil => exact fun f _ => Claim.Same.refl _
    | cons x es ih =>
      intro f he
      obtain ⟨hx, hes⟩ := not_or.mp (List.mem_cons.not.mp he)
      exact (ih (u f x) hes).trans (hu f x e hx)
  intro es
  induction es with
  | nil => exact fun _ f e he => (List.not_mem_nil he).elim
  | cons x es ih =>
    intro hnodup f e he
    obtain ⟨hx, hes⟩ := List.nodup_cons.mp hnodup
    obtain rfl | he := List.mem_cons.mp he
    · exact ⟨f, Claim.Same.refl _, stays e es (u f e) hx⟩
    · obtain ⟨g, hg, hend⟩ := ih hes (u f x) he
      exact ⟨g, hg.trans (hu f x e fun hxe => hx (hxe ▸ he)), hend⟩

/-- A support check releases the claims that no grant supports, and leaves the others in force (R54). -/
theorem supportCheck_claims (t : Tables) (gs : Vector Grant 64) (keep : Nat) (entering : Option EcuIx) (f : Flow)
    (old : Grant) (e : EcuIx) (he : (f.claims.get e).inForce = true) :
    if old.ecus.getLsbD e.val = true ∧ (f.claims.get e).holder = old.slot
        ∧ supported gs old.slot e (f.claims.get e).level = false then
      ((supportCheck t gs keep entering f old).claims.get e).inForce = false
    else ((supportCheck t gs keep entering f old).claims.get e).Same (f.claims.get e) := by
  obtain ⟨g, hg, hend⟩ := foldl_claims_turn (u := fun f e =>
      if old.ecus.getLsbD e.val && (f.claims.get e).inForce && (f.claims.get e).holder == old.slot
          && !supported gs old.slot e (f.claims.get e).level then
        claimRelease t keep (entering == some e) f e .support else f)
    (fun f x i hi => by
      split
      · exact claimRelease_same hi ..
      · exact Claim.Same.refl _)
    (List.nodup_finRange 32) f (List.mem_finRange e)
  change ((supportCheck t gs keep entering f old).claims.get e).Same _ at hend
  have hforce : (g.claims.get e).inForce = true := by rw [← he]; exact hg.inForce.symm
  obtain ⟨-, hholder, hlevel, -⟩ := id hg
  simp only [hforce, hholder, hlevel, Bool.and_true] at hend
  split
  · rename_i hcond
    obtain ⟨hecu, hslot, hsup⟩ := hcond
    rw [if_pos (by simp [hecu, hslot, hsup])] at hend
    rw [← hend.inForce]
    exact claimRelease_notInForce ..
  · rename_i hcond
    rw [if_neg (fun hall => hcond (by simpa [and_assoc] using hall))] at hend
    exact hend.trans hg

end Sys2Proof.Machine
end

section
/-! The timers of the claims and grants: O42. -/

namespace Sys2Proof.Machine

/-! ### What the passing of time leaves -/

theorem startFrames_eq (t : Tables) (f : Flow) : ∃ ports, startFrames t f = { f with ports } := ⟨_, rfl⟩

section
variable (s : State) (dt : Nat)

/-- Of the traffic, the passing of time changes the ports only. -/
theorem advance_flow : ∃ ports, (s.advance dt).flow = { s.flow with ports } := startFrames_eq ..

theorem advance_claims : (s.advance dt).flow.claims = s.flow.claims := by
  obtain ⟨_, h⟩ := advance_flow s dt
  rw [h]

theorem advance_vbs : (s.advance dt).flow.vbs = s.flow.vbs := by
  obtain ⟨_, h⟩ := advance_flow s dt
  rw [h]

theorem advance_entries : (s.advance dt).flow.entries = s.flow.entries := by
  obtain ⟨_, h⟩ := advance_flow s dt
  rw [h]

theorem advance_jobs : (s.advance dt).flow.jobs = s.flow.jobs := by
  obtain ⟨_, h⟩ := advance_flow s dt
  rw [h]

theorem advance_slots : (s.advance dt).flow.slots = s.flow.slots := by
  obtain ⟨_, h⟩ := advance_flow s dt
  rw [h]

theorem advance_grants : (s.advance dt).grants = s.grants := by rw [State.advance]

theorem advance_ecus : (s.advance dt).tab.ecus = s.tab.ecus := by rw [State.advance]

theorem advance_active : (s.advance dt).tab.active = s.tab.active := by rw [State.advance, Tables.active, Tables.active]

theorem advance_entryOf (k : Slot) (e : EcuIx) : (s.advance dt).flow.entryOf k e = s.flow.entryOf k e := by
  rw [Flow.entryOf, Flow.entryOf, advance_entries]

end

/-! ### A release, case by case (R127, R129) -/

section
variable {t : Tables} {keep : Nat} {f : Flow} {e : EcuIx} {cause : ReleaseCause}

/-- The release has been told, and the closing has not gone on yet. -/
def releaseTold (t : Tables) (keep : Nat) (f : Flow) (e : EcuIx) (cause : ReleaseCause) : Flow :=
  claimChanged t keep (f.closeClaim e cause) e .released (some cause.byte) []

theorem releaseTold_tells : (f.closeClaim e cause).Tells (releaseTold t keep f e cause) := claimChanged_tells ..

variable (hforce : (f.claims.get e).inForce = true)
include hforce

theorem claimRelease_claims_waits (hentry : (f.entryOf (f.claims.get e).holder e).isSome = true) :
    (claimRelease t keep false f e cause).claims = (f.closeClaim e cause).claims := by
  obtain ⟨-, hwaits, -⟩ := claimRelease_eq t keep false f e cause
  rw [hwaits hforce (.inr hentry)]
  exact (releaseTold_tells (t := t) (keep := keep)).claims

variable (hentry : f.entryOf (f.claims.get e).holder e = none)
include hentry

theorem claimRelease_empty (hmsg : (t.ecus.get e).closeMsg = []) :
    claimRelease t keep false f e cause = closeEnd t keep (releaseTold t keep f e cause) e .empty none := by
  obtain ⟨-, -, hempty, -⟩ := claimRelease_eq t keep false f e cause
  exact hempty hforce (by rw [hentry]; simp) hmsg

theorem claimRelease_sends (hmsg : (t.ecus.get e).closeMsg ≠ []) :
    claimRelease t keep false f e cause = enterBuffer t (releaseTold t keep f e cause) e := by
  obtain ⟨-, -, -, hsends⟩ := claimRelease_eq t keep false f e cause
  exact hsends hforce (by rw [hentry]; simp) hmsg

/-- An empty close message ends the closing at once; the close buffer is another ECU's (R129). -/
theorem claimRelease_claims_empty (hmsg : (t.ecus.get e).closeMsg = [])
    (hbuf : ∀ b, (f.vbs.get (t.ecus.get e).port).closeBuf = some b → b.ecu ≠ e) :
    (claimRelease t keep false f e cause).claims = ((f.closeClaim e cause).freeClaim e .empty none).claims := by
  have htold := releaseTold_tells (t := t) (keep := keep) (f := f) (e := e) (cause := cause)
  have hpass : passBuffer t ((releaseTold t keep f e cause).freeClaim e .empty none) e =
      (releaseTold t keep f e cause).freeClaim e .empty none := by
    refine passBuffer_others fun b hb => hbuf b ?_
    change ((releaseTold t keep f e cause).vbs.get _).closeBuf = _ at hb
    rw [htold.vbs] at hb
    exact hb
  rw [claimRelease_empty hforce hentry hmsg, (closeEnd_tells ..).claims, hpass]
  simp only [Flow.freeClaim, Flow.modClaim, htold.claims]

theorem claimRelease_sending (hmsg : (t.ecus.get e).closeMsg ≠ [])
    (hbuf : (f.vbs.get (t.ecus.get e).port).closeBuf = none) :
    (claimRelease t keep false f e cause).claims =
        ((f.closeClaim e cause).modClaim e fun c => { c with phase := some .sending }).claims
      ∧ ((claimRelease t keep false f e cause).vbs.get (t.ecus.get e).port).closeBuf =
        some { ecu := e, bytes := (t.ecus.get e).closeMsg } := by
  have htold := releaseTold_tells (t := t) (keep := keep) (f := f) (e := e) (cause := cause)
  have hbuf' : ((releaseTold t keep f e cause).vbs.get (t.ecus.get e).port).closeBuf = none := by
    rw [htold.vbs]
    exact hbuf
  rw [claimRelease_sends hforce hentry hmsg, enterBuffer_empty hbuf']
  constructor
  · simp only [Flow.modClaim, Flow.modVb, htold.claims]
  · change (((releaseTold t keep f e cause).modVb _ _).vbs.get _).closeBuf = _
    rw [Flow.modVb_get_self]

theorem claimRelease_listed (hmsg : (t.ecus.get e).closeMsg ≠ [])
    (hbuf : (f.vbs.get (t.ecus.get e).port).closeBuf.isSome = true) :
    (claimRelease t keep false f e cause).claims =
        ((f.closeClaim e cause).modClaim e fun c => { c with phase := some .waitBuffer }).claims
      ∧ ((claimRelease t keep false f e cause).vbs.get (t.ecus.get e).port).closeList =
        (f.vbs.get (t.ecus.get e).port).closeList ++ [e] := by
  have htold := releaseTold_tells (t := t) (keep := keep) (f := f) (e := e) (cause := cause)
  have hbuf' : ((releaseTold t keep f e cause).vbs.get (t.ecus.get e).port).closeBuf.isSome = true := by
    rw [htold.vbs]
    exact hbuf
  rw [claimRelease_sends hforce hentry hmsg, enterBuffer_waits hbuf']
  constructor
  · simp only [Flow.modClaim, Flow.modVb, htold.claims]
  · change (((releaseTold t keep f e cause).modVb _ _).vbs.get _).closeList = _
    rw [Flow.modVb_get_self, htold.vbs]
    rfl

end

/-- A release with no other ECU's closing in the way changes the claim of its ECU only. -/
theorem claimRelease_claims_other {t : Tables} {keep : Nat} {f : Flow} {e i : EcuIx} {cause : ReleaseCause} (h : i ≠ e)
    (hforce : (f.claims.get e).inForce = true)
    (hbuf : ∀ b, (f.vbs.get (t.ecus.get e).port).closeBuf = some b → b.ecu ≠ e) :
    (claimRelease t keep false f e cause).claims.get i = f.claims.get i := by
  have hclose : (f.closeClaim e cause).claims.get i = f.claims.get i := Flow.modClaim_other _ h _
  cases hentry : f.entryOf (f.claims.get e).holder e with
  | some x => rw [claimRelease_claims_waits hforce (by rw [hentry]; rfl), hclose]
  | none =>
    by_cases hmsg : (t.ecus.get e).closeMsg = []
    · rw [claimRelease_claims_empty hforce hentry hmsg hbuf, Flow.freeClaim, Flow.modClaim_other _ h, hclose]
    · cases hb : (f.vbs.get (t.ecus.get e).port).closeBuf with
      | none =>
        obtain ⟨hclaims, -⟩ := claimRelease_sending (keep := keep) (cause := cause) hforce hentry hmsg hb
        rw [hclaims, Flow.modClaim_other _ h, hclose]
      | some b =>
        obtain ⟨hclaims, -⟩ := claimRelease_listed (keep := keep) (cause := cause) hforce hentry hmsg (by rw [hb]; rfl)
        rw [hclaims, Flow.modClaim_other _ h, hclose]

/-! ### The commands -/

theorem exec_holdOffExpiry (e : EcuIx) (dt : Nat) (s : State) : exec (.holdOffExpiry e dt) s =
    let u := s.advance dt
    let c := u.flow.claims.get e
    if u.tab.active && c.inForce && expired u.tab.now c.holdOff then
      .next (u.withFlow (claimRelease u.tab 0 false u.flow e .holdOff))
    else .next u := by
  change execHoldOffExpiry e dt s = _
  rw [execHoldOffExpiry]

theorem exec_closeDeadline (e : EcuIx) (dt : Nat) (s : State) : exec (.closeDeadline e dt) s =
    let u := s.advance dt
    let c := u.flow.claims.get e
    if u.tab.active && (c.state == .closing && c.phase == some .awaiting) && expired u.tab.now c.closeDeadline then
      .next (u.withFlow (closeEnd u.tab 0 u.flow e .noAnswer none))
    else .next u := by
  change execCloseDeadline e dt s = _
  rw [execCloseDeadline]

theorem exec_grantExpiry (i : GrantIx) (dt : Nat) (s : State) : exec (.grantExpiry i dt) s =
    let u := s.advance dt
    let g := u.grants.get i
    let gs := Vector.putRow u.grants i g.expire
    if u.tab.active && g.due u.tab.now then
      .next { u with grants := gs, flow := markSlot (supportCheck u.tab gs 0 none (grantStep u.tab 0 u.flow i g 1) g) g.slot }
    else .next u := rfl

theorem Grant.due_iff {now : Word} {g : Grant} :
    g.due now = true ↔ (g.state = .active ∨ g.state = .suspended) ∧ ∃ d, g.life = .running d ∧ reached now d = true := by
  unfold Grant.due
  cases g.life <;> simp

theorem expired_some {now : Word} {d : Option Word} : expired now d = true ↔ ∃ x, d = some x ∧ reached now x = true := by
  cases d <;> simp [expired]

/-- The deadline at which a grant's lifetime ends (R46). -/
def Life.deadline : Life → Option Word
  | .running d => some d
  | _ => none

theorem Grant.due_false {now : Word} {g : Grant}
    (h : (g.state ≠ .active ∧ g.state ≠ .suspended) ∨ expired now g.life.deadline = false) : g.due now = false := by
  rw [Bool.eq_false_iff, Ne, Grant.due_iff]
  rintro ⟨hstate, d, hlife, hreached⟩
  obtain ⟨hactive, hsuspended⟩ | h := h
  · exact hstate.elim hactive hsuspended
  · rw [hlife] at h
    exact Bool.eq_false_iff.mp h (expired_some.mpr ⟨d, rfl, hreached⟩)

theorem exec_grantExpiry_due {i : GrantIx} {dt : Nat} {s : State} {d : Word} (hactive : s.tab.active = true)
    (hstate : (s.grants.get i).state = .active ∨ (s.grants.get i).state = .suspended)
    (hlife : (s.grants.get i).life = .running d) (hreached : reached (s.advance dt).tab.now d = true) :
    exec (.grantExpiry i dt) s = .next { s.advance dt with
        grants := Vector.putRow s.grants i (s.grants.get i).expire
        flow := markSlot (supportCheck (s.advance dt).tab (Vector.putRow s.grants i (s.grants.get i).expire) 0 none
          (grantStep (s.advance dt).tab 0 (s.advance dt).flow i (s.grants.get i) 1) (s.grants.get i))
            (s.grants.get i).slot } := by
  have hdue : (s.grants.get i).due (s.advance dt).tab.now = true := Grant.due_iff.mpr ⟨hstate, d, hlife, hreached⟩
  have hgo : ((s.advance dt).tab.active && (s.grants.get i).due (s.advance dt).tab.now) = true := by
    rw [hdue, Bool.and_true]
    exact hactive
  exact (exec_grantExpiry i dt s).trans (if_pos hgo)

theorem releaseClaimsOf_eq (t : Tables) (f : Flow) (k : Slot) (cause : ReleaseCause) :
    releaseClaimsOf t f k cause = (List.finRange 32).foldl (fun g e =>
      if (g.claims.get e).holder = k then claimRelease t 0 false g e cause else g) f := by
  simp only [releaseClaimsOf, beq_iff_eq]

theorem not_all {a b c : Bool} (h : a = false ∨ b = false ∨ c = false) : ¬(a && b && c) = true := by
  obtain h | h | h := h <;> simp [h]

/-- A command whose three conditions are `a`, `b` and `c`. -/
theorem and3_eq_true {a b c : Bool} (ha : a = true) (hb : b = true) (hc : c = true) : (a && b && c) = true := by
  rw [ha, hb, hc]
  rfl

section
variable {t : Tables} {f : Flow} {e : EcuIx}

/-- What the end of a closing makes of its claim (R133). -/
theorem freeClaim_get (o : CloseOutcome) (answer : Option Byte) : (f.freeClaim e o answer).claims.get e = { f.claims.get e with
    state := .free, cause := none, phase := none, closeDeadline := none, outcome := o, answer } := by
  rw [Flow.freeClaim, Flow.modClaim_get_self]

theorem closeClaim_get (cause : ReleaseCause) : (f.closeClaim e cause).claims.get e = { f.claims.get e with
    state := .closing, cause := some cause, holdOff := none, phase := some .waitEntry } := by
  rw [Flow.closeClaim, Flow.modClaim_get_self]

variable {b : CloseBuf} (hb : (f.vbs.get (t.ecus.get e).port).closeBuf = some b) (hmine : b.ecu = e) (keep : Nat)
  (o : CloseOutcome) (answer : Option Byte)
include hb hmine

theorem closeEnd_last (hlist : (f.vbs.get (t.ecus.get e).port).closeList = []) :
    (closeEnd t keep f e o answer).claims = (f.freeClaim e o answer).claims
      ∧ ((closeEnd t keep f e o answer).vbs.get (t.ecus.get e).port).closeBuf = none := by
  have htells := closeEnd_tells t keep f e o answer
  rw [htells.claims, htells.vbs, passBuffer_last (f := f.freeClaim e o answer) hb hmine hlist, Flow.modVb_get_self]
  exact ⟨rfl, rfl⟩

theorem closeEnd_next {n : EcuIx} {rest : List EcuIx}
    (hlist : (f.vbs.get (t.ecus.get e).port).closeList = n :: rest) :
    (closeEnd t keep f e o answer).claims =
        ((f.freeClaim e o answer).modClaim n fun c => { c with phase := some .sending }).claims
      ∧ ((closeEnd t keep f e o answer).vbs.get (t.ecus.get e).port).closeBuf =
        some { ecu := n, bytes := (t.ecus.get n).closeMsg }
      ∧ ((closeEnd t keep f e o answer).vbs.get (t.ecus.get e).port).closeList = rest := by
  have htells := closeEnd_tells t keep f e o answer
  have hvb := Flow.modVb_get_self (f.freeClaim e o answer) (t.ecus.get e).port fun x =>
    { x with closeBuf := some { ecu := n, bytes := (t.ecus.get n).closeMsg }, closeList := rest }
  rw [htells.claims, htells.vbs, passBuffer_next (f := f.freeClaim e o answer) hb hmine hlist]
  exact ⟨rfl, congrArg VbFlow.closeBuf hvb, congrArg VbFlow.closeList hvb⟩

end

/-- Settles O42: the hold-off by the cases of a release, the close deadline by the cases of the close buffer, the grant's
deadline by `supportCheck_claims`. -/
theorem claimAndGrantTimers : Obligations.ClaimAndGrantTimers := by
  refine ⟨⟨fun e dt s => ?holdOff, fun e dt s => ?close⟩, fun i dt s => ?grant, closeEnd_eq, claimRelease_eq,
    claimChanged_eq, releaseClaimsOf_eq, fun i dt s d => ?inFull, rfl, rfl, rfl⟩
  case holdOff =>
    have hexec := exec_holdOffExpiry e dt s
    have hclaims := advance_claims s dt
    have hvbs := advance_vbs s dt
    have hentryOf := advance_entryOf s dt
    have hentries := advance_entries s dt
    have hgrants := advance_grants s dt
    have hecus := advance_ecus s dt
    simp only [advance_active, hclaims] at hexec
    generalize s.advance dt = u at *
    intro u c ecu buf
    refine ⟨fun hactive hforce hdue hbuf => ?_, fun h => hexec.trans (if_neg (not_all h))⟩
    have hforce' : (u.flow.claims.get e).inForce = true := by rw [hclaims]; exact hforce
    have hbuf' : ∀ b, (u.flow.vbs.get (u.tab.ecus.get e).port).closeBuf = some b → b.ecu ≠ e := by
      rw [hvbs, hecus]
      exact hbuf
    refine ⟨_, hexec.trans (if_pos (and3_eq_true hactive hforce hdue)), claimRelease_hasNews hforce', rfl, hgrants,
      (claimRelease_sameQueues u.tab 0 false u.flow e .holdOff).2.trans hentries,
      fun i hi => (claimRelease_claims_other hi hforce' hbuf').trans (by rw [hclaims]), fun hentry => ?_, fun hentry => ?_⟩
    · have hwaits : (u.flow.entryOf (u.flow.claims.get e).holder e).isSome = true := by
        rw [hclaims, hentryOf]
        exact hentry
      rw [State.withFlow, claimRelease_claims_waits hforce' hwaits, closeClaim_get, hclaims]
    · have hgoes : u.flow.entryOf (u.flow.claims.get e).holder e = none := by
        rw [hclaims, hentryOf]
        exact hentry
      have hecu : u.tab.ecus.get e = ecu := by rw [hecus]
      simp only [← hecu, ← hvbs, buf]
      refine ⟨fun hmsg => ?_, fun hmsg hnone => ?_, fun hmsg hsome => ?_⟩
      · rw [State.withFlow, claimRelease_claims_empty hforce' hgoes hmsg hbuf', freeClaim_get, closeClaim_get, hclaims]
      · obtain ⟨hafter, hclose⟩ := claimRelease_sending (keep := 0) (cause := .holdOff) hforce' hgoes hmsg hnone
        refine ⟨?_, hclose⟩
        rw [State.withFlow, hafter, Flow.modClaim_get_self, closeClaim_get, hclaims]
      · obtain ⟨hafter, hlist⟩ := claimRelease_listed (keep := 0) (cause := .holdOff) hforce' hgoes hmsg hsome
        refine ⟨?_, hlist⟩
        rw [State.withFlow, hafter, Flow.modClaim_get_self, closeClaim_get, hclaims]
  case close =>
    have hexec := exec_closeDeadline e dt s
    have hclaims := advance_claims s dt
    have hvbs := advance_vbs s dt
    have hecus := advance_ecus s dt
    simp only [advance_active, hclaims] at hexec
    generalize s.advance dt = u at *
    intro u c v
    refine ⟨fun b hactive hstate hphase hdue hb hmine hlist => ?_, fun h => hexec.trans (if_neg ?_)⟩
    · have hv : (u.tab.ecus.get e).port = v := by rw [hecus]
      rw [← hecus]
      simp only [← hvbs, ← hv] at hb hlist ⊢
      have hlast := closeEnd_last hb hmine 0 .noAnswer none
      have hnext {n : EcuIx} {rest : List EcuIx} := closeEnd_next (n := n) (rest := rest) hb hmine 0 .noAnswer none
      have hphases : (c.state == .closing && c.phase == some .awaiting) = true := by rw [hstate, hphase]; rfl
      refine ⟨_, hexec.trans (if_pos (and3_eq_true hactive hphases hdue)), closeEnd_hasNews .., rfl, ?_,
        fun n rest hcons => ?_, fun hnil => (hlast hnil).2⟩
      · cases hcase : (u.flow.vbs.get (u.tab.ecus.get e).port).closeList with
        | nil => rw [State.withFlow, (hlast hcase).1, freeClaim_get, hclaims]
        | cons n rest =>
          have hne : e ≠ n := fun hen => hlist (by rw [hcase, hen]; exact List.mem_cons_self)
          rw [State.withFlow, (hnext hcase).1, Flow.modClaim_other _ hne, freeClaim_get, hclaims]
      · obtain ⟨hafter, hbuf, hrest⟩ := hnext hcons
        refine ⟨hbuf, hrest, ?_⟩
        rw [State.withFlow, hafter, Flow.modClaim_get_self]
    · simp only [Bool.and_eq_true, beq_iff_eq]
      rintro ⟨⟨hactive, hstate, hphase⟩, hdue⟩
      obtain h | h | h | h := h
      · exact Bool.eq_false_iff.mp h hactive
      · exact h hstate
      · exact h hphase
      · exact Bool.eq_false_iff.mp h hdue
  case grant =>
    have hexec := exec_grantExpiry i dt s
    have hclaims := advance_claims s dt
    simp only [advance_active, advance_grants] at hexec
    generalize s.advance dt = u at *
    intro _ g
    refine ⟨fun d hactive hstate hlife hreached => ?_, fun h => ?_⟩
    · have hdue : g.due u.tab.now = true := Grant.due_iff.mpr ⟨hstate, d, hlife, hreached⟩
      have hnews := (supportCheck_sound u.tab (Vector.putRow s.grants i g.expire) 0 none _ g).hasNews
        (grantStep_hasNews u.tab 0 u.flow i g 1)
      have hcheck (e : EcuIx) := supportCheck_claims u.tab (Vector.putRow s.grants i g.expire) 0 none
        (grantStep u.tab 0 u.flow i g 1) g e
      simp only [(grantStep_tells u.tab 0 u.flow i g 1).claims, hclaims] at hcheck
      exact ⟨_, hexec.trans (if_pos (Bool.and_eq_true_iff.mpr ⟨hactive, hdue⟩)), hnews, rfl, rfl, hcheck⟩
    · have hidle : s.tab.active = false ∨ g.due u.tab.now = false := by
        refine h.imp id fun h => Grant.due_false (h.imp id fun h => ?_)
        rw [← h]
        cases g.life <;> rfl
      exact hexec.trans (if_neg (not_both hidle))
  case inFull =>
    intro u g gs hactive hstate hlife hreached
    exact exec_grantExpiry_due hactive hstate hlife hreached

end Sys2Proof.Machine
end

section
/-! How outstanding entries end: O41. -/

namespace Sys2Proof.Machine

/-! ### The response deadline and the offer of room (R108, R110) -/

theorem advance_entry (s : State) (dt : Nat) (i : EntryIx) : (s.advance dt).flow.entries.get i = s.flow.entries.get i := by
  rw [advance_entries]

theorem exec_responseDeadline {i : EntryIx} {dt : Nat} {s : State} {x : Entry} (hx : s.flow.entries.get i = some x) :
    exec (.responseDeadline i dt) s =
      if x.due (s.advance dt).tab.now then
        .next ((s.advance dt).withFlow (settled (s.advance dt).tab (entryTimeout (s.advance dt).tab (s.advance dt).flow i x)))
      else .next (s.advance dt) := by
  rw [← advance_entry s dt] at hx
  change execResponseDeadline i dt s = _
  simp only [execResponseDeadline, hx]

theorem Entry.due_iff {now : Word} {x : Entry} : x.due now = true ↔
    (x.state = .awaiting ∨ x.state = .orphaned .awaiting) ∧ expired now x.deadline = true := by
  simp [Entry.due]

/-- The flow with one more timeout counted for an ECU (R108). -/
def Flow.countTimeout (f : Flow) (e : EcuIx) : Flow := f.countEcu e fun c => { c with timeouts := c.timeouts + 1 }

theorem entryTimeout_live {t : Tables} {f : Flow} {i : EntryIx} {x : Entry} (h : x.state.isOrphan = false) :
    entryTimeout t f i x = (f.countTimeout x.ecu, [.refuseEntry i .timeout]) := by
  simp only [entryTimeout, h, Bool.false_eq_true, if_false]
  rfl

theorem entryTimeout_orphan {t : Tables} {f : Flow} {i : EntryIx} {x : Entry} (h : x.state.isOrphan = true) :
    entryTimeout t f i x = (entryEnd t (f.countTimeout x.ecu) i, []) := by
  simp only [entryTimeout, h, if_true]
  rfl

theorem exec_deliveringOffer (s : State) : exec .deliveringOffer s =
    if s.tab.active && s.flow.roomReport then
      .next ((s.withFlow { s.flow with roomReport := false }).run (s.flow.delivering.map .deliver))
    else .next s := rfl

/-! ### The capture of a refusal (R177) -/

section
variable {t : Tables} {f : Flow} {k : Slot} {e : Option EcuIx} {c : Option ServiceClass} {code : Byte}
  {grant : Option GrantIx} {r : Reason} {declared : Option Nat}

theorem captureRefusal_noProbe (h : governing t .refusal k e c = none) :
    captureRefusal t f k e c code grant r declared = (none, f) := by
  simp only [captureRefusal, h]

variable {p : ProbeIx} (h : governing t .refusal k e c = some p) (hbinding : (t.probes.get p).binding = true)
include h hbinding

theorem captureRefusal_written
    (hroom : (captureBinding t f (refusalRecord t k e c code grant r declared (probeTerms t p))).1 = true) :
    captureRefusal t f k e c code grant r declared =
      (none, (captureBinding t f (refusalRecord t k e c code grant r declared (probeTerms t p))).2) := by
  simp only [captureRefusal, h, hbinding, if_true, hroom]

theorem captureRefusal_noRoom
    (hroom : (captureBinding t f (refusalRecord t k e c code grant r declared (probeTerms t p))).1 = false) :
    captureRefusal t f k e c code grant r declared = (some (probeTerms t p),
      (captureBinding t f (refusalRecord t k e c code grant r declared (probeTerms t p))).2) := by
  simp only [captureRefusal, h, hbinding, if_true, hroom, Bool.false_eq_true, if_false]

end

/-! ### A refusal in place of a response (R111, R112) -/

section
variable {t : Tables} {f g : Flow} {i : EntryIx} {x : Entry} {r : Reason} (hx : f.entries.get i = some x)
include hx

theorem act_refuseEntry_orphan (h : x.state.isOrphan = true) : act t (.refuseEntry i r) f = (entryEnd t f i, []) := by
  change entryRefused t f i r = _
  cases hs : x.state <;> rw [hs] at h
  case orphaned => simp only [entryRefused, hx, hs]
  all_goals cases h

theorem act_refuseEntry_live (h : x.state = .sending ∨ x.state = .awaiting ∨ x.state = .receiving) :
    act t (.refuseEntry i r) f =
      match captureRefusal t f x.slot (some x.ecu) (some x.cls) x.code (some x.grant) r none with
      | (none, g) => (entryEnd t g i, [entryItem t x (.refusal (refusalBytes t x.code r))])
      | (some terms, g) => (toDelivering g i (.refusal r terms), []) := by
  change entryRefused t f i r = _
  generalize hcap : captureRefusal t f x.slot (some x.ecu) (some x.cls) x.code (some x.grant) r none = a
  obtain ⟨_ | terms, g⟩ := a
  all_goals obtain hs | hs | hs := h
  all_goals simp only [entryRefused, hx, hs, hcap]

variable (hs : x.state = .delivering) {terms : ProbeTerms} (hheld : x.held = some (.refusal r terms))
include hs hheld

theorem act_deliver_refusal : act t (.deliver i) f =
    if (captureBinding t f (heldRefusalRecord t x r terms)).1 = true then
      (entryEnd t (captureBinding t f (heldRefusalRecord t x r terms)).2 i,
        [entryItem t x (.refusal (refusalBytes t x.code r))])
    else ((captureBinding t f (heldRefusalRecord t x r terms)).2, []) := by
  change entryDeliver t f i = _
  simp only [entryDeliver, hx, hs, hheld]

end

theorem entryEnd_free (t : Tables) (f : Flow) (i : EntryIx) : (entryEnd t f i).entries.get i = none := by
  unfold entryEnd
  split
  · assumption
  · have hfree : (Vector.putRow f.entries i none).get i = none := by rw [Vector.putRow_get, if_pos rfl]
    simp only
    split
    · rw [(closingProceeds_sameQueues ..).2]
      exact hfree
    · exact hfree

/-- Settles O41: the refusal in place of a response by the cases of its capture record. -/
theorem entriesEnd : Obligations.EntriesEnd := by
  refine ⟨fun i dt s x hx => ?deadline, fun s => ⟨fun hactive hroom => ?_, fun h => ?_⟩, fun t f i x r hx => ?refusal,
    entryEnd_free, entryEnd_eq, orphanSlot_eq, entryRefused_nonbinding⟩
  case deadline =>
    have hexec := exec_responseDeadline (dt := dt) hx
    intro u counted
    refine ⟨fun hs hdue => ?_, fun hs hdue => ?_, fun h => ?_⟩
    · have hlive : x.state.isOrphan = false := by rw [hs]; rfl
      rw [hexec, if_pos (Entry.due_iff.mpr ⟨.inl hs, hdue⟩), entryTimeout_live hlive]
      rfl
    · have horphan : x.state.isOrphan = true := by rw [hs]; rfl
      rw [hexec, if_pos (Entry.due_iff.mpr ⟨.inr hs, hdue⟩), entryTimeout_orphan horphan]
      rfl
    · rw [hexec, if_neg]
      rw [Entry.due_iff]
      rintro ⟨hs, hdue⟩
      obtain ⟨hno, hno'⟩ | h := h
      · exact hs.elim hno hno'
      · exact Bool.eq_false_iff.mp h hdue
  · rw [exec_deliveringOffer, if_pos (Bool.and_eq_true_iff.mpr ⟨hactive, hroom⟩)]
  · rw [exec_deliveringOffer, if_neg (not_both h)]
  case refusal =>
    intro probe places kept
    refine ⟨act_refuseEntry_orphan hx, fun hlive => ⟨fun hprobe => ?_, fun p hprobe hbinding => ⟨fun hroom => ?_,
      fun hroom => ?_⟩⟩, fun g hs hheld => ⟨fun hroom => ?_, fun hroom => ?_⟩⟩
    · rw [act_refuseEntry_live hx hlive, captureRefusal_noProbe hprobe]
      rfl
    · rw [act_refuseEntry_live hx hlive, captureRefusal_written hprobe hbinding hroom]
      rfl
    · rw [act_refuseEntry_live hx hlive, captureRefusal_noRoom hprobe hbinding hroom]
    · exact (act_deliver_refusal hx hs hheld).trans (if_pos hroom)
    · exact (act_deliver_refusal hx hs hheld).trans (if_neg (Bool.eq_false_iff.mp hroom))

end Sys2Proof.Machine
end

section
/-! What a decision does to the head of a slot: O40. -/

namespace Sys2Proof.Machine

theorem Flow.modSlot_congr {f : Flow} {k : Slot} {g h : SlotFlow → SlotFlow}
    (e : g (f.slots.get k) = h (f.slots.get k)) : f.modSlot k g = f.modSlot k h := by
  rw [Flow.modSlot, Flow.modSlot, Vector.modifyRow_congr _ _ e]

/-! ### The decision (R84, R90, R92) -/

section
variable {s : State} {k : Slot} {m : InMsg} {rest : List InMsg} {f : Flow}

theorem evaluate_head {d : Decision} (hm : (s.flow.slots.get k).inbound = m :: rest)
    (hd : evaluateHead s k m = (d, f)) : evaluate s k =
      match d with
      | .refuse r e c => s.withFlow (settled s.tab (headRefuse s.tab f k r e c))
      | .hold r e => s.withFlow (setHeld s.tab f k r (some e) false)
      | .admits e c g => admitHead s f k m e c g := by
  simp only [evaluate, hm, hd]
  cases d <;> rfl

theorem evaluate_holds {r : HoldReason} {e : EcuIx} (hm : (s.flow.slots.get k).inbound = m :: rest)
    (hd : evaluateHead s k m = (.hold r e, f)) :
    evaluate s k = s.withFlow (setHeld s.tab f k r (some e) false) := evaluate_head hm hd

theorem evaluate_refuses {r : Reason} {e : Option EcuIx} {c : Option ServiceClass}
    (hm : (s.flow.slots.get k).inbound = m :: rest) (hd : evaluateHead s k m = (.refuse r e c, f)) :
    evaluate s k = s.withFlow (settled s.tab (headRefuse s.tab f k r e c)) := evaluate_head hm hd

theorem evaluate_admits {e : EcuIx} {c : ServiceClass} {g : GrantIx} (hm : (s.flow.slots.get k).inbound = m :: rest)
    (hd : evaluateHead s k m = (.admits e c g, f)) : evaluate s k = admitHead s f k m e c g := evaluate_head hm hd

end

theorem holdDeadlineOf_eq (t : Tables) (k : Slot) (w : Word) : holdDeadlineOf t k w =
    if (t.testers.get k).holdLimit.count = 0 then none else some (after w (t.testers.get k).holdLimit) := by
  simp [holdDeadlineOf, Duration.isZero]

/-- A hold makes the record of a held head, or replaces its reason and ECU (R92). -/
theorem setHeld_eq (t : Tables) (f : Flow) (k : Slot) (r : HoldReason) (e : Option EcuIx) :
    setHeld t f k r e false = f.modSlot k fun x => { x with held := some (match x.held with
      | none =>
        { reason := r, ecu := e, firstHold := t.now, passed := false
          deadline := if (t.testers.get k).holdLimit.count = 0 then none
            else some (after t.now (t.testers.get k).holdLimit) }
      | some h => { h with reason := r, ecu := e }) } := by
  refine Flow.modSlot_congr ?_
  cases (f.slots.get k).held with
  | none => simp only [holdDeadlineOf_eq]
  | some h => simp only [Bool.or_false]

/-! ### A refused head (R90, R91, R117) -/

theorem placeItem_stays {t : Tables} {k : Slot} (hkind : (t.testers.get k).kind ≠ .job) (f : Flow) (b : ItemBody)
    (source : Byte) (ecu : Option EcuIx) (o : ItemOrigin) : placeItem t f k b source ecu o =
      ({ (f.modSlot k fun x => { x with items := x.items ++ [{ body := b, source, ecu, order := f.placed }] }) with
         placed := f.placed + 1 }, []) := by
  unfold placeItem
  split
  · rename_i h
    exact (hkind h).elim
  · rfl
  · rfl

theorem act_refused_stays {t : Tables} {f : Flow} {k : Slot} (r : Reason) (code target : Byte) (e : Option EcuIx)
    (hkind : (t.testers.get k).kind ≠ .job) : act t (.refused k r code target e) f = ({ f.modSlot k (fun x => { x with
      items := x.items ++ [{ body := .refusal [t.marker, code, r.byte], source := target, ecu := e, order := f.placed }]
      refused := x.refused + 1, held := none
      heldTooLong := x.heldTooLong + (if r = .heldTooLong then 1 else 0) }) with placed := f.placed + 1 },
    [.placeFreed k]) := by
  have hcount (n : Word) :
      (if r = .heldTooLong then n + 1 else n) = n + (if r = .heldTooLong then 1 else 0) := by
    split
    · rfl
    · exact (BitVec.add_zero n).symm
  change headRefused t f k r code target e = _
  rw [headRefused, placeItem_stays hkind]
  simp only [← hcount, Flow.modSlot, Vector.modifyRow_modifyRow, List.nil_append]
  rfl

/-! ### Evaluations again and the hold deadline (R94, R95) -/

section
variable {t : Tables} {f : Flow} {k : Slot} {h : Held} {m : InMsg} {rest : List InMsg}

theorem tooLong_held (hh : (f.slots.get k).held = some h) (hm : (f.slots.get k).inbound = m :: rest) :
    tooLong t f k = headRefuse t f k .heldTooLong h.ecu (some (classOf t m.msg.code)) := by
  simp only [tooLong, hh, hm]

theorem holdDue_iff {now : Word} {x : SlotFlow} :
    holdDue now x = true ↔ ∃ h, x.held = some h ∧ h.passed = false ∧ expired now h.deadline = true := by
  unfold holdDue
  cases x.held <;> simp

end

theorem exec_evaluationAgain {s : State} {k : Slot} {rest : List Slot} (hactive : s.tab.active = true)
    (hagain : s.flow.again = k :: rest) : exec .evaluationAgain s =
      match (s.flow.slots.get k).held with
      | none => .next (s.withFlow { s.flow with again := rest })
      | some h => .next (if h.passed then
          (s.withFlow { s.flow with again := rest }).withFlow (settled s.tab (tooLong s.tab { s.flow with again := rest } k))
        else evaluate (s.withFlow { s.flow with again := rest }) k) := by
  change execEvaluationAgain s = _
  simp only [execEvaluationAgain, hactive, hagain]
  rfl

theorem exec_evaluationAgain_none {s : State} (h : s.tab.active = false ∨ s.flow.again = []) :
    exec .evaluationAgain s = .next s := by
  change execEvaluationAgain s = _
  unfold execEvaluationAgain
  split
  · rename_i hactive hagain
    obtain h | h := h
    · rw [hactive] at h
      cases h
    · rw [hagain] at h
      cases h
  · rfl

theorem exec_holdDeadline (k : Slot) (dt : Nat) (s : State) : exec (.holdDeadline k dt) s =
    if (s.advance dt).tab.active && holdDue (s.advance dt).tab.now ((s.advance dt).flow.slots.get k) then
      .next ((s.advance dt).withFlow (settled (s.advance dt).tab (tooLong (s.advance dt).tab (s.advance dt).flow k)))
    else .next (s.advance dt) := by
  change execHoldDeadline k dt s = _
  rw [execHoldDeadline]

theorem classOf_advance (s : State) (dt : Nat) (code : Byte) : classOf (s.advance dt).tab code = classOf s.tab code := by
  rw [State.advance, classOf, classOf]

/-- Settles O40: a held head by `setHeld_eq`, a refused one by `headRefuse_eq`. -/
theorem headsRefusedAndHeld : Obligations.HeadsRefusedAndHeld := by
  refine ⟨⟨fun s k m rest r e f hm hd => ?_, fun s k m rest r e c f hm hd => ?_, fun s k => exec_visit_takes,
    headRefuse_eq, act_refused_job, fun t f k r code target e => act_refused_stays r code target e⟩,
    ⟨fun s k rest hactive hagain => ?_, fun s => exec_evaluationAgain_none, fun k dt s => ?deadline⟩,
    Flow.markHeads_eq, rfl⟩
  · intro limit first
    exact (evaluate_holds hm hd).trans (congrArg s.withFlow (setHeld_eq ..))
  · intro a
    rw [evaluate_refuses hm hd]
    rfl
  · have hexec := exec_evaluationAgain hactive hagain
    intro u
    refine ⟨fun hnone => ?_, fun h hheld => ⟨fun hpassed => ?_, fun m ms hpassed hm => ?_⟩⟩
    · rw [hexec, hnone]
    · rw [hexec, hheld]
      simp only [hpassed, Bool.false_eq_true, if_false]
      rfl
    · intro a
      have hlong : tooLong s.tab u.flow k = a := tooLong_held hheld hm
      rw [hexec, hheld]
      simp only [hpassed, if_true]
      rw [← hlong]
      rfl
  case deadline =>
    have hexec := exec_holdDeadline k dt s
    have hslots := advance_slots s dt
    have hclass := classOf_advance s dt
    rw [advance_active] at hexec
    generalize s.advance dt = u at *
    intro _
    refine ⟨fun h m ms hactive hheld hpassed hdue hm => ?_, fun h => hexec.trans (if_neg ?_)⟩
    · rw [← hslots] at hheld hm
      rw [← hclass]
      have hlong := tooLong_held (t := u.tab) hheld hm
      have hgo : (s.tab.active && holdDue u.tab.now (u.flow.slots.get k)) = true :=
        Bool.and_eq_true_iff.mpr ⟨hactive, holdDue_iff.mpr ⟨h, hheld, hpassed, hdue⟩⟩
      rw [hexec, if_pos hgo, hlong]
      rfl
    · rw [hslots, Bool.and_eq_true, holdDue_iff]
      rintro ⟨hactive, held, hheld, hpassed, hdue⟩
      obtain h | h := h
      · exact Bool.eq_false_iff.mp h hactive
      · obtain h | h := h held hheld
        · exact Bool.eq_false_iff.mp hpassed h
        · exact Bool.eq_false_iff.mp h hdue

end Sys2Proof.Machine
end

section
/-! SUPPORT. What an admission does before it forwards and what it leaves of the traffic (R88, R97, R124, R178). -/

namespace Sys2Proof.Machine

/-! ### The changes before the new entry leave the queues, the counters and the jobs (R97, items 1 to 4) -/

/-- The slots, counters, jobs, ports, outbound queues and the relay channel are as they were. -/
structure Flow.Carries (f g : Flow) : Prop where
  slots : g.slots = f.slots
  visitPos : g.visitPos = f.visitPos
  ecuCounts : g.ecuCounts = f.ecuCounts
  jobs : g.jobs = f.jobs
  ports : g.ports = f.ports
  relayIn : g.relayIn = f.relayIn
  outbound : ∀ v, (g.vbs.get v).outbound = (f.vbs.get v).outbound

namespace Flow.Carries

theorem refl (f : Flow) : f.Carries f := ⟨rfl, rfl, rfl, rfl, rfl, rfl, fun _ => rfl⟩

theorem trans {f g h : Flow} (a : f.Carries g) (b : g.Carries h) : f.Carries h where
  slots := b.slots.trans a.slots
  visitPos := b.visitPos.trans a.visitPos
  ecuCounts := b.ecuCounts.trans a.ecuCounts
  jobs := b.jobs.trans a.jobs
  ports := b.ports.trans a.ports
  relayIn := b.relayIn.trans a.relayIn
  outbound := fun v => (b.outbound v).trans (a.outbound v)

theorem after {f g h : Flow} (b : g.Carries h) (a : f.Carries g) : f.Carries h := a.trans b

theorem of_tells {f g : Flow} (h : f.Tells g) : f.Carries g := by
  obtain ⟨_, _, _, _, _, rfl⟩ := h
  exact ⟨rfl, rfl, rfl, rfl, rfl, rfl, fun _ => rfl⟩

theorem modClaim (f : Flow) (e : EcuIx) (u : Claim → Claim) : f.Carries (f.modClaim e u) :=
  ⟨rfl, rfl, rfl, rfl, rfl, rfl, fun _ => rfl⟩

theorem modVb (f : Flow) (v : VbIx) {u : VbFlow → VbFlow} (h : ∀ x, (u x).outbound = x.outbound) :
    f.Carries (f.modVb v u) :=
  ⟨rfl, rfl, rfl, rfl, rfl, rfl, fun w => (Flow.Keeps.modVb f v u h).vbs w⟩

theorem foldl {α : Type} (u : Flow → α → Flow) (h : ∀ (f : Flow) x, f.Carries (u f x)) (xs : List α) (f : Flow) :
    f.Carries (xs.foldl u f) := by
  induction xs generalizing f with
  | nil => exact refl f
  | cons x xs ih => exact (h f x).trans (ih _)

end Flow.Carries

theorem enterBuffer_carries (t : Tables) (f : Flow) (e : EcuIx) : f.Carries (enterBuffer t f e) := by
  unfold enterBuffer
  simp only
  split <;> exact (Flow.Carries.modClaim ..).after (.modVb _ _ fun _ => rfl)

theorem passBuffer_carries (t : Tables) (f : Flow) (e : EcuIx) : f.Carries (passBuffer t f e) := by
  unfold passBuffer
  simp only
  split
  · exact .refl f
  · split
    · split
      · exact .modVb _ _ fun _ => rfl
      · exact (Flow.Carries.modClaim ..).after (.modVb _ _ fun _ => rfl)
    · exact .refl f

theorem closeEnd_carries (t : Tables) (keep : Nat) (f : Flow) (e : EcuIx) (o : CloseOutcome) (answer : Option Byte) :
    f.Carries (closeEnd t keep f e o answer) :=
  ((Flow.Carries.modClaim ..).trans (passBuffer_carries ..)).trans (.of_tells (closeEnd_tells ..))

theorem claimRelease_carries (t : Tables) (keep : Nat) (entering : Bool) (f : Flow) (e : EcuIx) (cause : ReleaseCause) :
    f.Carries (claimRelease t keep entering f e cause) := by
  have htold : f.Carries (releaseTold t keep f e cause) := (Flow.Carries.modClaim ..).trans (.of_tells releaseTold_tells)
  unfold claimRelease
  simp only
  split
  · split
    · exact htold
    · unfold closingProceeds
      split
      · exact htold.trans (closeEnd_carries ..)
      · exact htold.trans (enterBuffer_carries ..)
  · exact .refl f

theorem supportCheck_carries (t : Tables) (gs : Vector Grant 64) (keep : Nat) (entering : Option EcuIx) (f : Flow)
    (old : Grant) : f.Carries (supportCheck t gs keep entering f old) := by
  refine .foldl _ (fun f e => ?_) _ _
  simp only
  split
  · exact claimRelease_carries ..
  · exact .refl f

theorem refreshClaim_carries (t : Tables) (f : Flow) (k : Slot) (e : EcuIx) : f.Carries (refreshClaim t f k e) := by
  unfold refreshClaim
  simp only
  split
  · exact .modClaim ..
  · exact .refl f

theorem claimAdmit_carries (t : Tables) (keep : Nat) (f : Flow) (k : Slot) (e : EcuIx) (c : ServiceClass) (g : Grant) :
    f.Carries (claimAdmit t keep f k e c g) := by
  unfold claimAdmit
  simp only
  split
  · exact (Flow.Carries.modClaim ..).trans (.of_tells (claimChanged_tells ..))
  · split
    · exact (Flow.Carries.modClaim ..).trans (.of_tells (claimChanged_tells ..))
    · exact refreshClaim_carries ..
  · exact refreshClaim_carries ..

/-- A sample counts candidates and samples, and leaves the rest (R178). -/
theorem sample_eq_counts (t : Tables) (f : Flow) (fresh : Nat) (c : ServiceClass) :
    ∃ candidates samples, (sample t f fresh c).2.1 = { f with candidates, samples } := by
  unfold sample
  split
  · simp only
    split <;> exact ⟨_, _, rfl⟩
  · exact ⟨_, _, rfl⟩

theorem sample_carries (t : Tables) (f : Flow) (fresh : Nat) (c : ServiceClass) :
    f.Carries (sample t f fresh c).2.1 := by
  obtain ⟨_, _, h⟩ := sample_eq_counts t f fresh c
  rw [h]
  exact ⟨rfl, rfl, rfl, rfl, rfl, rfl, fun _ => rfl⟩

theorem captureRequest_captures (t : Tables) (f : Flow) (k : Slot) (e : EcuIx) (c : ServiceClass) (m : Message)
    (g : GrantIx) (st : Option (Word × Word)) : f.Captures (captureRequest t f k e c m g st) := by
  unfold captureRequest
  simp only
  split
  · exact captureWrite_captures ..
  · split
    · exact captureOffer_captures ..
    · exact .refl f

theorem admitBefore_carries (s : State) (f : Flow) (k : Slot) (m : InMsg) (e : EcuIx) (c : ServiceClass) (g : GrantIx) :
    f.Carries (admitBefore s f k m e c g).flow := by
  unfold admitBefore
  simp only
  refine .trans ?_ ((sample_carries ..).trans (.of_tells (.of_captures (captureRequest_captures ..))))
  split
  · exact ((Flow.Carries.of_tells (grantStep_tells ..)).trans (claimAdmit_carries ..)).trans (supportCheck_carries ..)
  · exact claimAdmit_carries ..

/-! ### The head that is admitted (R84 to R88) -/

/-- Forwarding finds its resources where an entry is free, and at most looks for room for its record. -/
theorem resourceCheck_finds {t : Tables} {f g : Flow} {k : Slot} {e : EcuIx} {c : ServiceClass} {m : Message} {i : GrantIx}
    (h : resourceCheck t f k e c m i = (none, g)) : f.freeEntry.isSome = true ∧ f.Captures g := by
  have hroom : f.Captures (requestRoom t f k e c m i).2 := by
    unfold requestRoom
    split
    · exact captureRoom_captures ..
    · exact .refl f
  by_cases hp : (f.entryOf k e).isSome = true
  · rw [resourceCheck_pair hp] at h
    cases h
  · by_cases hfull : f.freeEntry.isNone = true ∨ (t.testers.get k).limit ≤ f.liveEntries k
    · rw [resourceCheck_outstanding hp hfull] at h
      cases h
    · rw [resourceCheck_after_table hp hfull] at h
      have hg : (requestRoom t f k e c m i).2 = g := congrArg Prod.snd h
      obtain ⟨hfree, -⟩ := not_or.mp hfull
      exact ⟨by simpa [Option.isSome_iff_ne_none] using hfree, hg ▸ hroom⟩

theorem holdOr_ne_admits {t : Tables} {k : Slot} {r : HoldReason} {e e' : EcuIx} {c c' : ServiceClass} {i : GrantIx} :
    holdOr t k r e c ≠ .admits e' c' i := by
  unfold holdOr
  split <;> exact Decision.noConfusion

/-- A head that is admitted has passed the resource check, the last one (R84). -/
theorem evaluateHead_admits_resources {s : State} {k : Slot} {m : InMsg} {e : EcuIx} {c : ServiceClass} {i : GrantIx}
    {f : Flow} (h : evaluateHead s k m = (.admits e c i, f)) : resourceCheck s.tab s.flow k e c m.msg i = (none, f) := by
  have no {d : Decision} {g : Flow} (hd : d ≠ .admits e c i) (heq : (d, g) = (Decision.admits e c i, f)) : False :=
    hd (congrArg Prod.fst heq)
  unfold evaluateHead at h
  simp only at h
  split at h
  · cases h
  · split at h
    · cases h
    · split at h
      · cases h
      · split at h
        · cases h
        · split at h
          · refine (no ?_ h).elim
            split
            · exact Decision.noConfusion
            · exact holdOr_ne_admits
          · split at h
            · exact (no holdOr_ne_admits h).elim
            · split at h
              · cases h
              · rename_i hres
                cases h
                exact Prod.ext hres rfl

/-! ### The new entry (R97, items 5 to 8) -/

section
variable (t : Tables) (f : Flow) (k : Slot) (i : EntryIx) (e : EcuIx) (c : ServiceClass) (g : GrantIx) (m : InMsg)

/-- The jobs with the request of an admitted head FORWARDED (R165). -/
theorem jobForward_eq (f : Flow) (k : Slot) (e : EcuIx) :
    ∃ jobs, jobForward f k e = { f with jobs } ∧ ∀ j, (jobs.get j).state = (f.jobs.get j).state := by
  unfold jobForward
  split
  · exact ⟨_, rfl, fun _ => rfl⟩
  · rename_i j _
    refine ⟨_, rfl, fun i => ?_⟩
    change ((f.modJob j _).jobs.get i).state = _
    rw [Flow.modJob_get]
    split
    · rename_i hi
      rw [hi]
    · rfl

theorem forward_frame : ∃ jobs, (∀ j, (jobs.get j).state = (f.jobs.get j).state) ∧
    forward t f k i e c g m = ((({ f with entries := Vector.putRow f.entries i (some (newEntry t k e c g m)), jobs } :
      Flow).modSlot k fun y => { y with inbound := y.inbound.drop 1, held := none, admitted := y.admitted + 1 }).modVb
        (t.ecus.get e).port fun y => { y with outbound := y.outbound ++
          [{ msg := m.msg, source := (t.testers.get k).vsAddr, target := (t.ecus.get e).node, entry := i }] }).countEcu e
            fun y => { y with forwarded := y.forwarded + 1 } := by
  obtain ⟨jobs, hjobs, hstate⟩ :=
    jobForward_eq { f with entries := Vector.putRow f.entries i (some (newEntry t k e c g m)) } k e
  refine ⟨jobs, hstate, ?_⟩
  unfold forward
  simp only
  unfold newEntry at hjobs
  rw [hjobs]
  rfl

theorem forward_outbound (v : VbIx) : ((forward t f k i e c g m).vbs.get v).outbound =
    if v = (t.ecus.get e).port then (f.vbs.get v).outbound ++
      [{ msg := m.msg, source := (t.testers.get k).vsAddr, target := (t.ecus.get e).node, entry := i }]
    else (f.vbs.get v).outbound := by
  obtain ⟨jobs, -, h⟩ := forward_frame t f k i e c g m
  rw [h]
  change VbFlow.outbound ((Vector.modifyRow f.vbs _ _).get v) = _
  rw [Vector.modifyRow_get]
  split
  · rename_i hv
    rw [hv]
  · rfl

theorem forward_counts (j : EcuIx) : ((forward t f k i e c g m).ecuCounts.get j).forwarded =
    (f.ecuCounts.get j).forwarded + if j = e then 1 else 0 := by
  obtain ⟨jobs, -, h⟩ := forward_frame t f k i e c g m
  rw [h]
  change EcuCounts.forwarded ((Vector.modifyRow f.ecuCounts _ _).get j) = _
  rw [Vector.modifyRow_get]
  split
  · rename_i hj
    rw [hj]
  · exact (BitVec.add_zero _).symm

theorem forward_visitPos : (forward t f k i e c g m).visitPos = f.visitPos := by
  obtain ⟨jobs, -, h⟩ := forward_frame t f k i e c g m
  rw [h]
  rfl

theorem forward_relayIn : (forward t f k i e c g m).relayIn = f.relayIn := by
  obtain ⟨jobs, -, h⟩ := forward_frame t f k i e c g m
  rw [h]
  rfl

theorem forward_jobs (j : JobIx) : ((forward t f k i e c g m).jobs.get j).state = (f.jobs.get j).state := by
  obtain ⟨jobs, hstate, h⟩ := forward_frame t f k i e c g m
  rw [h]
  exact hstate j

end

end Sys2Proof.Machine
end

section
/-! An admitted head: O39. -/

namespace Sys2Proof.Machine

/-! ### The visit that admits (R82, R97) -/

theorem Flow.freeEntry_first {f : Flow} {i : EntryIx} (h : f.freeEntry = some i) :
    f.entries.get i = none ∧ ∀ j < i, (f.entries.get j).isSome = true := by
  rw [Flow.freeEntry, List.find?_finRange_eq_some] at h
  obtain ⟨hi, hlow⟩ := h
  exact ⟨Option.isNone_iff_eq_none.mp hi, fun j hj => Option.isNone_eq_false_iff.mp (Bool.eq_false_iff.mpr (hlow j hj))⟩

theorem Grant.charged_eq (now : Word) (x : Grant) : x.charged now =
    match x.left with
    | none => x
    | some n =>
      if n ≤ 1 then { x with left := some 0, state := .spent, life := x.life.freeze now } else { x with left := some (n - 1) } := by
  unfold Grant.charged
  cases x.left with
  | none => rfl
  | some n => simp only [Nat.sub_eq_zero_iff_le]

theorem visitSlot_get (f : Flow) (k j : Slot) : (visitSlot f k).slots.get j =
    if j = k then { f.slots.get k with allowance := (f.slots.get k).allowance - 1 } else f.slots.get j :=
  Flow.modSlot_get ..

/-- A visit that admits, as the statements on it suppose it. -/
structure Admits (s : State) (k : Slot) (m : InMsg) (rest : List InMsg) (e : EcuIx) (c : ServiceClass) (g : GrantIx)
    (f : Flow) : Prop where
  active : s.tab.active = true
  visit : nextVisit s.tab s.flow = some k
  head : (s.flow.slots.get k).inbound = m :: rest
  decided : evaluateHead (s.withFlow (visitSlot s.flow k)) k m = (.admits e c g, f)

section
variable {s : State} {k : Slot} {m : InMsg} {rest : List InMsg} {e : EcuIx} {c : ServiceClass} {g : GrantIx} {f : Flow}
variable (h : Admits s k m rest e c g f)
include h

theorem Admits.captures : (visitSlot s.flow k).Captures f :=
  (resourceCheck_finds (evaluateHead_admits_resources h.decided)).2

theorem Admits.carries : (visitSlot s.flow k).Carries (admitBefore (s.withFlow (visitSlot s.flow k)) f k m e c g).flow :=
  (Flow.Carries.of_tells (.of_captures h.captures)).trans (admitBefore_carries ..)

/-- The visit forwards the head with the lowest-numbered free entry. -/
theorem Admits.exec : ∃ i, s.flow.entries.get i = none ∧ (∀ j < i, (s.flow.entries.get j).isSome = true) ∧
    exec .visit s = .next (((admitBefore (s.withFlow (visitSlot s.flow k)) f k m e c g).withFlow
      (forward s.tab (admitBefore (s.withFlow (visitSlot s.flow k)) f k m e c g).flow k i e c g m)).run [.placeFreed k]) := by
  obtain ⟨hfree, hcaptures⟩ := resourceCheck_finds (evaluateHead_admits_resources h.decided)
  have hentries : f.freeEntry = s.flow.freeEntry := by
    obtain ⟨_, _, _, rfl⟩ := hcaptures
    rfl
  obtain ⟨i, hi⟩ := Option.isSome_iff_exists.mp (show s.flow.freeEntry.isSome = true from hfree)
  have hhead : ((s.withFlow (visitSlot s.flow k)).flow.slots.get k).inbound = m :: rest := by
    change ((visitSlot s.flow k).slots.get k).inbound = m :: rest
    rw [visitSlot_get, if_pos rfl]
    exact h.head
  obtain ⟨hnone, hlow⟩ := Flow.freeEntry_first hi
  refine ⟨i, hnone, hlow, ?_⟩
  rw [exec_visit_takes h.active h.visit, evaluate_admits hhead h.decided]
  simp only [admitHead, hentries, hi]
  rfl

/-- The grant that is charged is ACTIVE (R45). -/
theorem Admits.grant_active : (s.grants.get g).state = .active := by
  obtain ⟨hgrant, -⟩ := evaluateHead_admits (congrArg Prod.fst h.decided)
  exact ((Grant.eligible_iff ..).mp hgrant).1

end

/-! ### An admission that nobody waits for (R124) -/

section
variable {t : Tables} {f : Flow} {k : Slot}

/-- With nobody waiting for the place that a message leaves, it stays free (R80). -/
theorem act_placeFreed_nobody (hplace : (f.slots.get k).placeWait = []) (hstop : f.relayIn.stop = none)
    (hjobs : ∀ j, (f.jobs.get j).state = .idle) : act t (.placeFreed k) f = (f, []) := by
  cases hfree : f.inboundFree k with
  | false => exact act_placeFreed_full t hfree
  | true =>
    obtain ⟨-, hothers⟩ := act_placeFreed_others t hfree hplace
    obtain ⟨-, hnobody⟩ := hothers (by rw [hstop]; exact fun h => nomatch h)
    exact hnobody fun j _ => by rw [hjobs j]; exact fun h => nomatch h

end

/-! ### Items 1 to 4 of an admission, in order (R88, R97) -/

theorem requestRecord_eq (t : Tables) (k : Slot) (e : EcuIx) (c : ServiceClass) (m : Message) (g : GrantIx)
    (stamp : Option (Word × Word)) : requestRecord t k e c m g stamp =
      { event := false, source := 0, slot := ixByte k, subject := some (ixByte e), cls := some c.byte
        code := m.code, grant := some (ixByte g), outcome := none, reason := none
        probe := (governing t .request k (some e) (some c)).map ixByte, stamp, length := m.length
        content := match governing t .request k (some e) (some c) with
          | none => []
          | some p => m.payload.take (min (t.probes.get p).limit t.contentCap) } := by
  cases hp : governing t .request k (some e) (some c) <;> simp only [requestRecord, messageRecord, hp] <;> rfl

section
variable (s : State) (f : Flow) (k : Slot) (m : InMsg) (e : EcuIx) (c : ServiceClass) (g : GrantIx)

/-- The claims as an admission leaves them (R54, R124). -/
def admittedClaims : Flow :=
  if ((s.grants.get g).charged s.tab.now).state = .spent then
    supportCheck s.tab (Vector.putRow s.grants g ((s.grants.get g).charged s.tab.now)) (keepRoom s.tab k e c m.msg g) (some e)
      (claimAdmit s.tab (keepRoom s.tab k e c m.msg g)
        (grantStep s.tab (keepRoom s.tab k e c m.msg g) f g (s.grants.get g) 0) k e c (s.grants.get g)) (s.grants.get g)
  else claimAdmit s.tab (keepRoom s.tab k e c m.msg g) f k e c (s.grants.get g)

theorem admitBefore_eq : admitBefore s f k m e c g =
    let a := sample s.tab (admittedClaims s f k m e c g) s.fresh c
    { s with
      grants := Vector.putRow s.grants g ((s.grants.get g).charged s.tab.now), fresh := a.2.2
      flow := captureRequest s.tab a.2.1 k e c m.msg g a.1 } := by
  unfold admitBefore admittedClaims
  by_cases hspent : ((s.grants.get g).charged s.tab.now).state = .spent
  · simp only [hspent, beq_self_eq_true, if_true]
  · simp only [beq_iff_eq, if_neg hspent]

theorem admitBefore_claims : (admitBefore s f k m e c g).flow.claims = (admittedClaims s f k m e c g).claims := by
  rw [admitBefore_eq]
  obtain ⟨_, _, hsample⟩ := sample_eq_counts s.tab (admittedClaims s f k m e c g) s.fresh c
  obtain ⟨_, _, _, hcapture⟩ := captureRequest_captures s.tab
    (sample s.tab (admittedClaims s f k m e c g) s.fresh c).2.1 k e c m.msg g
    (sample s.tab (admittedClaims s f k m e c g) s.fresh c).1
  simp only
  rw [hcapture, hsample]

theorem admitBefore_hasNews {n : News} (h : (admittedClaims s f k m e c g).hasNews n = true) :
    (admitBefore s f k m e c g).flow.hasNews n = true := by
  rw [admitBefore_eq]
  exact ((sample_light ..).trans (captureRequest_light ..)).sound.hasNews h

end

theorem keepRoom_eq (t : Tables) (k : Slot) (e : EcuIx) (c : ServiceClass) (m : Message) (g : GrantIx) :
    keepRoom t k e c m g = match governing t .request k (some e) (some c) with
      | none => 0
      | some p => if (t.probes.get p).binding then
          32 + round4 (m.payload.take (min (t.probes.get p).limit t.contentCap)).length else 0 := by
  unfold keepRoom requestBinding
  rw [requestRecord_eq]
  cases governing t .request k (some e) (some c) <;> rfl

theorem captureRequest_eq (t : Tables) (f : Flow) (k : Slot) (e : EcuIx) (c : ServiceClass) (m : Message) (g : GrantIx)
    (stamp : Option (Word × Word)) : captureRequest t f k e c m g stamp =
      match governing t .request k (some e) (some c) with
      | some p => if (t.probes.get p).binding then captureWrite t f (requestRecord t k e c m g stamp)
        else captureOffer t f (requestRecord t k e c m g stamp)
      | none => if stamp.isSome then captureOffer t f (requestRecord t k e c m g stamp) else f := by
  have hprobe : (requestRecord t k e c m g stamp).probe =
      (governing t .request k (some e) (some c)).map ixByte := by rw [requestRecord_eq]
  unfold captureRequest requestBinding
  simp only [hprobe]
  cases governing t .request k (some e) (some c) <;> rfl

end Sys2Proof.Machine
end

section
/-! An admitted head: O39. -/

namespace Sys2Proof.Machine

section
variable {s : State} {k : Slot} {m : InMsg} {rest : List InMsg} {e : EcuIx} {c : ServiceClass} {g : GrantIx} {f : Flow}
variable (h : Admits s k m rest e c g f)
include h

/-- The flow of an admission once the head is forwarded with an entry. -/
theorem Admits.slots (i : EntryIx) (j : Slot) :
    (forward s.tab (admitBefore (s.withFlow (visitSlot s.flow k)) f k m e c g).flow k i e c g m).slots.get j =
      if j = k then { s.flow.slots.get k with
        allowance := (s.flow.slots.get k).allowance - 1, inbound := rest, held := none
        admitted := (s.flow.slots.get k).admitted + 1 }
      else s.flow.slots.get j := by
  rw [forward_slots, h.carries.slots, visitSlot_get, visitSlot_get, if_pos rfl]
  split
  · simp only [h.head, List.drop_succ_cons, List.drop_zero]
  · rfl

theorem Admits.entries : (admitBefore (s.withFlow (visitSlot s.flow k)) f k m e c g).flow.entries = s.flow.entries := by
  rw [(State.admitBefore_queues ..).2]
  obtain ⟨_, _, _, hf⟩ := h.captures
  rw [hf]
  rfl

/-- A HEAVY request takes a FREE claim of its ECU (R124). -/
theorem Admits.takesClaim {l : ClaimLevel} (hbudget : (s.grants.get g).left = none) (hl : c.level = some l)
    (hfree : (s.flow.claims.get e).state = .free) :
    (admitBefore (s.withFlow (visitSlot s.flow k)) f k m e c g).flow.claims = Vector.putRow s.flow.claims e
        { s.flow.claims.get e with
          state := .held, holder := k, level := l, guard := (s.grants.get g).conds
          holdOff := some (after s.tab.now (s.tab.ecus.get e).holdOff), cause := none, phase := none
          closeDeadline := none }
      ∧ (admitBefore (s.withFlow (visitSlot s.flow k)) f k m e c g).flow.hasNews .claim = true := by
  have hclaims : f.claims = s.flow.claims := by
    obtain ⟨_, _, _, rfl⟩ := h.captures
    rfl
  have hsame : (s.grants.get g).charged s.tab.now = s.grants.get g := by simp only [Grant.charged, hbudget]
  have hspent : ((s.grants.get g).charged s.tab.now).state ≠ .spent := by
    rw [hsame, h.grant_active]
    exact fun h => nomatch h
  obtain ⟨htakes, -⟩ := claimAdmit_eq s.tab (keepRoom s.tab k e c m.msg g) f k e c (s.grants.get g)
  have hadmitted : admittedClaims (s.withFlow (visitSlot s.flow k)) f k m e c g =
      claimAdmit s.tab (keepRoom s.tab k e c m.msg g) f k e c (s.grants.get g) := if_neg hspent
  rw [htakes l (by rw [hclaims]; exact hfree) hl] at hadmitted
  refine ⟨?_, admitBefore_hasNews _ _ _ _ _ _ _ ?_⟩
  · rw [admitBefore_claims, hadmitted, (claimChanged_tells ..).claims, Flow.modClaim, hclaims]
    rfl
  · rw [hadmitted]
    exact claimChanged_hasNews ..

end

theorem admitBefore_frame (s : State) (f : Flow) (k : Slot) (m : InMsg) (e : EcuIx) (c : ServiceClass) (g : GrantIx) :
    let v := admitBefore s f k m e c g
    v.tab = s.tab ∧ v.grants = Vector.putRow s.grants g ((s.grants.get g).charged s.tab.now) ∧ v.rot = s.rot
      ∧ v.mask = s.mask ∧ v.pending = s.pending ∧ v.enable = s.enable := ⟨rfl, rfl, rfl, rfl, rfl, rfl⟩

/-- Settles O39: what the visit leaves by `Flow.Carries` and `forward`'s own equations, the claim by `claimAdmit_eq`. -/
theorem admissionForwards : Obligations.AdmissionForwards := by
  refine ⟨fun s k m rest e c g f hactive hvisit hhead hdecided => ?frame,
    fun s k m rest e c g f l hactive hvisit hhead hdecided hbudget hl hfree hplace hstop hjobs => ?takes,
    fun s k m rest e c g f hactive hvisit hhead hdecided => (Admits.mk hactive hvisit hhead hdecided).exec,
    fun s f k m e c g => ?before, claimAdmit_eq, supportCheck_eq⟩
  case frame =>
    have h : Admits s k m rest e c g f := ⟨hactive, hvisit, hhead, hdecided⟩
    obtain ⟨i, hi, hlow, hexec⟩ := h.exec
    have hcarries := h.carries
    have hslots := h.slots i
    obtain ⟨htab, hgrants, hrot, hmask, hpending, henable⟩ :=
      admitBefore_frame (s.withFlow (visitSlot s.flow k)) f k m e c g
    generalize admitBefore (s.withFlow (visitSlot s.flow k)) f k m e c g = v at *
    have hkeeps := settle_keeps v.tab [.placeFreed k] (forward s.tab v.flow k i e c g m)
    rw [State.run] at hexec
    change exec .visit s = .next (v.withFlow (settle v.tab [.placeFreed k] (forward s.tab v.flow k i e c g m))) at hexec
    generalize settle v.tab [.placeFreed k] (forward s.tab v.flow k i e c g m) = w at *
    refine ⟨_, i, hexec, hi, hlow, fun v => (hkeeps.vbs v).trans ?_, fun j => ⟨(hkeeps.slots j).2.1.trans ?_,
      (hkeeps.slots j).1.trans ?_⟩, fun j => (hkeeps.ecuCounts j).1.trans ?_, hkeeps.visitPos.trans ?_, fun j => ?_,
      htab, hrot, hmask, hpending, henable⟩
    · rw [forward_outbound, hcarries.outbound]
      rfl
    · rw [hslots]
      split
      · rename_i hj
        rw [hj]
      · exact (BitVec.add_zero _).symm
    · rw [hslots]
      split
      · rename_i hj
        rw [hj]
      · rfl
    · rw [forward_counts, hcarries.ecuCounts]
      rfl
    · rw [forward_visitPos, hcarries.visitPos]
      rfl
    · change v.grants.get j = _
      rw [hgrants]
      change (Vector.putRow s.grants g _).get j = _
      rw [Vector.putRow_get, Grant.charged_eq]
      split
      · rename_i hj
        rw [hj]
        rfl
      · rfl
  case takes =>
    have h : Admits s k m rest e c g f := ⟨hactive, hvisit, hhead, hdecided⟩
    obtain ⟨i, hi, -, hexec⟩ := h.exec
    obtain ⟨hclaims, hnews⟩ := h.takesClaim hbudget hl hfree
    have hcarries := h.carries
    have hentries := h.entries
    have hslots := h.slots i k
    rw [if_pos rfl] at hslots
    generalize hv : admitBefore (s.withFlow (visitSlot s.flow k)) f k m e c g = v at *
    have hnobody : act s.tab (.placeFreed k) (forward s.tab v.flow k i e c g m) = (forward s.tab v.flow k i e c g m, []) := by
      refine act_placeFreed_nobody ?_ ?_ fun j => ?_
      · rw [hslots]
        exact hplace
      · rw [forward_relayIn, hcarries.relayIn]
        exact hstop
      · rw [forward_jobs, hcarries.jobs]
        exact hjobs j
    have htab : v.tab = s.tab := by
      rw [← hv]
      rfl
    have hrun : (v.withFlow (forward s.tab v.flow k i e c g m)).run [.placeFreed k] =
        (v.withFlow (forward s.tab v.flow k i e c g m)).withFlow (forward s.tab v.flow k i e c g m) := by
      refine run_one ?_
      change act v.tab _ _ = _
      rw [htab]
      exact hnobody
    rw [hrun] at hexec
    refine ⟨_, i, hexec, ?_, ?_, hi, ?_, ?_, ?_⟩
    · rw [← hclaims]
      exact forward_claims ..
    · change (forward s.tab v.flow k i e c g m).news &&& _ != 0
      rw [forward_news]
      exact hnews
    · change (forward s.tab v.flow k i e c g m).entries = _
      rw [forward_entries, hentries]
      rfl
    · exact congrArg SlotFlow.inbound hslots
    · exact congrArg SlotFlow.held hslots
  case before =>
    intro t old new gs probe content keep claimed a record captured
    have hkeep : keepRoom t k e c m.msg g = keep := by
      rw [keepRoom_eq]
      simp only [keep, content, probe]
      cases governing t .request k (some e) (some c) <;> rfl
    have hclaimed : admittedClaims s f k m e c g = claimed := by
      simp only [admittedClaims, claimed, ← hkeep]
      rfl
    have hrecord : requestRecord t k e c m.msg g a.1 = record := requestRecord_eq ..
    rw [admitBefore_eq, hclaimed]
    have hcaptured : captureRequest t a.2.1 k e c m.msg g a.1 = captured := by
      rw [captureRequest_eq, hrecord] <;> rfl
    rw [← hcaptured]

end Sys2Proof.Machine
end

section
/-! The grant orders: O49. -/

namespace Sys2Proof.Machine

/-- A duration of no length is one whose count is 0 (R208). -/
theorem Duration.isZero_iff {d : Duration} : d.isZero = true ↔ d.count = 0 := by simp [Duration.isZero]

/-- The lifetime that a grant begins with (R46). -/
theorem Grant.freshLife_eq (g : Grant) (now : Word) :
    g.freshLife now = if g.lifetime.count = 0 then .unlimited else .running (after now g.lifetime) := by
  simp [Grant.freshLife, Duration.isZero]

theorem Grant.renewed_eq {g : Grant} (h : g.state ≠ .free) (now : Word) : g.renewed now = { g with
    left := if g.budget = 0 then none else some g.budget
    life := if g.lifetime.count = 0 then .unlimited else .running (after now g.lifetime)
    state := if g.state = .suspended then .suspended else .active } := by
  have hstate : (match g.state with
      | .spent | .expired => GrantState.active
      | x => x) = if g.state = .suspended then .suspended else .active := by
    cases hs : g.state
    case free => exact (h hs).elim
    all_goals rfl
  rw [← Grant.freshLife_eq, ← hstate]
  rfl

section
variable {u : State} {n : Nat} {ps : List Byte}

/-! ### INSTALL_GRANT (R49) -/

theorem orderInstallGrant_badParam (h : asIx 64 (byteAt ps 0).toNat = none ∨ getGrant (ps.drop 1) = none) :
    orderInstallGrant u n ps = u.done n .badParam := by
  simp only [orderInstallGrant]
  split
  · rename_i hi hg
    obtain h | h := h
    · rw [hi] at h
      cases h
    · rw [hg] at h
      cases h
  · rfl

/-! ### Orders that name no grant (R50 to R53) -/

section
variable (hi : asIx 64 (byteAt ps 0).toNat = none)
include hi

theorem orderRevokeGrant_badParam : orderRevokeGrant u n ps = u.done n .badParam := by simp only [orderRevokeGrant, hi]

theorem orderSuspendGrant_badParam : orderSuspendGrant u n ps = u.done n .badParam := by
  simp only [orderSuspendGrant, hi]

theorem orderResumeGrant_badParam : orderResumeGrant u n ps = u.done n .badParam := by simp only [orderResumeGrant, hi]

theorem orderRenewGrant_badParam : orderRenewGrant u n ps = u.done n .badParam := by simp only [orderRenewGrant, hi]

end

/-! ### Orders on a grant, by its state -/

section
variable {i : GrantIx} (hi : asIx 64 (byteAt ps 0).toNat = some i)
include hi

theorem orderInstallGrant_eq {g : Grant} (hg : getGrant (ps.drop 1) = some g) : orderInstallGrant u n ps =
    if (u.grants.get i).state ≠ .free then u.done n .inUse
    else (putGrant u i { g with life := g.freshLife u.tab.now } g.slot).done n .ok := by
  simp only [orderInstallGrant, hi, hg, bne_iff_ne]

theorem orderRevokeGrant_eq : orderRevokeGrant u n ps =
    if (u.grants.get i).state = .free then u.done n .noEntry
    else { u with
      grants := Vector.putRow u.grants i .reset
      flow := markSlot (supportCheck u.tab (Vector.putRow u.grants i .reset) 0 none u.flow (u.grants.get i))
        (u.grants.get i).slot }.done n .ok := by
  simp only [orderRevokeGrant, hi]

theorem orderSuspendGrant_eq : orderSuspendGrant u n ps = match (u.grants.get i).state with
    | .free => u.done n .noEntry
    | .active => (putGrant u i { u.grants.get i with state := .suspended } (u.grants.get i).slot).done n .ok
    | .suspended => u.done n .ok
    | .spent | .expired => u.done n .state := by
  simp only [orderSuspendGrant, hi] <;> cases (u.grants.get i).state <;> rfl

theorem orderResumeGrant_eq : orderResumeGrant u n ps = match (u.grants.get i).state with
    | .free => u.done n .noEntry
    | .suspended => (putGrant u i { u.grants.get i with state := .active } (u.grants.get i).slot).done n .ok
    | .active => u.done n .ok
    | .spent | .expired => u.done n .state := by
  simp only [orderResumeGrant, hi] <;> cases (u.grants.get i).state <;> rfl

theorem orderRenewGrant_eq : orderRenewGrant u n ps =
    if (u.grants.get i).state = .free then u.done n .noEntry
    else (putGrant u i ((u.grants.get i).renewed u.tab.now) (u.grants.get i).slot).done n .ok := by
  simp only [orderRenewGrant, hi]

end

end

/-- Settles O49: each order by its equation in the state of the grant, the record by `getGrant_some`. -/
theorem grantOrders : Obligations.GrantOrders := by
  refine ⟨fun s d l hrun => ?_, getGrant_some⟩
  intro u ps ends number put fresh
  have ends_of {code : Byte} {i : Instr} {g : OrderEffect} (hexec : ∀ s, exec i s = .next (takeOrder s (codeIs code) false g))
      (hfind : s.Finds d l code) {v : State} {r : OrderResult} (hg : g u l.next ps = v.done l.next r) :
      exec i s = ends v r := exec_order_effect hexec hrun hfind hg
  refine ⟨fun hfind => ?install, fun hfind => ?revoke, fun hfind => ?suspend, fun hfind => ?resume, fun hfind => ?renew⟩
  case install =>
    refine ⟨fun h => ends_of (fun _ => rfl) hfind (orderInstallGrant_badParam h), fun i x hi hx => ?_⟩
    have heq := orderInstallGrant_eq (u := u) (n := l.next) hi hx
    refine ⟨fun hused => ends_of (fun _ => rfl) hfind (heq.trans (if_pos hused)), fun hfree => ?_⟩
    obtain ⟨-, -, -, -, -, -, -, -, -, hleft, hstate, -⟩ := (getGrant_some _ x).mp hx
    refine ⟨ends_of (fun _ => rfl) hfind ((heq.trans (if_neg (not_not.mpr hfree))).trans ?_), hstate, hleft⟩
    rw [Grant.freshLife_eq]
    rfl
  case revoke =>
    refine ⟨fun h => ends_of (fun _ => rfl) hfind (orderRevokeGrant_badParam h), fun i hi => ?_⟩
    have heq := orderRevokeGrant_eq (u := u) (n := l.next) hi
    exact ⟨fun hfree => ends_of (fun _ => rfl) hfind (heq.trans (if_pos hfree)),
      fun hused => ends_of (fun _ => rfl) hfind (heq.trans (if_neg hused))⟩
  case suspend =>
    refine ⟨fun h => ends_of (fun _ => rfl) hfind (orderSuspendGrant_badParam h), fun i hi => ?_⟩
    intro g
    have heq := orderSuspendGrant_eq (u := u) (n := l.next) hi
    have by_state {x : GrantState} (hx : g.state = x) := hx ▸ heq
    refine ⟨fun h => ?_, fun h => ?_, fun h => ?_, fun h => ?_⟩
    · exact ends_of (fun _ => rfl) hfind (by_state h)
    · exact ends_of (fun _ => rfl) hfind (by_state h)
    · exact ends_of (fun _ => rfl) hfind (by_state h)
    · exact ends_of (fun _ => rfl) hfind (h.elim by_state by_state)
  case resume =>
    refine ⟨fun h => ends_of (fun _ => rfl) hfind (orderResumeGrant_badParam h), fun i hi => ?_⟩
    intro g
    have heq := orderResumeGrant_eq (u := u) (n := l.next) hi
    have by_state {x : GrantState} (hx : g.state = x) := hx ▸ heq
    refine ⟨fun h => ?_, fun h => ?_, fun h => ?_, fun h => ?_⟩
    · exact ends_of (fun _ => rfl) hfind (by_state h)
    · exact ends_of (fun _ => rfl) hfind (by_state h)
    · exact ends_of (fun _ => rfl) hfind (by_state h)
    · exact ends_of (fun _ => rfl) hfind (h.elim by_state by_state)
  case renew =>
    refine ⟨fun h => ends_of (fun _ => rfl) hfind (orderRenewGrant_badParam h), fun i hi => ?_⟩
    have heq := orderRenewGrant_eq (u := u) (n := l.next) hi
    refine ⟨fun hfree => ends_of (fun _ => rfl) hfind (heq.trans (if_pos hfree)), fun hused => ?_⟩
    refine ends_of (fun _ => rfl) hfind ((heq.trans (if_neg hused)).trans ?_)
    have hused' : (u.grants.get i).state ≠ .free := hused
    rw [Grant.renewed_eq hused']
    rfl

end Sys2Proof.Machine
end

section
/-! RELEASE_CLAIM, START_JOB and ABORT_JOB: O51. -/

namespace Sys2Proof.Machine

theorem Job.active_iff {b : Job} : b.active = true ↔ b.state ≠ .idle := by simp [Job.active]

section
variable {u : State} {n : Nat} {ps : List Byte}

/-! ### RELEASE_CLAIM (R135) -/

theorem orderReleaseClaim_badParam (h : asIx 32 (byteAt ps 0).toNat = none) :
    orderReleaseClaim u n ps = u.done n .badParam := by
  simp only [orderReleaseClaim, h]

section
variable {e : EcuIx} (he : asIx 32 (byteAt ps 0).toNat = some e)
include he

theorem orderReleaseClaim_free (h : (u.flow.claims.get e).state = .free) :
    orderReleaseClaim u n ps = u.done n .noEntry := by
  simp only [orderReleaseClaim, he, h]

theorem orderReleaseClaim_closing (h : (u.flow.claims.get e).state = .closing) : orderReleaseClaim u n ps =
    u.withFlow { u.flow with releaseWaits := u.flow.releaseWaits ++ [{ orderSlot := n, ecu := e }] } := by
  simp only [orderReleaseClaim, he, h]

theorem orderReleaseClaim_inForce (h : (u.flow.claims.get e).inForce = true) : orderReleaseClaim u n ps =
    u.withFlow (claimRelease u.tab 0 false
      { u.flow with releaseWaits := u.flow.releaseWaits ++ [{ orderSlot := n, ecu := e }] } e .order) := by
  simp only [Claim.inForce, Bool.or_eq_true, beq_iff_eq] at h
  obtain h | h := h <;> simp only [orderReleaseClaim, he, h]

end

/-! ### START_JOB and ABORT_JOB (R160, R172) -/

theorem orderStartJob_badParam (h : asIx 4 (byteAt ps 0).toNat = none ∨ numAt ps 3 2 = 0 ∨ 256 < numAt ps 3 2) :
    orderStartJob u n ps = u.done n .badParam := by
  simp only [orderStartJob]
  split
  · rename_i hj hlen
    obtain ⟨hlow, hhigh, -⟩ := (inRange_some _ _ _ _).mp hlen
    obtain h | h | h := h
    · rw [hj] at h
      cases h
    · omega
    · omega
  · rfl

theorem orderAbortJob_badParam (h : asIx 4 (byteAt ps 0).toNat = none) : orderAbortJob u n ps = u.done n .badParam := by
  simp only [orderAbortJob, h]

section
variable {j : JobIx} (hj : asIx 4 (byteAt ps 0).toNat = some j)
include hj

theorem orderAbortJob_eq : orderAbortJob u n ps =
    if (u.flow.jobs.get j).active then (u.run [.endJob j .aborted 0 (u.flow.jobs.get j).cur]).done n .ok
    else u.done n .noEntry := by
  simp only [orderAbortJob, hj]

variable (hlow : 1 ≤ numAt ps 3 2) (hhigh : numAt ps 3 2 ≤ 256)
include hlow hhigh

theorem orderStartJob_eq : orderStartJob u n ps =
    if (u.flow.jobs.get j).active then u.done n .busy
    else
      match jobSlot u.tab j with
      | none => u.done n .noEntry
      | some k =>
        if u.tab.poolSteps < numAt ps 1 2 + numAt ps 3 2 then u.done n .badParam
        else startedJob u n j k (numAt ps 1 2) (numAt ps 3 2) := by
  have hlen : inRange 1 256 (numAt ps 3 2) = some (numAt ps 3 2) := (inRange_some _ _ _ _).mpr ⟨hlow, hhigh, rfl⟩
  simp only [orderStartJob, hj, hlen] <;> rfl

end

end

/-- Without event capture an event leaves no record (R180). -/
theorem event_off {t : Tables} (h : t.eventCapture = false) (keep : Nat) (f : Flow) (c : CaptureRecord) :
    event t keep f c = f := by
  simp only [event, h, Bool.false_eq_true, if_false]

theorem took_stateWord {s : State} {d : Directory} {l : Look} (hwf : Memory.wf s)
    (htop : d.orderAddr l.next + 64 ≤ 2 ^ 32) : ramNum (s.took d l).flow.ram (d.orderAddr l.next) 4 = 2 :=
  ramNum_ramWrite hwf _ 4 2 (by simp only [ramTop]; omega) (by decide)

/-- Settles O51: a release by `claimRelease_notInForce`, the state word of a START_JOB by the write at its taking. -/
theorem claimAndJobOrders : Obligations.ClaimAndJobOrders := by
  intro s d l hrun u ps ends
  have goes {code : Byte} {i : Instr} {g : OrderEffect} (hexec : ∀ s, exec i s = .next (takeOrder s (codeIs code) false g))
      (hfind : s.Finds d l code) {v : State} (hg : g u l.next ps = v) : exec i s = .next (v.looksOn d l) :=
    exec_order_effect hexec hrun hfind hg
  refine ⟨fun hfind => ⟨fun h => goes (fun _ => rfl) hfind (orderReleaseClaim_badParam h), fun e he => ?release⟩,
    fun hfind => ?start, fun hfind => ⟨fun h => goes (fun _ => rfl) hfind (orderAbortJob_badParam h), fun j hj => ?abort⟩⟩
  case release =>
    intro f c
    exact ⟨fun h => goes (fun _ => rfl) hfind (orderReleaseClaim_free he h),
      fun h => goes (fun _ => rfl) hfind (orderReleaseClaim_closing he h),
      fun h => ⟨goes (fun _ => rfl) hfind (orderReleaseClaim_inForce he h), claimRelease_notInForce ..⟩⟩
  case start =>
    intro start len
    refine ⟨fun h => goes (fun _ => rfl) hfind (orderStartJob_badParam h), fun j hj hlow hhigh => ?_⟩
    have heq := orderStartJob_eq (u := u) (n := l.next) hj hlow hhigh
    have idle (h : (s.flow.jobs.get j).state = .idle) : ¬(u.flow.jobs.get j).active = true :=
      fun hactive => Job.active_iff.mp hactive h
    refine ⟨fun hbusy => goes (fun _ => rfl) hfind (heq.trans (if_pos (Job.active_iff.mpr hbusy))), fun hidle hslot => ?_,
      fun k hidle hslot => ?_⟩
    · have hslot' : jobSlot u.tab j = none := hslot
      rw [if_neg (idle hidle), hslot'] at heq
      exact goes (fun _ => rfl) hfind heq
    · have hslot' : jobSlot u.tab j = some k := hslot
      rw [if_neg (idle hidle), hslot'] at heq
      refine ⟨fun hlong => goes (fun _ => rfl) hfind (heq.trans (if_pos hlong)), fun hfits => ?_⟩
      intro runs v
      have htells : Flow.Tells { u.flow with jobs := runs } v.flow := event_tells ..
      refine ⟨goes (fun _ => rfl) hfind (heq.trans (if_neg (Nat.not_lt.mpr hfits))), htells.jobs, htells.slots,
        htells.claims, fun hoff hwf htop => ?_⟩
      have hflow : v.flow = { u.flow with jobs := runs } := event_off hoff ..
      rw [hflow]
      exact took_stateWord hwf htop
  case abort =>
    have heq := orderAbortJob_eq (u := u) (n := l.next) hj
    exact ⟨fun hidle => goes (fun _ => rfl) hfind (heq.trans (if_neg fun hactive => Job.active_iff.mp hactive hidle)),
      fun hbusy => goes (fun _ => rfl) hfind (heq.trans (if_pos (Job.active_iff.mpr hbusy)))⟩

end Sys2Proof.Machine
end

section
/-! SUPPORT. What a slot leaves that is detached or whose job ends (R13, R14, R112, R173): its entries ORPHANED, its TB
contexts free, its claims no longer in force. -/

namespace Sys2Proof.Machine

/-! ### Entries (R112, R113) -/

theorem entryEnd_carries (t : Tables) (f : Flow) (i : EntryIx) : f.Carries (entryEnd t f i) := by
  unfold entryEnd
  split
  · exact .refl f
  · rename_i x _
    have hfree : f.Carries (Flow.markHeads
        { f with entries := Vector.putRow f.entries i none, delivering := f.delivering.filter (· != i) }
        fun k h => h.reason == .outstanding || (h.reason == .pair && k == x.slot && h.ecu == some x.ecu)) :=
      ⟨rfl, rfl, rfl, rfl, rfl, rfl, fun _ => rfl⟩
    simp only
    split
    · unfold closingProceeds
      split
      · exact hfree.trans (closeEnd_carries ..)
      · exact hfree.trans (enterBuffer_carries ..)
    · exact hfree

theorem orphanEntry_carries (t : Tables) (f : Flow) (i : EntryIx) : f.Carries (orphanEntry t f i).1 := by
  have hmod (u : Entry → Entry) : f.Carries (f.modEntry i u) := ⟨rfl, rfl, rfl, rfl, rfl, rfl, fun _ => rfl⟩
  unfold orphanEntry
  split
  · exact .refl f
  · split
    · exact hmod _
    · exact hmod _
    · exact hmod _
    · exact .refl f
    · exact entryEnd_carries ..

/-- An entry that ends leaves the others as they are. -/
theorem entryEnd_entries_ne (t : Tables) (f : Flow) {i j : EntryIx} (h : j ≠ i) :
    (entryEnd t f i).entries.get j = f.entries.get j := by
  unfold entryEnd
  split
  · rfl
  · have hput : (Vector.putRow f.entries i none).get j = f.entries.get j := by rw [Vector.putRow_get, if_neg h]
    simp only
    split
    · rw [(closingProceeds_sameQueues ..).2]
      exact hput
    · exact hput

theorem Flow.modEntry_get (f : Flow) (i j : EntryIx) (u : Entry → Entry) :
    (f.modEntry i u).entries.get j = if j = i then (f.entries.get i).map u else f.entries.get j := Vector.modifyRow_get ..

theorem orphanEntry_entries_ne (t : Tables) (f : Flow) {i j : EntryIx} (h : j ≠ i) :
    (orphanEntry t f i).1.entries.get j = f.entries.get j := by
  have hmod (u : Entry → Entry) : (f.modEntry i u).entries.get j = f.entries.get j := by rw [Flow.modEntry_get, if_neg h]
  unfold orphanEntry
  split
  · rfl
  · split
    · exact hmod _
    · exact hmod _
    · exact hmod _
    · rfl
    · exact entryEnd_entries_ne t f h

/-- An entry that is orphaned goes on ORPHANED or ends. -/
theorem orphanEntry_orphan {t : Tables} {f : Flow} {i : EntryIx} {x : Entry}
    (h : (orphanEntry t f i).1.entries.get i = some x) : x.state.isOrphan = true := by
  have hmod {p : OrphanPhase} (hx : (f.modEntry i fun x => { x with state := .orphaned p }).entries.get i = some x) :
      x.state.isOrphan = true := by
    rw [Flow.modEntry_get_self, Option.map_eq_some_iff] at hx
    obtain ⟨y, -, rfl⟩ := hx
    rfl
  unfold orphanEntry at h
  split at h
  · rename_i hnone
    rw [hnone] at h
    cases h
  · rename_i y hy
    split at h
    · exact hmod h
    · exact hmod h
    · exact hmod h
    · rename_i hs
      rw [hy] at h
      cases h
      rw [hs]
      rfl
    · rw [entryEnd_free] at h
      cases h

/-- The orphaning of one entry, if it is one of the slot. -/
def orphanOf (t : Tables) (k : Slot) (a : Flow × List Act) (e : EntryIx) : Flow × List Act :=
  match a.1.entries.get e with
  | none => a
  | some x => if x.slot == k then ((orphanEntry t a.1 e).1, a.2 ++ (orphanEntry t a.1 e).2) else a

theorem orphanSlot_foldl (t : Tables) (f : Flow) (k : Slot) :
    orphanSlot t f k = (List.finRange 40).foldl (orphanOf t k) (f, []) := rfl

/-- An entry of the slot is ORPHANED. -/
def Flow.OrphanedAt (f : Flow) (k : Slot) (i : EntryIx) : Prop :=
  ∀ x, f.entries.get i = some x → x.slot = k → x.state.isOrphan = true

theorem orphanOf_self (t : Tables) (k : Slot) (a : Flow × List Act) (e : EntryIx) : (orphanOf t k a e).1.OrphanedAt k e := by
  intro x hx hslot
  unfold orphanOf at hx
  split at hx
  · rename_i hnone
    rw [hnone] at hx
    cases hx
  · rename_i y hy
    split at hx
    · exact orphanEntry_orphan hx
    · rename_i hno
      rw [hy] at hx
      cases hx
      exact (hno (beq_iff_eq.mpr hslot)).elim

theorem orphanOf_other (t : Tables) (k : Slot) (a : Flow × List Act) {e i : EntryIx} (h : i ≠ e) :
    (orphanOf t k a e).1.entries.get i = a.1.entries.get i := by
  unfold orphanOf
  split
  · rfl
  · split
    · exact orphanEntry_entries_ne t a.1 h
    · rfl

theorem orphanSlot_orphans (t : Tables) (f : Flow) (k : Slot) (i : EntryIx) : (orphanSlot t f k).1.OrphanedAt k i := by
  rw [orphanSlot_foldl]
  refine foldl_establishes (P := fun i (a : Flow × List Act) => a.1.OrphanedAt k i) _ (fun a e => orphanOf_self t k a e)
    (fun a i e hi => ?_) _ _ i (List.mem_finRange i)
  by_cases he : i = e
  · rw [he]
    exact orphanOf_self t k a e
  · intro x hx
    rw [orphanOf_other t k a he] at hx
    exact hi x hx

theorem orphanSlot_carries (t : Tables) (f : Flow) (k : Slot) : f.Carries (orphanSlot t f k).1 := by
  rw [orphanSlot_foldl]
  refine List.foldlRecOn (motive := fun a : Flow × List Act => f.Carries a.1) _ _ (.refl f) fun a ha e _ => ?_
  unfold orphanOf
  split
  · exact ha
  · split
    · exact ha.trans (orphanEntry_carries ..)
    · exact ha

/-! ### What is let go -/

/-- The acts only release cells, or offer the places of a slot. -/
def LetsGo (k : Slot) (as : List Act) : Prop := ∀ a ∈ as, a = .placeFreed k ∨ ∃ c, a = .release c

namespace LetsGo

theorem nil {k : Slot} : LetsGo k [] := fun _ h => (List.not_mem_nil h).elim

theorem one {k : Slot} (c : Charge) : LetsGo k [.release c] := fun _ h => .inr ⟨c, List.mem_singleton.mp h⟩

theorem append {k : Slot} {as bs : List Act} (ha : LetsGo k as) (hb : LetsGo k bs) : LetsGo k (as ++ bs) :=
  fun a h => (List.mem_append.mp h).elim (ha a) (hb a)

theorem not_relayTake {k : Slot} {as : List Act} (h : LetsGo k as) : as.head? ≠ some .relayTake := fun hhead => by
  obtain h | ⟨c, h⟩ := h _ (List.mem_of_head? hhead) <;> cases h

end LetsGo

theorem orphanEntry_letsGo (t : Tables) (f : Flow) (i : EntryIx) (k : Slot) : LetsGo k (orphanEntry t f i).2 := by
  unfold orphanEntry
  split
  · exact .nil
  · split
    · exact .nil
    · exact .nil
    · exact .nil
    · exact .nil
    · simp only
      split
      · exact .one _
      · exact .nil
      · exact .nil

theorem orphanSlot_letsGo (t : Tables) (f : Flow) (k : Slot) : LetsGo k (orphanSlot t f k).2 := by
  rw [orphanSlot_foldl]
  refine List.foldlRecOn (motive := fun a : Flow × List Act => LetsGo k a.2) _ _ .nil fun a ha e _ => ?_
  unfold orphanOf
  split
  · exact ha
  · split
    · exact ha.append (orphanEntry_letsGo t a.1 e k)
    · exact ha

theorem flushInbound_letsGo (f : Flow) (k : Slot) : LetsGo k (flushInbound f k).2 := fun _ h => by
  obtain ⟨m, -, rfl⟩ := List.mem_map.mp h
  exact .inr ⟨_, rfl⟩

theorem flushItems_letsGo (f : Flow) (k : Slot) : LetsGo k (flushItems f k).2 := fun a h => by
  obtain ⟨it, -, hit⟩ := List.mem_flatMap.mp h
  cases hb : it.body <;> rw [hb] at hit
  case response => exact .inr ⟨_, List.mem_singleton.mp hit⟩
  all_goals exact (List.not_mem_nil hit).elim

/-! ### Claims (R128) -/

theorem releaseClaimsOf_carries (t : Tables) (f : Flow) (k : Slot) (c : ReleaseCause) :
    f.Carries (releaseClaimsOf t f k c) := by
  rw [releaseClaimsOf_eq]
  refine .foldl _ (fun f e => ?_) _ _
  split
  · exact claimRelease_carries ..
  · exact .refl f

/-! ### TB contexts (R14) -/

/-- A context that is freed leaves the queues of the slots as they are. -/
theorem freeContext_queues (f : Flow) (p : PortId) (c : CtxIx) (j : Slot) :
    ((freeContext f p c).slots.get j).inbound = (f.slots.get j).inbound
      ∧ ((freeContext f p c).slots.get j).items = (f.slots.get j).items := by
  unfold freeContext
  split
  · exact ⟨rfl, rfl⟩
  · simp only
    split
    · rename_i k _
      change (((f.leavePlace k c).slots.get j).inbound = _ ∧ ((f.leavePlace k c).slots.get j).items = _)
      rw [Flow.leavePlace, Flow.modSlot_get]
      split
      · rename_i hj
        rw [hj]
        exact ⟨rfl, rfl⟩
      · exact ⟨rfl, rfl⟩
    · exact ⟨rfl, rfl⟩
    · exact ⟨rfl, rfl⟩

/-- The abandoning of one TB context, if it is one of the slot. -/
def abandonOf (k : Slot) (a : Flow × List Act) (c : CtxIx) : Flow × List Act :=
  match a.1.ctx .tb c with
  | none => a
  | some x =>
    if x.owner == .slot k then ((abandonCtx a.1 .tb c false).1, a.2 ++ (abandonCtx a.1 .tb c false).2) else a

theorem abandonSlotCtxs_foldl (f : Flow) (k : Slot) :
    abandonSlotCtxs f k = (List.finRange 8).foldl (abandonOf k) (f, []) := rfl

theorem abandonOf_mine {k : Slot} {a : Flow × List Act} {c : CtxIx} {x : Ctx} (hx : a.1.ctx .tb c = some x)
    (ho : x.owner = .slot k) : abandonOf k a c = (freeContext a.1 .tb c,
      a.2 ++ (freedActs x.charge ++ if x.place then [.placeFreed k] else [])) := by
  simp only [abandonOf, hx, ho, beq_self_eq_true, if_true, abandonCtx_some false hx]

theorem abandonOf_others {k : Slot} {a : Flow × List Act} {c : CtxIx}
    (h : ∀ x, a.1.ctx .tb c = some x → x.owner ≠ .slot k) : abandonOf k a c = a := by
  unfold abandonOf
  split
  · rfl
  · rename_i x hx
    rw [if_neg fun ho => h x hx (beq_iff_eq.mp ho)]

/-- A TB context is not one of the slot. -/
def Flow.NotOwnedAt (f : Flow) (k : Slot) (c : CtxIx) : Prop := ∀ x, f.ctx .tb c = some x → x.owner ≠ .slot k

theorem abandonOf_cases (k : Slot) (a : Flow × List Act) (c : CtxIx) :
    (abandonOf k a c = a ∧ a.1.NotOwnedAt k c) ∨ ∃ x, a.1.ctx .tb c = some x ∧ abandonOf k a c =
      (freeContext a.1 .tb c, a.2 ++ (freedActs x.charge ++ if x.place then [.placeFreed k] else [])) := by
  by_cases h : a.1.NotOwnedAt k c
  · exact .inl ⟨abandonOf_others h, h⟩
  · simp only [Flow.NotOwnedAt, not_forall, not_not] at h
    obtain ⟨x, hx, ho⟩ := h
    exact .inr ⟨x, hx, abandonOf_mine hx ho⟩

theorem abandonSlotCtxs_notOwned (f : Flow) (k : Slot) (c : CtxIx) : (abandonSlotCtxs f k).1.NotOwnedAt k c := by
  rw [abandonSlotCtxs_foldl]
  refine foldl_establishes (P := fun c (a : Flow × List Act) => a.1.NotOwnedAt k c) _ (fun a c => ?_)
    (fun a c d hc => ?_) _ _ c (List.mem_finRange c)
  · obtain ⟨ha, hno⟩ | ⟨x, hx, ha⟩ := abandonOf_cases k a c
    · rw [ha]
      exact hno
    · rw [ha]
      intro y hy
      rw [freeContext_ctx hx, if_pos rfl] at hy
      cases hy
  · obtain ⟨ha, -⟩ | ⟨x, hx, ha⟩ := abandonOf_cases k a d
    · rw [ha]
      exact hc
    · rw [ha]
      intro y hy
      rw [freeContext_ctx hx] at hy
      split at hy
      · cases hy
      · exact hc y hy

theorem freedActs_letsGo (k : Slot) (h : Option Charge) : LetsGo k (freedActs h) := by
  cases h with
  | none => exact .nil
  | some c => exact .one c

theorem abandonSlotCtxs_letsGo (f : Flow) (k : Slot) : LetsGo k (abandonSlotCtxs f k).2 := by
  rw [abandonSlotCtxs_foldl]
  refine List.foldlRecOn (motive := fun a : Flow × List Act => LetsGo k a.2) _ _ .nil fun a ha c _ => ?_
  obtain ⟨h, -⟩ | ⟨x, -, h⟩ := abandonOf_cases k a c
  · rw [h]
    exact ha
  · rw [h]
    refine ha.append ((freedActs_letsGo k x.charge).append ?_)
    split
    · exact fun b hb => .inl (List.mem_singleton.mp hb)
    · exact .nil

theorem abandonSlotCtxs_queues (f : Flow) (k j : Slot) :
    ((abandonSlotCtxs f k).1.slots.get j).inbound = (f.slots.get j).inbound
      ∧ ((abandonSlotCtxs f k).1.slots.get j).items = (f.slots.get j).items := by
  rw [abandonSlotCtxs_foldl]
  refine List.foldlRecOn (motive := fun a : Flow × List Act => (a.1.slots.get j).inbound = (f.slots.get j).inbound
    ∧ (a.1.slots.get j).items = (f.slots.get j).items) _ _ ⟨rfl, rfl⟩ fun a ha c _ => ?_
  obtain ⟨h, -⟩ | ⟨x, -, h⟩ := abandonOf_cases k a c
  · rw [h]
    exact ha
  · rw [h]
    obtain ⟨hinbound, hitems⟩ := freeContext_queues a.1 .tb c j
    exact ⟨hinbound.trans ha.1, hitems.trans ha.2⟩

end Sys2Proof.Machine
end

section
/-! SET_TESTER, DETACH_TESTER and SET_ECU: O48. -/

namespace Sys2Proof.Machine

/-! ### SET_TESTER (R8 to R11) -/

section
variable {u : State} {n : Nat} {ps : List Byte}

theorem orderSetTester_badParam (h : asIx 16 (byteAt ps 0).toNat = none ∨ getTester (ps.drop 1) true = none) :
    orderSetTester u n ps = u.done n .badParam := by
  simp only [orderSetTester]
  split
  · rename_i hk hx
    obtain h | h := h
    · rw [hk] at h
      cases h
    · rw [hx] at h
      cases h
  · rfl

theorem orderSetTester_eq {k : Slot} {x : Tester} (hk : asIx 16 (byteAt ps 0).toNat = some k)
    (hx : getTester (ps.drop 1) true = some x) : orderSetTester u n ps =
      if (u.tab.testers.get k).attached then
        if sameIdentity x (u.tab.testers.get k) then (changeTester u k x).done n .ok else u.done n .badParam
      else if u.flow.hasEntry k then u.done n .busy
      else if testerConflict u.tab u.flow k x then u.done n .inUse
      else (attachTester u k x).done n .ok := by
  simp only [orderSetTester, hk, hx]

end

/-- The tables with the new terms of an ATTACHED slot (R10). -/
def Tables.withTerms (t : Tables) (k : Slot) (x : Tester) : Tables :=
  { t with testers := Vector.putRow t.testers k (x.newTerms (t.testers.get k)) }

/-- The slot under its new terms: a lowered weight cuts the allowance, and the hold deadline is measured anew (R10). -/
def Flow.withTerms (f : Flow) (k : Slot) (x : Tester) : Flow := f.modSlot k fun y => { y with
  allowance := min y.allowance x.weight
  held := y.held.map fun h => { h with
    deadline := if x.holdLimit.count = 0 then none else some (after h.firstHold x.holdLimit) } }

theorem newTerms_eq (t : Tables) (f : Flow) (k : Slot) (x : Tester) :
    f.modSlot k (SlotFlow.newTerms (t.withTerms k x) k) = f.withTerms k x := by
  have hget : (t.withTerms k x).testers.get k = x.newTerms (t.testers.get k) := by
    rw [Tables.withTerms, Vector.putRow_get, if_pos rfl]
  refine Flow.modSlot_congr ?_
  simp only [SlotFlow.newTerms, holdDeadlineOf_eq, hget]
  rfl

/-- A SET_TESTER on an ATTACHED slot: the head that is late is refused, the held head is listed, and the relay channel
takes its record again in REFUSE mode (R10). -/
theorem changeTester_flow (u : State) (k : Slot) (x : Tester) : (changeTester u k x).flow =
    let t := u.tab.withTerms k x
    let f := u.flow.withTerms k x
    let g := markSlot (if holdDue t.now (f.slots.get k) then settled t (tooLong t f k) else f) k
    settle t (if x.mode = .refuse ∧ (u.tab.testers.get k).mode = .hold ∧ g.relayStoppedAt k = true then [.relayTake] else [])
      g := by
  rw [← newTerms_eq u.tab]
  unfold changeTester
  simp only
  congr 1
  have hmode : ((u.tab.testers.get k).mode != .refuse) = true ↔ (u.tab.testers.get k).mode = .hold := by
    cases (u.tab.testers.get k).mode <;> decide
  simp only [Bool.and_eq_true, beq_iff_eq, hmode, and_assoc]
  rfl

theorem changeTester_allowance (u : State) (k : Slot) (x : Tester) :
    ((changeTester u k x).flow.slots.get k).allowance = min (u.flow.slots.get k).allowance x.weight := by
  have hterms : ((u.flow.withTerms k x).slots.get k).allowance = min (u.flow.slots.get k).allowance x.weight := by
    rw [Flow.withTerms, Flow.modSlot_get_self]
  rw [changeTester_flow]
  simp only
  refine ((settle_keeps ..).slots k).1.trans ?_
  change (SlotFlow.allowance (Vector.get (Flow.slots (if _ then _ else _)) k)) = _
  split
  · exact ((((tooLong_keeps ..).trans (settled_keeps ..)).slots k).1).trans hterms
  · exact hterms

/-! ### DETACH_TESTER (R12 to R14) -/

section
variable {u : State} {n : Nat} {ps : List Byte}

theorem orderDetachTester_badParam (h : asIx 16 (byteAt ps 0).toNat = none) :
    orderDetachTester u n ps = u.done n .badParam := by
  simp only [orderDetachTester, h]

theorem orderDetachTester_eq {k : Slot} (hk : asIx 16 (byteAt ps 0).toNat = some k) : orderDetachTester u n ps =
    if (u.tab.testers.get k).attached = false then u.done n .noEntry
    else if jobBusy u (u.tab.testers.get k) then u.done n .busy
    else (detach u k).done n .ok := by
  simp only [orderDetachTester, hk, Bool.not_eq_true']

end

theorem Flow.Keeps.holdsNone {f g : Flow} (h : f.Keeps g) {k : Slot} {e : EcuIx} (hf : f.HoldsNone k e) :
    g.HoldsNone k e := fun he => by
  have hsame := h.claims e he
  rw [hsame.2.1]
  exact hf (hsame.inForce ▸ he)

theorem flushInbound_mem {f : Flow} {k : Slot} {m : InMsg} (hm : m ∈ (f.slots.get k).inbound) :
    Act.release m.msg.charge ∈ (flushInbound f k).2 := List.mem_map.mpr ⟨m, hm, rfl⟩

theorem flushInbound_items (f : Flow) (k : Slot) :
    ((flushInbound f k).1.slots.get k).items = (f.slots.get k).items := by
  rw [flushInbound, Flow.modSlot_get_self]

theorem flushItems_mem {f : Flow} {k : Slot} {it : Item} (hit : it ∈ (f.slots.get k).items) {m : Message}
    (hm : it.body = .response m) : Act.release m.charge ∈ (flushItems f k).2 :=
  List.mem_flatMap.mpr ⟨it, hit, by rw [hm]; exact List.mem_singleton.mpr rfl⟩

theorem LetsGo.head_iff {b : Bool} {k : Slot} {as : List Act} (h : LetsGo k as) :
    ((if b then [Act.relayTake] else []) ++ as).head? = some .relayTake ↔ b = true := by
  cases b with
  | true => exact ⟨fun _ => rfl, fun _ => rfl⟩
  | false => exact ⟨fun hhead => (h.not_relayTake hhead).elim, fun h => nomatch h⟩

section
variable (s : State) (k : Slot)

/-- The slot's contexts abandoned and its queues flushed (R14). -/
def flushedSlot : Flow := (flushItems (flushInbound (abandonSlotCtxs s.flow k).1 k).1 k).1

/-- A detached slot before what was discarded is released (R13, R14). -/
def detachedFlow : Flow :=
  (releaseClaimsOf s.tab (orphanSlot s.tab (flushedSlot s k) k).1 k .detach).modSlot k fun x => { x with allowance := 0 }

/-- What a detachment lets go of, besides a relay record that waits for the slot (R14). -/
def detachActs : List Act :=
  (abandonSlotCtxs s.flow k).2 ++ (flushInbound (abandonSlotCtxs s.flow k).1 k).2
    ++ (flushItems (flushInbound (abandonSlotCtxs s.flow k).1 k).1 k).2 ++ (orphanSlot s.tab (flushedSlot s k) k).2

theorem detach_flow : (detach s k).flow = settle (detach s k).tab
    ((if s.flow.relayStoppedAt k then [Act.relayTake] else []) ++ detachActs s k) (detachedFlow s k) := by
  rw [detachActs, detachedFlow, flushedSlot, ← List.append_assoc, ← List.append_assoc, ← List.append_assoc]
  rfl

theorem releasedSlot_carries :
    (flushedSlot s k).Carries (releaseClaimsOf s.tab (orphanSlot s.tab (flushedSlot s k) k).1 k .detach) :=
  (orphanSlot_carries ..).trans (releaseClaimsOf_carries ..)

theorem flushedSlot_get : ((flushedSlot s k).slots.get k).inbound = [] ∧ ((flushedSlot s k).slots.get k).items = []
    ∧ ((flushedSlot s k).slots.get k).held = none := by
  simp only [flushedSlot, flushItems, flushInbound, Flow.modSlot_get_self]
  trivial

theorem detachedFlow_slot : (detachedFlow s k).slots.get k = { (flushedSlot s k).slots.get k with allowance := 0 } := by
  rw [detachedFlow, Flow.modSlot_get_self, (releasedSlot_carries s k).slots]

theorem detachedFlow_queues : ((detachedFlow s k).slots.get k).inbound = [] ∧ ((detachedFlow s k).slots.get k).items = []
    ∧ ((detachedFlow s k).slots.get k).held = none := by
  have hget := flushedSlot_get s k
  rw [detachedFlow_slot]
  generalize (flushedSlot s k).slots.get k = x at *
  exact hget

theorem detachedFlow_ctx (c : CtxIx) : (detachedFlow s k).NotOwnedAt k c := by
  have hports : (detachedFlow s k).ports = (abandonSlotCtxs s.flow k).1.ports := by
    rw [detachedFlow, Flow.modSlot_ports, (releasedSlot_carries s k).ports, flushedSlot, flushItems, Flow.modSlot_ports,
      flushInbound, Flow.modSlot_ports]
  obtain ⟨-, -, hctx⟩ := findCtx_of_ports hports .tb 0 0
  intro x hx
  rw [hctx] at hx
  exact abandonSlotCtxs_notOwned s.flow k c x hx

theorem detachedFlow_orphans (i : EntryIx) : (detachedFlow s k).OrphanedAt k i := by
  have hqueues := releaseClaimsOf_sameQueues s.tab (orphanSlot s.tab (flushedSlot s k) k).1 k .detach
  intro x hx
  rw [detachedFlow, Flow.modSlot_entries, hqueues.2] at hx
  exact orphanSlot_orphans s.tab (flushedSlot s k) k i x hx

theorem detachedFlow_claims (e : EcuIx) : (detachedFlow s k).HoldsNone k e := by
  rw [Flow.HoldsNone, detachedFlow, Flow.modSlot_claims]
  exact releaseClaimsOf_holdsNone s.tab (orphanSlot s.tab (flushedSlot s k) k).1 k .detach e

theorem detachActs_letsGo : LetsGo k (detachActs s k) := by
  rw [detachActs]
  exact LetsGo.append (LetsGo.append (LetsGo.append (abandonSlotCtxs_letsGo s.flow k) (flushInbound_letsGo _ k))
    (flushItems_letsGo _ k)) (orphanSlot_letsGo s.tab _ k)

theorem detachActs_inbound {m : InMsg} (hm : m ∈ (s.flow.slots.get k).inbound) :
    Act.release m.msg.charge ∈ detachActs s k := by
  rw [← (abandonSlotCtxs_queues s.flow k k).1] at hm
  have hflush := flushInbound_mem hm
  unfold detachActs
  rw [List.mem_append, List.mem_append, List.mem_append]
  exact .inl (.inl (.inr hflush))

theorem detachActs_items {it : Item} (hit : it ∈ (s.flow.slots.get k).items) {m : Message} (hm : it.body = .response m) :
    Act.release m.charge ∈ detachActs s k := by
  have hitems : ((flushInbound (abandonSlotCtxs s.flow k).1 k).1.slots.get k).items = (s.flow.slots.get k).items :=
    (flushInbound_items ..).trans (abandonSlotCtxs_queues s.flow k k).2
  rw [← hitems] at hit
  have hflush := flushItems_mem hit hm
  unfold detachActs
  rw [List.mem_append, List.mem_append, List.mem_append]
  exact .inl (.inr hflush)

/-- What a detachment does first is to let the relay channel take its record again, if it waits for the slot. -/
theorem detach_head :
    ((if s.flow.relayStoppedAt k then [Act.relayTake] else []) ++ detachActs s k).head? = some .relayTake ↔
      s.flow.relayStoppedAt k = true :=
  (detachActs_letsGo s k).head_iff

theorem detach_allowance : ((detach s k).flow.slots.get k).allowance = 0 := by
  have hkeeps := settle_keeps (detach s k).tab ((if s.flow.relayStoppedAt k then [.relayTake] else []) ++ detachActs s k)
    (detachedFlow s k)
  rw [detach_flow, (hkeeps.slots k).1, detachedFlow_slot]

theorem detach_claims (e : EcuIx) : (detach s k).flow.HoldsNone k e := by
  have hkeeps := settle_keeps (detach s k).tab ((if s.flow.relayStoppedAt k then [.relayTake] else []) ++ detachActs s k)
    (detachedFlow s k)
  rw [← detach_flow] at hkeeps
  exact hkeeps.holdsNone (detachedFlow_claims s k e)

end

/-! ### SET_ECU (R18, R19) -/

section
variable {u : State} {n : Nat} {ps : List Byte}

theorem orderSetEcu_badParam (h : asIx 32 (byteAt ps 0).toNat = none ∨ getEcu (ps.drop 1) = none) :
    orderSetEcu u n ps = u.done n .badParam := by
  simp only [orderSetEcu]
  split
  · rename_i he hx
    obtain h | h := h
    · rw [he] at h
      cases h
    · rw [hx] at h
      cases h
  · rfl

theorem orderSetEcu_eq {e : EcuIx} {x : Ecu} (he : asIx 32 (byteAt ps 0).toNat = some e)
    (hx : getEcu (ps.drop 1) = some x) : orderSetEcu u n ps =
      if ((u.flow.claims.get e).state ≠ .free ∨ ecuHasEntry u.flow e = true) ∨ ecuConflict u.tab u.flow e x = true then
        u.done n .inUse
      else { u with
        tab := { u.tab with ecus := Vector.putRow u.tab.ecus e x }
        flow := u.flow.markHeads fun _ _ => true }.done n .ok := by
  simp only [orderSetEcu, he, hx, Bool.or_eq_true, bne_iff_ne]

end

end Sys2Proof.Machine
end

section
/-! SET_TESTER, DETACH_TESTER and SET_ECU: O48. -/

namespace Sys2Proof.Machine

/-- A SET_TESTER on an ATTACHED slot of the order's identity (R10). -/
theorem changeTester_spec (u : State) (k : Slot) (x : Tester) :
    let old := u.tab.testers.get k
    let terms := { old with mode := x.mode, weight := x.weight, limit := x.limit, holdLimit := x.holdLimit }
    let t := { u.tab with testers := Vector.putRow u.tab.testers k terms }
    let f := u.flow.modSlot k fun y => { y with
      allowance := min y.allowance x.weight
      held := y.held.map fun h => { h with
        deadline := if x.holdLimit.count = 0 then none else some (after h.firstHold x.holdLimit) } }
    let held := (f.slots.get k).held
    let late := ∃ h, held = some h ∧ h.passed = false ∧ expired u.tab.now h.deadline = true
    let ends := fun g : Flow =>
      let g := g.markHeads fun j _ => j == k
      (changeTester u k x).flow = settle t (if x.mode = .refuse ∧ old.mode = .hold ∧ g.relayStoppedAt k = true
        then [.relayTake] else []) g
    (changeTester u k x).tab = t
    ∧ (¬late → ends f)
    ∧ (∀ h m ms, late → held = some h → (f.slots.get k).inbound = m :: ms →
      ends (settled t (headRefuse t f k .heldTooLong h.ecu (some (classOf t m.msg.code))))) := by
  intro old terms t f held late ends
  have hlate : holdDue t.now (f.slots.get k) = true ↔ late := holdDue_iff
  have hflow := changeTester_flow u k x
  refine ⟨rfl, fun hno => ?_, fun h m ms hyes hheld hm => ?_⟩
  · have hdue : ¬holdDue t.now (f.slots.get k) = true := hlate.not.mpr hno
    change (changeTester u k x).flow =
      let g := markSlot (if holdDue t.now (f.slots.get k) then settled t (tooLong t f k) else f) k
      settle t (if x.mode = .refuse ∧ old.mode = .hold ∧ g.relayStoppedAt k = true then [.relayTake] else []) g at hflow
    rw [if_neg hdue] at hflow
    exact hflow
  · have hdue : holdDue t.now (f.slots.get k) = true := hlate.mpr hyes
    change (changeTester u k x).flow =
      let g := markSlot (if holdDue t.now (f.slots.get k) then settled t (tooLong t f k) else f) k
      settle t (if x.mode = .refuse ∧ old.mode = .hold ∧ g.relayStoppedAt k = true then [.relayTake] else []) g at hflow
    rw [if_pos hdue, tooLong_held hheld hm] at hflow
    exact hflow

/-- What DETACH_TESTER does to an ATTACHED slot (R13, R14). -/
theorem detach_spec (u : State) (k : Slot) :
    (detach u k).tab = { u.tab with testers := Vector.putRow u.tab.testers k { u.tab.testers.get k with attached := false } }
    ∧ ((detach u k).flow.slots.get k).allowance = 0
    ∧ (∃ f acts, (detach u k).flow = settle (detach u k).tab acts f
      ∧ (f.slots.get k).inbound = [] ∧ (f.slots.get k).items = [] ∧ (f.slots.get k).held = none
      ∧ (∀ c x, f.ctx .tb c = some x → x.owner ≠ .slot k)
      ∧ (∀ i x, f.entries.get i = some x → x.slot = k → x.state.isOrphan = true)
      ∧ (∀ e, (f.claims.get e).inForce = true → (f.claims.get e).holder ≠ k)
      ∧ (acts.head? = some .relayTake ↔ u.flow.relayStoppedAt k = true)
      ∧ (∀ m ∈ (u.flow.slots.get k).inbound, .release m.msg.charge ∈ acts)
      ∧ (∀ it ∈ (u.flow.slots.get k).items, ∀ m, it.body = .response m → .release m.charge ∈ acts)
      ∧ ∀ a ∈ acts, a = .relayTake ∨ a = .placeFreed k ∨ ∃ c, a = .release c)
    ∧ ∀ e, ((detach u k).flow.claims.get e).inForce = true → ((detach u k).flow.claims.get e).holder ≠ k := by
  obtain ⟨hin, hitems, hno⟩ := detachedFlow_queues u k
  have hctx := detachedFlow_ctx u k
  have horphans := detachedFlow_orphans u k
  have hclaims := detachedFlow_claims u k
  have hflow := detach_flow u k
  have hhead := detach_head u k
  have hmsgs {m : InMsg} := detachActs_inbound u k (m := m)
  have hplaced {it : Item} (hit : it ∈ (u.flow.slots.get k).items) {m : Message} := detachActs_items u k hit (m := m)
  have hletsGo := detachActs_letsGo u k
  generalize detachedFlow u k = f at *
  generalize detachActs u k = acts at *
  refine ⟨rfl, detach_allowance u k, ⟨f, _, hflow, hin, hitems, hno, hctx, horphans, hclaims, hhead,
    fun m hm => List.mem_append_right _ (hmsgs hm), fun it hit m hm => List.mem_append_right _ (hplaced hit hm),
    fun a ha => ?_⟩, detach_claims u k⟩
  · obtain ha | ha := List.mem_append.mp ha
    · split at ha
      · exact .inl (List.mem_singleton.mp ha)
      · exact (List.not_mem_nil ha).elim
    · exact .inr (hletsGo a ha)

/-- Settles O48: SET_TESTER by `changeTester_spec`, DETACH_TESTER by `detach_spec`, the records and conflicts by their
own laws. -/
theorem testerAndEcuOrders : Obligations.TesterAndEcuOrders := by
  refine ⟨fun s d l hrun => ?orders, fun s d l hrun hfind => ?ecu, getDuration_eq, getTester_some, getEcu_some,
    testerConflict_iff, ecuConflict_iff, sameIdentity_iff, jobBusy_iff⟩
  case orders =>
    intro u ps ends
    have ends_of {code : Byte} {i : Instr} {g : OrderEffect}
        (hexec : ∀ s, exec i s = .next (takeOrder s (codeIs code) false g)) (hfind : s.Finds d l code) {v : State}
        {r : OrderResult} (hg : g u l.next ps = v.done l.next r) : exec i s = ends v r :=
      exec_order_effect hexec hrun hfind hg
    refine ⟨fun hfind => ⟨fun h => ends_of (fun _ => rfl) hfind (orderSetTester_badParam h), fun k x hk hx => ?_⟩,
      fun hfind => ⟨fun h => ends_of (fun _ => rfl) hfind (orderDetachTester_badParam h), fun k hk => ?_⟩⟩
    · intro old
      have heq := orderSetTester_eq (u := u) (n := l.next) hk hx
      refine ⟨fun hatt hdiff => ?_, fun hatt hsame => ⟨?_, changeTester_spec u k x, changeTester_allowance u k x⟩,
        fun hdet hentry => ?_, fun hdet hentry hconf => ?_, fun hdet hentry hconf => ?_⟩
      · exact ends_of (fun _ => rfl) hfind ((heq.trans (if_pos hatt)).trans (if_neg (Bool.eq_false_iff.mp hdiff)))
      · exact ends_of (fun _ => rfl) hfind ((heq.trans (if_pos hatt)).trans (if_pos hsame))
      · exact ends_of (fun _ => rfl) hfind ((heq.trans (if_neg (Bool.eq_false_iff.mp hdet))).trans (if_pos hentry))
      · exact ends_of (fun _ => rfl) hfind (((heq.trans (if_neg (Bool.eq_false_iff.mp hdet))).trans
          (if_neg (Bool.eq_false_iff.mp hentry))).trans (if_pos hconf))
      · exact ends_of (fun _ => rfl) hfind (((heq.trans (if_neg (Bool.eq_false_iff.mp hdet))).trans
          (if_neg (Bool.eq_false_iff.mp hentry))).trans (if_neg (Bool.eq_false_iff.mp hconf)))
    · intro old
      have heq := orderDetachTester_eq (u := u) (n := l.next) hk
      refine ⟨fun hdet => ends_of (fun _ => rfl) hfind (heq.trans (if_pos hdet)), fun hatt hbusy => ?_, fun hatt hidle => ?_⟩
      all_goals have hatt' : ¬(u.tab.testers.get k).attached = false := by rw [show (u.tab.testers.get k).attached = true from hatt]; decide
      · exact ends_of (fun _ => rfl) hfind ((heq.trans (if_neg hatt')).trans (if_pos hbusy))
      · exact ⟨ends_of (fun _ => rfl) hfind ((heq.trans (if_neg hatt')).trans (if_neg (Bool.eq_false_iff.mp hidle))),
          detach_spec u k⟩
  case ecu =>
    intro u ps ends
    refine ⟨fun h => exec_order_effect (fun _ => rfl) hrun hfind (orderSetEcu_badParam h), fun e x he hx => ?_⟩
    intro used
    have heq := orderSetEcu_eq (u := u) (n := l.next) he hx
    have hused : ((u.flow.claims.get e).state ≠ .free ∨ ecuHasEntry u.flow e = true) ∨ ecuConflict u.tab u.flow e x = true ↔
        used := or_assoc
    exact ⟨fun h => exec_order_effect (fun _ => rfl) hrun hfind (heq.trans (if_pos (hused.mpr h))),
      fun h => exec_order_effect (fun _ => rfl) hrun hfind (heq.trans (if_neg (hused.not.mpr h)))⟩

end Sys2Proof.Machine
end

section
/-! The steps of a job: O43. -/

namespace Sys2Proof.Machine

/-- The command's own part, once its step is read and its guard true. -/
def StepKind.run (t : Tables) (j : JobIx) : StepKind → Flow → List Byte → Flow × List Act
  | .send => runSend t j
  | .rep => runRepeat j
  | .waitTime => runWaitTime t j
  | .waitCondition => runWaitCondition t j
  | .sync => fun f _ => runSync j f
  | .fin => fun f bs => (f, [.endJob j .completed (byteAt bs 2) (f.jobs.get j).cur])

theorem exec_command (j : JobIx) (s : State) (k : StepKind) :
    exec (k.command j) s = .next (s.jobStep j k (k.run s.tab j)) := by
  cases k <;> rfl

theorem Flow.modJob_congr {f : Flow} {j : JobIx} {g h : Job → Job} (e : g (f.jobs.get j) = h (f.jobs.get j)) :
    f.modJob j g = f.modJob j h := by
  rw [Flow.modJob, Flow.modJob, Vector.modifyRow_congr _ _ e]

/-- The flow with the step counted in its job. -/
def Flow.stepCounted (f : Flow) (j : JobIx) : Flow := f.modJob j fun x => { x with steps := x.steps + 1 }

theorem Flow.stepCounted_job (f : Flow) (j : JobIx) :
    (f.stepCounted j).jobs.get j = { f.jobs.get j with steps := (f.jobs.get j).steps + 1 } := modJob_get_self ..

/-! ### How a command meets the step -/

section
variable {s : State} {j : JobIx}

theorem exec_command_idle (k : StepKind) (h : s.tab.ctl ≠ .running ∨ (s.flow.jobs.get j).state ≠ .running) :
    exec (k.command j) s = .next s := by
  rw [exec_command, State.jobStep]
  split
  next hctl =>
    have hstate : ¬((s.flow.jobs.get j).state == .running) = true := by
      simpa using h.resolve_left (not_not_intro (eq_of_beq hctl))
    rw [jobStep, if_neg hstate]
    rfl
  next => rfl

variable {k : StepKind} {g : Guard} {bs : List Byte}
  (hctl : s.tab.ctl = .running) (hstate : (s.flow.jobs.get j).state = .running)
  (hread : readStep s.tab s.flow j = .step k g bs)
include hctl hstate hread

theorem exec_command_read (k' : StepKind) : exec (k'.command j) s = .next (s.withFlow (settled s.tab (
    if k = k' then
      if g.holds (s.flow.jobs.get j).verdict then k'.run s.tab j (s.flow.stepCounted j) bs else (s.flow, [.stepDone j])
    else (s.flow, [])))) := by
  rw [exec_command, State.jobStep, if_pos (beq_iff_eq.mpr hctl), jobStep, if_pos (beq_iff_eq.mpr hstate), hread]
  rfl

theorem exec_command_other {k' : StepKind} (h : k' ≠ k) : exec (k'.command j) s = .next s := by
  rw [exec_command_read hctl hstate hread, if_neg h.symm]
  rfl

theorem exec_command_skips (h : g.holds (s.flow.jobs.get j).verdict = false) :
    exec (k.command j) s = .next (s.run [.stepDone j]) := by
  rw [exec_command_read hctl hstate hread, if_pos rfl, if_neg (Bool.eq_false_iff.mp h)]
  rfl

/-- A step carried out: its command's own part on the flow with the step counted, then what that causes. -/
theorem exec_command_runs (h : g.holds (s.flow.jobs.get j).verdict = true) {f : Flow} {acts : List Act}
    (hrun : k.run s.tab j (s.flow.stepCounted j) bs = (f, acts)) :
    exec (k.command j) s = .next ((s.withFlow f).run acts) := by
  rw [exec_command_read hctl hstate hread, if_pos rfl, if_pos h, hrun]
  rfl

end

/-! ### The kinds of step -/

section
variable {t : Tables} {f : Flow} {j : JobIx} {bs : List Byte}

theorem badStepAct_counted (f : Flow) (j : JobIx) :
    badStepAct (f.stepCounted j) j = [.endJob j .badStep 0 (f.jobs.get j).cur] := by
  rw [badStepAct, Flow.stepCounted_job]

theorem runRepeat_iff : 1 ≤ numAt bs 2 2 ∧ 1 ≤ (byteAt bs 4).toNat ∧ (byteAt bs 4).toNat ≤ 16
      ∧ (f.jobs.get j).cur + (byteAt bs 4).toNat < (f.jobs.get j).listLength ↔
    ¬(numAt bs 2 2 = 0 ∨ (byteAt bs 4).toNat = 0 ∨ 16 < (byteAt bs 4).toNat
      ∨ (f.jobs.get j).listLength ≤ (f.jobs.get j).cur + (byteAt bs 4).toNat) := by
  omega

theorem runRepeat_eq : runRepeat j (f.stepCounted j) bs =
    if numAt bs 2 2 = 0 ∨ (byteAt bs 4).toNat = 0 ∨ 16 < (byteAt bs 4).toNat
      ∨ (f.jobs.get j).listLength ≤ (f.jobs.get j).cur + (byteAt bs 4).toNat
    then (f.stepCounted j, [.endJob j .badStep 0 (f.jobs.get j).cur])
    else ((f.stepCounted j).modJob j fun x => { x with
      rep := some { start := (f.jobs.get j).cur + 1, span := (byteAt bs 4).toNat, count := numAt bs 2 2, pass := 0 }
      cur := (f.jobs.get j).cur + 1 }, []) := by
  rw [runRepeat, badStepAct_counted, Flow.stepCounted_job]
  refine if_congr Iff.rfl rfl (congrArg (·, []) (Flow.modJob_congr ?_))
  rw [Flow.stepCounted_job]

theorem runWaitTime_bad (h : getDuration bs 2 = none) :
    runWaitTime t j (f.stepCounted j) bs = (f.stepCounted j, [.endJob j .badStep 0 (f.jobs.get j).cur]) := by
  rw [runWaitTime, h, badStepAct_counted]

theorem runWaitTime_eq {d : Duration} (h : getDuration bs 2 = some d) : runWaitTime t j f bs =
    if d.count = 0 then (f, [.stepDone j])
    else (f.modJob j fun x => { x with state := .waiting .time, deadline := some (after t.now d) }, []) := by
  rw [runWaitTime, h]
  exact if_congr Duration.isZero_iff rfl rfl

theorem runWaitCondition_bad (h : getSet 6 (byteAt bs 2) = none ∨ getDuration bs 4 = none) :
    runWaitCondition t j (f.stepCounted j) bs = (f.stepCounted j, [.endJob j .badStep 0 (f.jobs.get j).cur]) := by
  rw [runWaitCondition, badStepAct_counted]
  split
  next hcs hd => exact absurd h (by simp [hcs, hd])
  next => rfl

theorem runWaitCondition_eq {cs : CondSet} {d : Duration} (hcs : getSet 6 (byteAt bs 2) = some cs)
    (hd : getDuration bs 4 = some d) : runWaitCondition t j f bs =
    if satisfied t cs = true then (f.modJob j fun x => { x with verdict := .positive }, [.stepDone j])
    else (f.modJob j fun x => { x with
      state := .waiting .condition, condSet := cs
      deadline := if d.count = 0 then none else some (after t.now d) }, []) := by
  rw [runWaitCondition, hcs, hd]
  simp only [Duration.isZero_iff]

theorem runSync_eq : runSync j (f.stepCounted j) =
    if (f.jobs.get j).requests = [] then (f.stepCounted j, [.stepDone j])
    else ((f.stepCounted j).modJob j fun x => { x with state := .waiting .sync }, []) := by
  rw [runSync, Flow.stepCounted_job]
  exact if_congr List.isEmpty_iff rfl rfl

end

/-! ### A step it cannot carry out -/

theorem exec_badStep_eq (j : JobIx) (s : State) : exec (.badStep j) s =
    if s.tab.ctl = .running ∧ (s.flow.jobs.get j).state = .running ∧ readStep s.tab s.flow j = .bad
    then .next (s.run [.endJob j .badStep 0 (s.flow.jobs.get j).cur]) else .next s := by
  change execBadStep j s = _
  rw [execBadStep, badStepAct]
  exact if_congr (by simp only [Bool.and_eq_true, beq_iff_eq, and_assoc]) rfl rfl

/-- Settles O43: one rule says how a command meets the step that is read, and one equation per kind what it does. -/
theorem jobStepsCarriedOut : Obligations.JobStepsCarriedOut := by
  refine ⟨fun j s => ?_, fun t f j p h => readStep_eq t f j p h, fun t f j h => readStep_noPool t f j h, guard_holds_iff⟩
  intro b
  refine ⟨fun k h => exec_command_idle k h, fun k g bs hctl hstate hread => ?_, fun hctl hstate hread => ?_, fun h => ?_⟩
  · intro u put bad finished
    refine ⟨fun k' h => exec_command_other hctl hstate hread h, fun h => exec_command_skips hctl hstate hread h,
      fun hholds => ?_⟩
    have hruns {f : Flow} {acts : List Act} := exec_command_runs (f := f) (acts := acts) hctl hstate hread hholds
    refine ⟨?_, ?_, ?_, ?_, ?_⟩ <;> rintro rfl
    · exact ⟨fun h => hruns (runRepeat_eq.trans (if_neg (runRepeat_iff.mp h))),
        fun h => hruns (runRepeat_eq.trans (if_pos (Decidable.not_not.mp (runRepeat_iff.not.mp h))))⟩
    · exact ⟨fun h => hruns (runWaitTime_bad h), fun d h hzero => hruns ((runWaitTime_eq h).trans (if_pos hzero)),
        fun d h hzero => hruns ((runWaitTime_eq h).trans (if_neg hzero))⟩
    · exact ⟨fun h => hruns (runWaitCondition_bad h),
        fun cs d hcs hd h => hruns ((runWaitCondition_eq hcs hd).trans (if_pos h)),
        fun cs d hcs hd h => hruns ((runWaitCondition_eq hcs hd).trans (if_neg (Bool.eq_false_iff.mp h)))⟩
    · exact ⟨fun h => hruns (runSync_eq.trans (if_pos h)), fun h => hruns (runSync_eq.trans (if_neg h))⟩
    · refine hruns (congrArg (Prod.mk _) ?_)
      rw [Flow.stepCounted_job]
  · exact (exec_badStep_eq j s).trans (if_pos ⟨hctl, hstate, hread⟩)
  · refine (exec_badStep_eq j s).trans (if_neg ?_)
    rintro ⟨hctl, hstate, hread⟩
    exact h.elim (· hctl) (·.elim (· hstate) (· hread))

end Sys2Proof.Machine
end

section
/-! SEND steps: O44. -/

namespace Sys2Proof.Machine

/-! ### The fields of the step (R164, R212) -/

theorem inRange_of {lo hi n : Nat} (hlo : lo ≤ n) (hhi : n ≤ hi) : inRange lo hi n = some n := if_pos ⟨hlo, hhi⟩

theorem inRange_none {lo hi n : Nat} (h : n < lo ∨ hi < n) : inRange lo hi n = none := if_neg (by omega)

/-- The data part of a SEND step: read with its option bit, and then in range or the step is malformed. -/
def sendData (bs : List Byte) : Option (Option SendData) :=
  if (byteAt bs 12).getLsbD 0 then
    (inRange 1 2048 (numAt bs 14 2)).bind fun length =>
      (if (byteAt bs 12).getLsbD 1 then (inRange 0 2048 (numAt bs 20 2)).map some else some none).bind fun final =>
        some (some { offset := numAt bs 16 4, length, final })
  else some none

/-- The pass counter of a SEND step. -/
def sendCounter (bs : List Byte) : Option (Option PassCounter) :=
  if (byteAt bs 12).getLsbD 2 then
    (inRange 0 2047 (numAt bs 22 2)).bind fun position => some (some { position, start := byteAt bs 13 })
  else some none

/-- The result buffer of a SEND step. -/
def sendResult (bs : List Byte) : Option (Option ResultBuf) :=
  if (byteAt bs 12).getLsbD 3 then
    (inRange 0 2048 (numAt bs 28 2)).bind fun max => some (some { offset := numAt bs 24 4, max })
  else some none

theorem getSend_eq (bs : List Byte) : getSend bs =
    (asIx 32 (byteAt bs 2).toNat).bind fun ecu => (inRange 0 8 (byteAt bs 3).toNat).bind fun n =>
      (sendData bs).bind fun data => (sendCounter bs).bind fun counter => (sendResult bs).bind fun result =>
        some { ecu, inlined := (bs.drop 4).take n, data, counter, result
               wait := (byteAt bs 12).getLsbD 4, stop := (byteAt bs 12).getLsbD 5 } := rfl

section
variable {bs : List Byte}

theorem sendData_none (hhas : (byteAt bs 12).getLsbD 0 = true)
    (h : numAt bs 14 2 = 0 ∨ 2048 < numAt bs 14 2 ∨ (byteAt bs 12).getLsbD 1 = true ∧ 2048 < numAt bs 20 2) :
    sendData bs = none := by
  rw [sendData, if_pos hhas]
  rcases h with hlow | hhigh | ⟨hfinal, hhigh⟩
  · rw [inRange_none (.inl (by omega)), Option.bind_none]
  · rw [inRange_none (.inr hhigh), Option.bind_none]
  · rw [if_pos hfinal, inRange_none (.inr hhigh)]
    exact Option.bind_fun_none _

theorem sendData_some (h : (byteAt bs 12).getLsbD 0 = true →
      1 ≤ numAt bs 14 2 ∧ numAt bs 14 2 ≤ 2048 ∧ ((byteAt bs 12).getLsbD 1 = true → numAt bs 20 2 ≤ 2048)) :
    sendData bs = some (if (byteAt bs 12).getLsbD 0 then some
      { offset := numAt bs 16 4, length := numAt bs 14 2
        final := if (byteAt bs 12).getLsbD 1 then some (numAt bs 20 2) else none } else none) := by
  rw [sendData]
  split
  next hhas =>
    obtain ⟨hlow, hhigh, hfinal⟩ := h hhas
    rw [inRange_of hlow hhigh]
    split
    next hone => rw [inRange_of (Nat.zero_le _) (hfinal hone)]; rfl
    next => rfl
  next => rfl

theorem sendCounter_none (hhas : (byteAt bs 12).getLsbD 2 = true) (h : 2047 < numAt bs 22 2) : sendCounter bs = none := by
  rw [sendCounter, if_pos hhas, inRange_none (.inr h), Option.bind_none]

theorem sendCounter_some (h : (byteAt bs 12).getLsbD 2 = true → numAt bs 22 2 ≤ 2047) : sendCounter bs =
    some (if (byteAt bs 12).getLsbD 2 then some { position := numAt bs 22 2, start := byteAt bs 13 } else none) := by
  rw [sendCounter]
  split
  next hhas => rw [inRange_of (Nat.zero_le _) (h hhas)]; rfl
  next => rfl

theorem sendResult_none (hhas : (byteAt bs 12).getLsbD 3 = true) (h : 2048 < numAt bs 28 2) : sendResult bs = none := by
  rw [sendResult, if_pos hhas, inRange_none (.inr h), Option.bind_none]

theorem sendResult_some (h : (byteAt bs 12).getLsbD 3 = true → numAt bs 28 2 ≤ 2048) : sendResult bs =
    some (if (byteAt bs 12).getLsbD 3 then some { offset := numAt bs 24 4, max := numAt bs 28 2 } else none) := by
  rw [sendResult]
  split
  next hhas => rw [inRange_of (Nat.zero_le _) (h hhas)]; rfl
  next => rfl

end

theorem getSend_cases (bs : List Byte) :
    let has := fun n : Nat => (byteAt bs 12).getLsbD n
    let bad := 32 ≤ (byteAt bs 2).toNat ∨ 8 < (byteAt bs 3).toNat
      ∨ has 0 = true ∧ (numAt bs 14 2 = 0 ∨ 2048 < numAt bs 14 2) ∨ has 0 = true ∧ has 1 = true ∧ 2048 < numAt bs 20 2
      ∨ has 2 = true ∧ 2047 < numAt bs 22 2 ∨ has 3 = true ∧ 2048 < numAt bs 28 2
    (bad → getSend bs = none)
    ∧ (¬bad → ∃ e : EcuIx, e.val = (byteAt bs 2).toNat ∧ getSend bs = some
      { ecu := e, inlined := (bs.drop 4).take (byteAt bs 3).toNat
        data := if has 0 then some
            { offset := numAt bs 16 4, length := numAt bs 14 2, final := if has 1 then some (numAt bs 20 2) else none }
          else none
        counter := if has 2 then some { position := numAt bs 22 2, start := byteAt bs 13 } else none
        result := if has 3 then some { offset := numAt bs 24 4, max := numAt bs 28 2 } else none
        wait := has 4, stop := has 5 }) := by
  intro has bad
  refine ⟨fun h => ?_, fun h => ?_⟩
  · rw [getSend_eq]
    rcases h with hecu | hinline | ⟨hhas, hlength⟩ | ⟨hhas, hfinal⟩ | ⟨hhas, hpos⟩ | ⟨hhas, hmax⟩
    · rw [asIx_none hecu, Option.bind_none]
    · simp only [inRange_none (.inr hinline), Option.bind_none, Option.bind_fun_none]
    · simp only [sendData_none hhas (hlength.imp_right .inl), Option.bind_none, Option.bind_fun_none]
    · simp only [sendData_none hhas (.inr (.inr hfinal)), Option.bind_none, Option.bind_fun_none]
    · simp only [sendCounter_none hhas hpos, Option.bind_none, Option.bind_fun_none]
    · simp only [sendResult_none hhas hmax, Option.bind_none, Option.bind_fun_none]
  · obtain ⟨hecu, hinline, hlength, hfinal, hpos, hmax⟩ := by simpa only [bad, not_or] using h
    have hdata := sendData_some (bs := bs) fun hhas =>
      have hout := not_or.mp fun h => hlength ⟨hhas, h⟩
      ⟨Nat.one_le_iff_ne_zero.mpr hout.1, not_lt.mp hout.2, fun hone => not_lt.mp fun h => hfinal ⟨hhas, hone, h⟩⟩
    have hcounter := sendCounter_some (bs := bs) fun hhas => not_lt.mp fun h => hpos ⟨hhas, h⟩
    have hresult := sendResult_some (bs := bs) fun hhas => not_lt.mp fun h => hmax ⟨hhas, h⟩
    have hix : asIx 32 (byteAt bs 2).toNat = some ⟨(byteAt bs 2).toNat, not_le.mp hecu⟩ := dif_pos (not_le.mp hecu)
    refine ⟨⟨(byteAt bs 2).toNat, not_le.mp hecu⟩, rfl, ?_⟩
    rw [getSend_eq, hix, inRange_of (Nat.zero_le _) (not_lt.mp hinline), hdata, hcounter, hresult]
    rfl

/-! ### The message on its way to the inbound queue -/

section
variable {t : Tables} {f : Flow} {j : JobIx} {k : Slot} {m : Build}

theorem jobAppend_eq {h : Charge} (hslot : (f.jobs.get j).slot = some k) (hstate : (f.jobs.get j).state ≠ .idle)
    (hbuild : (f.jobs.get j).build = some m) (hcharge : m.charge = some h) : jobAppend f j =
    if f.inboundFree k = true then
      ((f.modSlot k fun x => { x with inbound := x.inbound ++ [{ target := m.target, msg :=
          { charge := h, length := m.length, malformed := m.malformed, code := m.code, payload := m.payload } }]
        }).modJob j (fun x => { x with
          build := none
          requests := x.requests ++ [{ step := (f.jobs.get j).cur, pass := (f.jobs.get j).pass, ecu := m.ecu
                                       result := m.result, stop := m.stop, stage := .queued, waited := m.wait }]
          state := if m.wait then .waiting .request else .running }),
       if m.wait then [] else [.stepDone j])
    else (f.modJob j (fun x => { x with state := .waiting .place }), []) := by
  rw [jobAppend, hslot, if_pos (Job.active_iff.mpr hstate), hbuild]
  dsimp only
  rw [hcharge]
  rfl

theorem chargeBuild_charged {g : Flow} {h : Charge}
    (hc : charge t f k (classOf t m.code).grade (if m.malformed then 1 else cellsFor m.length) = some (g, h)) :
    chargeBuild t f j k m = act t (.jobAppend j) (g.modJob j fun y => { y with build := some { m with charge := some h } }) := by
  rw [chargeBuild, Build.cells]
  rw [hc]
  rfl

theorem chargeBuild_waits
    (hc : charge t f k (classOf t m.code).grade (if m.malformed then 1 else cellsFor m.length) = none) :
    chargeBuild t f j k m = ({ f.modJob j (fun y => { y with build := some m, state := .waiting .cells }) with
      waiting := f.waiting ++ [{ who := .job j, slot := k, grade := (classOf t m.code).grade
                                 cells := if m.malformed then 1 else cellsFor m.length, since := t.now }] }, []) := by
  rw [chargeBuild, Build.cells]
  dsimp only
  rw [hc]
  rfl

/-! ### What a SEND step does -/

variable {bs : List Byte}

theorem runSend_unreadable (h : getSend bs = none) :
    runSend t j (f.stepCounted j) bs = (f.stepCounted j, [.endJob j .badStep 0 (f.jobs.get j).cur]) := by
  rw [runSend, h, badStepAct_counted]

variable {x : SendStep} (hslot : (f.jobs.get j).slot = some k) (hx : getSend bs = some x)
include hslot hx

theorem runSend_unbuilt (hvalid : (t.ecus.get x.ecu).valid = true) (h : buildSend t (f.stepCounted j) j x = none) :
    runSend t j (f.stepCounted j) bs = (f.stepCounted j, [.endJob j .badStep 0 (f.jobs.get j).cur]) := by
  rw [runSend, hx, Flow.stepCounted_job, hslot]
  dsimp only
  rw [if_pos hvalid, h, badStepAct_counted]

theorem runSend_built (hvalid : (t.ecus.get x.ecu).valid = true) (h : buildSend t (f.stepCounted j) j x = some m) :
    runSend t j (f.stepCounted j) bs = chargeBuild t (f.stepCounted j) j k m := by
  rw [runSend, hx, Flow.stepCounted_job, hslot]
  dsimp only
  rw [if_pos hvalid, h]

theorem runSend_nobody (hvalid : (t.ecus.get x.ecu).valid = false) :
    runSend t j (f.stepCounted j) bs = sendToNobody t (f.stepCounted j) j x := by
  rw [runSend, hx, Flow.stepCounted_job, hslot]
  exact if_neg (Bool.eq_false_iff.mp hvalid)

end

/-- Settles O44: a SEND is a step carried out (`exec_command_runs`), its own part by the outcome of its fields, its ECU,
its message and its charge. -/
theorem jobSendIssues : Obligations.JobSendIssues := by
  refine ⟨fun j s g bs k => ?_, fun t f j k m h => ?_, fun j s g bs k => ?_, getSend_cases, buildSend_eq⟩
  · intro b u hctl hstate hslot hread hholds
    have hruns {f : Flow} {acts : List Act} := exec_command_runs (f := f) (acts := acts) hctl hstate hread hholds
    refine ⟨fun h => hruns (runSend_unreadable h), fun x hx hvalid =>
      ⟨fun h => hruns (runSend_unbuilt hslot hx hvalid h), fun m hm => ?_⟩⟩
    intro grade cells
    exact ⟨fun f h hc => hruns ((runSend_built hslot hx hvalid hm).trans (chargeBuild_charged hc)),
      fun hc => hruns ((runSend_built hslot hx hvalid hm).trans (chargeBuild_waits hc))⟩
  · intro b hslot hstate hbuild hcharge
    have happend : act t (.jobAppend j) f = _ := jobAppend_eq hslot hstate hbuild hcharge
    exact ⟨fun h => happend.trans (if_neg (Bool.eq_false_iff.mp h)), fun h => happend.trans (if_pos h)⟩
  · intro b u hctl hstate hslot hread hholds x hx hvalid
    refine exec_command_runs hctl hstate hread hholds ((runSend_nobody hslot hx hvalid).trans ?_)
    rw [sendToNobody, Flow.stepCounted_job]
    rfl

end Sys2Proof.Machine
end

section
/-! How steps and jobs end: O46. -/

namespace Sys2Proof.Machine

/-! ### The end of a step (R161, R171) -/

/-- Where the end of its step takes a job. -/
def Job.next (b : Job) : Job :=
  match b.rep with
  | none => { b with state := .running, deadline := none, cur := b.cur + 1 }
  | some r =>
    if b.spanEnds then
      if r.pass + 1 < r.count then
        { b with state := .running, deadline := none, cur := r.start, passes := b.passes + 1
                 rep := some { r with pass := r.pass + 1 } }
      else { b with state := .running, deadline := none, cur := b.cur + 1, passes := b.passes + 1, rep := none }
    else { b with state := .running, deadline := none, cur := b.cur + 1 }

section
variable {b : Job} {r : Repeat}

theorem Job.next_noRepeat (h : b.rep = none) :
    b.next = { b with state := .running, deadline := none, cur := b.cur + 1 } := by
  rw [Job.next, h]

theorem Job.spanEnds_iff (h : b.rep = some r) : b.spanEnds = true ↔ b.cur + 1 = r.start + r.span := by
  rw [Job.spanEnds, h]
  exact beq_iff_eq

theorem Job.next_withinSpan (h : b.rep = some r) (hend : b.cur + 1 ≠ r.start + r.span) :
    b.next = { b with state := .running, deadline := none, cur := b.cur + 1 } := by
  rw [Job.next, h]
  exact if_neg ((Job.spanEnds_iff h).not.mpr hend)

theorem Job.next_newPass (h : b.rep = some r) (hend : b.cur + 1 = r.start + r.span) (hpass : r.pass + 1 < r.count) :
    b.next = { b with state := .running, deadline := none, cur := r.start, passes := b.passes + 1
                      rep := some { r with pass := r.pass + 1 } } := by
  rw [Job.next, h]
  exact (if_pos ((Job.spanEnds_iff h).mpr hend)).trans (if_pos hpass)

theorem Job.next_lastPass (h : b.rep = some r) (hend : b.cur + 1 = r.start + r.span) (hpass : r.count ≤ r.pass + 1) :
    b.next = { b with state := .running, deadline := none, cur := b.cur + 1, passes := b.passes + 1, rep := none } := by
  rw [Job.next, h]
  exact (if_pos ((Job.spanEnds_iff h).mpr hend)).trans (if_neg (not_lt.mpr hpass))

variable {t : Tables} {f : Flow} {j : JobIx}

theorem act_stepDone_eq (hstate : (f.jobs.get j).state ≠ .idle) (hbuild : (f.jobs.get j).build = none) :
    act t (.stepDone j) f = (f.modJob j Job.next,
      if (f.jobs.get j).next.cur < (f.jobs.get j).next.listLength then []
      else [.endJob j .completed 0 ((f.jobs.get j).next.listLength - 1)]) := by
  have hbusy : ((f.jobs.get j).active && (f.jobs.get j).build.isNone) = true := by
    rw [Job.active_iff.mpr hstate, hbuild]
    rfl
  have hnext : (f.modJob j fun _ => (f.jobs.get j).next) = f.modJob j Job.next := Flow.modJob_congr rfl
  change jobStepDone f j = _
  rw [jobStepDone, if_pos hbusy, ← hnext]
  rfl

end

/-! ### A wait that runs out (R168, R169) -/

section
variable {s : State} {j : JobIx} {dt : Nat}

theorem exec_jobTimeExpiry_eq : exec (.jobTimeExpiry j dt) s =
    if (s.flow.jobs.get j).state = .waiting .time ∧ expired (s.advance dt).tab.now (s.flow.jobs.get j).deadline = true
    then .next ((s.advance dt).run [.stepDone j]) else .next (s.advance dt) := by
  change execJobTimeExpiry j dt s = _
  rw [execJobTimeExpiry, advance_jobs]
  exact if_congr (by simp only [Bool.and_eq_true, beq_iff_eq]) rfl rfl

theorem exec_conditionWaitExpiry_eq : exec (.conditionWaitExpiry j dt) s =
    if (s.flow.jobs.get j).state = .waiting .condition
      ∧ expired (s.advance dt).tab.now (s.flow.jobs.get j).deadline = true
    then .next (((s.advance dt).withFlow ((s.advance dt).flow.modJob j fun x => { x with verdict := .timeout })).run
      [.stepDone j]) else .next (s.advance dt) := by
  change execConditionWaitExpiry j dt s = _
  rw [execConditionWaitExpiry, advance_jobs]
  exact if_congr (by simp only [Bool.and_eq_true, beq_iff_eq]) rfl rfl

end

/-! ### The end of a job (R173) -/

section
variable (t : Tables) (f : Flow) (j : JobIx) (k : Slot)

/-- An ended job's queue flushed and its waits gone. -/
def flushedJob : Flow :=
  ({ f with waiting := f.waiting.filter fun w => w.who != .job j } : Flow).modSlot k fun x =>
    { x with inbound := [], held := none }

/-- And its entries orphaned and its claims no longer in force. -/
def jobLetGo : Flow := releaseClaimsOf t (orphanSlot t (flushedJob f j k) k).1 k .jobEnd

theorem jobLetGo_slot : (jobLetGo t f j k).slots.get k = { f.slots.get k with inbound := [], held := none } := by
  rw [jobLetGo, ((orphanSlot_carries ..).trans (releaseClaimsOf_carries ..)).slots, flushedJob, Flow.modSlot_get_self]

theorem jobLetGo_orphans (i : EntryIx) : (jobLetGo t f j k).OrphanedAt k i := by
  intro x hx
  rw [jobLetGo, (releaseClaimsOf_sameQueues ..).2] at hx
  exact orphanSlot_orphans t (flushedJob f j k) k i x hx

theorem jobLetGo_claims (e : EcuIx) : (jobLetGo t f j k).HoldsNone k e :=
  releaseClaimsOf_holdsNone t (orphanSlot t (flushedJob f j k) k).1 k .jobEnd e

variable {t f j k}

/-- What is told when a job ends changes none of what its end let go. -/
theorem act_endJob_flow (code : EndCode) (result : Byte) (last : Nat) (hstate : (f.jobs.get j).state ≠ .idle)
    (hslot : (f.jobs.get j).slot = some k) :
    ∃ ordered rec, (jobLetGo t f j k).Tells ordered
      ∧ (act t (.endJob j code result last) f).1 = event t 0 ((ordered.modJob j fun _ => .reset).setNews .jobEnd) rec := by
  refine ⟨_, _, ?_, congrArg Prod.fst (act_endJob t f j k code result last hstate hslot)⟩
  cases (f.jobs.get j).orderSlot with
  | none => exact .refl _
  | some n => exact orderDone_tells ..

theorem act_endJob_lets (code : EndCode) (result : Byte) (last : Nat) (hstate : (f.jobs.get j).state ≠ .idle)
    (hslot : (f.jobs.get j).slot = some k) :
    let g := (act t (.endJob j code result last) f).1
    g.jobs.get j = .reset ∧ g.hasNews .jobEnd = true
    ∧ (g.slots.get k).inbound = [] ∧ (g.slots.get k).held = none
    ∧ (∀ i x, g.entries.get i = some x → x.slot = k → x.state.isOrphan = true)
    ∧ (∀ e, (g.claims.get e).holder = k → (g.claims.get e).inForce = false) := by
  obtain ⟨ordered, rec, htells, hflow⟩ := act_endJob_flow (t := t) code result last hstate hslot
  have hcapture := event_tells t 0 ((ordered.modJob j fun _ => .reset).setNews .jobEnd) rec
  have hget := jobLetGo_slot t f j k
  have horphans := jobLetGo_orphans t f j k
  have hclaims := jobLetGo_claims t f j k
  rw [hflow]
  intro g
  have hslots : g.slots = (jobLetGo t f j k).slots := hcapture.slots.trans htells.slots
  have hentries : g.entries = (jobLetGo t f j k).entries := hcapture.entries.trans htells.entries
  have hclaim : g.claims = (jobLetGo t f j k).claims := hcapture.claims.trans htells.claims
  have hjobs : g.jobs.get j = .reset := by
    rw [hcapture.jobs]
    exact Flow.modJob_get_self ..
  rw [hslots, hentries, hclaim, hget]
  exact ⟨hjobs, event_news_kept _ _ _ _ _ (Flow.hasNews_setNews _ .jobEnd), rfl, rfl, horphans,
    fun e he => Bool.eq_false_iff.mpr fun h => hclaims e h he⟩

end

/-- Settles O46: where the end of a step takes its job, the two waits that run out, and what the end of a job lets go
(`jobLetGo`) before it is told (`act_endJob`). -/
theorem jobStepsAndJobsEnd : Obligations.JobStepsAndJobsEnd := by
  refine ⟨fun t f j => ?_, fun j dt s => ?_, fun t f j k => act_endJob_lets, act_endJob, rfl, rfl⟩
  · intro b hstate hbuild
    have hdone : act t (.stepDone j) f = _ := act_stepDone_eq hstate hbuild
    have moves {u : Job → Job} {acts : List Act} (hu : b.next = u b)
        (hacts : (if (u b).cur < (u b).listLength then [] else [.endJob j .completed 0 ((u b).listLength - 1)]) = acts) :
        act t (.stepDone j) f = (f.modJob j u, acts) := by
      rw [hdone, hu, hacts, Flow.modJob_congr hu]
    exact ⟨fun h => moves (Job.next_noRepeat h) rfl, fun r h hend => moves (Job.next_withinSpan h hend) rfl,
      fun r h hend hpass hstart => moves (Job.next_newPass h hend hpass) (if_pos hstart),
      fun r h hend hpass => moves (Job.next_lastPass h hend hpass) rfl⟩
  · intro u b
    refine ⟨fun h hexp => exec_jobTimeExpiry_eq.trans (if_pos ⟨h, hexp⟩), fun h => ?_,
      fun h hexp => exec_conditionWaitExpiry_eq.trans (if_pos ⟨h, hexp⟩), fun h => ?_⟩
    · exact exec_jobTimeExpiry_eq.trans (if_neg (not_and_or.mpr (h.imp_right Bool.eq_false_iff.mp)))
    · exact exec_conditionWaitExpiry_eq.trans (if_neg (not_and_or.mpr (h.imp_right Bool.eq_false_iff.mp)))

end Sys2Proof.Machine
end

section
/-! The items the job unit takes: O45. -/

namespace Sys2Proof.Machine

/-- A RESPONSE or a REFUSAL: an item that ends a request. -/
structure ItemBody.Final (b : ItemBody) : Prop where
  notInterim : ∀ pay, b ≠ .interim pay

theorem ItemBody.final_response (m : Message) : (ItemBody.response m).Final := ⟨fun _ h => nomatch h⟩

theorem ItemBody.final_refusal (bs : List Byte) : (ItemBody.refusal bs).Final := ⟨fun _ h => nomatch h⟩

section
variable {t : Tables} {f : Flow} {k : Slot} {b : ItemBody} {o : ItemOrigin}

theorem act_placeItem_job (h : (t.testers.get k).kind = .job) (src : Byte) (e : Option EcuIx) :
    act t (.placeItem k b src e o) f = jobItem t f k b o := by
  change placeItem t f k b src e o = _
  rw [placeItem, h]

/-! ### The record that awaits the item (R166) -/

theorem jobItem_noJob (hb : b.Final) (hjob : jobOf f k = none) : jobItem t f k b o = (f, b.releases) := by
  cases b with
  | interim pay => exact (hb.notInterim pay rfl).elim
  | response m => simp only [jobItem, hjob]
  | refusal bs => simp only [jobItem, hjob]

variable {j : JobIx}

theorem jobItem_noRecord (hb : b.Final) (hjob : jobOf f k = some j)
    (hreq : (f.jobs.get j).requests.find? o.ofReq = none) : jobItem t f k b o = (f, b.releases) := by
  cases b with
  | interim pay => exact (hb.notInterim pay rfl).elim
  | response m => simp only [jobItem, hjob, hreq]
  | refusal bs => simp only [jobItem, hjob, hreq]

theorem jobItem_unawaited (hb : b.Final)
    (h : ¬∃ j, jobOf f k = some j ∧ ∃ r ∈ (f.jobs.get j).requests, o.ofReq r = true) :
    jobItem t f k b o = (f, b.releases) := by
  cases hjob : jobOf f k with
  | none => exact jobItem_noJob hb hjob
  | some j =>
    refine jobItem_noRecord hb hjob (List.find?_eq_none.mpr fun r hr hof => h ⟨j, hjob, r, hr, hof⟩)

/-- The flow of a job whose awaited item is in its result buffer and whose cells are released (R167). -/
def itemTaken (t : Tables) (f : Flow) (j : JobIx) (r : Req) (b : ItemBody) : Bool × Flow × List Act :=
  let copy := writeResult t (f.modJob j fun x => { x with verdict := itemVerdict t r.ecu b }) j r.result b.content.1
    b.content.2
  (copy.1, releaseBody t copy.2 b)

theorem jobItem_awaited (hb : b.Final) (hjob : jobOf f k = some j) {r : Req}
    (hreq : (f.jobs.get j).requests.find? o.ofReq = some r) :
    let a := itemTaken t f j r b
    let g := a.2.1.modJob j fun x => { x with requests := x.requests.eraseP o.ofReq }
    jobItem t f k b o = (g, afterItem (g.jobs.get j) j r (itemVerdict t r.ecu b) a.1 ++ a.2.2) := by
  cases b with
  | interim pay => exact (hb.notInterim pay rfl).elim
  | response m => simp only [jobItem, hjob, hreq]; rfl
  | refusal bs => simp only [jobItem, hjob, hreq]; rfl

end

theorem afterItem_eq (y : Job) (j : JobIx) (r : Req) (v : Verdict) (memError : Bool) : afterItem y j r v memError =
    if memError = true then [.endJob j .memoryError 0 r.step]
    else if r.stop = true ∧ v ≠ .positive then [.endJob j .failed 0 r.step]
    else if r.waited = true ∧ y.state = .waiting .request ∨ y.state = .waiting .sync ∧ y.requests = [] then [.stepDone j]
    else [] := by
  have hstop : (r.stop && v != .positive) = true ↔ r.stop = true ∧ v ≠ .positive := by simp
  have hwait : (r.waited && y.state == .waiting .request) = true ↔ r.waited = true ∧ y.state = .waiting .request := by simp
  have hsync : (y.state == .waiting .sync && y.requests.isEmpty) = true ↔ y.state = .waiting .sync ∧ y.requests = [] := by
    simp
  rw [afterItem]
  simp only [hstop, hwait, hsync]
  refine if_congr Iff.rfl rfl (if_congr Iff.rfl rfl ?_)
  by_cases hrequest : r.waited = true ∧ y.state = .waiting .request
  · rw [if_pos hrequest, if_pos (.inl hrequest)]
  · rw [if_neg hrequest]
    exact if_congr (or_iff_right hrequest).symm rfl rfl

/-! ### The verdict and the result buffer (R162, R167) -/

theorem itemVerdict_response (t : Tables) (e : EcuIx) (m : Message) : itemVerdict t e (.response m) =
    if m.payload ≠ [] ∧ m.payload.head? = (t.ecus.get e).negMarker then .negative else .positive := by
  rw [itemVerdict]
  exact if_congr (and_comm.trans (and_congr_right fun _ => eq_comm)) rfl rfl

theorem itemVerdict_refusal (t : Tables) (e : EcuIx) (marker code : Byte) (r : Reason) :
    itemVerdict t e (.refusal [marker, code, r.byte]) =
      match r with
      | .timeout => .timeout
      | .overflow => .overflow
      | .undelivered => .undelivered
      | _ => .refused := by
  cases r <;> rfl

section
variable {t : Tables} {f : Flow} {j : JobIx} {b : ResultBuf} {n : Nat} {pay : List Byte}

theorem writeResult_error (h : (f.jobs.get j).resultError = true) :
    writeResult t f j (some b) n pay = (true, f.modJob j fun x => { x with resultError := false }) := by
  rw [writeResult, if_pos h]

theorem writeResult_writes {d : Directory} (h : (f.jobs.get j).resultError = false) (hd : t.dir = some d) :
    writeResult t f j (some b) n pay =
      (false, { f with ram := ramWrite f.ram (d.base + b.offset) (leBytes 2 n ++ pay.take b.max) }) := by
  rw [writeResult, if_neg (Bool.eq_false_iff.mp h), hd, resultBytes]

end

/-- Settles O45: an item that no record awaits is dropped (`jobItem_unawaited`), an awaited one goes through the verdict,
the result buffer and its cells (`itemTaken`) to what follows (`afterItem_eq`). -/
theorem jobItemTaken : Obligations.JobItemTaken := by
  refine ⟨fun t f k b src e o h => act_placeItem_job h src e, fun t f k o => ?_, fun t f k b o j r hb hjob hreq => ?_,
    fun t e => ⟨itemVerdict_response t e, itemVerdict_refusal t e⟩,
    fun t f j b n pay => ⟨rfl, writeResult_error, fun d => writeResult_writes⟩⟩
  · intro awaited
    exact ⟨fun pay => rfl, fun h => ⟨fun m => jobItem_unawaited (ItemBody.final_response m) h,
      fun bs => jobItem_unawaited (ItemBody.final_refusal bs) h⟩⟩
  · have htaken := jobItem_awaited (t := t) ⟨hb⟩ hjob hreq
    intro v copy freed g y goesOn
    cases b with
    | interim pay => exact (hb pay rfl).elim
    | response m => exact htaken.trans (congrArg (fun acts => (g, acts ++ freed.2)) (afterItem_eq y j r v copy.1))
    | refusal bs => exact htaken.trans (congrArg (fun acts => (g, acts ++ freed.2)) (afterItem_eq y j r v copy.1))

end Sys2Proof.Machine
end
